-- ==== Sys2Proof/Word.lean ====
section
/-! DEFINITION. The byte of the part's two interfaces, and the shape of its record tables. -/

namespace Sys2Proof

/-- A byte on the supervisor port or on a zone loop; bit 7 is the most significant (11 Message and Record Layouts). -/
abbrev Byte := BitVec 8

/-- A table of numbered records. A number that is not listed is an undefined record ("Each record is either undefined or
defined": R1, R21, R41, R76, R89, R95, R109, R127). Canonical form: numbers strictly rising. -/
abbrev Table (α : Type) := List (Nat × α)

end Sys2Proof
end

