-- ==== Sys2Proof/Syntax.lean ====
section
/-! DEFINITION. The commands of the part: one constructor for each row of spec/opcode_table.json, and the names their
operands are made of. A host request is a frame that passed its check (R166): its tag and its body bytes. A handed event
carries what the handing block gives (R13, R34, R81, R91, R131, R149). -/

namespace Sys2Proof

/-- The four zone loops (00_scope, Names and identifiers). -/
inductive LoopId where
  | a | b | c | d
deriving DecidableEq, Repr

/-- One value for each of the four loops. -/
structure PerLoop (α : Type) where
  a : α
  b : α
  c : α
  d : α
deriving DecidableEq, Repr

/-- A loop, and the level of its attention line when its event comes (R135; log 6). -/
structure LineSample where
  loop : LoopId
  asserted : Bool
deriving DecidableEq, Repr

/-- The body of a request that samples an attention line at its end (R133), with the levels of the lines there (log 6). -/
structure SampledBody where
  bytes : List Byte
  lines : PerLoop Bool
deriving DecidableEq, Repr

/-- A node's place: its loop and its address 1 to 31 (R127). -/
structure NodeId where
  loop : LoopId
  addr : Nat
deriving DecidableEq, Repr

/-- The role of a node (R127). -/
inductive Role where
  | bay | gas | fan | lamp | sign | ramp
deriving DecidableEq, Repr

/-- The two gases (R1). -/
inductive Gas where
  | co | no2
deriving DecidableEq, Repr

/-- A channel's validity (R10). -/
inductive Validity where
  | noData | warming | valid | stale | fault
deriving DecidableEq, Repr

/-- One head's entry in a zone's channel view: validity and smoothed value of each channel (R22). -/
structure ViewEntry where
  coValidity : Validity
  coValue : Nat
  no2Validity : Validity
  no2Value : Nat
deriving DecidableEq, Repr

/-- What an update says of one head: its entry, or none when the head has left the zone (R22). -/
structure HeadUpdate where
  head : Nat
  entry : Option ViewEntry
deriving DecidableEq, Repr

/-- The gases of a zone presently in alarm (R23). -/
inductive ZoneAlarm where
  | none | co | no2 | both
deriving DecidableEq, Repr

/-- What a zone change says of the alarm order list (R34). -/
inductive ListMove where
  | stayed | entered | left
deriving DecidableEq, Repr

/-- The zone change given to the Fan Controller (R34): the new demand when it changed, the zone alarm, whether the zone
entered or left the alarm order list, and whether its alarm plan changed while in the list. -/
structure ZoneChange where
  zone : Nat
  demand : Option Nat
  alarm : ZoneAlarm
  move : ListMove
  planChanged : Bool
deriving DecidableEq, Repr

/-- The bay classes (R76). -/
inductive BayClass where
  | standard | wide | charging | accessible
deriving DecidableEq, Repr

/-- The site mode (R120). -/
inductive SiteMode where
  | opened | quiet
deriving DecidableEq, Repr

/-- What a presence trigger names: a bay's event, or a ramp's passage (R113). -/
inductive PresenceSource where
  | bay (id : Nat)
  | ramp (id : Nat)
deriving DecidableEq, Repr

/-- The outcome of a transaction other than a roll-call (R128). -/
inductive TxClass where
  | noAnswer | garbled | wrongRole | refused | good
deriving DecidableEq, Repr

/-- What the Loop Master hands the Scan List Unit of a list transaction (R149). `role` is the role code of a reply that
passed its check. -/
structure ListOutcome where
  cls : TxClass
  hasEntry : Bool
  ready : Bool
  role : Option Nat
deriving DecidableEq, Repr

/-- The commands. Each constructor is one row of spec/opcode_table.json; LAWS.json maps it to the row's mnemonic. -/
inductive Instr where
  -- requests of the Supervisor Port and the Settings Store
  | ident (tag : Byte) (body : List Byte)
  | ping (tag : Byte) (body : List Byte)
  | login (tag : Byte) (body : List Byte)
  | logout (tag : Byte) (body : List Byte)
  | setItem (tag : Byte) (body : List Byte)
  | getItem (tag : Byte) (body : List Byte)
  | save (tag : Byte) (body : List Byte)
  | defaults (tag : Byte) (body : List Byte)
  -- requests of the Gas Conversion Unit and the Zone Air Unit
  | headDef (tag : Byte) (body : List Byte)
  | headCal (tag : Byte) (body : List Byte)
  | gasQuery (tag : Byte) (body : List Byte)
  | zoneDef (tag : Byte) (body : List Byte)
  | zoneLimits (tag : Byte) (body : List Byte)
  | zoneClose (tag : Byte) (body : List Byte)
  | zoneOpen (tag : Byte) (body : List Byte)
  | zoneQuery (tag : Byte) (body : List Byte)
  -- requests of the Fan Controller
  | fanDef (tag : Byte) (body : List Byte)
  | planDef (tag : Byte) (body : List Byte)
  | planBase (tag : Byte) (body : List Byte)
  | planForce (tag : Byte) (body : List Byte)
  | planUnforce (tag : Byte) (body : List Byte)
  | fanHold (tag : Byte) (body : List Byte)
  | fanFree (tag : Byte) (body : List Byte)
  | fanClear (tag : Byte) (body : List Byte)
  | fanQuery (tag : Byte) (body : List Byte)
  -- requests of the Occupancy Unit
  | bayDef (tag : Byte) (body : List Byte)
  | bayService (tag : Byte) (body : List Byte)
  | bayQuery (tag : Byte) (body : List Byte)
  | countQuery (tag : Byte) (body : List Byte)
  | rampDef (tag : Byte) (body : List Byte)
  -- requests of the Guidance Unit and the Lighting Controller
  | signDef (tag : Byte) (body : List Byte)
  | signQuery (tag : Byte) (body : List Byte)
  | groupDef (tag : Byte) (body : List Byte)
  | groupOverride (tag : Byte) (body : List Byte)
  | groupRelease (tag : Byte) (body : List Byte)
  | groupQuery (tag : Byte) (body : List Byte)
  | siteMode (tag : Byte) (body : List Byte)
  -- requests of the Loop Master and the Scan List Unit
  | nodeDef (tag : Byte) (body : List Byte)
  | nodeQuery (tag : Byte) (body : List Byte)
  | loopReset (tag : Byte) (body : SampledBody)
  | listLoad (tag : Byte) (body : List Byte)
  | listGo (tag : Byte) (body : List Byte)
  | listHalt (tag : Byte) (body : List Byte)
  | listRead (tag : Byte) (body : List Byte)
  | listQuery (tag : Byte) (body : List Byte)
  | foundRead (tag : Byte) (body : List Byte)
  -- the supervisor line
  | unknownKind (kind tag : Byte) (body : List Byte)
  | frameDropped (kind tag : Byte) (body : List Byte)
  | receiveByte (byte : Byte) (stopBit : Bool) (gap : Bool)
  | frameSent
  | supervisionExpiry
  | supervisionExpiryLighting
  | supervisionExpiryFans
  -- starts and the store
  | powerOn (lines : PerLoop Bool)
  | restart (lines : PerLoop Bool)
  | saveCompletion (readBack : Bool)
  -- the zone loops
  | attentionAsserted (loop : LoopId)
  | attentionIgnoreExpiry (loop : LineSample)
  | replyReceived (reply : List Byte) (lines : PerLoop Bool)
  | replyTimeout (lines : PerLoop Bool)
  | rollcallEnd (mask : BitVec 32) (lines : PerLoop Bool)
  -- gas heads
  | gasReading (node : NodeId) (ready : Bool) (payload : List Byte)
  | staleExpiry (head : Nat) (gas : Gas)
  | gasNodeLost (node : NodeId)
  | gasNodeReset (node : NodeId)
  -- zones
  | gasUpdate (zone : Nat) (update : HeadUpdate) (more : List HeadUpdate)
  | trafficEvent (zone : Nat)
  | subWindowExpiry
  | standingChange (zone ramp : Nat) (standing : Bool)
  | unventilatedFlagChange (zone : Nat) (flag : Bool)
  | siteModeFloorChange (mode : SiteMode)
  | zoneChangeFan (change : ZoneChange)
  | zoneChangeGuidance (zone : Nat) (closed : Bool)
  | zoneChangeLighting (zone : Nat) (inAlarm : Bool)
  -- fans
  | driveReport (node : NodeId) (ready : Bool) (payload : List Byte)
  | startSpacingExpiry
  | startTimeout (fan : Nat)
  | speedupTimeout (fan : Nat)
  | minimumRunTimeMet (fan : Nat)
  | holdTimeExpiry (fan : Nat)
  | rundownEnd (fan : Nat)
  | exerciseDue (fan : Nat)
  | exerciseRunEnd (fan : Nat)
  | runMinute (fan : Nat)
  | fanNodeLost (node : NodeId)
  | fanNodeRestart (node : NodeId)
  | fanNodeReset (node : NodeId)
  -- bays and ramps
  | bayStripReading (node : NodeId) (ready : Bool) (payload : List Byte)
  | bayNodeLost (node : NodeId)
  | bayNodeReset (node : NodeId)
  | bayNodeRestart (node : NodeId)
  | rampReading (node : NodeId) (ready : Bool) (payload : List Byte)
  | rampNodeLost (node : NodeId)
  | rampNodeReset (node : NodeId)
  -- signs
  | countDelivery (zone : Nat) (cls : BayClass) (count : Nat)
  | signReport (node : NodeId) (ready : Bool) (payload : List Byte)
  | signNodeLost (node : NodeId)
  | signNodeReset (node : NodeId)
  -- lighting groups
  | presenceTrigger (source : PresenceSource)
  | escort (sign : Nat)
  | presenceExpiry (group : Nat)
  | lampWriteOutcome (node : NodeId) (accepted : Bool)
  | lampReport (node : NodeId) (ready : Bool) (payload : List Byte)
  | lampNodeLost (node : NodeId)
  | lampNodeReset (node : NodeId)
  | lampNodeReturn (node : NodeId)
  -- the scan list
  | listOutcome (outcome : ListOutcome)
  | pauseExpiry
  | repeatLimitExpiry
deriving DecidableEq, Repr

end Sys2Proof
end

