-- ==== Sys2Proof/Decode.lean ====
section
/-! DEFINITION. The command a table word spells. The part has no command words: its commands are frames of the supervisor
port, transactions of the zone loops and events, and spec/opcode_table.json gives no row any bits. -/

namespace Sys2Proof

/-- The command that a word of `nbits` bits spells by the table's bits: no row gives bits, so there is none. -/
def decodeTableWord (_nbits _w : Nat) : Option Instr := none

end Sys2Proof
end

