-- ==== Sys2Proof/Config.lean ====
section
/-! DEFINITION. The sizes the manual fixes, and the free values it leaves open. A free value is an opaque constant: no
proof can see what it is. The free layout of the stored image, Config.imageBytes, needs the type of the settings and so
stands in Machine/State.lean. -/

namespace Sys2Proof.Config

/-- Heads 0 to 47 (R1). -/
def heads : Nat := 48
/-- Zones 0 to 23 (R21). -/
def zones : Nat := 24
/-- Levels 0 to 7 (R21). -/
def levels : Nat := 8
/-- Fans 0 to 47 (R41). -/
def fans : Nat := 48
/-- Flow plans 0 to 7 (R45). -/
def plans : Nat := 8
/-- Bays 0 to 2047 (R76). -/
def bays : Nat := 2048
/-- Ramps 0 to 31 (R89). -/
def ramps : Nat := 32
/-- Signs 0 to 63 (R95). -/
def signs : Nat := 64
/-- Lighting groups 0 to 191 (R109). -/
def groups : Nat := 192
/-- Scan list entries 0 to 255 (R146). -/
def listEntries : Nat := 256
/-- Node entries, 31 on each of four loops (R127). -/
def nodes : Nat := 124
/-- Entries the urgent write queue holds at most (R137). -/
def urgentCapacity : Nat := 32
/-- Replies the reply queue holds at most (R166). -/
def replyCapacity : Nat := 4
/-- The part identity IDENT returns (R176). -/
def identity : Nat := 4820
/-- The design revision of the part the manual describes (R176). -/
def revision : Nat := 1

/-- FREE VALUE (log 6). The level of the attention line of a loop, by its code, at a moment of `clockMs` at which the part
samples it and no command tells it. -/
opaque attentionLevel : Nat → Nat → Bool

/-- FREE VALUE (log 12). A byte of a note or reply whose value the spec does not state: the filler of a field that is
absent and has no all-ones mark. The argument names the place, as the definitions that use it say. -/
opaque unstatedByte : Nat → Byte

end Sys2Proof.Config
end

