-- ==== Sys2Proof/Machine/Bytes.lean ====
section
/-! DEFINITION. Bytes of frames and transactions: most significant byte first (00_scope, Byte order), packed 2-bit
fields (11.2, 11.5), and the three CRCs (R164, R177, R186). -/

namespace Sys2Proof.Machine

/-- One byte holding a number. -/
def u8 (n : Nat) : List Byte := [BitVec.ofNat 8 n]

/-- Two bytes, most significant first. -/
def u16 (n : Nat) : List Byte := [BitVec.ofNat 8 (n / 256), BitVec.ofNat 8 n]

/-- Three bytes, most significant first. -/
def u24 (n : Nat) : List Byte := BitVec.ofNat 8 (n / 65536) :: u16 n

/-- Four bytes, most significant first. -/
def u32 (n : Nat) : List Byte := u16 (n / 65536) ++ u16 n

/-- Two bytes of two's complement (11.1, offset). -/
def i16 (i : Int) : List Byte := u16 (i % 65536).toNat

/-- The number of two bytes, most significant first. -/
def nat16 (h l : Byte) : Nat := h.toNat * 256 + l.toNat

/-- The number of four bytes, most significant first. -/
def nat32 (a b c d : Byte) : Nat := nat16 a b * 65536 + nat16 c d

/-- Two bytes read as two's complement (11.1, offset). -/
def int16 (h l : Byte) : Int :=
  if nat16 h l < 32768 then (nat16 h l : Int) else (nat16 h l : Int) - 65536

/-- The four 2-bit fields of a byte, from bits 7-6 down (11.2, 11.5). -/
def quads (b : Byte) : List Nat :=
  [b.toNat / 64 % 4, b.toNat / 16 % 4, b.toNat / 4 % 4, b.toNat % 4]

/-- Pack 2-bit fields four to a byte, the first in bits 7-6; a count that is no multiple of four is padded with 0. -/
def packQuads : List Nat → List Byte
  | [] => []
  | [a] => u8 (a * 64)
  | [a, b] => u8 (a * 64 + b * 16)
  | [a, b, c] => u8 (a * 64 + b * 16 + c * 4)
  | a :: b :: c :: d :: t => u8 (a * 64 + b * 16 + c * 4 + d) ++ packQuads t

/-- Pack bits eight to a byte, the first in bit 7 of the first byte (R144). -/
def packBits : List Bool → List Byte
  | b7 :: b6 :: b5 :: b4 :: b3 :: b2 :: b1 :: b0 :: t =>
    u8 (b7.toNat * 128 + b6.toNat * 64 + b5.toNat * 32 + b4.toNat * 16 + b3.toNat * 8 + b2.toNat * 4 + b1.toNat * 2
      + b0.toNat) ++ packBits t
  | [] => []
  | t => u8 ((t ++ List.replicate 8 false).take 8 |>.foldl (fun n b => n * 2 + b.toNat) 0)

/-- One bit of a CRC register, most significant bit first. -/
def crcBit {w : Nat} (poly c : BitVec w) : BitVec w := if c.msb then (c <<< 1) ^^^ poly else c <<< 1

/-- Eight bits of a CRC register. -/
def crcByte {w : Nat} (poly c : BitVec w) : BitVec w :=
  crcBit poly (crcBit poly (crcBit poly (crcBit poly (crcBit poly (crcBit poly (crcBit poly (crcBit poly c)))))))

/-- CRC-16 of a supervisor frame: polynomial 1021h, initial value FFFFh, no final inversion (R164). -/
def crc16 (bytes : List Byte) : BitVec 16 :=
  bytes.foldl (fun c b => crcByte 0x1021#16 (c ^^^ (BitVec.shiftLeft (b.setWidth 16) 8))) 0xFFFF#16

/-- CRC-8 of a loop transaction: polynomial 31h, initial value 00h, no final inversion (R186). -/
def crc8 (bytes : List Byte) : BitVec 8 :=
  bytes.foldl (fun c b => crcByte 0x31#8 (c ^^^ b)) 0#8

/-- CRC-32 of the stored image: polynomial 04C11DB7h, initial value FFFFFFFFh, final inversion (R177); each byte most
significant bit first, as the other two CRCs take it (DEDUCED, log 7). -/
def crc32 (bytes : List Byte) : BitVec 32 :=
  ~~~ (bytes.foldl (fun c b => crcByte 0x04C11DB7#32 (c ^^^ (BitVec.shiftLeft (b.setWidth 32) 24))) 0xFFFFFFFF#32)

/-- The bytes of a supervisor frame on the line (9.1): marker, length, kind, tag, body and check. -/
def wireFrame (kind tag : Byte) (body : List Byte) : List Byte :=
  let covered := BitVec.ofNat 8 body.length :: kind :: tag :: body
  0xC3 :: covered ++ u16 (crc16 covered).toNat

/-- The bytes of a loop request on the line (11.5): header, payload and CRC-8. -/
def wireRequest (op addr : Nat) (payload : List Byte) : List Byte :=
  let covered := BitVec.ofNat 8 (op * 32 + addr) :: payload
  covered ++ [crc8 covered]

end Sys2Proof.Machine
end

