-- ==== Sys2Proof/Machine/Flags.lean ====
section
/-! DEFINITION. Flags bytes: "bit 0 first named, upward" (11.1), the presence flags byte of optional fields in a DATA reply
(R185), and the free filler of absent fields. -/

namespace Sys2Proof.Machine

/-- A flags byte of up to eight flags, bit 0 first named (11.1). -/
def flagsNat : List Bool → Nat
  | [] => 0
  | b :: t => b.toNat + 2 * flagsNat t

/-- The flags byte. -/
def flagsByte (bs : List Bool) : List Byte := u8 (flagsNat bs)

/-- A run of optional fields: one presence flags byte, bit 0 for the first, then the fields that are present (R185; log
10: an absent field is not sent). -/
def optionals (fields : List (Option (List Byte))) : List Byte :=
  flagsByte (fields.map Option.isSome) ++ (fields.filterMap id).flatten

/-- An optional field of `n` bytes whose absence the all-ones value marks (11.1, R185; log 10). -/
def orOnes (n : Nat) (field : Option (List Byte)) : List Byte := field.getD (List.replicate n 0xFF)

/-- `n` filler bytes whose value the spec does not state, for the absent field at `place` (log 12). -/
def filler (place n : Nat) : List Byte := (List.range n).map fun i => Config.unstatedByte (place + i)

/-- An age or a time held at 65535 (R19, R70, R87, R107, R143). -/
def age (now stamp : Nat) : Nat := min 65535 (now - stamp)

/-- ceil(a / b) for positive b (R50). -/
def ceilDiv (a b : Nat) : Nat := (a + b - 1) / b

/-- A value clamped to a range (R167). -/
def clamp (lo hi n : Nat) : Nat := max lo (min hi n)

/-- A tally raised by one and held at its greatest value. -/
def heldSucc (top n : Nat) : Nat := min top (n + 1)

end Sys2Proof.Machine
end

