-- ==== Sys2Proof/Machine/State.lean ====
section
/-! DEFINITION. The state of the part: every record, queue, timer stamp and flag the manual gives each of its ten blocks,
as plain data, and the state right after reset. -/

namespace Sys2Proof.Machine

/-! ### Gas Conversion Unit -/

/-- The measuring range in force (R2). -/
inductive Range where
  | fine | coarse
deriving DecidableEq, Repr

/-- Why a channel is in FAULT (R2). -/
inductive ChannelCause where
  | head | link
deriving DecidableEq, Repr

/-- The status a gas head reports (1.2). -/
inductive HeadStatus where
  | warming | ready | fault
deriving DecidableEq, Repr

/-- The calibration part of a channel (R2). -/
structure Calibration where
  fineGain : Nat
  fineOffset : Int
  coarseGain : Nat
  coarseOffset : Int
  shift : Nat
  crossover : Nat
  hysteresis : Nat
deriving DecidableEq, Repr

/-- The run state of a channel (R2). -/
structure ChannelRun where
  range : Range
  validity : Validity
  cause : Option ChannelCause
  seedPending : Bool
  rawFine : Nat
  rawCoarse : Nat
  value : Nat
  smoothed : Nat
  lastFresh : Option Nat
deriving DecidableEq, Repr

/-- The definition part of a head record with its channels' calibrations (R1, R2). -/
structure HeadDefn where
  zone : Nat
  node : NodeId
  exponent : Nat
  co : Calibration
  no2 : Calibration
deriving DecidableEq, Repr

/-- A defined head record (R1). `lastStatus` is `none` for NONE. -/
structure Head where
  defn : HeadDefn
  lastStatus : Option HeadStatus
  co : ChannelRun
  no2 : ChannelRun
deriving DecidableEq, Repr

/-- The Gas Conversion Unit. -/
structure GasUnit where
  heads : Table Head
deriving DecidableEq, Repr

/-! ### Zone Air Unit -/

/-- A zone's kind (R21). -/
inductive ZoneKind where
  | parking | ramp
deriving DecidableEq, Repr

/-- The four limits of one gas (R21). -/
structure GasLimits where
  start : Nat
  full : Nat
  alarmOn : Nat
  alarmOff : Nat
deriving DecidableEq, Repr

/-- The definition part of a zone record (R21). -/
structure ZoneDefn where
  kind : ZoneKind
  level : Nat
  co : GasLimits
  no2 : GasLimits
  alarmPlan : Option Nat
  weight : Nat
  queueDemand : Nat
deriving DecidableEq, Repr

/-- A defined zone record (R21). A figure is `none` for UNKNOWN, an alarm is `true` for SET. The ring is oldest first. -/
structure Zone where
  defn : ZoneDefn
  view : Table ViewEntry
  coFigure : Option Nat
  no2Figure : Option Nat
  coAlarm : Bool
  no2Alarm : Bool
  ring : List Nat
  standing : List Nat
  coTerm : Nat
  no2Term : Nat
  trafficTerm : Nat
  queueTerm : Nat
  floorTerm : Nat
  demand : Nat
  hostClosed : Bool
  unventilated : Bool
deriving DecidableEq, Repr

/-- The Zone Air Unit: zone table, alarm order list (R24), stamp of the sub-window timer (R27). -/
structure ZoneAir where
  zones : Table Zone
  alarmOrder : List Nat
  subWindowStart : Nat
deriving DecidableEq, Repr

/-! ### Fan Controller -/

/-- A flow direction (R41). -/
inductive FanDir where
  | forward | reverse
deriving DecidableEq, Repr

/-- A fan speed (R41). -/
inductive Speed where
  | low | high
deriving DecidableEq, Repr

/-- What a zone's step mapping wants of a fan (R41). -/
inductive Want where
  | off | low | high
deriving DecidableEq, Repr

/-- The policy of a fan whose want falls to OFF (R60). -/
inductive Policy where
  | hold | release
deriving DecidableEq, Repr

/-- The fan states (R41, 3.5). -/
inductive FanState where
  | off | queued | starting | running | rundown | held | faulted
deriving DecidableEq, Repr

/-- Why a fan is FAULTED (R41). -/
inductive FanCause where
  | drive | link
deriving DecidableEq, Repr

/-- The drive conditions (R44). -/
inductive DriveCondition where
  | stopped | accelerating | atSpeed | decelerating | tripped
deriving DecidableEq, Repr

/-- A drive report (R43, R44). -/
structure DriveReport where
  condition : DriveCondition
  direction : FanDir
  speed : Speed
deriving DecidableEq, Repr

/-- A drive command (R42): STOP, or RUN with a direction and a speed. -/
inductive DriveCommand where
  | stop
  | run (direction : FanDir) (speed : Speed)
deriving DecidableEq, Repr

/-- The definition part of a fan record (R41). -/
structure FanDefn where
  zone : Nat
  node : NodeId
  home : FanDir
  startLoad : Nat
  lowLoad : Nat
  highLoad : Nat
  rundown : Nat
  policy : Policy
deriving DecidableEq, Repr

/-- A defined fan record (R41). `rest` is the run-down time that governs the present rest (R72); `leftover` and
`minuteStart` hold the seconds counted towards the next run minute (R65). -/
structure Fan where
  defn : FanDefn
  state : FanState
  want : Want
  exercise : Bool
  direction : FanDir
  speed : Speed
  speedup : Bool
  speedupFailed : Bool
  lastStop : Nat
  lastGrant : Option Nat
  runningSince : Option Nat
  holdStart : Option Nat
  cause : Option FanCause
  heldLoad : Nat
  report : Option DriveReport
  runMinutes : Nat
  rest : Nat
  leftover : Nat
  minuteStart : Option Nat
deriving DecidableEq, Repr

/-- A direction entry of a flow plan (R45). -/
inductive PlanEntry where
  | forward | reverse | idle
deriving DecidableEq, Repr

/-- What gave the active plan (R46). -/
inductive PlanSource where
  | base
  | alarm (zone : Nat)
  | forced
deriving DecidableEq, Repr

/-- The kind of a start queue entry (R52). -/
inductive EntryKind where
  | start | speedup
deriving DecidableEq, Repr

/-- The class of a start queue entry (R52). -/
inductive EntryClass where
  | alarm | normal | exercise
deriving DecidableEq, Repr

/-- A start queue entry (R52). -/
structure QueueEntry where
  fan : Nat
  kind : EntryKind
  cls : EntryClass
deriving DecidableEq, Repr

/-- What the Fan Controller keeps of a zone: its step count (R50), duty order (R51), the number n of its available fans and
the finding n = 0 as last handed to the Zone Air Unit (R49). -/
structure ZoneFans where
  steps : Nat
  duty : List Nat
  available : Nat
  unventilated : Bool
deriving DecidableEq, Repr

/-- The Fan Controller. -/
structure FanController where
  fans : Table Fan
  plans : List (List PlanEntry)
  basePlan : Nat
  forcedPlan : Option Nat
  activePlan : Nat
  source : PlanSource
  queue : List QueueEntry
  account : Nat
  lastGrant : Option Nat
  spacing : Bool
  zones : Table ZoneFans
deriving DecidableEq, Repr

/-! ### Occupancy Unit -/

/-- The states of a bay (R76). -/
inductive BayState where
  | unknown | free | occupied | outOfService
deriving DecidableEq, Repr

/-- A detector's raw reading (R77). -/
inductive BayReading where
  | vacant | present | fault | notFitted
deriving DecidableEq, Repr

/-- The definition part of a bay record (R76). -/
structure BayDefn where
  zone : Nat
  node : NodeId
  channel : Nat
  cls : BayClass
deriving DecidableEq, Repr

/-- A defined bay record (R76). -/
structure Bay where
  defn : BayDefn
  state : BayState
  candidate : Option BayReading
  counter : Nat
  lastChange : Nat
deriving DecidableEq, Repr

/-- The four counts of one zone and class (R82). -/
structure Counts where
  free : Nat
  occupied : Nat
  unknown : Nat
  outOfService : Nat
deriving DecidableEq, Repr

/-- One value for each bay class. -/
structure PerClass (α : Type) where
  standard : α
  wide : α
  charging : α
  accessible : α
deriving DecidableEq, Repr

/-- The direction of a passage; `unknown` is a direction code neither UP nor DOWN (R91). -/
inductive PassageDir where
  | up | down | unknown
deriving DecidableEq, Repr

/-- The definition part of a ramp record (R89). -/
structure RampDefn where
  node : NodeId
  zone : Nat
  upper : Nat
  lower : Nat
  lowerSign : Option Nat
  upperSign : Option Nat
deriving DecidableEq, Repr

/-- A defined ramp record (R89). -/
structure Ramp where
  defn : RampDefn
  standing : Bool
  upTally : Nat
  downTally : Nat
  last : Option (PassageDir × Nat)
deriving DecidableEq, Repr

/-- The Occupancy Unit: bay table, counts of each zone (R82), ramp table. -/
structure Occupancy where
  bays : Table Bay
  counts : Table (PerClass Counts)
  ramps : Table Ramp
deriving DecidableEq, Repr

/-! ### Guidance Unit -/

/-- Which parts of the display record a sign shows (R95). -/
inductive SignKind where
  | count | arrow | countArrow
deriving DecidableEq, Repr

/-- The arrow of a route direction or of a display record (R95, R96). -/
inductive Arrow where
  | none | left | right | ahead | up | down
deriving DecidableEq, Repr

/-- The text of a display record (R96). -/
inductive SignText where
  | number (n : Nat)
  | full
  | closed
deriving DecidableEq, Repr

/-- A route direction (R95). -/
structure RouteDirection where
  arrow : Arrow
  zones : List Nat
  lanes : List Nat
deriving DecidableEq, Repr

/-- The definition part of a sign record (R95). -/
structure SignDefn where
  node : NodeId
  kind : SignKind
  sources : List Nat
  filter : PerClass Bool
  threshold : Nat
  directions : List RouteDirection
deriving DecidableEq, Repr

/-- A display record (R96). -/
structure Display where
  offered : Nat
  text : SignText
  chosen : Option Nat
  arrow : Arrow
  lastChange : Nat
deriving DecidableEq, Repr

/-- The condition of a sign's node (R95). -/
inductive SignCondition where
  | ok | partFailed | dark | unknown
deriving DecidableEq, Repr

/-- What is written to a sign, or echoed by it: the text code and the arrow code of 11.1. -/
structure SignContent where
  text : Nat
  arrow : Nat
deriving DecidableEq, Repr

/-- A defined sign record (R95). -/
structure Sign where
  defn : SignDefn
  display : Display
  condition : SignCondition
  echo : Option SignContent
deriving DecidableEq, Repr

/-- A zone's entry in the guidance view (R97). -/
structure GuideZone where
  free : PerClass Nat
  closed : Bool
deriving DecidableEq, Repr

/-- The Guidance Unit: sign table and guidance view, one entry for each of the 24 zones. -/
structure Guidance where
  signs : Table Sign
  view : List GuideZone
deriving DecidableEq, Repr

/-! ### Lighting Controller -/

/-- How a level becomes an output code (R116). -/
inductive Polarity where
  | normal | inverted
deriving DecidableEq, Repr

/-- The cause that gave a target (R111). -/
inductive TargetCause where
  | override | alarm | presence | base
deriving DecidableEq, Repr

/-- The condition of a lamp output (R118). -/
inductive LampCondition where
  | ok | failed | notFitted | unknown
deriving DecidableEq, Repr

/-- The definition part of a lighting group record (R109). -/
structure GroupDefn where
  zone : Nat
  node : NodeId
  outputs : List Nat
  polarity : Polarity
  bayRange : Option (Nat × Nat)
  ramp : Option Nat
  presenceLevel : Nat
  holdTime : Nat
  fadeTime : Nat
deriving DecidableEq, Repr

/-- A defined lighting group record (R109). `conditions` has one entry per output, in the order of `outputs`. -/
structure Group where
  defn : GroupDefn
  override : Option Nat
  presence : Option Nat
  target : Nat
  cause : TargetCause
  inFlight : Option Nat
  applied : Option Nat
  conditions : List LampCondition
deriving DecidableEq, Repr

/-- The Lighting Controller: group table, zone alarm view (24 entries, `true` for IN_ALARM), site mode (R110). -/
structure Lighting where
  groups : Table Group
  zoneAlarm : List Bool
  mode : SiteMode
deriving DecidableEq, Repr

/-! ### Loop Master -/

/-- The state of a node entry (R129). -/
inductive NodeState where
  | defined | online | lost
deriving DecidableEq, Repr

/-- The kind of a node's last failure (R127). -/
inductive FailureKind where
  | none | noAnswer | garbled | refused | wrongRole
deriving DecidableEq, Repr

/-- The role report of a node entry (R127, R143); `empty` until an owner hands one back. -/
inductive RoleReport where
  | empty
  | sign (condition : SignCondition)
  | lamp (outputs : List LampCondition)
  | ramp (overflows : Nat)
deriving DecidableEq, Repr

/-- The saved part of a node entry (R127). -/
structure NodeDefn where
  role : Role
  setup : List Byte
deriving DecidableEq, Repr

/-- A node table entry (R127). -/
structure Node where
  defn : NodeDefn
  state : NodeState
  failures : Nat
  lastFailure : FailureKind
  lastSeen : Option Nat
  attention : Bool
  setupDue : Bool
  refreshOwed : Bool
  retiring : Bool
  report : RoleReport
deriving DecidableEq, Repr

/-- A loop's attention latch (R133), service set in ascending address (R134), empty roll-call count and the moment its
IGNORED condition began, `none` while NORMAL (R135), and the level of its attention line as last given. -/
structure LoopState where
  latch : Bool
  service : List Nat
  empties : Nat
  ignoredSince : Option Nat
  line : Bool
deriving DecidableEq, Repr

/-- The operations of a loop transaction (7.2). -/
inductive LoopOp where
  | read | write | setup | identify | rollcall
deriving DecidableEq, Repr

/-- The source the engine took a transaction from (R136). -/
inductive TxSource where
  | service | rollcall | urgent | list
deriving DecidableEq, Repr

/-- The transaction in flight: its place (address 0 for a roll-call), operation and source, the role of the node's entry
when it was sent, absent where the address had no entry then (R128), the bytes sent, whether R142 ended its effect, whether it is the last write of a retiring entry
(R145), and whether it is the last read of its loop's service set (R133). -/
structure Transaction where
  node : NodeId
  op : LoopOp
  source : TxSource
  role : Option Role
  request : List Byte
  voided : Bool
  lastWrite : Bool
  emptied : Bool
deriving DecidableEq, Repr

/-- A record of the found list (R139): place and reported role code. -/
structure FoundRecord where
  node : NodeId
  role : Nat
deriving DecidableEq, Repr

/-- The Loop Master. The node table is keyed by the node's number in node-table order (R127). -/
structure LoopMaster where
  nodes : Table Node
  lines : PerLoop LoopState
  urgent : List NodeId
  sinceList : Nat
  lastRollcall : Option LoopId
  found : List FoundRecord
  tx : Option Transaction
deriving DecidableEq, Repr

/-! ### Scan List Unit -/

/-- The modes of a RUN entry (R146). -/
inductive RunMode where
  | stop | ignore | repeat | sweep
deriving DecidableEq, Repr

/-- A scan list entry (R146). -/
inductive ListEntry where
  | poll (node : NodeId) (write : Bool) (abortDisable : Bool)
  | run (node : NodeId) (count : Nat) (mode : RunMode) (abortDisable : Bool)
  | pause (duration : Nat)
  | jump (target : Nat)
  | halt
deriving DecidableEq, Repr

/-- The list states (R147). -/
inductive ListState where
  | idle | running | paused | done | faulted
deriving DecidableEq, Repr

/-- The kinds of list error (R156). -/
inductive ListErrorKind where
  | noAnswer | garbled | wrongRole | refused | notWritable | limit | jumpLoop
deriving DecidableEq, Repr

/-- The error that made the list FAULTED (R147). `node` is absent for a JUMP_LOOP. -/
structure StopError where
  index : Nat
  kind : ListErrorKind
  node : Option NodeId
  time : Nat
deriving DecidableEq, Repr

/-- The progress of the entry in execution (R154, R155): a sweep's next address and whether its first IDENTIFY was taken;
a REPEAT item's start stamp in ms, whether its limit timer runs, and its expiry mark. -/
structure Progress where
  nextAddr : Option Nat
  sweepBegun : Bool
  itemStart : Option Nat
  limitRunning : Bool
  expired : Bool
deriving DecidableEq, Repr

/-- The Scan List Unit (R146, R147). `pauseStart` is the stamp in ms of a running pause timer. -/
structure ScanList where
  memory : List ListEntry
  state : ListState
  cursor : Nat
  remaining : Option Nat
  progress : Progress
  inFlight : Option (NodeId × LoopOp)
  abandoned : Bool
  haltPending : Bool
  jumpRun : Nat
  stopError : Option StopError
  continued : Nat
  pauseStart : Option Nat
deriving DecidableEq, Repr

/-! ### Supervisor Port -/

/-- The receiver (R165): HUNTING, or IN_FRAME with the bytes collected after the marker. -/
inductive Receiver where
  | hunting
  | inFrame (bytes : List Byte)
deriving DecidableEq, Repr

/-- A frame to send (R164). `newRate` marks the reply at whose end the line takes a new rate. -/
structure Frame where
  kind : Byte
  tag : Byte
  body : List Byte
  newRate : Option Nat
deriving DecidableEq, Repr

/-- The subjects of the note set (R169). -/
inductive Subject where
  | site
  | list
  | zone (id : Nat)
  | fan (id : Nat)
  | node (id : NodeId)
deriving DecidableEq, Repr

/-- The access levels (R172). -/
inductive Access where
  | view | operator | installer
deriving DecidableEq, Repr

/-- The link state (R174). -/
inductive Link where
  | supervised | autonomous
deriving DecidableEq, Repr

/-- What started the part (R183). -/
inductive StartCause where
  | powerOn | restart
deriving DecidableEq, Repr

/-- The Supervisor Port. `supervisedAt` is the moment the supervision timer was last restarted (R174). -/
structure Port where
  receiver : Receiver
  replies : List Frame
  sending : Option Frame
  notes : List Subject
  startNote : Bool
  access : Access
  link : Link
  supervisedAt : Nat
  rate : Nat
  startCause : StartCause
  storeInvalid : Bool
deriving DecidableEq, Repr

/-! ### Settings Store -/

/-- The site items 0 to 24 (R178). -/
structure Items where
  supplyLimit : Nat
  startSpacing : Nat
  startTimeout : Nat
  minimumRun : Nat
  holdTime : Nat
  hysteresis : Nat
  exerciseInterval : Nat
  exerciseRun : Nat
  fallback : Nat
  openFloor : Nat
  quietFloor : Nat
  trafficWindow : Nat
  staleTime : Nat
  confirmation : Nat
  openBase : Nat
  quietBase : Nat
  failLimit : Nat
  repeatLimit : Nat
  autoStart : Bool
  supervisionTime : Nat
  lineRate : Nat
  operatorCode : Nat
  installerCode : Nat
  editPlans : Bool
  editService : Bool
deriving DecidableEq, Repr

/-- A fan as the stored image keeps it: its definition and its run minutes (R177). -/
structure SavedFan where
  defn : FanDefn
  runMinutes : Nat
deriving DecidableEq, Repr

/-- The working settings as the stored image keeps them (R177). -/
structure Settings where
  heads : Table HeadDefn
  zones : Table ZoneDefn
  fans : Table SavedFan
  plans : List (List PlanEntry)
  basePlan : Nat
  bays : Table BayDefn
  ramps : Table RampDefn
  signs : Table SignDefn
  groups : Table GroupDefn
  nodes : Table NodeDefn
  list : List ListEntry
  items : Items
deriving DecidableEq, Repr

end Sys2Proof.Machine

namespace Sys2Proof.Config

/-- FREE VALUE (log 7). The bytes over which the stored image's CRC-32 is formed: R177 gives the CRC and what the image
holds, and no file gives the layout of those bytes. -/
opaque imageBytes : Machine.Settings → List Byte

end Sys2Proof.Config

namespace Sys2Proof.Machine

/-- The non-volatile store's image (R177): `spoiled` is a store never written, erased by a SAVE not yet completed, or
written with an outcome that failed; `written` holds contents and the CRC-32 stored with them. -/
inductive StoredImage where
  | spoiled
  | written (contents : Settings) (crc : BitVec 32)
deriving DecidableEq, Repr

/-- The save state (R177). -/
inductive SaveState where
  | none | inProgress | complete | failed
deriving DecidableEq, Repr

/-- The Settings Store (R177, R180). -/
structure Store where
  items : Items
  image : StoredImage
  snapshot : Option Settings
  saveState : SaveState
  saveStamp : Nat
deriving DecidableEq, Repr

/-! ### The whole part -/

/-- The state of the part. `pending` is the queue of commands waiting at the part, `handed` the events that one block
handed another and that are not yet taken (log 1, log 2); `clockMs` is the site clock in ms (log 3). -/
structure State where
  pending : List Instr
  handed : List Instr
  clockMs : Nat
  gas : GasUnit
  air : ZoneAir
  fans : FanController
  occ : Occupancy
  guide : Guidance
  light : Lighting
  loops : LoopMaster
  list : ScanList
  port : Port
  store : Store
deriving DecidableEq, Repr

/-- The reasons a step could stop with a fault. The manual describes no condition that stops the part, so there is none. -/
inductive Fault where
deriving DecidableEq, Repr

/-- The reasons a command could be refused by the model. -/
inductive Refusal where
  /-- Raised by `exec` for a command that has no meaning yet, by name. Safe: it claims nothing. No arm raises it now. -/
  | notModelled (mnemonic : String)
deriving DecidableEq, Repr

/-- The factory values of the site items (R178). -/
def Items.factory : Items where
  supplyLimit := 40
  startSpacing := 5
  startTimeout := 30
  minimumRun := 120
  holdTime := 300
  hysteresis := 10
  exerciseInterval := 168
  exerciseRun := 120
  fallback := 50
  openFloor := 10
  quietFloor := 0
  trafficWindow := 60
  staleTime := 60
  confirmation := 3
  openBase := 300
  quietBase := 50
  failLimit := 3
  repeatLimit := 50
  autoStart := false
  supervisionTime := 30
  lineRate := 115200
  operatorCode := 0xFFFFFFFF
  installerCode := 0xFFFFFFFF
  editPlans := false
  editService := false

/-- The factory flow plans: every entry FORWARD (R45). -/
def factoryPlans : List (List PlanEntry) :=
  List.replicate Config.plans (List.replicate Config.fans .forward)

/-- The factory list memory: every entry HALT (R146). -/
def factoryList : List ListEntry := List.replicate Config.listEntries .halt

/-- The factory working settings (R183). -/
def Settings.factory : Settings where
  heads := []
  zones := []
  fans := []
  plans := factoryPlans
  basePlan := 0
  bays := []
  ramps := []
  signs := []
  groups := []
  nodes := []
  list := factoryList
  items := Items.factory

/-- A zone's entry of the guidance view at start-up (R97). -/
def GuideZone.initial : GuideZone where
  free := ⟨0, 0, 0, 0⟩
  closed := false

/-- A loop at start-up with its line at the given level, before the line is sampled (R145). -/
def LoopState.initial (line : Bool) : LoopState where
  latch := false
  service := []
  empties := 0
  ignoredSince := none
  line := line

/-- No progress (R163). -/
def Progress.absent : Progress where
  nextAddr := none
  sweepBegun := false
  itemStart := none
  limitRunning := false
  expired := false

/-- The start note's frame body after a start: site clock 0, then cause, flags, link SUPERVISED and access level (11.3). -/
def startNoteBody (cause : Nat) (invalid : Bool) (access : Nat) : List Byte :=
  [0, 0, 0, 0, BitVec.ofNat 8 cause, (if invalid then 1 else 0), 0, BitVec.ofNat 8 access]

/-- The part right after a POWER-ON with a store that was never written (R183, R184): the factory values are loaded,
STORE_INVALID is set, and NOTE-START is on the line (R170). Log 9. -/
def State.reset : State where
  pending := []
  handed := []
  clockMs := 0
  gas := { heads := [] }
  air := { zones := [], alarmOrder := [], subWindowStart := 0 }
  fans :=
    { fans := [], plans := factoryPlans, basePlan := 0, forcedPlan := none, activePlan := 0, source := .base
      queue := [], account := 0, lastGrant := none, spacing := false, zones := [] }
  occ := { bays := [], counts := [], ramps := [] }
  guide := { signs := [], view := List.replicate Config.zones GuideZone.initial }
  light := { groups := [], zoneAlarm := List.replicate Config.zones false, mode := .opened }
  loops :=
    { nodes := []
      lines := ⟨LoopState.initial false, LoopState.initial false, LoopState.initial false, LoopState.initial false⟩
      urgent := [], sinceList := 0, lastRollcall := none, found := [], tx := none }
  list :=
    { memory := factoryList, state := .idle, cursor := 0, remaining := none, progress := Progress.absent
      inFlight := none, abandoned := false, haltPending := false, jumpRun := 0, stopError := none, continued := 0
      pauseStart := none }
  port :=
    { receiver := .hunting, replies := []
      sending := some { kind := 0x90, tag := 0, body := startNoteBody 0 true 2, newRate := none }
      notes := [], startNote := false, access := .installer, link := .supervised, supervisedAt := 0, rate := 115200
      startCause := .powerOn, storeInvalid := true }
  store := { items := Items.factory, image := .spoiled, snapshot := none, saveState := .none, saveStamp := 0 }

end Sys2Proof.Machine
end

