-- ==== Sys2Proof/Machine/Operands.lean ====
section
/-! DEFINITION. Operand forms: the codes of 11.1, the request bodies of 11.2, the scan list entry of 11.4 and the reading
payloads of 11.5. A request body is read into plain numbers; `none` is a length that does not suit the kind (BAD_LENGTH,
R166). Codes and identities are checked by the owner (R185). -/

namespace Sys2Proof.Machine

/-! ### Codes (11.1) -/

/-- Loop codes. -/
def loopCode : LoopId → Nat
  | .a => 0
  | .b => 1
  | .c => 2
  | .d => 3

/-- The loop of a code. -/
def loopOf : Nat → Option LoopId
  | 0 => some .a
  | 1 => some .b
  | 2 => some .c
  | 3 => some .d
  | _ => none

/-- The loops in order (R136). -/
def loopList : List LoopId := [.a, .b, .c, .d]

/-- A node's number in node-table order: loop A before B, C and D, then ascending address (R127). -/
def nodeIndex (n : NodeId) : Nat := loopCode n.loop * 31 + (n.addr - 1)

/-- Whether an address is one of 1 to 31. -/
def addrOk (a : Nat) : Bool := decide (1 ≤ a) && decide (a ≤ 31)

/-- The node of a number in node-table order. -/
def nodeAt (i : Nat) : NodeId := ⟨(loopOf (i / 31)).getD .d, i % 31 + 1⟩

/-- The node a loop code and an address name, when both are in range. -/
def nodeOf (loop addr : Nat) : Option NodeId :=
  match loopOf loop with
  | some l => if addrOk addr then some ⟨l, addr⟩ else none
  | none => none

/-- Role codes. -/
def roleCode : Role → Nat
  | .bay => 0
  | .gas => 1
  | .fan => 2
  | .lamp => 3
  | .sign => 4
  | .ramp => 5

/-- The role of a code; 6 and 7 name none (R186). -/
def roleOf : Nat → Option Role
  | 0 => some .bay
  | 1 => some .gas
  | 2 => some .fan
  | 3 => some .lamp
  | 4 => some .sign
  | 5 => some .ramp
  | _ => none

/-- Operation codes (11.5). -/
def opCode : LoopOp → Nat
  | .read => 0
  | .write => 1
  | .setup => 2
  | .identify => 3
  | .rollcall => 4

def gasOf : Nat → Option Gas
  | 0 => some .co
  | 1 => some .no2
  | _ => none

def zoneKindCode : ZoneKind → Nat
  | .parking => 0
  | .ramp => 1

def zoneKindOf : Nat → Option ZoneKind
  | 0 => some .parking
  | 1 => some .ramp
  | _ => none

def fanDirCode : FanDir → Nat
  | .forward => 0
  | .reverse => 1

def fanDirOf : Nat → Option FanDir
  | 0 => some .forward
  | 1 => some .reverse
  | _ => none

def planEntryCode : PlanEntry → Nat
  | .forward => 0
  | .reverse => 1
  | .idle => 2

def planEntryOf : Nat → Option PlanEntry
  | 0 => some .forward
  | 1 => some .reverse
  | 2 => some .idle
  | _ => none

def policyCode : Policy → Nat
  | .hold => 0
  | .release => 1

def policyOf : Nat → Option Policy
  | 0 => some .hold
  | 1 => some .release
  | _ => none

def classCode : BayClass → Nat
  | .standard => 0
  | .wide => 1
  | .charging => 2
  | .accessible => 3

def classOf : Nat → Option BayClass
  | 0 => some .standard
  | 1 => some .wide
  | 2 => some .charging
  | 3 => some .accessible
  | _ => none

/-- The classes in code order. -/
def classList : List BayClass := [.standard, .wide, .charging, .accessible]

def signKindCode : SignKind → Nat
  | .count => 0
  | .arrow => 1
  | .countArrow => 2

def signKindOf : Nat → Option SignKind
  | 0 => some .count
  | 1 => some .arrow
  | 2 => some .countArrow
  | _ => none

def arrowCode : Arrow → Nat
  | .none => 0
  | .left => 1
  | .right => 2
  | .ahead => 3
  | .up => 4
  | .down => 5

/-- The arrow of a route direction: NONE is no valid code there (R95). -/
def routeArrowOf : Nat → Option Arrow
  | 1 => some .left
  | 2 => some .right
  | 3 => some .ahead
  | 4 => some .up
  | 5 => some .down
  | _ => none

def signTextCode : SignText → Nat
  | .number n => n
  | .closed => 0xFFFD
  | .full => 0xFFFE

/-- The text code BLANK. -/
def blankCode : Nat := 0xFFFF

def polarityCode : Polarity → Nat
  | .normal => 0
  | .inverted => 1

def polarityOf : Nat → Option Polarity
  | 0 => some .normal
  | 1 => some .inverted
  | _ => none

def siteModeCode : SiteMode → Nat
  | .opened => 0
  | .quiet => 1

def siteModeOf : Nat → Option SiteMode
  | 0 => some .opened
  | 1 => some .quiet
  | _ => none

def fanStateCode : FanState → Nat
  | .off => 0
  | .queued => 1
  | .starting => 2
  | .running => 3
  | .rundown => 4
  | .held => 5
  | .faulted => 6

def fanCauseCode : Option FanCause → Nat
  | none => 0
  | some .drive => 1
  | some .link => 2

def channelCauseCode : Option ChannelCause → Nat
  | none => 0
  | some .head => 1
  | some .link => 2

def rangeCode : Range → Nat
  | .fine => 0
  | .coarse => 1

def validityCode : Validity → Nat
  | .noData => 0
  | .warming => 1
  | .valid => 2
  | .stale => 3
  | .fault => 4

/-- Head status codes; a code other than WARMING, READY or FAULT is taken as FAULT (R3, R4). -/
def headStatusOf : Nat → HeadStatus
  | 0 => .warming
  | 1 => .ready
  | _ => .fault

def headStatusCode : Option HeadStatus → Nat
  | some .warming => 0
  | some .ready => 1
  | some .fault => 2
  | none => 3

def zoneAlarmCode : ZoneAlarm → Nat
  | .none => 0
  | .co => 1
  | .no2 => 2
  | .both => 3

def bayStateCode : BayState → Nat
  | .unknown => 0
  | .free => 1
  | .occupied => 2
  | .outOfService => 3

/-- Bay reading codes; two bits hold only the four codes. -/
def bayReadingOf : Nat → BayReading
  | 0 => .vacant
  | 1 => .present
  | 3 => .notFitted
  | _ => .fault

def bayCandidateCode : Option BayReading → Nat
  | some .vacant => 0
  | some .present => 1
  | some .fault => 2
  | some .notFitted => 3
  | none => 0xFF

def entryKindCode : EntryKind → Nat
  | .start => 0
  | .speedup => 1

def entryClassCode : EntryClass → Nat
  | .alarm => 0
  | .normal => 1
  | .exercise => 2

/-- Drive condition codes; a code outside the five is taken as TRIPPED (R44). -/
def driveConditionOf : Nat → DriveCondition
  | 0 => .stopped
  | 1 => .accelerating
  | 2 => .atSpeed
  | 3 => .decelerating
  | _ => .tripped

def driveConditionCode : DriveCondition → Nat
  | .stopped => 0
  | .accelerating => 1
  | .atSpeed => 2
  | .decelerating => 3
  | .tripped => 4

/-- Sign condition codes; a reported code outside the three is taken as DARK (R103). -/
def signConditionOf : Nat → SignCondition
  | 0 => .ok
  | 1 => .partFailed
  | _ => .dark

def signConditionCode : SignCondition → Nat
  | .ok => 0
  | .partFailed => 1
  | .dark => 2
  | .unknown => 3

/-- Lamp output condition codes; a reported code outside the three is taken as FAILED (R118). -/
def lampConditionOf : Nat → LampCondition
  | 0 => .ok
  | 2 => .notFitted
  | _ => .failed

def lampConditionCode : LampCondition → Nat
  | .ok => 0
  | .failed => 1
  | .notFitted => 2
  | .unknown => 3

def targetCauseCode : TargetCause → Nat
  | .override => 0
  | .alarm => 1
  | .presence => 2
  | .base => 3

def nodeStateCode : NodeState → Nat
  | .defined => 0
  | .online => 1
  | .lost => 2

def failureCode : FailureKind → Nat
  | .none => 0
  | .noAnswer => 1
  | .garbled => 2
  | .refused => 3
  | .wrongRole => 4

def listStateCode : ListState → Nat
  | .idle => 0
  | .running => 1
  | .paused => 2
  | .done => 3
  | .faulted => 4

def listErrorCode : ListErrorKind → Nat
  | .noAnswer => 1
  | .garbled => 2
  | .wrongRole => 3
  | .refused => 4
  | .notWritable => 5
  | .limit => 6
  | .jumpLoop => 7

def linkCode : Link → Nat
  | .supervised => 0
  | .autonomous => 1

def accessCode : Access → Nat
  | .view => 0
  | .operator => 1
  | .installer => 2

def startCauseCode : StartCause → Nat
  | .powerOn => 0
  | .restart => 1

def saveStateCode : SaveState → Nat
  | .none => 0
  | .inProgress => 1
  | .complete => 2
  | .failed => 3

/-- The refusal codes (R167). -/
inductive RefusalCode where
  | unknownKind | badLength | outOfRange | notDefined | notPermitted | busy | conflict | limitInUse | badCode
deriving DecidableEq, Repr

def refusalCode : RefusalCode → Nat
  | .unknownKind => 1
  | .badLength => 2
  | .outOfRange => 3
  | .notDefined => 4
  | .notPermitted => 5
  | .busy => 6
  | .conflict => 7
  | .limitInUse => 8
  | .badCode => 9

/-- An identity field that may be absent: FFh is absent (R185). -/
def optionalId (n : Nat) : Option Nat := if n = 0xFF then none else some n

/-- The byte of an identity field that may be absent (11.1). -/
def idByte : Option Nat → List Byte
  | some n => u8 n
  | none => u8 0xFF

/-! ### Request bodies (11.2) -/

/-- A body of no bytes. -/
def parseEmpty : List Byte → Option Unit
  | [] => some ()
  | _ => none

/-- A body of one byte. -/
def parseByte : List Byte → Option Nat
  | [a] => some a.toNat
  | _ => none

/-- A body of two bytes. -/
def parseByte2 : List Byte → Option (Nat × Nat)
  | [a, b] => some (a.toNat, b.toNat)
  | _ => none

/-- LOGIN: a 32-bit code. -/
def parseCode : List Byte → Option Nat
  | [a, b, c, d] => some (nat32 a b c d)
  | _ => none

/-- SET-ITEM: item and value. -/
def parseSetItem : List Byte → Option (Nat × Nat)
  | [i, a, b, c, d] => some (i.toNat, nat32 a b c d)
  | _ => none

/-- PING: 0 to 240 bytes. -/
def parsePing (body : List Byte) : Option (List Byte) := if body.length ≤ 240 then some body else none

/-- The remove flag, bit 0 of a flags byte. -/
def removeFlag (flags : Byte) : Bool := flags.getLsbD 0

/-- HEAD-DEF. -/
structure HeadDefReq where
  head : Nat
  remove : Bool
  zone : Nat
  loop : Nat
  addr : Nat
  exponent : Nat
deriving DecidableEq, Repr

def parseHeadDef : List Byte → Option HeadDefReq
  | [h, f, z, l, a, e] => some ⟨h.toNat, removeFlag f, z.toNat, l.toNat, a.toNat, e.toNat⟩
  | _ => none

/-- HEAD-CAL. -/
structure HeadCalReq where
  head : Nat
  gas : Nat
  cal : Calibration
deriving DecidableEq, Repr

def parseHeadCal : List Byte → Option HeadCalReq
  | [h, g, gf1, gf0, of1, of0, gc1, gc0, oc1, oc0, k, x1, x0, y1, y0] =>
    some ⟨h.toNat, g.toNat,
      ⟨nat16 gf1 gf0, int16 of1 of0, nat16 gc1 gc0, int16 oc1 oc0, k.toNat, nat16 x1 x0, nat16 y1 y0⟩⟩
  | _ => none

/-- ZONE-DEF. -/
structure ZoneDefReq where
  zone : Nat
  remove : Bool
  kind : Nat
  level : Nat
  alarmPlan : Nat
  weight : Nat
  queueDemand : Nat
deriving DecidableEq, Repr

def parseZoneDef : List Byte → Option ZoneDefReq
  | [z, f, k, l, p, w, q] => some ⟨z.toNat, removeFlag f, k.toNat, l.toNat, p.toNat, w.toNat, q.toNat⟩
  | _ => none

/-- ZONE-LIMITS. -/
structure ZoneLimitsReq where
  zone : Nat
  gas : Nat
  limits : GasLimits
deriving DecidableEq, Repr

def parseZoneLimits : List Byte → Option ZoneLimitsReq
  | [z, g, s1, s0, f1, f0, n1, n0, o1, o0] =>
    some ⟨z.toNat, g.toNat, ⟨nat16 s1 s0, nat16 f1 f0, nat16 n1 n0, nat16 o1 o0⟩⟩
  | _ => none

/-- FAN-DEF. -/
structure FanDefReq where
  fan : Nat
  remove : Bool
  zone : Nat
  loop : Nat
  addr : Nat
  home : Nat
  startLoad : Nat
  lowLoad : Nat
  highLoad : Nat
  rundown : Nat
  policy : Nat
deriving DecidableEq, Repr

def parseFanDef : List Byte → Option FanDefReq
  | [f, fl, z, l, a, h, sl, ll, hl, r1, r0, p] =>
    some ⟨f.toNat, removeFlag fl, z.toNat, l.toNat, a.toNat, h.toNat, sl.toNat, ll.toNat, hl.toNat, nat16 r1 r0,
      p.toNat⟩
  | _ => none

/-- PLAN-DEF: the plan and its 48 packed entries as codes. -/
def parsePlanDef : List Byte → Option (Nat × List Nat)
  | p :: t => if t.length = 12 then some (p.toNat, t.flatMap quads) else none
  | [] => none

/-- BAY-DEF. -/
structure BayDefReq where
  bay : Nat
  remove : Bool
  zone : Nat
  loop : Nat
  addr : Nat
  channel : Nat
  cls : Nat
deriving DecidableEq, Repr

def parseBayDef : List Byte → Option BayDefReq
  | [b1, b0, f, z, l, a, ch, c] =>
    some ⟨nat16 b1 b0, removeFlag f, z.toNat, l.toNat, a.toNat, ch.toNat, c.toNat⟩
  | _ => none

/-- BAY-SERVICE: first bay, last bay, direction. -/
def parseBayService : List Byte → Option (Nat × Nat × Nat)
  | [f1, f0, l1, l0, d] => some (nat16 f1 f0, nat16 l1 l0, d.toNat)
  | _ => none

/-- BAY-QUERY: first bay and number. -/
def parseBayQuery : List Byte → Option (Nat × Nat)
  | [f1, f0, n] => some (nat16 f1 f0, n.toNat)
  | _ => none

/-- RAMP-DEF. -/
structure RampDefReq where
  ramp : Nat
  remove : Bool
  loop : Nat
  addr : Nat
  zone : Nat
  upper : Nat
  lower : Nat
  lowerSign : Nat
  upperSign : Nat
deriving DecidableEq, Repr

def parseRampDef : List Byte → Option RampDefReq
  | [r, f, l, a, z, u, w, ls, us] =>
    some ⟨r.toNat, removeFlag f, l.toNat, a.toNat, z.toNat, u.toNat, w.toNat, ls.toNat, us.toNat⟩
  | _ => none

/-- The first `n` bytes of a body as numbers and what follows them, when there are as many. -/
def takeNats (n : Nat) (l : List Byte) : Option (List Nat × List Byte) :=
  if l.length < n then none else some ((l.take n).map (·.toNat), l.drop n)

/-- A counted list: a count byte and as many bytes. -/
def takeCounted : List Byte → Option (List Nat × List Byte)
  | [] => none
  | n :: t => takeNats n.toNat t

/-- A route direction as SIGN-DEF carries it. -/
structure DirectionReq where
  arrow : Nat
  zones : List Nat
  lanes : List Nat
deriving DecidableEq, Repr

/-- The direction list of SIGN-DEF: `n` directions that use up the body exactly. -/
def parseDirections : Nat → List Byte → Option (List DirectionReq)
  | 0, [] => some []
  | 0, _ => none
  | _ + 1, [] => none
  | n + 1, a :: t =>
    match takeCounted t with
    | none => none
    | some (zs, t1) =>
      match takeCounted t1 with
      | none => none
      | some (gs, t2) => (parseDirections n t2).map (⟨a.toNat, zs, gs⟩ :: ·)

/-- SIGN-DEF. -/
structure SignDefReq where
  sign : Nat
  remove : Bool
  loop : Nat
  addr : Nat
  kind : Nat
  sources : List Nat
  filter : Byte
  threshold : Nat
  directions : List DirectionReq
deriving DecidableEq, Repr

def parseSignDef : List Byte → Option SignDefReq
  | s :: f :: l :: a :: k :: t =>
    match takeCounted t with
    | some (zs, fi :: th :: d :: t1) =>
      (parseDirections d.toNat t1).map fun ds =>
        ⟨s.toNat, removeFlag f, l.toNat, a.toNat, k.toNat, zs, fi, th.toNat, ds⟩
    | _ => none
  | _ => none

/-- GROUP-DEF. -/
structure GroupDefReq where
  group : Nat
  remove : Bool
  hasRange : Bool
  hasRamp : Bool
  zone : Nat
  loop : Nat
  addr : Nat
  outputs : List Nat
  polarity : Nat
  firstBay : Nat
  lastBay : Nat
  ramp : Nat
  presenceLevel : Nat
  holdTime : Nat
  fadeTime : Nat
deriving DecidableEq, Repr

def parseGroupDef : List Byte → Option GroupDefReq
  | g :: f :: z :: l :: a :: t =>
    match takeCounted t with
    | some (os, [p, b1, b0, e1, e0, r, v1, v0, h1, h0, fd]) =>
      some ⟨g.toNat, removeFlag f, f.getLsbD 1, f.getLsbD 2, z.toNat, l.toNat, a.toNat, os, p.toNat, nat16 b1 b0,
        nat16 e1 e0, r.toNat, nat16 v1 v0, nat16 h1 h0, fd.toNat⟩
    | _ => none
  | _ => none

/-- GROUP-OVERRIDE: first group, last group, level. -/
def parseGroupOverride : List Byte → Option (Nat × Nat × Nat)
  | [f, l, v1, v0] => some (f.toNat, l.toNat, nat16 v1 v0)
  | _ => none

/-- NODE-DEF. -/
structure NodeDefReq where
  loop : Nat
  addr : Nat
  remove : Bool
  role : Nat
  setup : List Byte
deriving DecidableEq, Repr

def parseNodeDef : List Byte → Option NodeDefReq
  | l :: a :: f :: r :: n :: t =>
    if t.length = n.toNat then some ⟨l.toNat, a.toNat, removeFlag f, r.toNat, t⟩ else none
  | _ => none

/-- NODE-QUERY: form, loop, address. -/
def parseNodeQuery : List Byte → Option (Nat × Nat × Nat)
  | [f, l, a] => some (f.toNat, l.toNat, a.toNat)
  | _ => none

/-- LIST-LOAD: first index and the 5-byte entries as they stand; the length is formed from the count byte. -/
def parseFives : Nat → List Byte → Option (List (List Byte))
  | 0, [] => some []
  | n + 1, a :: b :: c :: d :: e :: t => (parseFives n t).map ([a, b, c, d, e] :: ·)
  | _, _ => none

def parseListLoad : List Byte → Option (Nat × List (List Byte))
  | f :: n :: t => (parseFives n.toNat t).map fun es => (f.toNat, es)
  | _ => none

/-! ### The scan list entry (11.4) -/

def runModeCode : RunMode → Nat
  | .stop => 0
  | .ignore => 1
  | .repeat => 2
  | .sweep => 3

def runModeOf : Nat → Option RunMode
  | 0 => some .stop
  | 1 => some .ignore
  | 2 => some .repeat
  | 3 => some .sweep
  | _ => none

/-- The kind code of an entry. -/
def entryCode : ListEntry → Nat
  | .poll _ _ _ => 0
  | .run _ _ _ _ => 1
  | .pause _ => 2
  | .jump _ => 3
  | .halt => 4

/-- Reads a 5-byte entry; `none` where R157 refuses it with OUT_OF_RANGE. The flag says that a count or a duration of 0
was taken as 1 (R157). DESIGN CHOICE (log 52): the target FFh of a JUMP is entry 255. -/
def entryOf : List Byte → Option (ListEntry × Bool)
  | [k, b1, b2, b3, b4] =>
    match k.toNat with
    | 0 =>
      match nodeOf b1.toNat (b2.toNat % 32), b4.toNat with
      | some n, 0 => some (.poll n false (b2.getLsbD 7), false)
      | some n, 1 => some (.poll n true (b2.getLsbD 7), false)
      | _, _ => none
    | 1 =>
      match nodeOf b1.toNat (b2.toNat % 32), runModeOf b4.toNat with
      | some n, some m => some (.run n (max 1 b3.toNat) m (b2.getLsbD 7), b3.toNat == 0)
      | _, _ => none
    | 2 => some (.pause (max 1 (nat16 b1 b2)), nat16 b1 b2 == 0)
    | 3 => some (.jump b1.toNat, false)
    | 4 => some (.halt, false)
    | _ => none
  | _ => none

/-- The 5 bytes of a stored entry. -/
def entryBytes : ListEntry → List Byte
  | .poll n w d => u8 0 ++ u8 (loopCode n.loop) ++ u8 (d.toNat * 128 + n.addr) ++ u8 0 ++ u8 w.toNat
  | .run n c m d => u8 1 ++ u8 (loopCode n.loop) ++ u8 (d.toNat * 128 + n.addr) ++ u8 c ++ u8 (runModeCode m)
  | .pause ms => u8 2 ++ u16 ms ++ u16 0
  | .jump t => u8 3 ++ u8 t ++ u24 0
  | .halt => u8 4 ++ u32 0

/-! ### Reading payloads (11.5) -/

/-- The bytes of a READ reply's payload for a role code; codes 6 and 7 carry none (R186). -/
def readLength (role : Nat) : Nat :=
  match roleOf role with
  | some .gas => 9
  | some .bay => 6
  | some .ramp => 1
  | some .fan => 1
  | some .sign => 4
  | some .lamp => 2
  | none => 0

/-- The payload length of a reply, from the operation sent and the role in the status byte (R186). -/
def replyLength (op : LoopOp) (role : Nat) : Nat :=
  match op with
  | .read => readLength role
  | _ => 0

/-- A gas head's reading (1.2). -/
structure GasPayload where
  status : HeadStatus
  coFine : Nat
  coCoarse : Nat
  no2Fine : Nat
  no2Coarse : Nat
deriving DecidableEq, Repr

def parseGasPayload : List Byte → Option GasPayload
  | [s, a1, a0, b1, b0, c1, c0, d1, d0] =>
    some ⟨headStatusOf s.toNat, nat16 a1 a0, nat16 b1 b0, nat16 c1 c0, nat16 d1 d0⟩
  | _ => none

/-- A bay strip's 24 readings (R77). -/
def parseStrip (payload : List Byte) : Option (List BayReading) :=
  if payload.length = 6 then some ((payload.flatMap quads).map bayReadingOf) else none

/-- A ramp detector's byte: standing, overflow, passage direction (R90, R91). -/
structure RampPayload where
  standing : Bool
  overflow : Bool
  direction : PassageDir
deriving DecidableEq, Repr

def passageDirOf : Nat → PassageDir
  | 0 => .up
  | 1 => .down
  | _ => .unknown

def parseRampPayload : List Byte → Option RampPayload
  | [b] => some ⟨b.getLsbD 0, b.getLsbD 1, passageDirOf (b.toNat / 4 % 4)⟩
  | _ => none

/-- A drive's byte (R44). -/
def parseDrive : List Byte → Option DriveReport
  | [b] =>
    some ⟨driveConditionOf (b.toNat % 8), if b.getLsbD 3 then .reverse else .forward, if b.getLsbD 4 then .high else .low⟩
  | _ => none

/-- The FAN read byte of a report (11.5). -/
def driveByte (r : DriveReport) : Nat :=
  driveConditionCode r.condition + fanDirCode r.direction * 8 + (match r.speed with | .low => 0 | .high => 16)

/-- A sign's report: its condition and what it shows (R103). -/
def parseSign : List Byte → Option (SignCondition × SignContent)
  | [c, t1, t0, a] => some (signConditionOf c.toNat, ⟨nat16 t1 t0, a.toNat⟩)
  | _ => none

/-- A luminaire driver's eight output conditions (R118). DEDUCED (log 44): output 0 stands in bits 7 and 6 of the first
byte, as channel 0 does in a BAY READ. -/
def parseLamp (payload : List Byte) : Option (List LampCondition) :=
  if payload.length = 2 then some ((payload.flatMap quads).map lampConditionOf) else none

end Sys2Proof.Machine
end

