-- ==== Sys2Proof/Machine/Tables.lean ====
section
/-! DEFINITION. Record tables: reading, writing and deleting one record, in the canonical form of rising numbers. -/

namespace Sys2Proof

/-- The record of a number, absent when it is undefined. -/
def Table.get {α : Type} : Table α → Nat → Option α
  | [], _ => none
  | (k, v) :: t, n => if k = n then some v else Table.get t n

/-- Define or replace the record of a number. -/
def Table.put {α : Type} : Table α → Nat → α → Table α
  | [], n, x => [(n, x)]
  | (k, v) :: t, n, x =>
    if n < k then (n, x) :: (k, v) :: t
    else if n = k then (n, x) :: t
    else (k, v) :: Table.put t n x

/-- Make a number undefined. -/
def Table.del {α : Type} (t : Table α) (n : Nat) : Table α := t.filter fun e => e.1 ≠ n

/-- Change the record of a number, when it is defined. -/
def Table.modify {α : Type} (t : Table α) (n : Nat) (f : α → α) : Table α :=
  match t.get n with
  | none => t
  | some x => t.put n (f x)

/-- Change every record, keeping the numbers. -/
def Table.map {α β : Type} (t : Table α) (f : Nat → α → β) : Table β := List.map (fun e => (e.1, f e.1 e.2)) t

/-- The numbers of the defined records, rising. -/
def Table.keys {α : Type} (t : Table α) : List Nat := List.map Prod.fst t

/-- The defined records whose contents meet a test, in rising order of their numbers. -/
def Table.select {α : Type} (t : Table α) (p : α → Bool) : List (Nat × α) := List.filter (fun e => p e.2) t

/-- The number of the first record that meets a test. -/
def Table.find {α : Type} (t : Table α) (p : α → Bool) : Option Nat := (List.find? (fun e => p e.2) t).map Prod.fst

/-- Whether some record other than number `n` meets a test. -/
def Table.anyOther {α : Type} (t : Table α) (n : Nat) (p : α → Bool) : Bool := List.any t fun e => e.1 ≠ n && p e.2

/-- Whether some record meets a test. -/
def Table.any {α : Type} (t : Table α) (p : α → Bool) : Bool := List.any t fun e => p e.2

/-- The canonical form: the numbers strictly rise. -/
def Table.wf {α : Type} : Table α → Bool
  | [] => true
  | [_] => true
  | (k, _) :: (k', v') :: t => decide (k < k') && Table.wf ((k', v') :: t)

/-- The value of one of the four loops. -/
def PerLoop.get {α : Type} (p : PerLoop α) : LoopId → α
  | .a => p.a
  | .b => p.b
  | .c => p.c
  | .d => p.d

/-- Replace the value of one of the four loops. -/
def PerLoop.set {α : Type} (p : PerLoop α) : LoopId → α → PerLoop α
  | .a, x => { p with a := x }
  | .b, x => { p with b := x }
  | .c, x => { p with c := x }
  | .d, x => { p with d := x }

end Sys2Proof
end

