-- ==== Sys2Proof/Machine/Ops.lean ====
section
/-! DEFINITION. The operations every block shares: the site clock, handing an event, marking a subject, posting a node,
reading the owners' state, and taking a host request with its refusals and its reply. -/

namespace Sys2Proof.Machine

/-! ### Clock, events, marks -/

/-- The site clock in whole seconds (00_scope, The site clock). -/
def State.now (s : State) : Nat := s.clockMs / 1000

/-- Hand an event to the block that owns it; it is taken as an event of its own (R34, R81, R91, R131). -/
def State.hand (e : Instr) (s : State) : State := { s with handed := s.handed ++ [e] }

/-- Hand several events in order. -/
def State.handAll (es : List Instr) (s : State) : State := { s with handed := s.handed ++ es }

/-- Mark a subject in the note set: it joins at the tail, or stays in its place (R169). -/
def State.mark (x : Subject) (s : State) : State :=
  if x ∈ s.port.notes then s else { s with port := { s.port with notes := s.port.notes ++ [x] } }

/-- Mark several subjects in order. -/
def State.markAll (xs : List Subject) (s : State) : State := xs.foldl (fun s x => s.mark x) s

/-! ### Nodes and the urgent write queue -/

/-- A node's entry in the node table. -/
def State.node (s : State) (n : NodeId) : Option Node :=
  if addrOk n.addr then s.loops.nodes.get (nodeIndex n) else none

/-- Replace a node's entry; a place outside the table has none (R127). -/
def State.setNode (n : NodeId) (x : Node) (s : State) : State :=
  { s with
    loops :=
      { s.loops with nodes := if addrOk n.addr then s.loops.nodes.put (nodeIndex n) x else s.loops.nodes } }

/-- Whether a node has an entry in state LOST. -/
def State.nodeLost (s : State) (n : NodeId) : Bool :=
  match s.node n with
  | some x => x.state == .lost
  | none => false

/-- Post a node to the urgent write queue (R137): an entry stays in its place, a node joins the tail while fewer than 32
wait, and otherwise the node's refresh owed mark is set. -/
def State.post (n : NodeId) (s : State) : State :=
  if n ∈ s.loops.urgent then s
  else if s.loops.urgent.length < Config.urgentCapacity then
    { s with loops := { s.loops with urgent := s.loops.urgent ++ [n] } }
  else
    match s.node n with
    | some x => s.setNode n { x with refreshOwed := true }
    | none => s

/-- Post several nodes in order. -/
def State.postAll (ns : List NodeId) (s : State) : State := ns.foldl (fun s n => s.post n) s

/-- An owner hands back a node's role report; a change marks the node (R143). -/
def State.setReport (n : NodeId) (r : RoleReport) (s : State) : State :=
  match s.node n with
  | some x => if x.report = r then s else (s.setNode n { x with report := r }).mark (.node n)
  | none => s

/-! ### Reading the owners' state -/

/-- The site items. -/
abbrev State.items (s : State) : Items := s.store.items

/-- A zone's record. -/
def State.zone (s : State) (z : Nat) : Option Zone := s.air.zones.get z

/-- A fan's record. -/
def State.fan (s : State) (i : Nat) : Option Fan := s.fans.fans.get i

/-- The zone alarm of two gas alarms (R23). -/
def zoneAlarmOf (co no2 : Bool) : ZoneAlarm :=
  match co, no2 with
  | false, false => .none
  | true, false => .co
  | false, true => .no2
  | true, true => .both

/-- A zone's zone alarm (R23). -/
def Zone.alarm (z : Zone) : ZoneAlarm := zoneAlarmOf z.coAlarm z.no2Alarm

/-- A zone is in gas alarm while its zone alarm is other than NONE (R23). -/
def Zone.inAlarm (z : Zone) : Bool := z.coAlarm || z.no2Alarm

/-- A zone is CLOSED while in gas alarm, while its host closure flag is set, or both (R32). -/
def Zone.closed (z : Zone) : Bool := z.inAlarm || z.hostClosed

/-- The closure code with its causes (11.1). -/
def Zone.closureCode (z : Zone) : Nat := z.inAlarm.toNat + 2 * z.hostClosed.toNat

/-- Whether a zone is defined and in gas alarm. -/
def State.zoneInAlarm (s : State) (z : Nat) : Bool :=
  match s.zone z with
  | some r => r.inAlarm
  | none => false

/-- Whether a zone is defined. -/
def State.zoneDefined (s : State) (z : Nat) : Bool := (s.zone z).isSome

/-- The value of one bay class. -/
def PerClass.get {α : Type} (p : PerClass α) : BayClass → α
  | .standard => p.standard
  | .wide => p.wide
  | .charging => p.charging
  | .accessible => p.accessible

/-- Replace the value of one bay class. -/
def PerClass.set {α : Type} (p : PerClass α) : BayClass → α → PerClass α
  | .standard, x => { p with standard := x }
  | .wide, x => { p with wide := x }
  | .charging, x => { p with charging := x }
  | .accessible, x => { p with accessible := x }

/-- No bays. -/
def Counts.zero : Counts := ⟨0, 0, 0, 0⟩

/-- No bays in any class. -/
def noCounts : PerClass Counts := ⟨.zero, .zero, .zero, .zero⟩

/-- A zone's counts; a zone without bays holds zeros (R82). -/
def State.counts (s : State) (z : Nat) : PerClass Counts := (s.occ.counts.get z).getD noCounts

/-! ### Requests and replies -/

/-- What an owner answers an accepted request with (R166): DONE with its CLAMPED flag, or DATA with its content. `newRate`
is the line rate the end of the reply brings (R164). -/
inductive Answer where
  | done (clamped : Bool) (newRate : Option Nat)
  | data (body : List Byte)
deriving DecidableEq, Repr

/-- DONE without clamping. -/
def Answer.ok : Answer := .done false none

/-- What an owner makes of a request: a refusal, which changes no state (R167), or a new state and an answer. -/
abbrev Owned := Except RefusalCode (State × Answer)

/-- Accept with DONE. -/
def accept (clamped : Bool) (s : State) : Owned := .ok (s, .done clamped none)

/-- Refuse when the condition holds, otherwise go on: the checks of a request in their order. -/
def refuseIf (bad : Bool) (c : RefusalCode) (rest : Owned) : Owned := if bad then .error c else rest

/-- The reply frame of an answer, with the request's tag (R166, R185, 11.2). -/
def Answer.frame (tag : Byte) : Answer → Frame
  | .done clamped rate => { kind := 0x80, tag := tag, body := flagsByte [clamped], newRate := rate }
  | .data body => { kind := 0x81, tag := tag, body := body, newRate := none }

/-- The reply frame of a refusal (R166, R185). -/
def refusedFrame (tag : Byte) (c : RefusalCode) : Frame :=
  { kind := 0x82, tag := tag, body := u8 (refusalCode c), newRate := none }

/-- A reply joins the tail of the reply queue (R166). -/
def State.reply (f : Frame) (s : State) : State := { s with port := { s.port with replies := s.port.replies ++ [f] } }

/-- A frame passed its check: the supervision timer restarts from it, and an AUTONOMOUS link returns to SUPERVISED with
the site marked (R174, R175). -/
def State.framePassed (s : State) : State :=
  let t := { s with port := { s.port with link := .supervised, supervisedAt := s.now } }
  match s.port.link with
  | .supervised => t
  | .autonomous => t.mark .site

/-- Whether an access level reaches a minimum (R173). -/
def Access.reaches (present minimum : Access) : Bool := decide (accessCode minimum ≤ accessCode present)

/-- A frame that passed its check is taken as one request (R166): supervision restarts; with 4 replies waiting nothing
more happens; otherwise the port's checks of length and level come first, then the owner's. -/
def State.request {α : Type} (tag : Byte) (minimum : State → Access) (operands : Option α) (owner : α → State → Owned)
    (s : State) : State :=
  let p := s.framePassed
  if Config.replyCapacity ≤ p.port.replies.length then p
  else
    match operands with
    | none => p.reply (refusedFrame tag .badLength)
    | some x =>
      if p.port.access.reaches (minimum p) then
        match owner x p with
        | .error c => p.reply (refusedFrame tag c)
        | .ok (t, a) => t.reply (a.frame tag)
      else p.reply (refusedFrame tag .notPermitted)

/-- Least level VIEW (R173). -/
def levelView (_ : State) : Access := .view

/-- Least level OPERATOR (R173). -/
def levelOperator (_ : State) : Access := .operator

/-- Least level INSTALLER (R173). -/
def levelInstaller (_ : State) : Access := .installer

/-- OPERATOR while "operator edits plans" is set, else INSTALLER (R173). -/
def levelPlans (s : State) : Access := if s.items.editPlans then .operator else .installer

/-- OPERATOR while "operator edits service" is set, else INSTALLER (R173). -/
def levelService (s : State) : Access := if s.items.editService then .operator else .installer

end Sys2Proof.Machine
end

