-- ==== Sys2Proof/Machine/Gas.lean ====
section
/-! DEFINITION. The Gas Conversion Unit (01_gas_measurement): conversion, range selection, smoothing, validity, and its
requests and events. -/

namespace Sys2Proof.Machine

/-! ### Records -/

/-- The neutral calibration of a new head (R2). -/
def Calibration.neutral : Calibration := ⟨4096, 0, 4096, 0, 0, 65535, 0⟩

/-- The run state of a channel created or reset (R2), in FAULT with cause LINK while the head's node is LOST (R16, R17). -/
def ChannelRun.fresh (lost : Bool) : ChannelRun where
  range := .fine
  validity := if lost then .fault else .noData
  cause := if lost then some .link else none
  seedPending := true
  rawFine := 0
  rawCoarse := 0
  value := 0
  smoothed := 0
  lastFresh := none

/-- A head's channel for a gas. -/
def Head.run (h : Head) : Gas → ChannelRun
  | .co => h.co
  | .no2 => h.no2

/-- Replace a head's channel. -/
def Head.setRun (h : Head) (g : Gas) (c : ChannelRun) : Head :=
  match g with
  | .co => { h with co := c }
  | .no2 => { h with no2 := c }

/-- Change both channels. -/
def Head.mapRuns (h : Head) (f : ChannelRun → ChannelRun) : Head := { h with co := f h.co, no2 := f h.no2 }

/-- A head's calibration for a gas. -/
def HeadDefn.cal (d : HeadDefn) : Gas → Calibration
  | .co => d.co
  | .no2 => d.no2

/-- Replace a head's calibration for a gas. -/
def HeadDefn.setCal (d : HeadDefn) (g : Gas) (c : Calibration) : HeadDefn :=
  match g with
  | .co => { d with co := c }
  | .no2 => { d with no2 := c }

/-- What an update carries of a head (R13). -/
def Head.viewEntry (h : Head) : ViewEntry := ⟨h.co.validity, h.co.smoothed, h.no2.validity, h.no2.smoothed⟩

/-! ### Conversion and range selection -/

/-- The conversion of one raw count (R5). -/
def convert (raw gain : Nat) (offset : Int) (shift : Nat) : Nat :=
  let q := raw * gain / 4096
  let sum : Int := (q : Int) + offset
  (min sum.toNat 65535) / 2 ^ shift

/-- Conversion of the fine count by a calibration (R5). -/
def Calibration.fine (c : Calibration) (raw : Nat) : Nat := convert raw c.fineGain c.fineOffset c.shift

/-- Conversion of the coarse count by a calibration (R5). -/
def Calibration.coarse (c : Calibration) (raw : Nat) : Nat := convert raw c.coarseGain c.coarseOffset c.shift

/-- The range after a reading and the reading's result (R6, R7). The counts are at most 4095. -/
def selectRange (c : Calibration) (r : Range) (rawFine rawCoarse : Nat) : Range × Nat :=
  match r with
  | .fine =>
    if rawFine = 4095 ∨ c.crossover ≤ c.fine rawFine then (.coarse, c.coarse rawCoarse) else (.fine, c.fine rawFine)
  | .coarse =>
    if c.hysteresis < c.crossover ∧ c.coarse rawCoarse < c.crossover - c.hysteresis ∧ rawFine < 4095 then
      (.fine, c.fine rawFine)
    else (.coarse, c.coarse rawCoarse)

/-- The smoothed value after a reading's result (R9). -/
def smooth (seed : Bool) (exponent m v : Nat) : Nat :=
  if seed then v
  else if m ≤ v then m + (v - m) / 2 ^ exponent
  else m - (m - v) / 2 ^ exponent

/-! ### Fresh readings -/

/-- A channel takes a reading with head status READY (R4 to R9). -/
def ChannelRun.takeReady (now exponent : Nat) (cal : Calibration) (fine coarse : Nat) (c : ChannelRun) : ChannelRun :=
  let rf := min fine 4095
  let rc := min coarse 4095
  let sel := selectRange cal c.range rf rc
  { range := sel.1, validity := .valid, cause := none, seedPending := false, rawFine := rf, rawCoarse := rc
    value := sel.2, smoothed := smooth c.seedPending exponent c.smoothed sel.2, lastFresh := some now }

/-- A channel takes a reading with head status WARMING (R11). -/
def ChannelRun.takeWarming (now : Nat) (c : ChannelRun) : ChannelRun :=
  { c with validity := .warming, cause := none, lastFresh := some now }

/-- A channel takes a reading with head status FAULT or an unknown code (R11, R8). -/
def ChannelRun.takeFault (now : Nat) (c : ChannelRun) : ChannelRun :=
  { c with validity := .fault, cause := some .head, seedPending := true, lastFresh := some now }

/-- A head takes a fresh reading whole, CO then NO2 (R3). -/
def Head.take (now : Nat) (h : Head) (p : GasPayload) : Head :=
  let e := h.defn.exponent
  match p.status with
  | .ready =>
    { h with
      lastStatus := some .ready
      co := h.co.takeReady now e h.defn.co p.coFine p.coCoarse
      no2 := h.no2.takeReady now e h.defn.no2 p.no2Fine p.no2Coarse }
  | .warming => { h.mapRuns (ChannelRun.takeWarming now) with lastStatus := some .warming }
  | .fault => { h.mapRuns (ChannelRun.takeFault now) with lastStatus := some .fault }

/-- Store a head's record. -/
def State.putHead (i : Nat) (h : Head) (s : State) : State :=
  { s with gas := { s.gas with heads := s.gas.heads.put i h } }

/-- Hand the Zone Air Unit the update of a head's zone (R13). -/
def State.handHead (i : Nat) (h : Head) (s : State) : State :=
  s.hand (.gasUpdate h.defn.zone ⟨i, some h.viewEntry⟩ [])

/-- The updates of an event that affects several heads, each given with its zone: one update for each zone concerned, with
all its affected heads (R13), in rising zone number (DESIGN CHOICE, log 39). -/
def updatesByZone (us : List (Nat × HeadUpdate)) : List Instr :=
  (List.range Config.zones).flatMap fun z =>
    match (us.filter fun u => u.1 == z).map Prod.snd with
    | [] => []
    | u :: more => [.gasUpdate z u more]

/-- Mark the head's zone, which is the new one when it moves (DEDUCED, log 33), when the validity of a channel changed
(R13). -/
def State.markValidity (old new : Head) (s : State) : State :=
  if old.co.validity = new.co.validity ∧ old.no2.validity = new.no2.validity then s else s.mark (.zone new.defn.zone)

/-- A head's channels changed within its zone: store, mark, hand the update (R13). -/
def State.changeHead (i : Nat) (old new : Head) (s : State) : State :=
  ((s.putHead i new).markValidity old new).handHead i new

/-- The number of the head that names a node (R1: at most one). -/
def State.headOf (s : State) (n : NodeId) : Option Nat := s.gas.heads.find fun h => h.defn.node == n

/-- Change the head that names a node, if there is one. -/
def State.changeHeadOf (n : NodeId) (f : Head → Head) (s : State) : State :=
  match s.headOf n with
  | none => s
  | some i =>
    match s.gas.heads.get i with
    | none => s
    | some h => s.changeHead i h (f h)

/-- GAS_READING: a GAS reply's payload; READY clear carries nothing (R3). -/
def effGasReading (n : NodeId) (ready : Bool) (payload : List Byte) (s : State) : State :=
  if ready then
    match parseGasPayload payload with
    | none => s
    | some p => s.changeHeadOf n fun h => h.take s.now p
  else s

/-! ### Expiry and node events -/

/-- Whether a channel's stale time has passed (R12). -/
def ChannelRun.staleDue (now staleTime : Nat) (c : ChannelRun) : Bool :=
  match c.validity, c.lastFresh with
  | .warming, some t => decide (t + staleTime ≤ now)
  | .valid, some t => decide (t + staleTime ≤ now)
  | _, _ => false

/-- A channel becomes STALE (R12, R8). -/
def ChannelRun.goStale (c : ChannelRun) : ChannelRun := { c with validity := .stale, seedPending := true }

/-- STALE_EXPIRY of one channel, when its time has come (R12). -/
def effStaleExpiry (head : Nat) (g : Gas) (s : State) : State :=
  match s.gas.heads.get head with
  | none => s
  | some h =>
    if (h.run g).staleDue s.now s.items.staleTime then s.changeHead head h (h.setRun g (h.run g).goStale) else s

/-- GAS_NODE_LOST: both channels FAULT with cause LINK (R14, R8). -/
def effGasNodeLost (n : NodeId) (s : State) : State :=
  s.changeHeadOf n fun h => h.mapRuns fun c => { c with validity := .fault, cause := some .link, seedPending := true }

/-- GAS_NODE_RESET: both channels NO_DATA (R14, R8). -/
def effGasNodeReset (n : NodeId) (s : State) : State :=
  s.changeHeadOf n fun h =>
    h.mapRuns fun c => { c with validity := .noData, cause := none, seedPending := true, lastFresh := none }

/-! ### Requests -/

/-- The owner's part of HEAD-DEF (R15, R16). -/
def ownHeadDef (r : HeadDefReq) (s : State) : Owned :=
  refuseIf (Config.heads ≤ r.head) .outOfRange <|
  if r.remove then
    match s.gas.heads.get r.head with
    | none => .error .notDefined
    | some h =>
      accept false
        (({ s with gas := { s.gas with heads := s.gas.heads.del r.head } } : State).hand
          (.gasUpdate h.defn.zone ⟨r.head, none⟩ []))
  else
    match nodeOf r.loop r.addr with
    | none => .error .outOfRange
    | some n =>
      refuseIf (Config.zones ≤ r.zone) .outOfRange <|
      match s.node n with
      | none => .error .notDefined
      | some x =>
        refuseIf (!s.zoneDefined r.zone) .notDefined <|
        refuseIf (x.defn.role != .gas) .conflict <|
        refuseIf (s.gas.heads.anyOther r.head fun h => h.defn.node == n) .conflict <|
        let clamped := decide (7 < r.exponent)
        let e := min 7 r.exponent
        let lost := s.nodeLost n
        match s.gas.heads.get r.head with
        | none =>
          let h : Head :=
            { defn := { zone := r.zone, node := n, exponent := e, co := .neutral, no2 := .neutral }
              lastStatus := none, co := .fresh lost, no2 := .fresh lost }
          accept clamped ((s.putHead r.head h).handHead r.head h)
        | some h =>
          let d := { h.defn with zone := r.zone, node := n, exponent := e }
          if h.defn.zone = r.zone ∧ h.defn.node = n then accept clamped (s.putHead r.head { h with defn := d })
          else
            let h' : Head := { defn := d, lastStatus := none, co := .fresh lost, no2 := .fresh lost }
            let t := if h.defn.zone = r.zone then s else s.hand (.gasUpdate h.defn.zone ⟨r.head, none⟩ [])
            accept clamped (t.changeHead r.head h h')

/-- The owner's part of HEAD-CAL (R17). DESIGN CHOICE (log 35): the gas code is checked before the head. -/
def ownHeadCal (r : HeadCalReq) (s : State) : Owned :=
  refuseIf (Config.heads ≤ r.head) .outOfRange <|
  match gasOf r.gas with
  | none => .error .outOfRange
  | some g =>
    match s.gas.heads.get r.head with
    | none => .error .notDefined
    | some h =>
      let cal := { r.cal with shift := min 7 r.cal.shift }
      let h' := { h with defn := h.defn.setCal g cal }.setRun g (.fresh (s.nodeLost h.defn.node))
      accept (decide (7 < r.cal.shift)) (s.changeHead r.head h h')

/-- DEFAULTS in the Gas Conversion Unit: every head undefined, each zone that had heads updated (R20). -/
def defaultsGas (s : State) : State :=
  ({ s with gas := { heads := [] } } : State).handAll
    (updatesByZone (List.map (fun e : Nat × Head => (e.2.defn.zone, ⟨e.1, none⟩)) s.gas.heads))

/-- The head table at a start (R20). -/
def startGas (heads : Table HeadDefn) : GasUnit :=
  { heads := heads.map fun _ d => { defn := d, lastStatus := none, co := .fresh false, no2 := .fresh false } }

/-- A channel whose stale time has passed becomes STALE (R12). -/
def ChannelRun.recheck (now staleTime : Nat) (c : ChannelRun) : ChannelRun :=
  if c.staleDue now staleTime then c.goStale else c

/-- Whether the stale time of a channel of the head has passed (R12). -/
def Head.staleDue (now staleTime : Nat) (h : Head) : Bool := h.co.staleDue now staleTime || h.no2.staleDue now staleTime

/-- SET-ITEM of the stale time: every channel whose time already lies past becomes STALE at once (R12), in one event, after
which each zone concerned is handed one update of all its affected heads (R13). -/
def recheckStale (s : State) : State :=
  let recheck := ChannelRun.recheck s.now s.items.staleTime
  let affected := s.gas.heads.select (Head.staleDue s.now s.items.staleTime)
  (({ s with gas := { heads := s.gas.heads.map fun _ h => h.mapRuns recheck } } : State).markAll
      (affected.map fun e => .zone e.2.defn.zone)).handAll
    (updatesByZone (affected.map fun e => (e.2.defn.zone, ⟨e.1, some (e.2.mapRuns recheck).viewEntry⟩)))

end Sys2Proof.Machine
end

