-- ==== Sys2Proof/Machine/Bays.lean ====
section
/-! DEFINITION. The Occupancy Unit (04_bays_and_ramps): debounce, bay events and counts, ramps and passages, and its
requests and events. -/

namespace Sys2Proof.Machine

/-! ### Counts (R82) -/

/-- The count of a state. -/
def Counts.get (c : Counts) : BayState → Nat
  | .unknown => c.unknown
  | .free => c.free
  | .occupied => c.occupied
  | .outOfService => c.outOfService

/-- Replace the count of a state. -/
def Counts.set (c : Counts) (st : BayState) (n : Nat) : Counts :=
  match st with
  | .unknown => { c with unknown := n }
  | .free => { c with free := n }
  | .occupied => { c with occupied := n }
  | .outOfService => { c with outOfService := n }

/-- All bays of a zone and class. -/
def Counts.total (c : Counts) : Nat := c.free + c.occupied + c.unknown + c.outOfService

/-- The sum of two counts, state by state. -/
def Counts.plus (a b : Counts) : Counts :=
  ⟨a.free + b.free, a.occupied + b.occupied, a.unknown + b.unknown, a.outOfService + b.outOfService⟩

/-- The sum over the four classes. -/
def PerClass.sum (p : PerClass Counts) : Counts := ((p.standard.plus p.wide).plus p.charging).plus p.accessible

/-- Change one count of a zone. -/
def State.recordCount (z : Nat) (c : BayClass) (st : BayState) (f : Nat → Nat) (s : State) : State :=
  let p := s.counts z
  let n := p.get c
  { s with occ := { s.occ with counts := s.occ.counts.put z (p.set c (n.set st (f (n.get st)))) } }

/-- A bay enters the counts; its zone is marked (R79, R85). -/
def State.countIn (b : Bay) (s : State) : State :=
  (s.recordCount b.defn.zone b.defn.cls b.state (· + 1)).mark (.zone b.defn.zone)

/-- A bay leaves the counts; its zone is marked (R79, R85). -/
def State.countOut (b : Bay) (s : State) : State :=
  (s.recordCount b.defn.zone b.defn.cls b.state (· - 1)).mark (.zone b.defn.zone)

/-- Store a bay's record. -/
def State.putBay (i : Nat) (b : Bay) (s : State) : State :=
  { s with occ := { s.occ with bays := s.occ.bays.put i b } }

/-- A bay's record changes from `old` to `new`, and its contribution to the counts moves with its state, zone and class
(R82, R85). -/
def State.changeBay (i : Nat) (old new : Bay) (s : State) : State :=
  let t := s.putBay i new
  if old.state = new.state ∧ old.defn.zone = new.defn.zone ∧ old.defn.cls = new.defn.cls then t
  else (t.countOut old).countIn new

/-- The count deliveries of an event: each zone and class whose free count differs from before (R81), in rising zone number
and class order (DESIGN CHOICE, log 2). -/
def countDeliveries (before after : State) : List Instr :=
  (List.range Config.zones).flatMap fun z =>
    classList.filterMap fun c =>
      let n := ((after.counts z).get c).free
      if ((before.counts z).get c).free = n then none else some (Instr.countDelivery z c n)

/-- Once an event's bays and counts are settled, its free count changes are handed to the Guidance Unit (R81). -/
def State.handCounts (s before : State) : State := s.handAll (countDeliveries before s)

/-! ### Debounce (R78 to R80) -/

/-- A reading agrees with a state (R78); nothing agrees with OUT_OF_SERVICE (R80). -/
def agrees : BayReading → BayState → Bool
  | .vacant, .free => true
  | .present, .occupied => true
  | .fault, .unknown => true
  | .notFitted, .unknown => true
  | _, _ => false

/-- The state a confirmed candidate gives (R78). -/
def confirmed : BayReading → BayState
  | .vacant => .free
  | .present => .occupied
  | .fault => .unknown
  | .notFitted => .unknown

/-- A bay takes a reading (R78, R80), with confirmation count `k` at site clock `now`. -/
def Bay.debounce (now k : Nat) (r : BayReading) (b : Bay) : Bay :=
  match b.state with
  | .outOfService =>
    if b.candidate = some r then
      { b with counter := if b.counter < k then b.counter + 1 else k }
    else { b with candidate := some r, counter := 1 }
  | .unknown | .free | .occupied =>
    if agrees r b.state then { b with counter := 0 }
    else
      let n := if b.candidate = some r then b.counter + 1 else 1
      if k ≤ n then { b with candidate := some r, counter := 0, state := confirmed r, lastChange := now }
      else { b with candidate := some r, counter := n }

/-- A bay event: a move between FREE and OCCUPIED (R79). -/
def bayEvent (old new : BayState) : Bool :=
  match old, new with
  | .free, .occupied => true
  | .occupied, .free => true
  | _, _ => false

/-- What a bay event hands on: traffic to its zone and a presence trigger with its id (R81). -/
def bayEventHandOn (i : Nat) (b : Bay) : List Instr := [.trafficEvent b.defn.zone, .presenceTrigger (.bay i)]

/-- One bay takes its reading of a strip. -/
def State.takeReading (readings : List BayReading) (i : Nat) (s : State) : State :=
  match s.occ.bays.get i with
  | none => s
  | some b =>
    let c := b.debounce s.now s.items.confirmation (readings.getD b.defn.channel .fault)
    let t := s.changeBay i b c
    if bayEvent b.state c.state then t.handAll (bayEventHandOn i b) else t

/-- The numbers of the bays that name a node, rising. -/
def State.baysOf (s : State) (n : NodeId) : List Nat := (s.occ.bays.select fun b => b.defn.node == n).map Prod.fst

/-- BAY_STRIP_READING: READY clear carries no readings; otherwise every bay of the node is debounced in ascending id
(R77). -/
def effBayStripReading (n : NodeId) (ready : Bool) (payload : List Byte) (s : State) : State :=
  if ready then
    match parseStrip payload with
    | none => s
    | some rs => ((s.baysOf n).foldl (fun t i => t.takeReading rs i) s).handCounts s
  else s

/-! ### Node events (R83) -/

/-- A bay whose strip is lost: FREE and OCCUPIED become UNKNOWN, counter and candidate are reset (R83). -/
def Bay.lost (now : Nat) (b : Bay) : Bay :=
  match b.state with
  | .free | .occupied => { b with state := .unknown, candidate := none, counter := 0, lastChange := now }
  | .unknown | .outOfService => { b with candidate := none, counter := 0 }

/-- Change every bay of a node and hand on the counts (R83, R81). DESIGN CHOICE (log 39): in ascending bay id, which R77
states of a strip reading only. -/
def State.changeBaysOf (n : NodeId) (f : Bay → Bay) (s : State) : State :=
  ((s.baysOf n).foldl
    (fun t i =>
      match t.occ.bays.get i with
      | none => t
      | some b => t.changeBay i b (f b)) s).handCounts s

/-- BAY_NODE_LOST (R83). -/
def effBayNodeLost (n : NodeId) (s : State) : State := s.changeBaysOf n (Bay.lost s.now)

/-- BAY_NODE_RESET: as for a loss (R83). -/
def effBayNodeReset (n : NodeId) (s : State) : State := s.changeBaysOf n (Bay.lost s.now)

/-- BAY_NODE_RESTART: counters and candidates are cleared, states kept (R83). -/
def effBayNodeRestart (n : NodeId) (s : State) : State :=
  s.changeBaysOf n fun b => { b with candidate := none, counter := 0 }

/-! ### Bay requests -/

/-- The owner's part of BAY-DEF (R84, R85). -/
def ownBayDef (r : BayDefReq) (s : State) : Owned :=
  refuseIf (Config.bays ≤ r.bay) .outOfRange <|
  if r.remove then
    match s.occ.bays.get r.bay with
    | none => .error .notDefined
    | some b =>
      let t : State := { s with occ := { s.occ with bays := s.occ.bays.del r.bay } }
      accept false ((t.countOut b).handCounts s)
  else
    match nodeOf r.loop r.addr, classOf r.cls with
    | some n, some c =>
      refuseIf (Config.zones ≤ r.zone || 24 ≤ r.channel) .outOfRange <|
      match s.node n with
      | none => .error .notDefined
      | some x =>
        refuseIf (!s.zoneDefined r.zone) .notDefined <|
        refuseIf (x.defn.role != .bay) .conflict <|
        refuseIf (s.occ.bays.anyOther r.bay fun b => b.defn.node == n && b.defn.channel == r.channel) .conflict <|
        let d : BayDefn := { zone := r.zone, node := n, channel := r.channel, cls := c }
        match s.occ.bays.get r.bay with
        | none =>
          let b : Bay := { defn := d, state := .unknown, candidate := none, counter := 0, lastChange := s.now }
          accept false (((s.putBay r.bay b).countIn b).handCounts s)
        | some b =>
          if b.defn = d then accept false s
          else if b.defn.zone = d.zone ∧ b.defn.node = d.node ∧ b.defn.channel = d.channel then
            accept false ((s.changeBay r.bay b { b with defn := d }).handCounts s)
          else
            accept false
              ((s.changeBay r.bay b
                { defn := d, state := .unknown, candidate := none, counter := 0, lastChange := s.now }).handCounts s)
    | _, _ => .error .outOfRange

/-- The defined bays of a range of ids, rising. -/
def State.bayRange (s : State) (first last : Nat) : List Nat :=
  s.occ.bays.keys.filter fun i => decide (first ≤ i) && decide (i ≤ last)

/-- A bay taken OUT of service (R86). -/
def Bay.takeOut (now : Nat) (b : Bay) : Bay :=
  match b.state with
  | .outOfService => b
  | .unknown | .free | .occupied => { b with state := .outOfService, lastChange := now }

/-- A bay taken back IN (R86). -/
def Bay.takeIn (now : Nat) (b : Bay) : Bay :=
  match b.state with
  | .outOfService => { b with state := .unknown, candidate := none, counter := 0, lastChange := now }
  | .unknown | .free | .occupied => b

/-- The owner's part of BAY-SERVICE (R86). DESIGN CHOICE (log 39): the bays of the range are taken in ascending bay id. -/
def ownBayService (r : Nat × Nat × Nat) (s : State) : Owned :=
  refuseIf (Config.bays ≤ r.1 || Config.bays ≤ r.2.1 || r.2.1 < r.1 || 1 < r.2.2) .outOfRange <|
  let ids := s.bayRange r.1 r.2.1
  refuseIf ids.isEmpty .notDefined <|
  let f := if r.2.2 = 0 then Bay.takeOut s.now else Bay.takeIn s.now
  accept false
    ((ids.foldl
      (fun t i =>
        match t.occ.bays.get i with
        | none => t
        | some b => t.changeBay i b (f b)) s).handCounts s)

/-! ### Ramps (R90 to R92) -/

/-- Store a ramp's record. -/
def State.putRamp (i : Nat) (r : Ramp) (s : State) : State :=
  { s with occ := { s.occ with ramps := s.occ.ramps.put i r } }

/-- A ramp's standing flag takes a value; a change is handed to the Zone Air Unit (R90). -/
def State.setStanding (i : Nat) (r : Ramp) (flag : Bool) (s : State) : State :=
  if r.standing = flag then s
  else (s.putRamp i { r with standing := flag }).hand (.standingChange r.defn.zone i flag)

/-- The entry sign of a passage's arrival end (R91). -/
def RampDefn.entrySign (d : RampDefn) : PassageDir → Option Nat
  | .down => d.lowerSign
  | .up => d.upperSign
  | .unknown => none

/-- A ramp's record after a passage (R91). -/
def Ramp.pass (now : Nat) (dir : PassageDir) (r : Ramp) : Ramp :=
  match dir with
  | .up => { r with upTally := heldSucc 65535 r.upTally, last := some (.up, now) }
  | .down => { r with downTally := heldSucc 65535 r.downTally, last := some (.down, now) }
  | .unknown => { r with last := some (.unknown, now) }

/-- What a passage hands on: traffic, the ramp's presence trigger, and an escort where the arrival end has a sign
(R91). -/
def passageHandOn (i : Nat) (d : RampDefn) (dir : PassageDir) : List Instr :=
  [Instr.trafficEvent d.zone, Instr.presenceTrigger (.ramp i)]
    ++ (match d.entrySign dir with | some g => [Instr.escort g] | none => [])

/-- The Loop Master counts an overflow of a ramp detector and marks the node (R143). -/
def State.countOverflow (n : NodeId) (s : State) : State :=
  match s.node n with
  | none => s
  | some x =>
    let tally := match x.report with | .ramp k => k | .empty | .sign _ | .lamp _ => 0
    (s.setNode n { x with report := .ramp (heldSucc 255 tally) }).mark (.node n)

/-- The number of the ramp that names a node (R89: at most one). -/
def State.rampOf (s : State) (n : NodeId) : Option Nat := s.occ.ramps.find fun r => r.defn.node == n

/-- RAMP_READING: ramp lookup, standing, overflow, passage, in this order (R90, R91). -/
def effRampReading (n : NodeId) (ready : Bool) (payload : List Byte) (s : State) : State :=
  match parseRampPayload payload, s.rampOf n with
  | some p, some i =>
    match s.occ.ramps.get i with
    | none => s
    | some r =>
      let t := s.setStanding i r p.standing
      let u := if p.overflow then t.countOverflow n else t
      if ready then
        (u.putRamp i (({ r with standing := p.standing } : Ramp).pass s.now p.direction)).handAll
          (passageHandOn i r.defn p.direction)
      else u
  | _, _ => s

/-- RAMP_NODE_LOST: the ramp keeps its standing flag (R92). -/
def effRampNodeLost (_ : NodeId) (s : State) : State := s

/-- RAMP_NODE_RESET: the standing flag clears and the change is handed on (R92). -/
def effRampNodeReset (n : NodeId) (s : State) : State :=
  match s.rampOf n with
  | none => s
  | some i =>
    match s.occ.ramps.get i with
    | none => s
    | some r => s.setStanding i r false

/-- Whether an optional sign id is absent or one of 0 to 63. -/
def signIdOk (n : Nat) : Bool := n == 0xFF || decide (n < Config.signs)

/-- The owner's part of RAMP-DEF (R93). -/
def ownRampDef (r : RampDefReq) (s : State) : Owned :=
  refuseIf (Config.ramps ≤ r.ramp) .outOfRange <|
  if r.remove then
    match s.occ.ramps.get r.ramp with
    | none => .error .notDefined
    | some p =>
      let t : State := { s with occ := { s.occ with ramps := s.occ.ramps.del r.ramp } }
      accept false (if p.standing then t.hand (.standingChange p.defn.zone r.ramp false) else t)
  else
    match nodeOf r.loop r.addr with
    | none => .error .outOfRange
    | some n =>
      refuseIf
          (Config.zones ≤ r.zone || Config.levels ≤ r.upper || Config.levels ≤ r.lower || r.lower < r.upper
            || !signIdOk r.lowerSign || !signIdOk r.upperSign) .outOfRange <|
      match s.node n with
      | none => .error .notDefined
      | some x =>
        refuseIf (!s.zoneDefined r.zone) .notDefined <|
        refuseIf (x.defn.role != .ramp || s.occ.ramps.anyOther r.ramp fun p => p.defn.node == n) .conflict <|
        let d : RampDefn :=
          { node := n, zone := r.zone, upper := r.upper, lower := r.lower
            lowerSign := optionalId r.lowerSign, upperSign := optionalId r.upperSign }
        match s.occ.ramps.get r.ramp with
        | none =>
          accept false
            (s.putRamp r.ramp { defn := d, standing := false, upTally := 0, downTally := 0, last := none })
        | some p =>
          if p.defn.node ≠ n then
            let t := s.putRamp r.ramp { p with defn := d, standing := false }
            accept false (if p.standing then t.hand (.standingChange p.defn.zone r.ramp false) else t)
          else
            let t := s.putRamp r.ramp { p with defn := d }
            if p.defn.zone ≠ r.zone ∧ p.standing = true then
              accept false
                (t.handAll [.standingChange p.defn.zone r.ramp false, .standingChange r.zone r.ramp true])
            else accept false t

/-! ### Start and DEFAULTS (R94) -/

/-- The bay table at a start (R94). -/
def startBays (bays : Table BayDefn) : Table Bay :=
  bays.map fun _ d => { defn := d, state := .unknown, candidate := none, counter := 0, lastChange := 0 }

/-- The counts at a start: unknown equal to the number of bays of each zone and class (R94). -/
def startCounts (bays : Table Bay) : Table (PerClass Counts) :=
  List.foldl
    (fun (t : Table (PerClass Counts)) (e : Nat × Bay) =>
      let p := (t.get e.2.defn.zone).getD noCounts
      let n := p.get e.2.defn.cls
      t.put e.2.defn.zone (p.set e.2.defn.cls { n with unknown := n.unknown + 1 }))
    [] bays

/-- The ramp table at a start (R94). -/
def startRamps (ramps : Table RampDefn) : Table Ramp :=
  ramps.map fun _ d => { defn := d, standing := false, upTally := 0, downTally := 0, last := none }

/-- DEFAULTS in the Occupancy Unit: every bay and ramp undefined, counts to 0, changes handed on (R94). DESIGN CHOICE (log
39): the zones are marked in the rising bay number of the removed bays, and the standing ramps handed on in rising ramp
number; R94 gives no order. -/
def defaultsOccupancy (s : State) : State :=
  let zones := (s.occ.bays.map fun _ b => b.defn.zone)
  let t : State := { s with occ := { bays := [], counts := [], ramps := [] } }
  let u := (t.markAll (List.map (fun e => Subject.zone e.2) zones)).handCounts s
  u.handAll
    (List.filterMap
      (fun e : Nat × Ramp => if e.2.standing then some (Instr.standingChange e.2.defn.zone e.1 false) else none)
      s.occ.ramps)

end Sys2Proof.Machine
end

