-- ==== Sys2Proof/Machine/Zones.lean ====
section
/-! DEFINITION. The Zone Air Unit (02_zone_air_state_and_ventilation_demand): gas figures and alarms, the alarm order
list, the terms and the demand, closure, what a zone hands on, and its requests and events. -/

namespace Sys2Proof.Machine

/-! ### Records -/

/-- The limits of a new zone (2.2, Limits at definition). -/
def GasLimits.newCo : GasLimits := ⟨300, 1000, 1500, 1000⟩

/-- The limits of a new zone (2.2, Limits at definition). -/
def GasLimits.newNo2 : GasLimits := ⟨100, 300, 500, 300⟩

/-- A zone's limits for a gas. -/
def ZoneDefn.limits (d : ZoneDefn) : Gas → GasLimits
  | .co => d.co
  | .no2 => d.no2

/-- Replace a zone's limits for a gas. -/
def ZoneDefn.setLimits (d : ZoneDefn) (g : Gas) (l : GasLimits) : ZoneDefn :=
  match g with
  | .co => { d with co := l }
  | .no2 => { d with no2 := l }

/-- A zone's figure for a gas. -/
def Zone.figure (z : Zone) : Gas → Option Nat
  | .co => z.coFigure
  | .no2 => z.no2Figure

/-! ### Figures and alarms -/

/-- The smoothed values of a gas's VALID channels in a view (R22). -/
def validValues (view : Table ViewEntry) (g : Gas) : List Nat :=
  List.filterMap
    (fun e : Nat × ViewEntry =>
      match g with
      | .co => if e.2.coValidity = .valid then some e.2.coValue else none
      | .no2 => if e.2.no2Validity = .valid then some e.2.no2Value else none)
    view

/-- The greatest of a list, absent when it is empty. -/
def greatest : List Nat → Option Nat
  | [] => none
  | x :: t => some (t.foldl max x)

/-- A gas's figure from a view: the greatest m of the VALID channels, or UNKNOWN (R22). -/
def figureOf (view : Table ViewEntry) (g : Gas) : Option Nat := greatest (validValues view g)

/-- A gas's alarm state after an evaluation (R23). -/
def alarmAfter (l : GasLimits) (figure : Option Nat) (set : Bool) : Bool :=
  match figure with
  | none => set
  | some f => if set then decide (min l.alarmOff l.alarmOn ≤ f) else decide (l.alarmOn ≤ f)

/-- Evaluate a gas's alarm (R23). -/
def Zone.evalAlarm (g : Gas) (z : Zone) : Zone :=
  match g with
  | .co => { z with coAlarm := alarmAfter z.defn.co z.coFigure z.coAlarm }
  | .no2 => { z with no2Alarm := alarmAfter z.defn.no2 z.no2Figure z.no2Alarm }

/-- Recompute both figures from the view and evaluate both alarms (R22, R23). -/
def Zone.refigure (z : Zone) : Zone :=
  (({ z with coFigure := figureOf z.view .co, no2Figure := figureOf z.view .no2 } : Zone).evalAlarm .co).evalAlarm .no2

/-! ### Terms and demand -/

/-- The gas term of a figure (R25). -/
def gasTerm (fallback : Nat) (l : GasLimits) (figure : Option Nat) : Nat :=
  match figure with
  | none => fallback
  | some f =>
    if l.start < l.full then
      if f ≤ l.start then 0 else if l.full ≤ f then 100 else 100 * (f - l.start) / (l.full - l.start)
    else if l.start ≤ f then 100 else 0

/-- The traffic count T (R27). -/
def Zone.traffic (z : Zone) : Nat := z.ring.sum

/-- The traffic term (R28). -/
def trafficTermOf (t w : Nat) : Nat := min 100 (t * w / 4)

/-- The queue term (R29). -/
def queueTermOf (standing : List Nat) (q : Nat) : Nat := if standing.isEmpty then 0 else q

/-- The demand: 100 in gas alarm, else the greatest of the five terms (R31). -/
def Zone.demandOf (z : Zone) : Nat :=
  if z.inAlarm then 100
  else max z.coTerm (max z.no2Term (max z.trafficTerm (max z.queueTerm z.floorTerm)))

/-- Recompute the gas, traffic and queue terms and the demand from the zone's record (R25, R28, R29, R31). The floor term
is set where R30 sets it. -/
def Zone.recompute (fallback : Nat) (z : Zone) : Zone :=
  let y : Zone :=
    { z with
      coTerm := gasTerm fallback z.defn.co z.coFigure
      no2Term := gasTerm fallback z.defn.no2 z.no2Figure
      trafficTerm := trafficTermOf z.traffic z.defn.weight
      queueTerm := queueTermOf z.standing z.defn.queueDemand }
  { y with demand := y.demandOf }

/-- The ventilation floor of a site mode (R30). -/
def floorOf (it : Items) : SiteMode → Nat
  | .opened => it.openFloor
  | .quiet => it.quietFloor

/-! ### Settling a zone and handing on -/

/-- Store a zone's record. -/
def State.putZone (i : Nat) (z : Zone) (s : State) : State :=
  { s with air := { s.air with zones := s.air.zones.put i z } }

/-- What an event did to a zone's place in the alarm order list (R24). -/
def listMove (old new : Bool) : ListMove :=
  match old, new with
  | false, true => .entered
  | true, false => .left
  | _, _ => .stayed

/-- The alarm order list follows a zone, and each change marks the site subject (R24). -/
def State.moveInAlarmOrder (i : Nat) (m : ListMove) (s : State) : State :=
  match m with
  | .stayed => s
  | .entered => ({ s with air := { s.air with alarmOrder := s.air.alarmOrder ++ [i] } } : State).mark .site
  | .left => ({ s with air := { s.air with alarmOrder := s.air.alarmOrder.filter (· ≠ i) } } : State).mark .site

/-- Whether NOTE-ZONE is marked by the difference of two records: alarm states, closure or causes, host closure flag, D,
unventilated flag (R35). -/
def Zone.noted (old new : Zone) : Bool :=
  old.coAlarm != new.coAlarm || old.no2Alarm != new.no2Alarm || old.hostClosed != new.hostClosed
    || old.demand != new.demand || old.unventilated != new.unventilated

/-- The zone changes of an event: to each neighbour for which one of its items changed (R34). -/
def zoneChanges (i : Nat) (old new : Zone) : List Instr :=
  let move := listMove old.inAlarm new.inAlarm
  let planChanged := new.inAlarm && old.defn.alarmPlan != new.defn.alarmPlan
  let demand := if old.demand = new.demand then none else some new.demand
  (if demand.isSome || old.alarm != new.alarm || planChanged then
      [Instr.zoneChangeFan ⟨i, demand, new.alarm, move, planChanged⟩] else [])
    ++ (if old.closed != new.closed then [Instr.zoneChangeGuidance i new.closed] else [])
    ++ (if old.inAlarm != new.inAlarm then [Instr.zoneChangeLighting i new.inAlarm] else [])

/-- An event changed a zone's record from `old` to `new`: terms and demand are recomputed, the alarm order list follows,
the zone is marked, and the zone changes are handed on (R24, R31, R34, R35). DESIGN CHOICE (log 40): a change of the list marks
the site before the zone is marked. -/
def State.settleZone (i : Nat) (old new : Zone) (s : State) : State :=
  let z := new.recompute s.items.fallback
  let t := (s.putZone i z).moveInAlarmOrder i (listMove old.inAlarm z.inAlarm)
  let u := if old.noted z then t.mark (.zone i) else t
  u.handAll (zoneChanges i old z)

/-- Change a defined zone's record and settle it; an undefined zone is passed over. -/
def State.changeZone (i : Nat) (f : Zone → Zone) (s : State) : State :=
  match s.zone i with
  | none => s
  | some z => s.settleZone i z (f z)

/-- Change every defined zone, in rising zone number (DESIGN CHOICE, log 39). -/
def State.changeZones (f : Zone → Zone) (s : State) : State :=
  s.air.zones.keys.foldl (fun s i => s.changeZone i f) s

/-! ### Events -/

/-- A zone's channel view takes what an update says of one head: its entry is replaced or deleted (R22). -/
def Zone.see (z : Zone) (u : HeadUpdate) : Zone :=
  match u.entry with
  | some e => { z with view := z.view.put u.head e }
  | none => { z with view := z.view.del u.head }

/-- GAS_UPDATE: a zone's channel view takes every affected head, and the zone is settled once (R13, R22, R23, R31). -/
def effGasUpdate (zone : Nat) (update : HeadUpdate) (more : List HeadUpdate) (s : State) : State :=
  s.changeZone zone fun z => ((update :: more).foldl Zone.see z).refigure

/-- Add one to the newest sub-count, held at 255 (R26). -/
def bumpNewest : List Nat → List Nat
  | [] => []
  | [n] => [heldSucc 255 n]
  | x :: t => x :: bumpNewest t

/-- TRAFFIC_EVENT (R26). -/
def effTrafficEvent (zone : Nat) (s : State) : State :=
  s.changeZone zone fun z => { z with ring := bumpNewest z.ring }

/-- The period of the sub-window timer (R27). -/
def subWindow (it : Items) : Nat := it.trafficWindow / 6

/-- Whether the sub-window timer has run out (R27). -/
def State.subWindowDue (s : State) : Bool := decide (s.air.subWindowStart + subWindow s.items ≤ s.now)

/-- SUB_WINDOW_EXPIRY: every ring drops its oldest sub-count and opens a new one, and the timer restarts (R27). -/
def effSubWindowExpiry (s : State) : State :=
  if s.subWindowDue then
    ({ s with air := { s.air with subWindowStart := s.now } } : State).changeZones fun z =>
      { z with ring := z.ring.drop 1 ++ [0] }
  else s

/-- STANDING_CHANGE: a ramp is entered in a zone's standing set, which is kept in order of entry (log 10), or deleted from
it (R29). -/
def effStandingChange (zone ramp : Nat) (standing : Bool) (s : State) : State :=
  s.changeZone zone fun z =>
    if standing then
      if ramp ∈ z.standing then z else { z with standing := z.standing ++ [ramp] }
    else { z with standing := z.standing.filter (· ≠ ramp) }

/-- UNVENTILATED_FLAG_CHANGE (R33). -/
def effUnventilated (zone : Nat) (flag : Bool) (s : State) : State :=
  s.changeZone zone fun z => { z with unventilated := flag }

/-- SITE_MODE_FLOOR_CHANGE: every floor term takes the mode's floor (R30). -/
def effSiteModeFloor (mode : SiteMode) (s : State) : State :=
  s.changeZones fun z => { z with floorTerm := floorOf s.items mode }

/-! ### Requests -/

/-- The run part of a new zone (R36): `unventilated` as the Fan Controller finds it. -/
def Zone.new (d : ZoneDefn) (floor : Nat) (unventilated : Bool) : Zone where
  defn := d
  view := []
  coFigure := none
  no2Figure := none
  coAlarm := false
  no2Alarm := false
  ring := [0, 0, 0, 0, 0, 0]
  standing := []
  coTerm := 0
  no2Term := 0
  trafficTerm := 0
  queueTerm := 0
  floorTerm := floor
  demand := 0
  hostClosed := false
  unventilated := unventilated

/-- Whether a record names a zone (R36). -/
def State.zoneNamed (s : State) (z : Nat) : Bool :=
  s.gas.heads.any (fun h => h.defn.zone == z) || s.occ.bays.any (fun b => b.defn.zone == z)
    || s.occ.ramps.any (fun r => r.defn.zone == z) || s.fans.fans.any (fun f => f.defn.zone == z)
    || s.light.groups.any (fun g => g.defn.zone == z)
    || s.guide.signs.any fun g => g.defn.sources.contains z || g.defn.directions.any fun d => d.zones.contains z

/-- The Fan Controller's entry of a new zone: no fan can name it yet, so n is 0 and the zone is unventilated
(R36, R49 to R51). -/
def ZoneFans.new : ZoneFans where
  steps := 0
  duty := []
  available := 0
  unventilated := true

/-- Store what the Fan Controller keeps of a zone. -/
def State.putZoneFans (z : Nat) (x : ZoneFans) (s : State) : State :=
  { s with fans := { s.fans with zones := s.fans.zones.put z x } }

/-- Remove a defined zone (R36): its alarms and its host closure end, and the neighbours are told. -/
def State.removeZone (i : Nat) (z : Zone) (s : State) : State :=
  let ended : Zone := { z with coAlarm := false, no2Alarm := false, hostClosed := false }
  let t : State :=
    { s with
      air := { s.air with zones := s.air.zones.del i }
      fans := { s.fans with zones := s.fans.zones.del i }
      occ := { s.occ with counts := s.occ.counts.del i } }
  let u := t.moveInAlarmOrder i (listMove z.inAlarm false)
  (u.handAll (zoneChanges i z ended)).mark (.zone i)

/-- The owner's part of ZONE-DEF (R36). -/
def ownZoneDef (r : ZoneDefReq) (s : State) : Owned :=
  refuseIf (Config.zones ≤ r.zone) .outOfRange <|
  if r.remove then
    match s.zone r.zone with
    | none => .error .notDefined
    | some z => refuseIf (s.zoneNamed r.zone) .conflict <| accept false (s.removeZone r.zone z)
  else
    match zoneKindOf r.kind with
    | none => .error .outOfRange
    | some kind =>
      refuseIf (Config.levels ≤ r.level || (r.alarmPlan != 0xFF && Config.plans ≤ r.alarmPlan)) .outOfRange <|
      let clamped := decide (100 < r.queueDemand)
      let q := min 100 r.queueDemand
      match s.zone r.zone with
      | none =>
        let d : ZoneDefn :=
          { kind := kind, level := r.level, co := .newCo, no2 := .newNo2, alarmPlan := optionalId r.alarmPlan
            weight := r.weight, queueDemand := q }
        let z := Zone.new d (floorOf s.items s.light.mode) true
        accept clamped (((s.putZoneFans r.zone .new).settleZone r.zone z z).mark (.zone r.zone))
      | some z =>
        let d :=
          { z.defn with
            kind := kind, level := r.level, alarmPlan := optionalId r.alarmPlan, weight := r.weight, queueDemand := q }
        accept clamped ((s.settleZone r.zone z { z with defn := d }).mark (.zone r.zone))

/-- The owner's part of ZONE-LIMITS (R37). DESIGN CHOICE (log 36): the zone is marked also when its limits stay. -/
def ownZoneLimits (r : ZoneLimitsReq) (s : State) : Owned :=
  refuseIf (Config.zones ≤ r.zone) .outOfRange <|
  match gasOf r.gas with
  | none => .error .outOfRange
  | some g =>
    match s.zone r.zone with
    | none => .error .notDefined
    | some z =>
      accept false
        ((s.settleZone r.zone z (({ z with defn := z.defn.setLimits g r.limits } : Zone).evalAlarm g)).mark
          (.zone r.zone))

/-- The owner's part of ZONE-CLOSE and ZONE-OPEN (R38, R32). -/
def ownZoneClosure (flag : Bool) (zone : Nat) (s : State) : Owned :=
  refuseIf (Config.zones ≤ zone) .outOfRange <|
  match s.zone zone with
  | none => .error .notDefined
  | some z =>
    if z.hostClosed = flag then accept false s else accept false (s.settleZone zone z { z with hostClosed := flag })

/-! ### Start, DEFAULTS and settings -/

/-- The zone table at a start (R40). `unventilated` is the Fan Controller's finding for each zone (R75). -/
def startZones (zones : Table ZoneDefn) (it : Items) (unventilated : Nat → Bool) : Table Zone :=
  zones.map fun i d => (Zone.new d (floorOf it .opened) (unventilated i)).recompute it.fallback

/-- The first zone changes of a start: each zone's D is handed to the Fan Controller (R40). -/
def startZoneChanges (zones : Table Zone) : List Instr :=
  List.map (fun e : Nat × Zone => Instr.zoneChangeFan ⟨e.1, some e.2.demand, .none, .stayed, false⟩) zones

/-- DEFAULTS in the Zone Air Unit: every zone is removed (R40). -/
def defaultsZones (s : State) : State :=
  s.air.zones.keys.foldl (fun s i => match s.zone i with | none => s | some z => s.removeZone i z) s

/-- SET-ITEM of the traffic window: rings to 0, timer restarted, demands recomputed (R27). -/
def restartTraffic (s : State) : State :=
  ({ s with air := { s.air with subWindowStart := s.now } } : State).changeZones fun z =>
    { z with ring := [0, 0, 0, 0, 0, 0] }

/-- SET-ITEM of the fallback demand: gas terms and demands are recomputed (R40). -/
def recheckZones (s : State) : State := s.changeZones id

end Sys2Proof.Machine
end

