-- ==== Sys2Proof/Machine/Fans.lean ====
section
/-! DEFINITION. The Fan Controller (03_jet_fans_flow_plans_and_the_start_queue): fan records and loads, flow plans, step
mapping and duty order, the start queue, and its requests and events. -/

namespace Sys2Proof.Machine

/-! ### Loads and commands -/

/-- The load a fan counts in the supply account (R42). -/
def Fan.load (f : Fan) : Nat :=
  match f.state with
  | .starting => f.defn.startLoad
  | .running =>
    match f.speed with
    | .low => f.defn.lowLoad
    | .high => f.defn.highLoad
  | .faulted => f.heldLoad
  | .off | .queued | .rundown | .held => 0

/-- The drive command of a fan's state (R42). -/
def Fan.command (f : Fan) : DriveCommand :=
  match f.state with
  | .starting => .run f.direction .low
  | .running => .run f.direction f.speed
  | .off | .queued | .rundown | .held | .faulted => .stop

/-- A fan turns in STARTING and RUNNING. -/
def Fan.turning (f : Fan) : Bool := f.state == .starting || f.state == .running

/-- Whether NOTE-FAN is marked by the difference of two records (R69). -/
def Fan.noted (old new : Fan) : Bool :=
  old.defn != new.defn || old.state != new.state || old.cause != new.cause || old.heldLoad != new.heldLoad
    || old.direction != new.direction || old.speed != new.speed || old.speedupFailed != new.speedupFailed
    || old.exercise != new.exercise

/-- A fan's record changes from `old` to `new`: the supply account follows its counted load (R42), its node is posted when
the drive command changed (R43), and its subject is marked (R69). -/
def State.changeFan (i : Nat) (old new : Fan) (s : State) : State :=
  let t : State :=
    { s with
      fans := { s.fans with fans := s.fans.fans.put i new, account := s.fans.account + new.load - old.load } }
  let u := if old.command = new.command then t else t.post new.defn.node
  if old.noted new then u.mark (.fan i) else u

/-- Change a defined fan's record; an undefined fan is passed over. -/
def State.modifyFan (i : Nat) (f : Fan → Fan) (s : State) : State :=
  match s.fan i with
  | none => s
  | some x => s.changeFan i x (f x)

/-! ### Run minutes (R65) -/

/-- The seconds a fan has towards its next run minute at a moment. -/
def Fan.runSeconds (now : Nat) (f : Fan) : Nat :=
  match f.minuteStart with
  | some t => f.leftover + (now - t)
  | none => f.leftover

/-- A run ends: whole minutes are counted and the seconds left over are kept (R65). -/
def Fan.endCounting (now : Nat) (f : Fan) : Fan :=
  { f with
    runMinutes := min 16777215 (f.runMinutes + f.runSeconds now / 60)
    leftover := f.runSeconds now % 60
    minuteStart := none }

/-- The moment of a running fan's next run minute. -/
def Fan.minuteDue (now : Nat) (f : Fan) : Bool :=
  f.state == .running && f.minuteStart.isSome && decide (60 ≤ f.runSeconds now)

/-- One run minute more (R65). -/
def Fan.countMinute (f : Fan) : Fan :=
  { f with
    runMinutes := heldSucc 16777215 f.runMinutes
    minuteStart := f.minuteStart.map (· + (60 - f.leftover))
    leftover := 0 }

/-! ### The start queue (R52) -/

/-- The rank of a class: ALARM before NORMAL before EXERCISE. -/
def EntryClass.rank : EntryClass → Nat
  | .alarm => 0
  | .normal => 1
  | .exercise => 2

/-- An entry joins at the tail of the entries of its class (R52). -/
def joinQueue (e : QueueEntry) : List QueueEntry → List QueueEntry
  | [] => [e]
  | x :: t => if e.cls.rank < x.cls.rank then e :: x :: t else x :: joinQueue e t

/-- A fan's entry leaves the queue and those behind close up (R52). -/
def leaveQueue (i : Nat) (q : List QueueEntry) : List QueueEntry := q.filter fun e => e.fan ≠ i

/-- Replace the start queue. -/
def State.setQueue (q : List QueueEntry) (s : State) : State := { s with fans := { s.fans with queue := q } }

/-- A fan's entry joins the start queue. -/
def State.enqueue (e : QueueEntry) (s : State) : State := s.setQueue (joinQueue e s.fans.queue)

/-- A fan's entry leaves the start queue. -/
def State.dequeue (i : Nat) (s : State) : State := s.setQueue (leaveQueue i s.fans.queue)

/-- The class of an entry made for a want (R52). -/
def State.wantClass (s : State) (zone : Nat) : EntryClass := if s.zoneInAlarm zone then .alarm else .normal

/-! ### Flow plans (R45 to R47) -/

/-- A fan's direction entry in a plan. -/
def planEntry (plans : List (List PlanEntry)) (plan fan : Nat) : PlanEntry := (plans.getD plan []).getD fan .forward

/-- A fan's direction entry in the active plan. -/
def State.activeEntry (s : State) (fan : Nat) : PlanEntry := planEntry s.fans.plans s.fans.activePlan fan

/-- The direction the active plan requires of a fan, `none` for no rotation (R47). -/
def State.required (s : State) (i : Nat) (f : Fan) : Option FanDir :=
  match s.activeEntry i with
  | .forward => some .forward
  | .reverse => some .reverse
  | .idle => if f.exercise then some f.defn.home else none

/-- An available fan: not made IDLE by the active plan, neither HELD nor FAULTED (R49). -/
def State.available (s : State) (i : Nat) (f : Fan) : Bool :=
  s.activeEntry i != .idle && f.state != .held && f.state != .faulted

/-- The first zone of the alarm order list whose record has an alarm plan, with that plan (R46). -/
def State.firstAlarmPlan (s : State) : List Nat → Option (Nat × Nat)
  | [] => none
  | z :: t =>
    match (s.zone z).bind fun r => r.defn.alarmPlan with
    | some p => some (p, z)
    | none => State.firstAlarmPlan s t

/-- The choice of the active plan and its source (R46). -/
def State.choosePlan (s : State) : Nat × PlanSource :=
  match s.fans.forcedPlan with
  | some p => (p, .forced)
  | none =>
    match s.firstAlarmPlan s.air.alarmOrder with
    | some (p, z) => (p, .alarm z)
    | none => (s.fans.basePlan, .base)

/-! ### Stop commands -/

/-- A fan's record after a stop command into a state (R43, R47, R62, R66): the stop is stamped, run and speed-up end, the
exercise run is finished, and the rest of a RUNDOWN is the fan's run-down time. -/
def Fan.stopped (now : Nat) (st : FanState) (cause : Option FanCause) (held : Nat) (f : Fan) : Fan :=
  let g := f.endCounting now
  { g with
    state := st
    exercise := false
    speedup := false
    speedupFailed := false
    lastStop := now
    holdStart := none
    cause := cause
    heldLoad := held
    rest := f.defn.rundown }

/-- A stop command to a fan: its record, and its queue entry leaves. -/
def State.stopFan (i : Nat) (st : FanState) (cause : Option FanCause) (held : Nat) (s : State) : State :=
  (s.modifyFan i (Fan.stopped s.now st cause held)).dequeue i

/-! ### Grants (R53 to R55) -/

/-- The start slot is free: no fan STARTING and none with a speed-up in flight (R53). -/
def State.slotFree (s : State) : Bool := !s.fans.fans.any fun f => f.state == .starting || f.speedup

/-- No grant has been made, or the start spacing has passed since the last (R53). -/
def State.spacingPassed (s : State) : Bool :=
  match s.fans.lastGrant with
  | none => true
  | some t => decide (t + s.items.startSpacing ≤ s.now)

/-- The added load of an entry (R53). -/
def addedLoad (f : Fan) : EntryKind → Nat
  | .start => f.defn.startLoad
  | .speedup => f.defn.highLoad - f.defn.lowLoad

/-- A fan's record at a grant (R54, R55). -/
def Fan.granted (now : Nat) (dir : FanDir) (k : EntryKind) (f : Fan) : Fan :=
  match k with
  | .start => { f with state := .starting, direction := dir, speed := .low, lastGrant := some now }
  | .speedup => { f with speed := .high, speedup := true, lastGrant := some now }

/-- The queue is evaluated for a grant: the head is granted when the slot is free, the spacing has passed and the raised
account fits the limit; at most one grant results (R53). -/
def State.evaluate (s : State) : State :=
  match s.fans.queue with
  | [] => s
  | e :: rest =>
    match s.fan e.fan with
    | none => s
    | some f =>
      if s.slotFree && s.spacingPassed && decide (s.fans.account + addedLoad f e.kind ≤ s.items.supplyLimit) then
        ({ s with
            fans := { s.fans with queue := rest, lastGrant := some s.now, spacing := true } } : State).changeFan e.fan f
          (f.granted s.now ((s.required e.fan f).getD f.direction) e.kind)
      else s

/-! ### Wants (R52, R57, R59, R60) -/

/-- Whether the minimum run time has passed (R60). -/
def Fan.minimumMet (now minimum : Nat) (f : Fan) : Bool :=
  match f.runningSince with
  | some t => decide (t + minimum ≤ now)
  | none => true

/-- A RUNNING fan with want OFF, its minimum run time met, follows its policy (R60). -/
def State.followPolicy (i : Nat) (s : State) : State :=
  match s.fan i with
  | none => s
  | some f =>
    if f.defn.policy = .release ∨ s.items.holdTime = 0 then s.stopFan i .rundown none 0
    else (s.changeFan i f { f with speed := .low, speedup := false, holdStart := some s.now }).dequeue i

/-- A SPEEDUP entry joins for a RUNNING fan that wants HIGH and runs at LOW, unless it has one or its speed-up failed flag
is set (R55, R59). -/
def State.askSpeedup (i : Nat) (s : State) : State :=
  match s.fan i with
  | none => s
  | some f =>
    if f.state = .running ∧ f.want = .high ∧ f.speed = .low ∧ f.speedupFailed = false
        ∧ s.fans.queue.all (fun e => e.fan ≠ i) = true then
      s.enqueue ⟨i, .speedup, s.wantClass f.defn.zone⟩
    else s

/-- A RUNNING fan takes a want (R59, R60, R64). -/
def State.runningWant (i : Nat) (f : Fan) (w : Want) (s : State) : State :=
  match w with
  | .off =>
    if f.exercise then s.changeFan i f { f with want := .off }
    else
      let t := (s.changeFan i f { f with want := .off, speedup := false, speedupFailed := false }).dequeue i
      if f.want ≠ .off ∧ f.minimumMet s.now s.items.minimumRun = true then t.followPolicy i else t
  | .low =>
    (s.changeFan i f
      { f with
        want := .low, exercise := false, holdStart := none, speed := .low, speedup := false
        speedupFailed := false }).dequeue i
  | .high => (s.changeFan i f { f with want := .high, exercise := false, holdStart := none }).askSpeedup i

/-- A fan takes the want handed to it, by the rule of its state (R50, R52, R57, R59, R61). The queue is evaluated by the
mapping, once, after the last want. -/
def State.takeWant (i : Nat) (w : Want) (s : State) : State :=
  match s.fan i with
  | none => s
  | some f =>
    match f.state with
    | .off =>
      if w = .off then s.changeFan i f { f with want := .off }
      else (s.changeFan i f { f with want := w, state := .queued }).enqueue ⟨i, .start, s.wantClass f.defn.zone⟩
    | .queued =>
      if f.exercise then
        if w = .off then s.changeFan i f { f with want := .off }
        else
          ((s.changeFan i f { f with want := w, exercise := false }).dequeue i).enqueue
            ⟨i, .start, s.wantClass f.defn.zone⟩
      else if w = .off then (s.changeFan i f { f with want := .off, state := .off }).dequeue i
      else s.changeFan i f { f with want := w }
    | .starting =>
      s.changeFan i f { f with want := w, exercise := if w = .off then f.exercise else false }
    | .running => s.runningWant i f w
    | .rundown | .held | .faulted => s.changeFan i f { f with want := w }

/-! ### Step mapping and duty order (R49 to R51) -/

/-- The step count after one run of the mapping (R50). -/
def stepsAfter (steps n d h : Nat) : Nat :=
  let cur := min steps (2 * n)
  let up := ceilDiv (d * (2 * n)) 100
  if cur ≤ up then up
  else
    let keep := if d = 0 then 0 else ceilDiv (min 100 (d + h) * (2 * n)) 100
    max up (min cur keep)

/-- The want of the available fan at a place of the duty order, counted from 0 (R50). -/
def wantAt (steps n place : Nat) : Want :=
  if steps ≤ n then if place < steps then .low else .off
  else if place < steps - n then .high else .low

/-- A fan joins a ranking by run minutes ascending, ties by fan number ascending (R51). -/
def rankInsert (minutes : Nat → Nat) (i : Nat) : List Nat → List Nat
  | [] => [i]
  | x :: t =>
    if minutes i < minutes x ∨ (minutes i = minutes x ∧ i < x) then i :: x :: t else x :: rankInsert minutes i t

/-- Rank fans by run minutes, ties by fan number (R51). -/
def rankFans (minutes : Nat → Nat) (l : List Nat) : List Nat := l.foldr (rankInsert minutes) []

/-- A fan's run minutes as they stand. -/
def State.minutesOf (s : State) (i : Nat) : Nat :=
  match s.fan i with
  | some f => f.runMinutes
  | none => 0

/-- Whether a fan number is that of an available fan. -/
def State.isAvailable (s : State) (i : Nat) : Bool :=
  match s.fan i with
  | some f => s.available i f
  | none => false

/-- The defined fans of a zone, in rising order. -/
def State.fansOfZone (s : State) (z : Nat) : List Nat := (s.fans.fans.select fun f => f.defn.zone == z).map Prod.fst

/-- What the Fan Controller keeps of a zone. -/
def State.zoneFans (s : State) (z : Nat) : Option ZoneFans := s.fans.zones.get z

/-- Recount a zone's available fans; a change of the unventilated finding is handed to the Zone Air Unit (R49). -/
def State.recount (z : Nat) (s : State) : State :=
  match s.zoneFans z with
  | none => s
  | some x =>
    let n := ((s.fansOfZone z).filter s.isAvailable).length
    let t := s.putZoneFans z { x with available := n, unventilated := n == 0 }
    if x.unventilated = (n == 0) then t else t.hand (.unventilatedFlagChange z (n == 0))

/-- The wants of a zone in the order they are handed: the available fans in duty order, then the others in fan number
order (R50). -/
def State.wantsOf (s : State) (z steps n : Nat) (duty : List Nat) : List (Nat × Want) :=
  ((duty.filter s.isAvailable).mapIdx fun place i => (i, wantAt steps n place))
    ++ (((s.fansOfZone z).filter fun i => !s.isAvailable i).map fun i => (i, Want.off))

/-- One run of the step mapping for a zone with demand `d`, up to the evaluation of the queue (R50, R51). DESIGN CHOICE (log
37): at a step count of 0 the zone is re-ranked first, and its OFF wants are handed in the new order. -/
def State.mapZone (z d : Nat) (s : State) : State :=
  match s.zoneFans z with
  | none => s
  | some x =>
    let steps := stepsAfter x.steps x.available d s.items.hysteresis
    let duty := if steps = 0 ∧ 0 < x.steps then rankFans s.minutesOf x.duty else x.duty
    let t := s.putZoneFans z { x with steps := steps, duty := duty }
    (t.wantsOf z steps x.available duty).foldl (fun s p => s.takeWant p.1 p.2) t

/-- Recount a zone and run its mapping with its present demand (R49, R50). -/
def State.remap (z : Nat) (s : State) : State :=
  let t := s.recount z
  match t.zone z with
  | none => t
  | some r => t.mapZone z r.demand

/-- Recount, map and evaluate (R49, R50, R53). -/
def State.remapEvaluate (z : Nat) (s : State) : State := (s.remap z).evaluate

/-! ### Plan changes (R46, R47) -/

/-- A plan change moves the fans (R47): fans turning against their required direction stop, every zone is recounted and
mapped, and the queue is evaluated. -/
def State.planChange (s : State) : State :=
  let stops := s.fans.fans.keys.foldl
    (fun s i =>
      match s.fan i with
      | none => s
      | some f =>
        if f.turning && s.required i f != some f.direction then s.stopFan i .rundown none 0 else s)
    s
  (s.air.zones.keys.foldl (fun s z => s.remap z) stops).evaluate

/-- The active plan is evaluated (R46): a change of plan or of source marks the site, and a change of plan moves fans. -/
def State.evaluatePlan (s : State) : State :=
  let c := s.choosePlan
  if c.1 = s.fans.activePlan then
    if c.2 = s.fans.source then s else ({ s with fans := { s.fans with source := c.2 } } : State).mark .site
  else (({ s with fans := { s.fans with activePlan := c.1, source := c.2 } } : State).mark .site).planChange

/-! ### Events -/

/-- Every NORMAL entry of a zone's fans moves to the tail of the ALARM entries, keeping their order (R52). -/
def State.raiseClass (zone : Nat) (s : State) : State :=
  let ofZone (e : QueueEntry) : Bool :=
    e.cls == .normal && (match s.fan e.fan with | some f => f.defn.zone == zone | none => false)
  let moved := s.fans.queue.filter ofZone
  let stay := s.fans.queue.filter fun e => !ofZone e
  s.setQueue (moved.foldl (fun q e => joinQueue { e with cls := .alarm } q) stay)

/-- ZONE_CHANGE_FAN (R34, R46, R50, R52). -/
def effZoneChangeFan (c : ZoneChange) (s : State) : State :=
  let a := if c.move = .entered then s.raiseClass c.zone else s
  let b := if c.move ≠ .stayed ∨ c.planChanged = true then a.evaluatePlan else a
  match c.demand with
  | some d => (b.mapZone c.zone d).evaluate
  | none => b.evaluate

/-- The number of the fan that names a node (R41: at most one). -/
def State.fanOf (s : State) (n : NodeId) : Option Nat := s.fans.fans.find fun f => f.defn.node == n

/-- The fan goes to FAULTED; its zone is recounted and mapped and the queue evaluated (R57, R62). -/
def State.faultFan (i zone : Nat) (cause : FanCause) (held : Nat) (s : State) : State :=
  (s.stopFan i .faulted (some cause) held).remapEvaluate zone

/-- A start is complete: RUNNING at LOW, with a SPEEDUP entry for a HIGH want, and the queue is evaluated (R57). -/
def State.startComplete (i : Nat) (f : Fan) (s : State) : State :=
  ((s.changeFan i f
      { f with
        state := .running, speed := .low, runningSince := some s.now, holdStart := none
        minuteStart := some s.now }).askSpeedup i).evaluate

/-- A drive report is acted on after it is stored (R44). -/
def State.actOnReport (i : Nat) (f : Fan) (r : DriveReport) (s : State) : State :=
  match r.condition with
  | .tripped =>
    if f.state = .held ∨ (f.state = .faulted ∧ f.cause = some .link) then s else s.faultFan i f.defn.zone .drive 0
  | .atSpeed =>
    if r.direction = f.direction then
      match f.state with
      | .starting => s.startComplete i f
      | .running =>
        if f.speedup = true ∧ r.speed = .high then (s.changeFan i f { f with speedup := false }).evaluate else s
      | .off | .queued | .rundown | .held | .faulted => s
    else s
  | .stopped | .accelerating | .decelerating => s

/-- DRIVE_REPORT: READY clear carries none; a report from a node no fan names is discarded (R44). -/
def effDriveReport (n : NodeId) (ready : Bool) (payload : List Byte) (s : State) : State :=
  if ready then
    match parseDrive payload, s.fanOf n with
    | some r, some i =>
      match s.fan i with
      | none => s
      | some f =>
        let g := { f with report := some r }
        (s.changeFan i f g).actOnReport i g r
    | _, _ => s
  else s

/-- Whether the start spacing since the last grant has run out and its expiry has not been taken (R53). -/
def State.spacingDue (s : State) : Bool := s.fans.spacing && s.spacingPassed

/-- START_SPACING_EXPIRY (R53). -/
def effStartSpacingExpiry (s : State) : State :=
  if s.spacingDue then ({ s with fans := { s.fans with spacing := false } } : State).evaluate else s

/-- Whether the start timeout has passed since a fan's grant (R54). -/
def Fan.timeoutPassed (now timeout : Nat) (f : Fan) : Bool :=
  match f.lastGrant with
  | some t => decide (t + timeout ≤ now)
  | none => false

/-- Whether a STARTING fan's start timeout is due (R57). -/
def Fan.startTimeoutDue (now timeout : Nat) (f : Fan) : Bool := f.state == .starting && f.timeoutPassed now timeout

/-- Whether a speed-up's start timeout is due (R55). -/
def Fan.speedupTimeoutDue (now timeout : Nat) (f : Fan) : Bool :=
  f.state == .running && f.speedup && f.timeoutPassed now timeout

/-- Whether a RUNNING fan with want OFF has met its minimum run time and not yet followed its policy (R60). -/
def Fan.minimumRunDue (now minimum : Nat) (f : Fan) : Bool :=
  f.state == .running && f.want == .off && !f.exercise && f.holdStart.isNone && f.minimumMet now minimum

/-- Whether a fan held by its HOLD policy has reached its HOLD time (R60). -/
def Fan.holdDue (now hold : Nat) (f : Fan) : Bool :=
  f.state == .running && f.want == .off
    && (match f.holdStart with | some t => decide (t + hold ≤ now) | none => false)

/-- Whether a fan's run-down time has passed (R61, R72). -/
def Fan.rundownDue (now : Nat) (f : Fan) : Bool := f.state == .rundown && decide (f.lastStop + f.rest ≤ now)

/-- Whether a fan in OFF is due for exercise; an interval of 0 is off (R64). -/
def Fan.exerciseDue (now hours : Nat) (f : Fan) : Bool :=
  f.state == .off && decide (0 < hours) && decide (f.lastStop + hours * 3600 ≤ now)

/-- Whether an exercise run has lasted its time (R64). -/
def Fan.exerciseEndDue (now run : Nat) (f : Fan) : Bool :=
  f.state == .running && f.exercise
    && (match f.runningSince with | some t => decide (t + run ≤ now) | none => false)

/-- A timer event of one fan: it acts when its time has come. -/
def State.whenDue (i : Nat) (due : Fan → Bool) (act : Fan → State → State) (s : State) : State :=
  match s.fan i with
  | none => s
  | some f => if due f then act f s else s

/-- START_TIMEOUT (R57). -/
def effStartTimeout (i : Nat) (s : State) : State :=
  s.whenDue i (Fan.startTimeoutDue s.now s.items.startTimeout) fun f s => s.faultFan i f.defn.zone .drive 0

/-- SPEEDUP_TIMEOUT (R55). -/
def effSpeedupTimeout (i : Nat) (s : State) : State :=
  s.whenDue i (Fan.speedupTimeoutDue s.now s.items.startTimeout) fun f s =>
    (s.changeFan i f { f with speed := .low, speedup := false, speedupFailed := true }).evaluate

/-- MINIMUM_RUN_TIME_MET (R60). -/
def effMinimumRunTimeMet (i : Nat) (s : State) : State :=
  s.whenDue i (Fan.minimumRunDue s.now s.items.minimumRun) fun _ s => (s.followPolicy i).evaluate

/-- HOLD_TIME_EXPIRY (R60). -/
def effHoldTimeExpiry (i : Nat) (s : State) : State :=
  s.whenDue i (Fan.holdDue s.now s.items.holdTime) fun _ s => (s.stopFan i .rundown none 0).evaluate

/-- RUNDOWN_END (R61). -/
def effRundownEnd (i : Nat) (s : State) : State :=
  s.whenDue i (Fan.rundownDue s.now) fun f s =>
    if f.want = .off then s.changeFan i f { f with state := .off }
    else
      ((s.changeFan i f { f with state := .queued }).enqueue ⟨i, .start, s.wantClass f.defn.zone⟩).evaluate

/-- EXERCISE_DUE (R64). -/
def effExerciseDue (i : Nat) (s : State) : State :=
  s.whenDue i (Fan.exerciseDue s.now s.items.exerciseInterval) fun f s =>
    ((s.changeFan i f { f with state := .queued, exercise := true }).enqueue ⟨i, .start, .exercise⟩).evaluate

/-- EXERCISE_RUN_END (R64). -/
def effExerciseRunEnd (i : Nat) (s : State) : State :=
  s.whenDue i (Fan.exerciseEndDue s.now s.items.exerciseRun) fun _ s => (s.stopFan i .rundown none 0).evaluate

/-- RUN_MINUTE (R65). -/
def effRunMinute (i : Nat) (s : State) : State :=
  s.whenDue i (Fan.minuteDue s.now) fun f s => s.changeFan i f f.countMinute

/-- An event of the fan that names a node. -/
def State.onFanOf (n : NodeId) (act : Nat → Fan → State → State) (s : State) : State :=
  match s.fanOf n with
  | none => s
  | some i =>
    match s.fan i with
    | none => s
    | some f => act i f s

/-- FAN_NODE_LOST: FAULTED with cause LINK and the counted load held; a HELD fan stays (R62). -/
def effFanNodeLost (n : NodeId) (s : State) : State :=
  s.onFanOf n fun i f s => if f.state = .held then s else s.faultFan i f.defn.zone .link f.load

/-- FAN_NODE_RESTART: a STARTING or RUNNING fan goes to RUNDOWN and its node is posted (R63). -/
def effFanNodeRestart (n : NodeId) (s : State) : State :=
  s.onFanOf n fun i f s => if f.turning then ((s.stopFan i .rundown none 0).post n).evaluate else s

/-- FAN_NODE_RESET: the fan keeps its state and its node is posted (R63). -/
def effFanNodeReset (n : NodeId) (s : State) : State := s.onFanOf n fun _ _ s => s.post n

/-- SUPERVISION_EXPIRY_FANS: the forced plan is removed and the active plan evaluated (R74). -/
def effSupervisionFans (s : State) : State :=
  let t : State := { s with fans := { s.fans with forcedPlan := none } }
  (if s.fans.forcedPlan.isSome then t.mark .site else t).evaluatePlan

/-! ### Requests -/

/-- The owner's part of FAN-HOLD (R66). -/
def ownFanHold (i : Nat) (s : State) : Owned :=
  refuseIf (Config.fans ≤ i) .outOfRange <|
  match s.fan i with
  | none => .error .notDefined
  | some f =>
    refuseIf (f.state == .faulted && f.cause == some .link) .conflict <|
    if f.state = .held then accept false s
    else accept false ((s.stopFan i .held none 0).remapEvaluate f.defn.zone)

/-- The owner's part of FAN-FREE (R67). -/
def ownFanFree (i : Nat) (s : State) : Owned :=
  refuseIf (Config.fans ≤ i) .outOfRange <|
  match s.fan i with
  | none => .error .notDefined
  | some f =>
    if f.state ≠ .held then accept false s
    else
      let g :=
        if s.nodeLost f.defn.node then { f with state := .faulted, cause := some .link, heldLoad := 0 }
        else if f.lastStop + f.defn.rundown ≤ s.now then { f with state := .off }
        else { f with state := .rundown, rest := f.defn.rundown }
      accept false ((s.changeFan i f g).remapEvaluate f.defn.zone)

/-- The owner's part of FAN-CLEAR (R68). -/
def ownFanClear (i : Nat) (s : State) : Owned :=
  refuseIf (Config.fans ≤ i) .outOfRange <|
  match s.fan i with
  | none => .error .notDefined
  | some f =>
    if f.state ≠ .faulted then accept false s
    else
      refuseIf (!(match s.node f.defn.node with | some x => x.state == .online | none => false)) .conflict <|
      accept false ((s.stopFan i .rundown none 0).remapEvaluate f.defn.zone)

/-- The definition a FAN-DEF gives after clamping, and whether a field was clamped (R71). -/
def FanDefReq.clamped (r : FanDefReq) (n : NodeId) (home : FanDir) (p : Policy) : FanDefn × Bool :=
  let start := max 1 r.startLoad
  let low := min start (max 1 r.lowLoad)
  let high := max low (max 1 r.highLoad)
  let rundown := clamp 10 600 r.rundown
  (⟨r.zone, n, home, start, low, high, rundown, p⟩,
    start != r.startLoad || low != r.lowLoad || high != r.highLoad || rundown != r.rundown)

/-- A new fan's record: RUNDOWN with its stop stamped now (R72). -/
def Fan.new (now : Nat) (d : FanDefn) (minutes : Nat) : Fan where
  defn := d
  state := .rundown
  want := .off
  exercise := false
  direction := .forward
  speed := .low
  speedup := false
  speedupFailed := false
  lastStop := now
  lastGrant := none
  runningSince := none
  holdStart := none
  cause := none
  heldLoad := 0
  report := none
  runMinutes := minutes
  rest := d.rundown
  leftover := 0
  minuteStart := none

/-- A defined fan's record under a new definition (R72). -/
def Fan.redefined (now : Nat) (d : FanDefn) (f : Fan) : Fan :=
  match f.state with
  | .rundown => { f with defn := d, rest := max f.rest d.rundown }
  | .off | .queued =>
    if now < f.lastStop + d.rundown then
      { f with defn := d, state := .rundown, exercise := false, rest := d.rundown }
    else { f with defn := d }
  | .starting | .running | .held | .faulted => { f with defn := d }

/-- A fan leaves a zone's duty order (R51). -/
def State.leaveDuty (i z : Nat) (s : State) : State :=
  match s.zoneFans z with
  | none => s
  | some x => s.putZoneFans z { x with duty := x.duty.filter (· ≠ i) }

/-- A fan joins a zone's duty order at the tail (R51). -/
def State.joinDuty (i z : Nat) (s : State) : State :=
  match s.zoneFans z with
  | none => s
  | some x => s.putZoneFans z { x with duty := x.duty ++ [i] }

/-- After each accepted FAN-DEF: the active plan is evaluated, the zones concerned recounted and mapped, the queue
evaluated, the fan marked (R72). -/
def State.afterFanDef (i : Nat) (zones : List Nat) (s : State) : State :=
  ((zones.foldl (fun s z => s.remap z) s.evaluatePlan).evaluate).mark (.fan i)

/-- The owner's part of FAN-DEF (R71, R72). DESIGN CHOICE (log 41): of the two zones of a fan that moves, the old one is
recounted and mapped first. -/
def ownFanDef (r : FanDefReq) (s : State) : Owned :=
  refuseIf (Config.fans ≤ r.fan) .outOfRange <|
  if r.remove then
    match s.fan r.fan with
    | none => .error .notDefined
    | some f =>
      refuseIf (f.state != .off && f.state != .held) .conflict <|
      let t : State := { s with fans := { s.fans with fans := s.fans.fans.del r.fan } }
      accept false ((t.leaveDuty r.fan f.defn.zone).afterFanDef r.fan [f.defn.zone])
  else
    match nodeOf r.loop r.addr, fanDirOf r.home, policyOf r.policy with
    | some n, some home, some p =>
      refuseIf (Config.zones ≤ r.zone) .outOfRange <|
      match s.node n with
      | none => .error .notDefined
      | some x =>
        refuseIf (!s.zoneDefined r.zone) .notDefined <|
        refuseIf (x.defn.role != .fan || s.fans.fans.anyOther r.fan fun f => f.defn.node == n) .conflict <|
        let dc := r.clamped n home p
        match s.fan r.fan with
        | none =>
          let f := Fan.new s.now dc.1 0
          let t : State := { s with fans := { s.fans with fans := s.fans.fans.put r.fan f } }
          accept dc.2 (((t.post n).joinDuty r.fan r.zone).afterFanDef r.fan [r.zone])
        | some f =>
          refuseIf
              ((f.defn.zone != r.zone || f.defn.node != n) && f.state != .off && f.state != .held) .conflict <|
          let g := f.redefined s.now dc.1
          refuseIf (f.turning && decide (s.items.supplyLimit < s.fans.account + g.load - f.load)) .limitInUse <|
          let t := s.changeFan r.fan f g
          let u := if g.state = f.state then t else t.dequeue r.fan
          if f.defn.zone = r.zone then accept dc.2 (u.afterFanDef r.fan [r.zone])
          else
            accept dc.2
              (((u.leaveDuty r.fan f.defn.zone).joinDuty r.fan r.zone).afterFanDef r.fan [f.defn.zone, r.zone])
    | _, _, _ => .error .outOfRange

/-- The entries of a PLAN-DEF, when every code is one of the three (R73). -/
def planEntries : List Nat → Option (List PlanEntry)
  | [] => some []
  | c :: t =>
    match planEntryOf c, planEntries t with
    | some e, some es => some (e :: es)
    | _, _ => none

/-- The owner's part of PLAN-DEF (R73). DESIGN CHOICE (log 35): the entries' codes are checked before the active plan. -/
def ownPlanDef (r : Nat × List Nat) (s : State) : Owned :=
  refuseIf (Config.plans ≤ r.1) .outOfRange <|
  match planEntries r.2 with
  | none => .error .outOfRange
  | some es =>
    refuseIf (r.1 == s.fans.activePlan) .conflict <|
    accept false { s with fans := { s.fans with plans := s.fans.plans.set r.1 es } }

/-- The owner's part of PLAN-BASE (R73). -/
def ownPlanBase (p : Nat) (s : State) : Owned :=
  refuseIf (Config.plans ≤ p) .outOfRange <|
  if p = s.fans.basePlan then accept false s
  else accept false ((({ s with fans := { s.fans with basePlan := p } } : State).mark .site).evaluatePlan)

/-- The owner's part of PLAN-FORCE (R74). -/
def ownPlanForce (p : Nat) (s : State) : Owned :=
  refuseIf (Config.plans ≤ p) .outOfRange <|
  let t : State := { s with fans := { s.fans with forcedPlan := some p } }
  accept false ((if s.fans.forcedPlan = some p then t else t.mark .site).evaluatePlan)

/-- The owner's part of PLAN-UNFORCE (R74). -/
def ownPlanUnforce (_ : Unit) (s : State) : Owned :=
  if s.fans.forcedPlan.isSome then
    accept false ((({ s with fans := { s.fans with forcedPlan := none } } : State).mark .site).evaluatePlan)
  else accept false s

/-! ### Start, DEFAULTS and settings -/

/-- Evaluate a timer event for every fan, in rising fan number (DESIGN CHOICE, log 39). -/
def State.eachFan (act : Nat → State → State) (s : State) : State :=
  s.fans.fans.keys.foldl (fun s i => act i s) s

/-- DEFAULTS stage 2: every fan not OFF is stopped into RUNDOWN and its node posted (R75, R182). -/
def defaultsStopFans (s : State) : State :=
  s.eachFan fun i s =>
    match s.fan i with
    | none => s
    | some f => if f.state = .off then s else (s.stopFan i .rundown none 0).post f.defn.node

/-- DEFAULTS stage 3 in the Fan Controller: no fan, factory plans, no force, empty queue, account 0 (R75). The removed fans
are marked in rising fan number (DESIGN CHOICE, log 39). -/
def defaultsFans (s : State) : State :=
  let removed := s.fans.fans.keys.map Subject.fan
  let t : State :=
    { s with
      fans :=
        { s.fans with
          fans := [], plans := factoryPlans, basePlan := 0, forcedPlan := none, queue := [], account := 0
          zones := s.fans.zones.map fun _ x => { x with duty := [] } } }
  let u := t.markAll removed
  let v := if s.fans.basePlan = 0 ∧ s.fans.forcedPlan = none then u else u.mark .site
  v.air.zones.keys.foldl (fun s z => s.remap z) v.evaluatePlan

/-- The fan table at a start: every fan in RUNDOWN, its stop stamped at site clock 0 (R75). -/
def startFans (fans : Table SavedFan) : Table Fan := fans.map fun _ x => Fan.new 0 x.defn x.runMinutes

/-- What the Fan Controller keeps of a zone at a start: no steps, its fans ranked, n counted under the base plan
(R49, R51, R75). -/
def startZoneFans (fans : Table Fan) (plans : List (List PlanEntry)) (base zone : Nat) : ZoneFans :=
  let own := List.filter (fun e : Nat × Fan => e.2.defn.zone = zone) fans
  let n := (own.filter fun e => planEntry plans base e.1 != .idle).length
  let minutes (i : Nat) : Nat := match fans.get i with | some f => f.runMinutes | none => 0
  { steps := 0, duty := rankFans minutes (own.map Prod.fst), available := n, unventilated := n == 0 }

end Sys2Proof.Machine
end

