-- ==== Sys2Proof/Machine/Signs.lean ====
section
/-! DEFINITION. The Guidance Unit (05_guidance_signs): the guidance view, display records, sign content, and its requests
and events. -/

namespace Sys2Proof.Machine

/-! ### The guidance view (R97) -/

/-- A zone's entry of the guidance view. -/
def State.guideZone (s : State) (z : Nat) : GuideZone := s.guide.view.getD z .initial

/-- Replace a zone's entry of the guidance view. -/
def State.setGuideZone (z : Nat) (g : GuideZone) (s : State) : State :=
  { s with guide := { s.guide with view := s.guide.view.set z g } }

/-- The free counts of the filtered classes in a zone's entry (R98). -/
def filteredFree (filter : PerClass Bool) (free : PerClass Nat) : Nat :=
  ((classList.filter filter.get).map free.get).sum

/-- A zone's filtered free count, 0 while it is CLOSED (R98, R99). -/
def openFree (view : List GuideZone) (filter : PerClass Bool) (z : Nat) : Nat :=
  let g := view.getD z .initial
  if g.closed then 0 else filteredFree filter g.free

/-- The sum of the filtered free counts of the OPEN zones of a list (R98, R99). -/
def offeredSum (view : List GuideZone) (filter : PerClass Bool) (zones : List Nat) : Nat :=
  (zones.map (openFree view filter)).sum

/-! ### The display record (R96 to R99) -/

/-- The offered figure (R98). -/
def offeredFigure (view : List GuideZone) (d : SignDefn) : Nat := min 9999 (offeredSum view d.filter d.sources)

/-- Whether every source zone is CLOSED (R98). -/
def allClosed (view : List GuideZone) (d : SignDefn) : Bool := d.sources.all fun z => (view.getD z .initial).closed

/-- The text (R98). -/
def signText (view : List GuideZone) (d : SignDefn) : SignText :=
  if allClosed view d then .closed
  else if offeredFigure view d ≤ d.threshold then .full
  else .number (offeredFigure view d)

/-- The first direction with at least one free bay in its OPEN zones (R99). -/
def chosenDirection (view : List GuideZone) (d : SignDefn) : Option Nat :=
  d.directions.findIdx? fun r => decide (1 ≤ offeredSum view d.filter r.zones)

/-- The arrow of a chosen direction, NONE when there is none (R96). -/
def chosenArrow (d : SignDefn) (chosen : Option Nat) : Arrow :=
  match chosen.bind fun i => d.directions[i]? with
  | some r => r.arrow
  | none => .none

/-- The display record computed from the view at a moment (R96). -/
def displayOf (view : List GuideZone) (d : SignDefn) (now : Nat) : Display where
  offered := offeredFigure view d
  text := signText view d
  chosen := chosenDirection view d
  arrow := chosenArrow d (chosenDirection view d)
  lastChange := now

/-- Whether two display records agree in offered, text and chosen direction (R96). -/
def Display.same (a b : Display) : Bool := a.offered == b.offered && a.text == b.text && a.chosen == b.chosen

/-- A recomputation stamps the last change time at a change of offered, text or chosen direction, and not at a change of the
arrow alone (R96). -/
def Display.update (old new : Display) : Display :=
  if old.same new then { new with lastChange := old.lastChange } else new

/-! ### Content (R101) -/

/-- The content of a write to a sign (R101). -/
def Sign.content (g : Sign) : SignContent :=
  match g.defn.kind with
  | .count => ⟨signTextCode g.display.text, arrowCode .none⟩
  | .arrow => ⟨blankCode, arrowCode g.display.arrow⟩
  | .countArrow => ⟨signTextCode g.display.text, arrowCode g.display.arrow⟩

/-- The content of a SIGN node that no sign names (R101). -/
def SignContent.blank : SignContent := ⟨blankCode, arrowCode .none⟩

/-- Store a sign's record. -/
def State.putSign (i : Nat) (g : Sign) (s : State) : State :=
  { s with guide := { s.guide with signs := s.guide.signs.put i g } }

/-- A sign's record changes from `old` to `new` on the same node: the node is posted when the shown content differs
(R101, R106). -/
def State.changeSign (i : Nat) (old new : Sign) (s : State) : State :=
  let t := s.putSign i new
  if old.content = new.content then t else t.post new.defn.node

/-- Recompute a sign's display record from the view (R96, R100, R101). -/
def State.recomputeSign (i : Nat) (s : State) : State :=
  match s.guide.signs.get i with
  | none => s
  | some g => s.changeSign i g { g with display := g.display.update (displayOf s.guide.view g.defn s.now) }

/-- Whether a sign names a zone as a source or in a route direction (R100). -/
def SignDefn.names (d : SignDefn) (z : Nat) : Bool :=
  d.sources.contains z || d.directions.any fun r => r.zones.contains z

/-- Recompute the signs that meet a test, in ascending id (R100). -/
def State.recomputeSigns (p : SignDefn → Bool) (s : State) : State :=
  ((s.guide.signs.select fun g => p g.defn).map Prod.fst).foldl (fun s i => s.recomputeSign i) s

/-! ### Events -/

/-- COUNT_DELIVERY: the view takes the count, and the signs that filter the class and name the zone are recomputed (R97,
R100). -/
def effCountDelivery (zone : Nat) (c : BayClass) (count : Nat) (s : State) : State :=
  let g := s.guideZone zone
  (s.setGuideZone zone { g with free := g.free.set c count }).recomputeSigns fun d => d.filter.get c && d.names zone

/-- ZONE_CHANGE_GUIDANCE: the view takes the closure, and the signs that name the zone are recomputed (R97, R100). -/
def effZoneChangeGuidance (zone : Nat) (closed : Bool) (s : State) : State :=
  let g := s.guideZone zone
  (s.setGuideZone zone { g with closed := closed }).recomputeSigns fun d => d.names zone

/-- The number of the sign that names a node (R95: at most one). -/
def State.signOf (s : State) (n : NodeId) : Option Nat := s.guide.signs.find fun g => g.defn.node == n

/-- SIGN_REPORT: condition, echo, comparison (R103). -/
def effSignReport (n : NodeId) (ready : Bool) (payload : List Byte) (s : State) : State :=
  if ready then
    match parseSign payload, s.signOf n with
    | some (c, e), some i =>
      match s.guide.signs.get i with
      | none => s
      | some g =>
        let t := s.putSign i { g with condition := c, echo := some e }
        let u := if g.condition = c then t else t.setReport n (.sign c)
        if c ≠ .dark ∧ e ≠ g.content then u.post n else u
    | _, _ => s
  else s

/-- A sign's node is lost or reset: condition UNKNOWN, echo absent (R104). -/
def State.forgetSign (n : NodeId) (s : State) : State :=
  match s.signOf n with
  | none => s
  | some i =>
    match s.guide.signs.get i with
    | none => s
    | some g => s.putSign i { g with condition := .unknown, echo := none }

/-- SIGN_NODE_LOST (R104). -/
def effSignNodeLost (n : NodeId) (s : State) : State := s.forgetSign n

/-- SIGN_NODE_RESET: as for a loss (R104). -/
def effSignNodeReset (n : NodeId) (s : State) : State := s.forgetSign n

/-! ### Requests -/

/-- The class filter of a filter byte: bit n for class n (11.1). -/
def filterOf (b : Byte) : PerClass Bool := ⟨b.getLsbD 0, b.getLsbD 1, b.getLsbD 2, b.getLsbD 3⟩

/-- The directions of a SIGN-DEF, when each is in range (R105). -/
def routeDirections : List DirectionReq → Option (List RouteDirection)
  | [] => some []
  | r :: t =>
    match routeArrowOf r.arrow, routeDirections t with
    | some a, some ds =>
      if 1 ≤ r.zones.length ∧ r.zones.length ≤ 4 ∧ r.zones.all (· < Config.zones) = true ∧ r.lanes.length ≤ 8
          ∧ r.lanes.all (· < Config.groups) = true then
        some (⟨a, r.zones, r.lanes⟩ :: ds)
      else none
    | _, _ => none

/-- Whether a list holds no number twice. -/
def distinct : List Nat → Bool
  | [] => true
  | x :: t => !t.contains x && distinct t

/-- The owner's part of SIGN-DEF (R105, R106). DESIGN CHOICE (log 41): of the two nodes of a sign that moves, the old one is
posted first. -/
def ownSignDef (r : SignDefReq) (s : State) : Owned :=
  refuseIf (Config.signs ≤ r.sign) .outOfRange <|
  if r.remove then
    match s.guide.signs.get r.sign with
    | none => .error .notDefined
    | some g =>
      let t : State := { s with guide := { s.guide with signs := s.guide.signs.del r.sign } }
      accept false (t.post g.defn.node)
  else
    match nodeOf r.loop r.addr, signKindOf r.kind, routeDirections r.directions with
    | some n, some kind, some dirs =>
      refuseIf
          (r.sources.length == 0 || 8 < r.sources.length || !r.sources.all (· < Config.zones) || r.filter.toNat == 0
            || 16 ≤ r.filter.toNat || 3 < dirs.length) .outOfRange <|
      refuseIf
          (!r.sources.all s.zoneDefined || !dirs.all (fun d => d.zones.all s.zoneDefined)) .notDefined <|
      match s.node n with
      | none => .error .notDefined
      | some x =>
        refuseIf (x.defn.role != .sign || s.guide.signs.anyOther r.sign fun g => g.defn.node == n) .conflict <|
        refuseIf
            (!distinct r.sources || !dirs.all fun d => distinct d.zones && distinct d.lanes) .conflict <|
        let clamped := decide (99 < r.threshold)
        let d : SignDefn :=
          { node := n, kind := kind, sources := r.sources, filter := filterOf r.filter
            threshold := min 99 r.threshold, directions := dirs }
        let display := displayOf s.guide.view d s.now
        match s.guide.signs.get r.sign with
        | none =>
          accept clamped
            ((s.putSign r.sign { defn := d, display := display, condition := .unknown, echo := none }).post n)
        | some g =>
          if g.defn.node = n then
            accept clamped (s.changeSign r.sign g { g with defn := d, display := g.display.update display })
          else
            accept clamped
              ((s.putSign r.sign
                { defn := d, display := g.display.update display, condition := .unknown, echo := none }).postAll
                  [g.defn.node, n])
    | _, _, _ => .error .outOfRange

/-! ### Start and DEFAULTS (R108) -/

/-- The guidance view at a start. -/
def startView : List GuideZone := List.replicate Config.zones .initial

/-- The sign table at a start. -/
def startSigns (signs : Table SignDefn) : Table Sign :=
  signs.map fun _ d => { defn := d, display := displayOf startView d 0, condition := .unknown, echo := none }

/-- DEFAULTS in the Guidance Unit: every sign undefined and its node posted (R108), in ascending sign id (DESIGN CHOICE,
log 39). -/
def defaultsSigns (s : State) : State :=
  ({ s with guide := { s.guide with signs := [] } } : State).postAll
    (List.map (fun e : Nat × Sign => e.2.defn.node) s.guide.signs)

end Sys2Proof.Machine
end

