-- ==== Sys2Proof/Machine/Lights.lean ====
section
/-! DEFINITION. The Lighting Controller (06_bay_and_lane_lighting): targets by cause, presence and escort, output codes,
and its requests and events. -/

namespace Sys2Proof.Machine

/-! ### The target level (R111, R112) -/

/-- The base level of a site mode (R111). -/
def baseLevel (it : Items) : SiteMode → Nat
  | .opened => it.openBase
  | .quiet => it.quietBase

/-- Whether presence holds: the expiry is present and lies after the site clock (R111). -/
def Group.present (now : Nat) (g : Group) : Bool :=
  match g.presence with
  | some t => decide (now < t)
  | none => false

/-- A group's target level and cause: the first of override, alarm, presence and base that applies (R111). -/
def targetOf (now : Nat) (inAlarm : Bool) (base : Nat) (g : Group) : Nat × TargetCause :=
  match g.override with
  | some l => (l, .override)
  | none =>
    if inAlarm then (1000, .alarm)
    else if g.present now then (g.defn.presenceLevel, .presence)
    else (base, .base)

/-- The entry of a zone in the zone alarm view (R110). -/
def State.alarmView (s : State) (z : Nat) : Bool := s.light.zoneAlarm.getD z false

/-- A group with its target recomputed from the present inputs (R111). -/
def State.targeted (s : State) (g : Group) : Group :=
  let t := targetOf s.now (s.alarmView g.defn.zone) (baseLevel s.items s.light.mode) g
  { g with target := t.1, cause := t.2 }

/-- Store a group's record. -/
def State.putGroup (i : Nat) (g : Group) (s : State) : State :=
  { s with light := { s.light with groups := s.light.groups.put i g } }

/-- A group's inputs changed from `old` to `new`: its target is recomputed, and its node is posted when the level differs
(R112). -/
def State.changeGroup (i : Nat) (old new : Group) (s : State) : State :=
  let g := s.targeted new
  let t := s.putGroup i g
  if old.target = g.target then t else t.post g.defn.node

/-- Change a defined group's inputs; an undefined group is passed over. -/
def State.modifyGroup (i : Nat) (f : Group → Group) (s : State) : State :=
  match s.light.groups.get i with
  | none => s
  | some g => s.changeGroup i g (f g)

/-- Change the groups that meet a test: each is retargeted, and its node posted where its level changed (R112). DESIGN
CHOICE (log 39): in ascending id, which the spec states for the range of GROUP-OVERRIDE and GROUP-RELEASE only (R121). -/
def State.modifyGroups (p : Nat → Group → Bool) (f : Group → Group) (s : State) : State :=
  (List.filter (fun e : Nat × Group => p e.1 e.2) s.light.groups).foldl (fun s e => s.modifyGroup e.1 f) s

/-! ### Output codes (R116) -/

/-- The output code of a level (R116). -/
def outputCode (p : Polarity) (level : Nat) : Nat :=
  let c := level * 1023 / 1000
  match p with
  | .normal => c
  | .inverted => 1023 - c

/-- The fade of a group's write (R116). -/
def Group.fade (g : Group) : Nat :=
  match g.applied with
  | none => 0
  | some a => if a ≤ g.target then 0 else g.defn.fadeTime

/-- The code and fade of one output of a node (R116). -/
def outputOf (groups : Table Group) (n : NodeId) (o : Nat) : Nat × Nat :=
  match List.find? (fun e : Nat × Group => e.2.defn.node == n && e.2.defn.outputs.contains o) groups with
  | some e => (outputCode e.2.defn.polarity e.2.target, e.2.fade)
  | none => (0, 0)

/-- The 24 bytes of a write to a luminaire driver (R116, 11.5). -/
def lampContent (groups : Table Group) (n : NodeId) : List Byte :=
  (List.range 8).flatMap fun o => u16 (outputOf groups n o).1 ++ u8 (outputOf groups n o).2

/-- When the content is built, each group that names the node takes its target as its in-flight level (R116). -/
def State.takeInFlight (n : NodeId) (s : State) : State :=
  { s with
    light :=
      { s.light with
        groups := s.light.groups.map fun _ g =>
          if g.defn.node = n then { g with inFlight := some g.target } else g } }

/-! ### Events -/

/-- A presence trigger of a group (R113). -/
def Group.trigger (now : Nat) (g : Group) : Group := { g with presence := some (now + g.defn.holdTime) }

/-- Whether a presence trigger names a group (R113). -/
def presenceNames (p : PresenceSource) (d : GroupDefn) : Bool :=
  match p with
  | .bay b =>
    match d.bayRange with
    | some (lo, hi) => decide (lo ≤ b) && decide (b ≤ hi)
    | none => false
  | .ramp r => d.ramp == some r

/-- PRESENCE_TRIGGER (R113). -/
def effPresenceTrigger (p : PresenceSource) (s : State) : State :=
  s.modifyGroups (fun _ g => presenceNames p g.defn) (Group.trigger s.now)

/-- The lane groups of a sign's chosen direction as the display record stands (R115). -/
def State.escortLanes (s : State) (sign : Nat) : List Nat :=
  match s.guide.signs.get sign with
  | none => []
  | some g =>
    match g.display.chosen.bind fun i => g.defn.directions[i]? with
    | some d => d.lanes
    | none => []

/-- ESCORT: the listed lane groups are triggered in order, undefined ids passed over (R115). -/
def effEscort (sign : Nat) (s : State) : State :=
  (s.escortLanes sign).foldl (fun s i => s.modifyGroup i (Group.trigger s.now)) s

/-- Whether a group's presence expiry has been reached (R114). -/
def Group.presenceDue (now : Nat) (g : Group) : Bool :=
  match g.presence with
  | some t => decide (t ≤ now)
  | none => false

/-- PRESENCE_EXPIRY (R114). -/
def effPresenceExpiry (i : Nat) (s : State) : State :=
  match s.light.groups.get i with
  | none => s
  | some g => if g.presenceDue s.now then s.changeGroup i g { g with presence := none } else s

/-- ZONE_CHANGE_LIGHTING: the zone alarm view takes the value and the zone's groups are recomputed (R110, R112). -/
def effZoneChangeLighting (zone : Nat) (inAlarm : Bool) (s : State) : State :=
  ({ s with light := { s.light with zoneAlarm := s.light.zoneAlarm.set zone inAlarm } } : State).modifyGroups
    (fun _ g => g.defn.zone == zone) id

/-- LAMP_WRITE_OUTCOME (R117). -/
def effLampWriteOutcome (n : NodeId) (accepted : Bool) (s : State) : State :=
  { s with
    light :=
      { s.light with
        groups := s.light.groups.map fun _ g =>
          if g.defn.node = n then
            match g.inFlight with
            | some l => if accepted then { g with applied := some l, inFlight := none } else { g with inFlight := none }
            | none => g
          else g } }

/-- A group stores the conditions of its own outputs (R118). -/
def Group.takeReport (conds : List LampCondition) (g : Group) : Group :=
  { g with conditions := g.defn.outputs.map fun o => conds.getD o .unknown }

/-- A node's eight output conditions as its groups hold them; an output no group owns is UNKNOWN (R118, R143; log 15). -/
def nodeConditions (groups : Table Group) (n : NodeId) : List LampCondition :=
  (List.range 8).map fun o =>
    match List.find? (fun e : Nat × Group => e.2.defn.node == n && e.2.defn.outputs.contains o) groups with
    | some e => e.2.conditions.getD (e.2.defn.outputs.idxOf o) .unknown
    | none => .unknown

/-- LAMP_REPORT: the groups of the node store their outputs' conditions, and a change is handed to the Loop Master
(R118). -/
def effLampReport (n : NodeId) (ready : Bool) (payload : List Byte) (s : State) : State :=
  if ready then
    match parseLamp payload with
    | none => s
    | some conds =>
      let groups := s.light.groups.map fun _ g => if g.defn.node = n then g.takeReport conds else g
      let t : State := { s with light := { s.light with groups := groups } }
      if nodeConditions s.light.groups n = nodeConditions groups n then t
      else t.setReport n (.lamp (nodeConditions groups n))
  else s

/-- Change the run state of every group of a node that a node event touches (R119). -/
def State.touchGroups (n : NodeId) (f : Group → Group) (s : State) : State :=
  { s with light := { s.light with groups := s.light.groups.map fun _ g => if g.defn.node = n then f g else g } }

/-- A group whose driver is lost: levels absent, conditions UNKNOWN (R119). -/
def Group.lost (g : Group) : Group :=
  { g with applied := none, inFlight := none, conditions := g.defn.outputs.map fun _ => .unknown }

/-- LAMP_NODE_LOST (R119). -/
def effLampNodeLost (n : NodeId) (s : State) : State := s.touchGroups n Group.lost

/-- LAMP_NODE_RESET: as for a loss (R119). -/
def effLampNodeReset (n : NodeId) (s : State) : State := s.touchGroups n Group.lost

/-- LAMP_NODE_RETURN: levels absent, conditions kept (R119). -/
def effLampNodeReturn (n : NodeId) (s : State) : State :=
  s.touchGroups n fun g => { g with applied := none, inFlight := none }

/-- SUPERVISION_EXPIRY_LIGHTING: every override is dropped and every target recomputed (R122). -/
def effSupervisionLighting (s : State) : State :=
  s.modifyGroups (fun _ _ => true) fun g => { g with override := none }

/-! ### Requests -/

/-- The owner's part of SITE-MODE (R120). -/
def ownSiteMode (code : Nat) (s : State) : Owned :=
  match siteModeOf code with
  | none => .error .outOfRange
  | some m =>
    if s.light.mode = m then accept false s
    else
      let t : State := { s with light := { s.light with mode := m } }
      accept false (((t.modifyGroups (fun _ _ => true) id).hand (.siteModeFloorChange m)).mark .site)

/-- A range of groups: refused when out of range or when it holds no defined group (R121). -/
def ownGroupRange (first last : Nat) (clamped : Bool) (f : Group → Group) (s : State) : Owned :=
  refuseIf (Config.groups ≤ first || Config.groups ≤ last || last < first) .outOfRange <|
  refuseIf (s.light.groups.keys.all fun i => i < first || last < i) .notDefined <|
  accept clamped (s.modifyGroups (fun i _ => decide (first ≤ i) && decide (i ≤ last)) f)

/-- The owner's part of GROUP-OVERRIDE (R121). -/
def ownGroupOverride (r : Nat × Nat × Nat) (s : State) : Owned :=
  ownGroupRange r.1 r.2.1 (decide (1000 < r.2.2)) (fun g => { g with override := some (min 1000 r.2.2) }) s

/-- The owner's part of GROUP-RELEASE (R121). -/
def ownGroupRelease (r : Nat × Nat) (s : State) : Owned :=
  ownGroupRange r.1 r.2 false (fun g => { g with override := none }) s

/-- Whether a GROUP-DEF's bay range and ramp are in range where present (R123). DESIGN CHOICE (log 45): the flags alone say what
is present. -/
def GroupDefReq.refsOk (r : GroupDefReq) : Bool :=
  (!r.hasRange || (decide (r.firstBay < Config.bays) && decide (r.lastBay < Config.bays) && decide (r.firstBay ≤ r.lastBay)))
    && (!r.hasRamp || decide (r.ramp < Config.ramps))

/-- The definition a GROUP-DEF gives after clamping (R123). -/
def GroupDefReq.defn (r : GroupDefReq) (n : NodeId) (p : Polarity) : GroupDefn where
  zone := r.zone
  node := n
  outputs := r.outputs
  polarity := p
  bayRange := if r.hasRange then some (r.firstBay, r.lastBay) else none
  ramp := if r.hasRamp then some r.ramp else none
  presenceLevel := min 1000 r.presenceLevel
  holdTime := clamp 5 1800 r.holdTime
  fadeTime := min 60 r.fadeTime

/-- Whether a GROUP-DEF's tuning fields were clamped (R123). -/
def GroupDefReq.clamped (r : GroupDefReq) : Bool :=
  decide (1000 < r.presenceLevel) || decide (r.holdTime < 5) || decide (1800 < r.holdTime) || decide (60 < r.fadeTime)

/-- The conditions of a new output list: outputs that stay keep theirs, outputs that join are UNKNOWN (R124). -/
def carryConditions (g : Group) (outputs : List Nat) : List LampCondition :=
  outputs.map fun o =>
    if g.defn.outputs.contains o then g.conditions.getD (g.defn.outputs.idxOf o) .unknown else .unknown

/-- The owner's part of GROUP-DEF (R123, R124). DESIGN CHOICE (log 41): of the two nodes of a group that moves, the old one is
posted first. -/
def ownGroupDef (r : GroupDefReq) (s : State) : Owned :=
  refuseIf (Config.groups ≤ r.group) .outOfRange <|
  if r.remove then
    match s.light.groups.get r.group with
    | none => .error .notDefined
    | some g =>
      let t : State := { s with light := { s.light with groups := s.light.groups.del r.group } }
      accept false (t.post g.defn.node)
  else
    match nodeOf r.loop r.addr, polarityOf r.polarity with
    | some n, some p =>
      refuseIf
          (Config.zones ≤ r.zone || r.outputs.length == 0 || 8 < r.outputs.length || !r.outputs.all (· < 8)
            || !r.refsOk) .outOfRange <|
      match s.node n with
      | none => .error .notDefined
      | some x =>
        refuseIf (!s.zoneDefined r.zone) .notDefined <|
        refuseIf (x.defn.role != .lamp) .conflict <|
        refuseIf
            (!distinct r.outputs
              || s.light.groups.anyOther r.group fun g =>
                  g.defn.node == n && g.defn.outputs.any fun o => r.outputs.contains o) .conflict <|
        let d := r.defn n p
        match s.light.groups.get r.group with
        | none =>
          let g : Group :=
            { defn := d, override := none, presence := none, target := 0, cause := .base, inFlight := none
              applied := none, conditions := d.outputs.map fun _ => .unknown }
          accept r.clamped ((s.putGroup r.group (s.targeted g)).post n)
        | some g =>
          if g.defn = d then accept r.clamped s
          else if g.defn.node = n then
            let h := s.targeted { g with defn := d, conditions := carryConditions g d.outputs }
            let t := s.putGroup r.group h
            accept r.clamped
              (if g.target ≠ h.target ∨ g.defn.polarity ≠ p ∨ g.defn.outputs ≠ r.outputs then t.post n else t)
          else
            let h := s.targeted (Group.lost { g with defn := d })
            accept r.clamped ((s.putGroup r.group h).postAll [g.defn.node, n])
    | _, _ => .error .outOfRange

/-! ### Start, DEFAULTS and settings -/

/-- The group table at a start: every group at the OPEN base level (R126). -/
def startGroups (groups : Table GroupDefn) (it : Items) : Table Group :=
  groups.map fun _ d =>
    { defn := d, override := none, presence := none, target := it.openBase, cause := .base, inFlight := none
      applied := none, conditions := d.outputs.map fun _ => .unknown }

/-- DEFAULTS in the Lighting Controller: every group undefined and its node posted (R126), in ascending group id (DESIGN
CHOICE, log 39). -/
def defaultsLights (s : State) : State :=
  ({ s with light := { s.light with groups := [] } } : State).postAll
    (List.map (fun e : Nat × Group => e.2.defn.node) s.light.groups)

/-- Recompute every group's target (R112). -/
def retargetAll (s : State) : State := s.modifyGroups (fun _ _ => true) id

end Sys2Proof.Machine
end

