-- ==== Sys2Proof/Machine/ScanList.lean ====
section
/-! DEFINITION. The Scan List Unit (08_the_scan_list): list states, stepping, transaction entries, errors, and its requests
and events. -/

namespace Sys2Proof.Machine

/-! ### The list state (R147, R162) -/

/-- Change the Scan List Unit. -/
def State.withList (f : ScanList → ScanList) (s : State) : State := { s with list := f s.list }

/-- Whether a change of the list state marks the list subject: every change but one between RUNNING and PAUSED (R162). -/
def listChangeNoted (old new : ListState) : Bool :=
  match old, new with
  | .running, .paused => false
  | .paused, .running => false
  | _, _ => old != new

/-- The list state takes a value; the list subject is marked by R162. -/
def State.setListState (x : ListState) (s : State) : State :=
  let t := s.withList fun l => { l with state := x }
  if listChangeNoted s.list.state x then t.mark .list else t

/-- The entry of an index. -/
def ScanList.entry (l : ScanList) (i : Nat) : ListEntry := l.memory.getD i .halt

/-- The entry in execution: the cursor's, while RUNNING or PAUSED (R147). -/
def ScanList.inExecution (l : ScanList) : Option Nat :=
  match l.state with
  | .running | .paused => some l.cursor
  | .idle | .done | .faulted => none

/-- A transaction entry is at the cursor of a RUNNING list with nothing in flight and no halt pending (R147). -/
def ScanList.ready (l : ScanList) : Bool := l.state == .running && l.inFlight.isNone && !l.haltPending

/-- The REPEAT item's limit timer stops and its expiry mark clears; the stamp is kept (R154). -/
def ScanList.stopLimit (l : ScanList) : ScanList :=
  { l with progress := { l.progress with limitRunning := false, expired := false } }

/-- A new REPEAT item: no stamp before its first READ, no expiry mark (R154). -/
def ScanList.newItem (l : ScanList) : ScanList :=
  { l with progress := { l.progress with itemStart := none, limitRunning := false, expired := false } }

/-! ### Reaching entries (R148) -/

/-- The remaining count of a RUN entry on reaching it (R152 to R155). -/
def runCount (n : NodeId) (count : Nat) : RunMode → Nat
  | .sweep => min count (32 - n.addr)
  | .stop | .ignore | .repeat => count

/-- The progress of a RUN entry on reaching it (R152 to R155). -/
def runProgress (n : NodeId) : RunMode → Progress
  | .sweep => { Progress.absent with nextAddr := some n.addr }
  | .stop | .ignore | .repeat => Progress.absent

/-- The list stops by an error at the entry at its cursor (R156, R148). -/
def State.faultList (k : ListErrorKind) (n : Option NodeId) (s : State) : State :=
  (s.withList fun l =>
      { l.stopLimit with stopError := some ⟨l.cursor, k, n, s.now⟩ }).setListState .faulted

/-- The list reaches the entry at its cursor and takes it by its kind; a JUMP is followed, at most 256 in a row (R148). -/
def State.reach : Nat → State → State
  | 0, s => s
  | fuel + 1, s =>
    match s.list.entry s.list.cursor with
    | .poll _ _ _ => s.withList fun l => { l with remaining := none, progress := .absent, jumpRun := 0 }
    | .run n c m _ =>
      s.withList fun l => { l with remaining := some (runCount n c m), progress := runProgress n m, jumpRun := 0 }
    | .pause _ =>
      (s.withList fun l =>
          { l with remaining := none, progress := .absent, jumpRun := 0, pauseStart := some s.clockMs }).setListState
        .paused
    | .jump t =>
      let u := s.withList fun l => { l with remaining := none, progress := .absent, jumpRun := l.jumpRun + 1 }
      if 256 ≤ u.list.jumpRun then u.faultList .jumpLoop none
      else (u.withList fun l => { l with cursor := t }).reach fuel
    | .halt =>
      (s.withList fun l => { l with remaining := none, progress := .absent, jumpRun := 0 }).setListState .done

/-- The cursor is set to an index and the entry there is reached; the 256th JUMP in a row ends the walk (R148). -/
def State.reachAt (i : Nat) (s : State) : State := (s.withList fun l => { l with cursor := i }).reach 257

/-- The cursor advances, from entry 255 to entry 0 (R148). -/
def State.advance (s : State) : State := s.reachAt ((s.list.cursor + 1) % Config.listEntries)

/-! ### Errors (R156) -/

/-- An error passed over by abort-disable (R156). -/
def State.continueError (s : State) : State :=
  s.withList fun l => { l with continued := heldSucc 65535 l.continued }

/-- An outcome lowers the remaining count by 1 (R152 to R155). -/
def ScanList.lower (l : ScanList) : ScanList := { l with remaining := l.remaining.map (· - 1) }

/-- The RUN entry ends when its remaining count is 0 (R152 to R155). -/
def State.endSpent (s : State) : State := if s.list.remaining = some 0 then s.advance else s

/-- One address of a SWEEP is done (R155). -/
def State.nextSwept (s : State) : State :=
  (s.withList fun l =>
      { l.lower with progress := { l.progress with nextAddr := l.progress.nextAddr.map (· + 1) } }).endSpent

/-- An error of the entry at the cursor (R156). The outcome of an IGNORE run has lowered the remaining count before it
(R153); a SWEEP stopped by an error keeps its count and its address (R155, DEDUCED, log 29). -/
def State.listError (k : ListErrorKind) (s : State) : State :=
  match s.list.entry s.list.cursor with
  | .poll n _ d => if d then s.continueError.advance else s.faultList k (some n)
  | .run n _ m d =>
    if d then
      match m with
      | .stop | .repeat => (s.continueError.withList ScanList.stopLimit).advance
      | .ignore => s.continueError.endSpent
      | .sweep => s.continueError.nextSwept
    else
      s.faultList k
        (some (match m with
          | .sweep => ⟨n.loop, s.list.progress.nextAddr.getD n.addr⟩
          | .stop | .ignore | .repeat => n))
  | .pause _ | .jump _ | .halt => s

/-- The error kind of a failed transaction. -/
def errorKindOf : TxClass → Option ListErrorKind
  | .noAnswer => some .noAnswer
  | .garbled => some .garbled
  | .wrongRole => some .wrongRole
  | .refused => some .refused
  | .good => none

/-! ### Outcomes (R149 to R155) -/

/-- A STOP run takes an outcome (R152). -/
def State.stopOutcome (o : ListOutcome) (s : State) : State :=
  match errorKindOf o.cls with
  | some k => s.listError k
  | none =>
    let t := s.withList ScanList.lower
    if o.ready = false then t.advance else t.endSpent

/-- An IGNORE run takes an outcome: each outcome lowers the remaining count by 1, a failed one too (R153). -/
def State.ignoreOutcome (o : ListOutcome) (s : State) : State :=
  let t := s.withList ScanList.lower
  match errorKindOf o.cls with
  | some k => t.listError k
  | none => t.endSpent

/-- A REPEAT run takes an outcome (R154). -/
def State.repeatOutcome (o : ListOutcome) (s : State) : State :=
  match errorKindOf o.cls with
  | some k => s.listError k
  | none =>
    if o.ready then
      (s.withList fun l => l.newItem.lower).endSpent
    else if s.list.progress.expired then s.listError .limit
    else s

/-- A SWEEP run takes an outcome (R155). -/
def State.sweepOutcome (o : ListOutcome) (s : State) : State :=
  match o.cls with
  | .garbled => s.listError .garbled
  | .noAnswer | .wrongRole | .refused | .good => s.nextSwept

/-- A POLL entry takes an outcome: a READ passes over a wrong role, a WRITE does not (R150, R151). -/
def State.pollOutcome (write : Bool) (o : ListOutcome) (s : State) : State :=
  match o.cls with
  | .good => s.advance
  | .wrongRole => if write then s.listError .wrongRole else s.advance
  | .noAnswer => s.listError .noAnswer
  | .garbled => s.listError .garbled
  | .refused => s.listError .refused

/-- The entry at the cursor takes an outcome (R149). -/
def State.entryOutcome (o : ListOutcome) (s : State) : State :=
  match s.list.entry s.list.cursor with
  | .poll _ w _ => s.pollOutcome w o
  | .run _ _ .stop _ => s.stopOutcome o
  | .run _ _ .ignore _ => s.ignoreOutcome o
  | .run _ _ .repeat _ => s.repeatOutcome o
  | .run _ _ .sweep _ => s.sweepOutcome o
  | .pause _ | .jump _ | .halt => s

/-- LIST_OUTCOME: the list's transaction in flight becomes none; an abandoned one steps nothing, a pending halt makes the
list IDLE, and otherwise the entry takes the outcome (R149, R159). -/
def effListOutcome (o : ListOutcome) (s : State) : State :=
  match s.list.inFlight with
  | none => s
  | some _ =>
    let t := s.withList fun l => { l with inFlight := none }
    if s.list.abandoned then t.withList fun l => { l with abandoned := false }
    else if s.list.haltPending then (t.withList fun l => { l with haltPending := false }).setListState .idle
    else t.entryOutcome o

/-! ### Timers -/

/-- Whether the pause timer has run out (R148). -/
def State.pauseDue (s : State) : Bool :=
  match s.list.state, s.list.pauseStart, s.list.entry s.list.cursor with
  | .paused, some t, .pause d => decide (t + d ≤ s.clockMs)
  | _, _, _ => false

/-- PAUSE_EXPIRY: the list becomes RUNNING and the cursor advances (R148). -/
def effPauseExpiry (s : State) : State :=
  if s.pauseDue then ((s.withList fun l => { l with pauseStart := none }).setListState .running).advance else s

/-- Whether the REPEAT item's limit timer has run out and its expiry is not yet marked (R154). -/
def State.limitDue (s : State) : Bool :=
  match s.list.progress.itemStart with
  | some t =>
    s.list.state == .running && s.list.progress.limitRunning && !s.list.progress.expired
      && decide (t + s.items.repeatLimit ≤ s.clockMs)
  | none => false

/-- REPEAT_LIMIT_EXPIRY: the expiry mark is set while a READ of the item is in flight; otherwise the item meets an error of
kind LIMIT (R154). DESIGN CHOICE (log 50): an expiry mark once set stays when SET-ITEM raises the REPEAT limit. -/
def effRepeatLimitExpiry (s : State) : State :=
  if s.limitDue then
    match s.list.inFlight with
    | some _ => s.withList fun l => { l with progress := { l.progress with expired := true } }
    | none => s.listError .limit
  else s

/-! ### Requests -/

/-- The entries of a LIST-LOAD, when each is in range, and whether one was clamped (R157). -/
def loadEntries : List (List Byte) → Option (List ListEntry × Bool)
  | [] => some ([], false)
  | b :: t =>
    match entryOf b, loadEntries t with
    | some (e, c), some (es, d) => some (e :: es, c || d)
    | _, _ => none

/-- Write entries to consecutive indices from the first (R157). -/
def writeEntries (first : Nat) (es : List ListEntry) (memory : List ListEntry) : List ListEntry :=
  memory.take first ++ es ++ memory.drop (first + es.length)

/-- The owner's part of LIST-LOAD (R157). DESIGN CHOICE (log 51): it leaves the remaining count and the progress of a stopped
list as they stand. DESIGN CHOICE (log 52): the first index FFh is entry 255. -/
def ownListLoad (r : Nat × List (List Byte)) (s : State) : Owned :=
  match loadEntries r.2 with
  | none => .error .outOfRange
  | some (es, clamped) =>
    refuseIf (es.length == 0 || 32 < es.length || Config.listEntries < r.1 + es.length) .outOfRange <|
    refuseIf
        (match s.list.inExecution with
          | some i => decide (r.1 ≤ i) && decide (i < r.1 + es.length)
          | none => false) .busy <|
    accept clamped (s.withList fun l => { l with memory := writeEntries r.1 es l.memory })

/-- The owner's part of LIST-GO (R158). DESIGN CHOICE (log 52): the index FFh is entry 255, so no one-byte index is out of
range. -/
def ownListGo (i : Nat) (s : State) : Owned :=
  refuseIf (Config.listEntries ≤ i) .outOfRange <|
  let t := s.withList fun l =>
    { l.stopLimit with
      abandoned := l.inFlight.isSome, haltPending := false, stopError := none, continued := 0, jumpRun := 0
      pauseStart := none }
  accept false (((t.setListState .running).reachAt i).mark .list)

/-- The list becomes IDLE at once: a pause timer and a limit timer stop (R159, R154). -/
def State.idleList (s : State) : State :=
  (s.withList fun l => { l.stopLimit with pauseStart := none }).setListState .idle

/-- The owner's part of LIST-HALT (R159). -/
def ownListHalt (_ : Unit) (s : State) : Owned :=
  match s.list.state with
  | .idle => accept false s
  | .running =>
    if s.list.inFlight.isSome && !s.list.abandoned then
      if s.list.haltPending then accept false s
      else accept false ((s.withList fun l => { l.stopLimit with haltPending := true }).mark .list)
    else accept false s.idleList
  | .paused | .done | .faulted => accept false s.idleList

/-! ### Start and DEFAULTS (R163) -/

/-- The Scan List Unit at a start, before entry 0 is reached when auto-start is set. -/
def startList (memory : List ListEntry) : ScanList where
  memory := memory
  state := .idle
  cursor := 0
  remaining := none
  progress := .absent
  inFlight := none
  abandoned := false
  haltPending := false
  jumpRun := 0
  stopError := none
  continued := 0
  pauseStart := none

/-- With auto-start set the list is RUNNING with entry 0 reached. -/
def State.autoStart (s : State) : State :=
  if s.items.autoStart then (s.setListState .running).reachAt 0 else s

/-- DEFAULTS stage 1: the list becomes IDLE, its transaction in flight is abandoned, its pause timer stops. -/
def defaultsIdleList (s : State) : State :=
  (s.withList fun l => { l with abandoned := l.inFlight.isSome, haltPending := false }).idleList

/-- DEFAULTS stage 3 in the Scan List Unit: list memory takes the factory values and the cursor becomes 0 (R163). The entry
there is a HALT, so the remaining count is absent (R148), and so is the progress. -/
def defaultsListMemory (s : State) : State :=
  s.withList fun l => { l with memory := factoryList, cursor := 0, remaining := none, progress := .absent }

end Sys2Proof.Machine
end

