-- ==== Sys2Proof/Machine/Loops.lean ====
section
/-! DEFINITION. The Loop Master (07_zone_loops_and_nodes): transactions and their outcomes, node states, attention and
roll-calls, the choice of the next transaction, the urgent write queue, the found list, and its requests and events. -/

namespace Sys2Proof.Machine

/-! ### Places -/

/-- Change the Loop Master. -/
def State.withLoops (f : LoopMaster → LoopMaster) (s : State) : State := { s with loops := f s.loops }

/-- A loop's attention state. -/
def State.line (s : State) (l : LoopId) : LoopState := s.loops.lines.get l

/-- Replace a loop's attention state. -/
def State.setLine (l : LoopId) (x : LoopState) (s : State) : State :=
  s.withLoops fun m => { m with lines := m.lines.set l x }

/-- The nodes of a loop that have an entry, in ascending address. -/
def State.nodesOf (s : State) (l : LoopId) : List NodeId :=
  (s.loops.nodes.keys.map nodeAt).filter fun n => n.loop == l

/-! ### The urgent write queue (R137) -/

/-- The first node in node-table order whose refresh owed mark is set. -/
def State.firstOwed (s : State) : Option NodeId := (s.loops.nodes.find (·.refreshOwed)).map nodeAt

/-- The room of the urgent write queue is filled from the refresh owed marks; a mark of a node that has an entry is cleared
without a post (R137). -/
def State.refill : Nat → State → State
  | 0, s => s
  | fuel + 1, s =>
    if s.loops.urgent.length < Config.urgentCapacity then
      match s.firstOwed with
      | none => s
      | some n =>
        match s.node n with
        | none => s
        | some x => ((s.setNode n { x with refreshOwed := false }).post n).refill fuel
    else s

/-- Entries of the urgent write queue are removed, and the room is filled (R137). -/
def State.removeUrgent (p : NodeId → Bool) (s : State) : State :=
  (s.withLoops fun m => { m with urgent := m.urgent.filter fun n => !p n }).refill Config.nodes

/-- An entry is deleted with its urgent entry and its refresh owed mark (R141, R145). -/
def State.deleteNode (n : NodeId) (s : State) : State :=
  (s.withLoops fun m => { m with nodes := m.nodes.del (nodeIndex n) }).removeUrgent (· == n)

/-! ### What the Loop Master hands on (R131, R132) -/

/-- A node becomes LOST: the event of its role's owner (R132). -/
def lostEvent (n : NodeId) : Role → Instr
  | .gas => .gasNodeLost n
  | .bay => .bayNodeLost n
  | .ramp => .rampNodeLost n
  | .fan => .fanNodeLost n
  | .sign => .signNodeLost n
  | .lamp => .lampNodeLost n

/-- A LOOP-RESET sets a node to DEFINED: the event of its role's owner (R132). -/
def resetEvent (n : NodeId) : Role → Instr
  | .gas => .gasNodeReset n
  | .bay => .bayNodeReset n
  | .ramp => .rampNodeReset n
  | .fan => .fanNodeReset n
  | .sign => .signNodeReset n
  | .lamp => .lampNodeReset n

/-- A node returns from LOST: only the Lighting Controller has an event of its own for it (R132, R119). -/
def returnEvents (n : NodeId) : Role → List Instr
  | .lamp => [.lampNodeReturn n]
  | .gas | .bay | .ramp | .fan | .sign => []

/-- A node reports a restart: the owners that have an event of their own for it (R132). -/
def restartEvents (n : NodeId) : Role → List Instr
  | .bay => [.bayNodeRestart n]
  | .fan => [.fanNodeRestart n]
  | .lamp => [.lampNodeReturn n]
  | .gas | .ramp | .sign => []

/-- The payload of a good READ goes to the owner of the role (R131). -/
def readingEvent (n : NodeId) (ready : Bool) (payload : List Byte) : Role → Instr
  | .gas => .gasReading n ready payload
  | .bay => .bayStripReading n ready payload
  | .ramp => .rampReading n ready payload
  | .fan => .driveReport n ready payload
  | .sign => .signReport n ready payload
  | .lamp => .lampReport n ready payload

/-! ### Outcomes (R128, R186) -/

/-- What a reply that is complete and passes its CRC-8 holds. -/
structure Reply where
  ready : Bool
  restarted : Bool
  attention : Bool
  role : Nat
  payload : List Byte
deriving DecidableEq, Repr

/-- Reads a reply: its length comes from the operation sent and the role in the status byte; a reply that stops short or
fails its CRC-8 is none; bytes after completion are no part of it (R186). -/
def readReply (op : LoopOp) : List Byte → Option Reply
  | [] => none
  | st :: rest =>
    let len := replyLength op (st.toNat % 8)
    match rest[len]? with
    | none => none
    | some check =>
      if crc8 (st :: rest.take len) = check then
        some ⟨st.getLsbD 7, st.getLsbD 6, st.getLsbD 5, st.toNat % 8, rest.take len⟩
      else none

/-- The classification of a reply against the role of the node's entry (R128); without an entry the role is not compared
(R150). -/
def classifyReply (op : LoopOp) (entry : Option Role) : Option Reply → TxClass
  | none => .garbled
  | some r =>
    if (match entry with | some e => roleCode e != r.role | none => false) then .wrongRole
    else if (op == .write || op == .setup) && !r.ready then .refused
    else .good

/-- The kind of a failure (R127). -/
def failureOf : TxClass → FailureKind
  | .noAnswer => .noAnswer
  | .garbled => .garbled
  | .wrongRole => .wrongRole
  | .refused => .refused
  | .good => .none

/-- A node entry after a failure, with the state by R129. -/
def Node.fail (limit : Nat) (k : FailureKind) (x : Node) : Node :=
  let n := heldSucc 15 x.failures
  { x with failures := n, lastFailure := k, state := if limit ≤ n then .lost else x.state }

/-- A node entry after a good outcome (R129). -/
def Node.succeed (x : Node) : Node :=
  { x with failures := 0, state := .online, setupDue := x.setupDue || x.state != .online }

/-- Whether a change of a node's entry marks its subject (R143). -/
def Node.noted (old new : Node) : Bool :=
  old.state != new.state || (new.lastFailure == .wrongRole && old.lastFailure != .wrongRole)

/-- A node's state changes to LOST: its loss is handed on, and a retiring entry is deleted (R129, R145). -/
def State.afterLoss (n : NodeId) (old new : Node) (s : State) : State :=
  if old.state ≠ .lost ∧ new.state = .lost then
    let t := s.hand (lostEvent n new.defn.role)
    if new.retiring then t.deleteNode n else t
  else s

/-- A failed outcome reaches a node's entry (R129, R131). -/
def State.nodeFailed (n : NodeId) (x : Node) (k : FailureKind) (s : State) : State :=
  let y := x.fail s.items.failLimit k
  let t := s.setNode n y
  (if x.noted y then t.mark (.node n) else t).afterLoss n x y

/-- A reply that passed its check with the entry's role is seen (R127). -/
def Node.seen (now : Nat) (r : Reply) (x : Node) : Node := { x with lastSeen := some now, attention := r.attention }

/-- The restart flag of such a reply: acted on when setup due was clear before it (R130). -/
def restartActs (before : Node) (r : Reply) : Bool := r.restarted && !before.setupDue

/-- A refused outcome: a failure whose reply passed its check with the entry's role (R129, R130, R131). -/
def State.nodeRefused (n : NodeId) (x : Node) (r : Reply) (s : State) : State :=
  let t := s.nodeFailed n (x.seen s.now r) .refused
  if restartActs x r then
    match t.node n with
    | none => t
    | some y => ((t.setNode n { y with setupDue := true }).post n).handAll (restartEvents n x.defn.role)
  else t

/-- Roles that take output writes (7.1). -/
def Role.output : Role → Bool
  | .fan | .lamp | .sign => true
  | .bay | .gas | .ramp => false

/-- A good outcome reaches a node's entry (R129, R130, R131). DESIGN CHOICE (log 42): a good SETUP that brings the entry ONLINE
leaves its setup due mark clear. DEDUCED (log 47): so does one that was in flight when NODE-DEF gave new setup values. -/
def State.nodeGood (n : NodeId) (x : Node) (op : LoopOp) (r : Reply) (s : State) : State :=
  let y := (x.seen s.now r).succeed
  let due := (y.setupDue || restartActs x r) && op != .setup
  let t := s.setNode n { y with setupDue := due }
  let u := if x.state = .online then t else (t.mark (.node n)).post n
  let v := if restartActs x r then u.post n else u
  let w := if op = .setup ∧ Role.output x.defn.role = true then v.post n else v
  let a := if x.state = .lost then w.handAll (returnEvents n x.defn.role) else w
  let b := if restartActs x r then a.handAll (restartEvents n x.defn.role) else a
  if op = .read then b.hand (readingEvent n r.ready r.payload x.defn.role) else b

/-- An entry takes the outcome of a transaction; an IDENTIFY that meets no-answer counts nothing (R128, R131). -/
def State.nodeTakes (tx : Transaction) (x : Node) (cls : TxClass) (reply : Option Reply) (s : State) : State :=
  match cls, reply with
  | .good, some r => s.nodeGood tx.node x tx.op r
  | .refused, some r => s.nodeRefused tx.node x r
  | .noAnswer, _ => if tx.op = .identify then s else s.nodeFailed tx.node x .noAnswer
  | .garbled, _ => s.nodeFailed tx.node x .garbled
  | .wrongRole, _ => s.nodeFailed tx.node x .wrongRole
  | .good, none | .refused, none => s

/-- The outcome of a transaction reaches the node's entry; one sent to an address without an entry reaches none, also when
NODE-DEF has made an entry there since (R128). -/
def State.nodeOutcome (tx : Transaction) (cls : TxClass) (reply : Option Reply) (s : State) : State :=
  match tx.role, s.node tx.node with
  | some _, some x => s.nodeTakes tx x cls reply
  | some _, none | none, _ => s

/-- A WRITE to a LAMP node hands its outcome to the Lighting Controller (R131, R142). -/
def State.lampOutcome (tx : Transaction) (accepted : Bool) (s : State) : State :=
  if tx.op = .write ∧ tx.role = some .lamp then s.hand (.lampWriteOutcome tx.node accepted) else s

/-- Whether a transaction is that of a retiring entry, as the entry stands or, once it is gone, as it was sent (R145). -/
def Transaction.ofRetiring (tx : Transaction) : Option Node → Bool
  | some x => x.retiring
  | none => tx.lastWrite

/-- After the outcome of an urgent WRITE or SETUP, with the node's entry as it stood before it: a failure is re-posted, but
not that of a retiring entry, which its last write deletes (R138, R145). DEDUCED (log 48): a node that has lost its entry is
re-posted too, since R138 exempts none. -/
def State.afterUrgent (tx : Transaction) (good : Bool) (before : Option Node) (s : State) : State :=
  if tx.source = .urgent then
    if tx.ofRetiring before then
      if tx.lastWrite && (s.node tx.node).isSome then s.deleteNode tx.node else s
    else if good then s else s.post tx.node
  else s

/-- Whether R142 keeps a failed transaction from being re-posted: a WRITE whose effect it ended, and no SETUP (R138). -/
def Transaction.dropped (tx : Transaction) : Bool := tx.voided && tx.op == .write

/-- A record is appended to the found list by an IDENTIFY reply that passes its check (R139). -/
def State.found (tx : Transaction) (reply : Option Reply) (s : State) : State :=
  match tx.op, reply with
  | .identify, some r =>
    s.withLoops fun m => { m with found := (m.found.filter fun f => f.node != tx.node) ++ [⟨tx.node, r.role⟩] }
  | _, _ => s

/-- The attention line of a loop is sampled: asserted while NORMAL sets the latch (R133). -/
def State.sample (l : LoopId) (s : State) : State :=
  let x := s.line l
  if x.line && x.ignoredSince.isNone then s.setLine l { x with latch := true } else s

/-- The levels of the four attention lines as an event gives them. -/
def State.setLevels (lines : PerLoop Bool) (s : State) : State :=
  loopList.foldl (fun s l => s.setLine l { s.line l with line := lines.get l }) s

/-- After the last read of a service set the line is sampled, whatever a NODE-DEF did to that read (R133, R142; log 19). -/
def State.afterService (tx : Transaction) (s : State) : State :=
  if tx.emptied then s.sample tx.node.loop else s

/-- What the Scan List Unit is handed of a list transaction (R149). -/
def State.handList (tx : Transaction) (cls : TxClass) (reply : Option Reply) (s : State) : State :=
  if tx.source = .list then
    s.hand (.listOutcome
      { cls := cls, hasEntry := (s.node tx.node).isSome
        ready := (match reply with | some r => r.ready | none => false), role := reply.map (·.role) })
  else s

/-- The outcome of a transaction is taken whole (R131, R138, R139, R142, R145, R133, R149). A voided one changes no entry and
is handed to the Lighting Controller as failed; a voided SETUP that fails is re-posted as any other (R138, log 48). -/
def State.takeOutcome (tx : Transaction) (cls : TxClass) (reply : Option Reply) (s : State) : State :=
  let t := s.withLoops fun m => { m with tx := none }
  let good := cls == .good
  let u := if tx.voided then t.lampOutcome tx false else (t.nodeOutcome tx cls reply).lampOutcome tx good
  let v := if tx.dropped then u else u.afterUrgent tx good (t.node tx.node)
  ((v.found tx reply).afterService tx).handList tx cls reply

/-- The role of a node's entry, absent without an entry. -/
def State.entryRole (s : State) (n : NodeId) : Option Role := (s.node n).map fun x => x.defn.role

/-- The transaction in flight, when it is other than a roll-call. -/
def State.nodeTransaction (s : State) : Option Transaction :=
  match s.loops.tx with
  | none => none
  | some tx => if tx.op = .rollcall then none else some tx

/-- REPLY_RECEIVED (R128, R131). -/
def effReplyReceived (reply : List Byte) (lines : PerLoop Bool) (s : State) : State :=
  match s.nodeTransaction with
  | none => s
  | some tx =>
    let r := readReply tx.op reply
    (s.setLevels lines).takeOutcome tx (classifyReply tx.op (s.entryRole tx.node) r) r

/-- REPLY_TIMEOUT: no-answer (R128, R131). -/
def effReplyTimeout (lines : PerLoop Bool) (s : State) : State :=
  match s.nodeTransaction with
  | none => s
  | some tx => (s.setLevels lines).takeOutcome tx .noAnswer none

/-! ### Attention and the roll-call (R133 to R135) -/

/-- Every node of a loop is marked (R135, R140). -/
def State.markLoop (l : LoopId) (s : State) : State := s.markAll ((s.nodesOf l).map Subject.node)

/-- ATTENTION_ASSERTED: the line passes from released to asserted and is sampled (R133). -/
def effAttentionAsserted (l : LoopId) (s : State) : State := (s.setLine l { s.line l with line := true }).sample l

/-- The service set of a roll-call's mask: addresses heard that have an entry and are not retiring (R134). -/
def State.serviceOf (s : State) (l : LoopId) (mask : BitVec 32) : List Nat :=
  (List.range 32).filter fun a =>
    mask.getLsbD a && (match s.node ⟨l, a⟩ with | some x => !x.retiring | none => false)

/-- ROLLCALL_END: the mask forms the service set; an empty one counts, and the third in a row makes the loop IGNORED
(R134, R135). A voided roll-call does neither (R142). -/
def effRollcallEnd (mask : BitVec 32) (lines : PerLoop Bool) (s : State) : State :=
  match s.loops.tx with
  | none => s
  | some tx =>
    if tx.op = .rollcall then
      let l := tx.node.loop
      let t := (s.setLevels lines).withLoops fun m => { m with tx := none }
      if tx.voided then t
      else
        let set := t.serviceOf l mask
        let x := t.line l
        if set = [] then
          if x.empties + 1 < 3 then (t.setLine l { x with service := [], empties := x.empties + 1 }).sample l
          else
            (t.setLine l { x with service := [], empties := 0, latch := false, ignoredSince := some s.now }).markLoop l
        else t.setLine l { x with service := set, empties := 0 }
    else s

/-- Whether a loop's IGNORED time has passed (R135). -/
def State.ignoreDue (s : State) (l : LoopId) : Bool :=
  match (s.line l).ignoredSince with
  | some t => decide (t + 10 ≤ s.now)
  | none => false

/-- ATTENTION_IGNORE_EXPIRY: the loop becomes NORMAL and the line, at the level given, is sampled at once (R135). -/
def effAttentionIgnoreExpiry (x : LineSample) (s : State) : State :=
  if s.ignoreDue x.loop then
    ((s.setLine x.loop { s.line x.loop with ignoredSince := none, line := x.asserted }).sample x.loop).markLoop x.loop
  else s

/-! ### Output content (R138) -/

/-- The FAN WRITE byte of a drive command (11.5). -/
def commandByte : DriveCommand → Byte
  | .stop => 0
  | .run dir sp => BitVec.ofNat 8 (flagsNat [true, dir == .reverse, sp == .high])

/-- The SIGN WRITE bytes of a content (11.5). -/
def signBytes (c : SignContent) : List Byte := u16 c.text ++ u8 c.arrow

/-- The content of a FAN node: its fan's command, or STOP when no fan names it (R43, R138). -/
def State.fanContent (s : State) (n : NodeId) : List Byte :=
  match (s.fanOf n).bind s.fan with
  | some f => [commandByte f.command]
  | none => [commandByte .stop]

/-- The content of a SIGN node, blank when no sign names it (R101, R138). -/
def State.signContent (s : State) (n : NodeId) : List Byte :=
  match (s.signOf n).bind s.guide.signs.get with
  | some g => signBytes g.content
  | none => signBytes .blank

/-- The output content of a node, from its owner's records; a retiring entry is written its idle content (R138, R145). -/
def State.content (s : State) (n : NodeId) (x : Node) : List Byte :=
  match x.defn.role with
  | .fan => if x.retiring then [commandByte .stop] else s.fanContent n
  | .sign => if x.retiring then signBytes .blank else s.signContent n
  | .lamp => lampContent (if x.retiring then [] else s.light.groups) n
  | .bay | .gas | .ramp => []

/-! ### The choice of the next transaction (R136) -/

/-- A transaction begins. -/
def State.begin (n : NodeId) (op : LoopOp) (src : TxSource) (role : Option Role) (payload : List Byte) (last : Bool)
    (s : State) : State :=
  s.withLoops fun m =>
    { m with
      tx := some
        { node := n, op := op, source := src, role := role, request := wireRequest (opCode op) n.addr payload
          voided := false, lastWrite := last, emptied := false }
      sinceList := if src = .list then 0 else m.sinceList + 1 }

/-- A WRITE of a node's present content begins; the groups of a LAMP node take their in-flight levels (R116, R138). -/
def State.beginWrite (n : NodeId) (x : Node) (src : TxSource) (s : State) : State :=
  let t := s.begin n .write src (some x.defn.role) (s.content n x) (src == .urgent && x.retiring)
  if x.defn.role = .lamp then t.takeInFlight n else t

/-- The output of a node with an output role: SETUP while setup due is set, else a WRITE; a retiring entry is sent no SETUP
(R130, R138, R151). -/
def State.beginOutput (n : NodeId) (x : Node) (src : TxSource) (s : State) : State :=
  if x.setupDue && !x.retiring then s.begin n .setup src (some x.defn.role) x.defn.setup false else s.beginWrite n x src

/-- The loop whose service set is being read and its next address (R134). -/
def State.nextService (s : State) : Option NodeId :=
  loopList.findSome? fun l =>
    match (s.line l).service with
    | [] => none
    | a :: _ => some ⟨l, a⟩

/-- The transaction in flight is the last read of its service set when the set is empty now (R133). -/
def State.noteEmptied (l : LoopId) (s : State) : State :=
  s.withLoops fun m => { m with tx := m.tx.map fun t => { t with emptied := (m.lines.get l).service.isEmpty } }

/-- A service READ begins; its address leaves the service set (R134), also when its entry has gone since the roll-call (DESIGN
CHOICE, log 43). -/
def State.beginService (n : NodeId) (s : State) : State :=
  ((s.setLine n.loop { s.line n.loop with service := (s.line n.loop).service.drop 1 }).begin n .read .service
    (s.entryRole n) [] false).noteEmptied n.loop

/-- The loops in the rotation that follows the loop of the previous roll-call (R136, R145). -/
def rotation : Option LoopId → List LoopId
  | none => [.a, .b, .c, .d]
  | some .a => [.b, .c, .d, .a]
  | some .b => [.c, .d, .a, .b]
  | some .c => [.d, .a, .b, .c]
  | some .d => [.a, .b, .c, .d]

/-- A roll-call is pending on a loop while its latch is set and its service set is empty (R133). -/
def State.rollcallPending (s : State) (l : LoopId) : Bool := (s.line l).latch && (s.line l).service.isEmpty

/-- The loop whose pending roll-call is next (R136). -/
def State.nextRollcall (s : State) : Option LoopId := (rotation s.loops.lastRollcall).find? s.rollcallPending

/-- A roll-call begins; the latch it serves clears (R133, R134). -/
def State.beginRollcall (l : LoopId) (s : State) : State :=
  ((s.setLine l { s.line l with latch := false }).withLoops fun m => { m with lastRollcall := some l }).begin
    ⟨l, 0⟩ .rollcall .rollcall none [] false

/-- The head of the urgent write queue leaves it, and the room is filled (R137, R138). -/
def State.popUrgent (s : State) : State :=
  (s.withLoops fun m => { m with urgent := m.urgent.drop 1 }).refill Config.nodes

/-- The head entry is taken: a transaction begins, or the entry is discarded without one and a retiring node entry is
deleted (R138, R145). -/
def State.takeUrgent (n : NodeId) (s : State) : State :=
  let t := s.popUrgent
  match t.node n with
  | none => t
  | some x =>
    if x.state = .lost ∨ (Role.output x.defn.role = false ∧ (x.setupDue = false ∨ x.retiring = true)) then
      if x.retiring then t.deleteNode n else t
    else t.beginOutput n x .urgent

/-- The sweep of a loop begins with the first IDENTIFY of the entry: the loop's found records are deleted (R139, R155). -/
def State.beginSweep (l : LoopId) (s : State) : State :=
  if s.list.progress.sweepBegun then s
  else
    (s.withLoops fun m => { m with found := m.found.filter fun f => f.node.loop != l }).withList fun x =>
      { x with progress := { x.progress with sweepBegun := true } }

/-- The first READ of a REPEAT item takes the item's start stamp (R154). -/
def State.stampItem (s : State) : State :=
  match s.list.progress.itemStart with
  | some _ => s
  | none =>
    s.withList fun l =>
      { l with progress := { l.progress with itemStart := some s.clockMs, limitRunning := true, expired := false } }

/-- A list transaction begins (R149). -/
def State.beginList (n : NodeId) (op : LoopOp) (s : State) : State :=
  (s.begin n op .list (s.entryRole n) [] false).withList fun l => { l with inFlight := some (n, op) }

/-- A list output begins: WRITE, or SETUP while setup due is set (R151). -/
def State.beginListOutput (n : NodeId) (x : Node) (s : State) : State :=
  (s.beginOutput n x .list).withList fun l =>
    { l with inFlight := some (n, if x.setupDue && !x.retiring then .setup else .write) }

/-- The engine takes the list's ready transaction; a POLL WRITE to a node that takes no output meets NOT_WRITABLE without
one (R149 to R155). -/
def State.takeList (s : State) : State :=
  match s.list.entry s.list.cursor with
  | .poll n false _ => s.beginList n .read
  | .poll n true _ =>
    match s.node n with
    | none => s.listError .notWritable
    | some x => if Role.output x.defn.role then s.beginListOutput n x else s.listError .notWritable
  | .run n _ .sweep _ =>
    (s.beginSweep n.loop).beginList ⟨n.loop, s.list.progress.nextAddr.getD n.addr⟩ .identify
  | .run n _ .repeat _ => s.stampItem.beginList n .read
  | .run n _ .stop _ => s.beginList n .read
  | .run n _ .ignore _ => s.beginList n .read
  | .pause _ | .jump _ | .halt => s

/-- One choice of the free engine (R136): the list when eight others went since its last and it is ready; else a service
read, a pending roll-call, the urgent head, the list. -/
def State.chooseOnce (s : State) : State :=
  if 8 ≤ s.loops.sinceList ∧ s.list.ready = true then s.takeList
  else
    match s.nextService with
    | some n => s.beginService n
    | none =>
      match s.nextRollcall with
      | some l => s.beginRollcall l
      | none =>
        match s.loops.urgent with
        | n :: _ => s.takeUrgent n
        | [] => if s.list.ready then s.takeList else s

/-- Whether some source has a transaction or an urgent entry to give (R136). -/
def State.engineWork (s : State) : Bool :=
  s.nextService.isSome || s.nextRollcall.isSome || !s.loops.urgent.isEmpty || s.list.ready

/-- The free engine chooses, and again at once after each choice that gives no transaction (R136, R138, R151); at most
`fuel` times in one event (log 8). -/
def State.choose : Nat → State → State
  | 0, s => s
  | fuel + 1, s => if s.loops.tx.isNone && s.engineWork then s.chooseOnce.choose fuel else s

/-! ### Requests -/

/-- A transaction in flight loses its effect (R142). -/
def State.voidIf (p : Transaction → Bool) (s : State) : State :=
  s.withLoops fun m => { m with tx := m.tx.map fun t => if p t then { t with voided := true } else t }

/-- The transaction in flight of a loop loses its effect, and with its service set its place as the set's last read (R140,
R142). -/
def State.voidLoop (l : LoopId) (s : State) : State :=
  s.withLoops fun m =>
    { m with tx := m.tx.map fun t => if t.node.loop = l then { t with voided := true, emptied := false } else t }

/-- A node's entry after a LOOP-RESET (R140). -/
def Node.reset (x : Node) : Node := { x with state := .defined, failures := 0, setupDue := false, refreshOwed := false }

/-- A loop's attention state after a LOOP-RESET, before the line is sampled (R140). -/
def LoopState.cleared (x : LoopState) : LoopState :=
  { x with latch := false, service := [], empties := 0, ignoredSince := none }

/-- The resets of a loop's entries, in ascending address, and the events handed to their owners (R140). -/
def State.resetNodes (l : LoopId) (s : State) : State :=
  (s.nodesOf l).foldl
    (fun s n =>
      match s.node n with
      | none => s
      | some x =>
        let t := (s.setNode n x.reset).hand (resetEvent n x.defn.role)
        if x.retiring then t.withLoops fun m => { m with nodes := m.nodes.del (nodeIndex n) } else t)
    s

/-- The owner's part of LOOP-RESET, with the levels of the attention lines at its end (R133, R140, R142). -/
def ownLoopReset (lines : PerLoop Bool) (code : Nat) (s : State) : Owned :=
  match loopOf code with
  | none => .error .outOfRange
  | some l =>
    let a := (s.voidLoop l).markLoop l
    let b := (a.resetNodes l).setLine l (s.line l).cleared
    let c := b.withLoops fun m => { m with found := m.found.filter fun f => f.node.loop != l }
    accept false (((c.removeUrgent fun n => n.loop == l).setLevels lines).sample l)

/-- Whether a record names a node (R141). -/
def State.nodeNamed (s : State) (n : NodeId) : Bool :=
  s.gas.heads.any (fun h => h.defn.node == n) || s.occ.bays.any (fun b => b.defn.node == n)
    || s.occ.ramps.any (fun r => r.defn.node == n) || s.fans.fans.any (fun f => f.defn.node == n)
    || s.light.groups.any (fun g => g.defn.node == n) || s.guide.signs.any fun g => g.defn.node == n

/-- A new node entry (R141, R145). -/
def Node.new (d : NodeDefn) : Node where
  defn := d
  state := .defined
  failures := 0
  lastFailure := .none
  lastSeen := none
  attention := false
  setupDue := false
  refreshOwed := false
  retiring := false
  report := .empty

/-- A transaction of a node other than a roll-call. -/
def Transaction.ofNode (n : NodeId) (t : Transaction) : Bool := t.node == n && t.op != .rollcall

/-- An existing entry takes new setup values (R141). -/
def State.resetup (n : NodeId) (x : Node) (setup : List Byte) (s : State) : State :=
  let y := { x with defn := { x.defn with setup := setup }, retiring := false }
  if x.defn.setup ≠ setup ∧ x.state = .online then (s.setNode n { y with setupDue := true }).post n
  else s.setNode n y

/-- The owner's part of NODE-DEF (R141, R142, R145). -/
def ownNodeDef (r : NodeDefReq) (s : State) : Owned :=
  match nodeOf r.loop r.addr with
  | none => .error .outOfRange
  | some n =>
    if r.remove then
      match s.node n with
      | none => .error .notDefined
      | some _ =>
        refuseIf (s.nodeNamed n) .conflict <|
        accept false (((s.voidIf (Transaction.ofNode n)).deleteNode n).mark (.node n))
    else
      match roleOf r.role with
      | none => .error .outOfRange
      | some role =>
        refuseIf (8 < r.setup.length) .outOfRange <|
        match s.node n with
        | none => accept false ((s.setNode n (.new ⟨role, r.setup⟩)).mark (.node n))
        | some x =>
          if x.defn.role = role then accept false ((s.resetup n x r.setup).mark (.node n))
          else
            refuseIf (s.nodeNamed n) .conflict <|
            accept false
              ((((s.voidIf (Transaction.ofNode n)).setNode n (.new ⟨role, r.setup⟩)).removeUrgent (· == n)).mark
                (.node n))

/-! ### Start, DEFAULTS and settings -/

/-- The node table at a start (R145). -/
def startNodes (nodes : Table NodeDefn) : Table Node := nodes.map fun _ d => .new d

/-- The Loop Master at a start, before the lines are sampled (R145). -/
def startLoops (nodes : Table NodeDefn) (lines : PerLoop Bool) : LoopMaster where
  nodes := startNodes nodes
  lines := ⟨.initial lines.a, .initial lines.b, .initial lines.c, .initial lines.d⟩
  urgent := []
  sinceList := 0
  lastRollcall := none
  found := []
  tx := none

/-- Every loop's line is sampled (R133). -/
def State.sampleAll (s : State) : State := loopList.foldl (fun s l => s.sample l) s

/-- DEFAULTS stage 5: entries that hold an urgent entry or a refresh owed mark retire, the others are deleted (R145). -/
def defaultsNodes (s : State) : State :=
  let held := List.filter (fun e : Nat × Node => s.loops.urgent.contains (nodeAt e.1) || e.2.refreshOwed) s.loops.nodes
  s.withLoops fun m => { m with nodes := List.map (fun e : Nat × Node => (e.1, { e.2 with retiring := true })) held }

/-- SET-ITEM of the fail limit: an entry in DEFINED or ONLINE at or above the new limit becomes LOST at once (R129). -/
def recheckFailLimit (s : State) : State :=
  s.loops.nodes.keys.foldl
    (fun s i =>
      let n := nodeAt i
      match s.node n with
      | none => s
      | some x =>
        if x.state ≠ .lost ∧ s.items.failLimit ≤ x.failures then
          let y := { x with state := .lost }
          ((s.setNode n y).mark (.node n)).afterLoss n x y
        else s)
    s

end Sys2Proof.Machine
end

