-- ==== Sys2Proof/Machine/Queries.lean ====
section
/-! DEFINITION. The content of every DATA reply but those of the port and the store: GAS-QUERY, ZONE-QUERY, FAN-QUERY,
BAY-QUERY, COUNT-QUERY, SIGN-QUERY, GROUP-QUERY, NODE-QUERY, LIST-READ, LIST-QUERY and FOUND-READ, and the owner's part of
each. Fields stand in the order of the owning rule, in the widths of 11.1; where 11.1 gives no width, code or list form,
log 10 says what the model sends (R185). -/

namespace Sys2Proof.Machine

/-! ### Parts of replies -/

/-- A flag as one byte. -/
def flag (b : Bool) : List Byte := u8 b.toNat

/-- A node's place: loop and address. -/
def placeBytes (n : NodeId) : List Byte := u8 (loopCode n.loop) ++ u8 n.addr

/-- A list preceded by its count byte, as the requests carry lists (11.2). -/
def counted (l : List Nat) : List Byte := u8 l.length ++ l.flatMap u8

/-- The plan source and its zone, as NOTE-SITE carries them (11.3). -/
def sourceBytes : PlanSource → List Byte
  | .base => u8 0 ++ idByte none
  | .alarm z => u8 1 ++ idByte (some z)
  | .forced => u8 2 ++ idByte none

/-- A want's code (log 10). -/
def wantCode : Want → Nat
  | .off => 0
  | .low => 1
  | .high => 2

/-- A speed's code (log 10). -/
def speedCode : Speed → Nat
  | .low => 0
  | .high => 1

/-- A drive report's byte, FFh for NONE (11.3). -/
def reportByte : Option DriveReport → List Byte
  | some r => u8 (driveByte r)
  | none => u8 0xFF

/-- Four counts, 2 bytes each, in the order of 11.3 (log 10). -/
def countBytes (c : Counts) : List Byte := u16 c.free ++ u16 c.occupied ++ u16 c.unknown ++ u16 c.outOfService

/-- The counts of the four classes in code order. -/
def classBytes (p : PerClass Counts) : List Byte := classList.flatMap fun c => countBytes (p.get c)

/-- A node's state in the node table, FFh without an entry, and flags: urgent entry, refresh owed (R107, R125). -/
def State.standing (s : State) (n : NodeId) : List Byte :=
  (match s.node n with | some x => u8 (nodeStateCode x.state) | none => u8 0xFF)
    ++ flagsByte
      [s.loops.urgent.contains n, match s.node n with | some x => x.refreshOwed | none => false]

/-! ### GAS-QUERY (R19) -/

/-- A calibration's bytes. -/
def calBytes (c : Calibration) : List Byte :=
  u16 c.fineGain ++ i16 c.fineOffset ++ u16 c.coarseGain ++ i16 c.coarseOffset ++ u8 c.shift ++ u16 c.crossover
    ++ u16 c.hysteresis

/-- A channel's bytes. -/
def channelBytes (now : Nat) (c : ChannelRun) (k : Calibration) : List Byte :=
  u8 (rangeCode c.range) ++ u8 (validityCode c.validity) ++ u8 (channelCauseCode c.cause) ++ flag c.seedPending
    ++ u16 c.rawFine ++ u16 c.rawCoarse ++ u16 c.value ++ u16 c.smoothed
    ++ optionals [c.lastFresh.map fun t => u16 (age now t)] ++ calBytes k

/-- The content of GAS-QUERY. -/
def headData (now i : Nat) (h : Head) : List Byte :=
  u8 i ++ u8 h.defn.zone ++ placeBytes h.defn.node ++ u8 h.defn.exponent ++ u8 (headStatusCode h.lastStatus)
    ++ channelBytes now h.co h.defn.co ++ channelBytes now h.no2 h.defn.no2

/-- The owner's part of GAS-QUERY. -/
def ownGasQuery (i : Nat) (s : State) : Owned :=
  refuseIf (Config.heads ≤ i) .outOfRange <|
  match s.gas.heads.get i with
  | none => .error .notDefined
  | some h => .ok (s, .data (headData s.now i h))

/-! ### ZONE-QUERY (R39) -/

/-- A gas's limits. -/
def limitBytes (l : GasLimits) : List Byte := u16 l.start ++ u16 l.full ++ u16 l.alarmOn ++ u16 l.alarmOff

/-- A gas's figure with the number of its VALID channels. -/
def figureBytes (z : Zone) (g : Gas) : List Byte :=
  optionals [(z.figure g).map u16] ++ u8 (validValues z.view g).length

/-- A zone's place in the alarm order list, counted from 0. -/
def State.alarmPlace (s : State) (i : Nat) : Option Nat := s.air.alarmOrder.findIdx? (· == i)

/-- The content of ZONE-QUERY: T in 2 bytes, the place in the alarm order list in 1, and the standing set in order of entry
(log 10). -/
def State.zoneData (s : State) (i : Nat) (z : Zone) : List Byte :=
  u8 (zoneKindCode z.defn.kind) ++ u8 z.defn.level ++ idByte z.defn.alarmPlan ++ u8 z.defn.weight ++ u8 z.defn.queueDemand
    ++ limitBytes z.defn.co ++ limitBytes z.defn.no2
    ++ figureBytes z .co ++ figureBytes z .no2
    ++ flag z.coAlarm ++ flag z.no2Alarm ++ u8 (zoneAlarmCode z.alarm) ++ idByte (s.alarmPlace i)
    ++ z.ring.flatMap u8 ++ u16 z.traffic
    ++ counted z.standing
    ++ u8 z.coTerm ++ u8 z.no2Term ++ u8 z.trafficTerm ++ u8 z.queueTerm ++ u8 z.floorTerm ++ u8 z.demand
    ++ u8 z.closureCode ++ flag z.hostClosed ++ flag z.unventilated

/-- The owner's part of ZONE-QUERY. -/
def ownZoneQuery (i : Nat) (s : State) : Owned :=
  refuseIf (Config.zones ≤ i) .outOfRange <|
  match s.zone i with
  | none => .error .notDefined
  | some z => .ok (s, .data (s.zoneData i z))

/-! ### FAN-QUERY (R70) -/

/-- The seconds left of a period begun at a stamp. -/
def remaining (now stamp period : Nat) : Nat := stamp + period - now

/-- The seconds remaining of the timer that governs a fan's present state (R70; log 16). -/
def Fan.timer (now : Nat) (it : Items) (f : Fan) : Option Nat :=
  match f.state with
  | .starting => f.lastGrant.map fun t => remaining now t it.startTimeout
  | .rundown => some (remaining now f.lastStop f.rest)
  | .running =>
    if f.exercise then f.runningSince.map fun t => remaining now t it.exerciseRun
    else if f.want = .off then
      match f.holdStart with
      | some t => some (remaining now t it.holdTime)
      | none => f.runningSince.map fun t => remaining now t it.minimumRun
    else if f.speedup then f.lastGrant.map fun t => remaining now t it.startTimeout
    else none
  | .off | .queued | .held | .faulted => none

/-- A start queue entry's kind and class. -/
def entryPair (e : QueueEntry) : List Byte := u8 (entryKindCode e.kind) ++ u8 (entryClassCode e.cls)

/-- A fan's definition fields. -/
def fanDefnBytes (d : FanDefn) : List Byte :=
  u8 d.zone ++ placeBytes d.node ++ u8 (fanDirCode d.home) ++ u8 d.startLoad ++ u8 d.lowLoad ++ u8 d.highLoad
    ++ u16 d.rundown ++ u8 (policyCode d.policy)

/-- A fan's run part (R41). -/
def fanRunBytes (f : Fan) : List Byte :=
  u8 (fanStateCode f.state) ++ u8 (wantCode f.want) ++ flag f.exercise ++ u8 (fanDirCode f.direction)
    ++ u8 (speedCode f.speed) ++ flag f.speedup ++ flag f.speedupFailed ++ u32 f.lastStop
    ++ optionals [f.lastGrant.map u32, f.runningSince.map u32, f.holdStart.map u32]
    ++ u8 (fanCauseCode f.cause) ++ u8 f.heldLoad ++ reportByte f.report ++ u24 f.runMinutes

/-- The content of FAN-QUERY for a fan; its places in the duty order and in the start queue are 1 byte each (log 10). -/
def State.fanData (s : State) (i : Nat) (f : Fan) : List Byte :=
  fanDefnBytes f.defn ++ fanRunBytes f
    ++ (List.range Config.plans).flatMap (fun p => u8 (planEntryCode (planEntry s.fans.plans p i)))
    ++ idByte ((s.zoneFans f.defn.zone).bind fun x => x.duty.findIdx? (· == i))
    ++ orOnes 3
      ((s.fans.queue.findIdx? fun e => e.fan == i).bind fun k => (s.fans.queue[k]?).map fun e => entryPair e ++ u8 k)
    ++ orOnes 2 ((f.timer s.now s.items).map u16)

/-- The holder of the start slot with its kind (R53). -/
def State.slotHolder (s : State) : Option (Nat × EntryKind) :=
  match s.fans.fans.find fun f => f.state == .starting with
  | some i => some (i, .start)
  | none => (s.fans.fans.find fun f => f.speedup).map fun i => (i, .speedup)

/-- The content of FAN-QUERY in the site form: the account is a load and the limit a limit of 11.1, and a zone's available
fans and steps are 1 byte each (log 10). -/
def State.fanSiteData (s : State) : List Byte :=
  u8 s.fans.account ++ u16 s.items.supplyLimit
    ++ orOnes 2 (s.slotHolder.map fun p => u8 p.1 ++ u8 (entryKindCode p.2))
    ++ optionals [s.fans.lastGrant.map fun t => u16 (age s.now t)]
    ++ u8 s.fans.activePlan ++ sourceBytes s.fans.source ++ idByte s.fans.forcedPlan ++ u8 s.fans.basePlan
    ++ u8 s.fans.queue.length ++ s.fans.queue.flatMap (fun e => u8 e.fan ++ entryPair e)
    ++ (List.range Config.zones).flatMap fun z =>
        match s.zone z, s.zoneFans z with
        | some r, some x => u8 x.available ++ u8 x.steps ++ flag r.unventilated
        | _, _ => u24 0

/-- The owner's part of FAN-QUERY; FFh is the site form. -/
def ownFanQuery (i : Nat) (s : State) : Owned :=
  if i = 0xFF then .ok (s, .data s.fanSiteData)
  else
    refuseIf (Config.fans ≤ i) .outOfRange <|
    match s.fan i with
    | none => .error .notDefined
    | some f => .ok (s, .data (s.fanData i f))

/-! ### BAY-QUERY and COUNT-QUERY (R87, R88) -/

/-- A bay's entry: whether it is defined, and its fields; the channel and the counter are 1 byte each (log 10). -/
def bayBytes (now : Nat) : Option Bay → List Byte
  | none => flag false
  | some b =>
    flag true ++ u8 b.defn.zone ++ placeBytes b.defn.node ++ u8 b.defn.channel ++ u8 (classCode b.defn.cls)
      ++ u8 (bayStateCode b.state) ++ u8 (bayCandidateCode b.candidate) ++ u8 b.counter ++ u16 (age now b.lastChange)

/-- The owner's part of BAY-QUERY: a range beyond bay 2047 is cut there. -/
def ownBayQuery (r : Nat × Nat) (s : State) : Owned :=
  refuseIf (Config.bays ≤ r.1 || r.2 == 0 || 16 < r.2) .outOfRange <|
  .ok (s, .data ((List.range (min r.2 (Config.bays - r.1))).flatMap fun k =>
    bayBytes s.now (s.occ.bays.get (r.1 + k))))

/-- The counts summed over zones, class by class. -/
def State.sumCounts (s : State) (zones : List Nat) : PerClass Counts :=
  zones.foldl
    (fun p z =>
      let q := s.counts z
      ⟨p.standard.plus q.standard, p.wide.plus q.wide, p.charging.plus q.charging, p.accessible.plus q.accessible⟩)
    noCounts

/-- Counts and their totals. -/
def countData (p : PerClass Counts) : List Byte := classBytes p ++ countBytes p.sum

/-- A ramp's last passage; a direction code neither UP nor DOWN is sent as 2 (log 10). -/
def passageBytes : PassageDir × Nat → List Byte
  | (.up, t) => u8 0 ++ u32 t
  | (.down, t) => u8 1 ++ u32 t
  | (.unknown, t) => u8 2 ++ u32 t

/-- The content of COUNT-QUERY in the RAMP form; an absent last passage is sent as all ones (log 10). -/
def rampData (i : Nat) (r : Ramp) : List Byte :=
  u8 i ++ placeBytes r.defn.node ++ u8 r.defn.zone ++ u8 r.defn.upper ++ u8 r.defn.lower ++ idByte r.defn.lowerSign
    ++ idByte r.defn.upperSign ++ flag r.standing ++ u16 r.upTally ++ u16 r.downTally
    ++ orOnes 5 (r.last.map passageBytes)

/-- The owner's part of COUNT-QUERY. -/
def ownCountQuery (r : Nat × Nat) (s : State) : Owned :=
  match r.1 with
  | 0 =>
    refuseIf (Config.zones ≤ r.2) .outOfRange <|
    match s.zone r.2 with
    | none => .error .notDefined
    | some z => .ok (s, .data (countData (s.counts r.2) ++ u8 z.closureCode))
  | 1 =>
    refuseIf (Config.levels ≤ r.2) .outOfRange <|
    let zones := (s.air.zones.select fun z => z.defn.level == r.2).map Prod.fst
    .ok (s, .data (countData (s.sumCounts zones) ++ counted zones))
  | 2 => .ok (s, .data (countData (s.sumCounts s.air.zones.keys)))
  | 3 =>
    refuseIf (Config.ramps ≤ r.2) .outOfRange <|
    match s.occ.ramps.get r.2 with
    | none => .error .notDefined
    | some p => .ok (s, .data (rampData r.2 p))
  | _ => .error .outOfRange

/-! ### SIGN-QUERY (R107) -/

/-- A class filter's byte (11.1). -/
def filterByte (p : PerClass Bool) : List Byte := flagsByte [p.standard, p.wide, p.charging, p.accessible]

/-- A sign's definition fields, laid out as SIGN-DEF carries them. -/
def signDefnBytes (i : Nat) (d : SignDefn) : List Byte :=
  u8 i ++ placeBytes d.node ++ u8 (signKindCode d.kind) ++ counted d.sources ++ filterByte d.filter ++ u8 d.threshold
    ++ u8 d.directions.length
    ++ d.directions.flatMap fun r => u8 (arrowCode r.arrow) ++ counted r.zones ++ counted r.lanes

/-- The content of SIGN-QUERY (R107). DESIGN CHOICE (log 10): the chosen direction is sent as 1 byte, 0 to 2, with FFh for
none, since 11.1 gives it no width; the view keeps no cause of a closure, so CLOSED is sent as 1. -/
def State.signData (s : State) (i : Nat) (g : Sign) : List Byte :=
  signDefnBytes i g.defn
    ++ u16 g.display.offered ++ u16 (signTextCode g.display.text) ++ idByte g.display.chosen
    ++ u8 (arrowCode g.display.arrow) ++ u16 (age s.now g.display.lastChange)
    ++ g.defn.sources.flatMap
        (fun z => flag (s.guideZone z).closed ++ u16 (filteredFree g.defn.filter (s.guideZone z).free))
    ++ g.defn.directions.flatMap (fun r => u16 (offeredSum s.guide.view g.defn.filter r.zones))
    ++ u8 (signConditionCode g.condition)
    ++ optionals [g.echo.map fun e => u16 e.text ++ u8 e.arrow]
    ++ s.standing g.defn.node

/-- The owner's part of SIGN-QUERY. -/
def ownSignQuery (i : Nat) (s : State) : Owned :=
  refuseIf (Config.signs ≤ i) .outOfRange <|
  match s.guide.signs.get i with
  | none => .error .notDefined
  | some g => .ok (s, .data (s.signData i g))

/-! ### GROUP-QUERY (R125) -/

/-- A group's definition fields; the bay range is marked absent by FFFFh, and the fade time is a time in s (11.1). -/
def groupDefnBytes (i : Nat) (d : GroupDefn) : List Byte :=
  u8 i ++ u8 d.zone ++ placeBytes d.node ++ counted d.outputs ++ u8 (polarityCode d.polarity)
    ++ (match d.bayRange with | some (lo, hi) => u16 lo ++ u16 hi | none => u16 0xFFFF ++ u16 0xFFFF)
    ++ idByte d.ramp ++ u16 d.presenceLevel ++ u16 d.holdTime ++ u16 d.fadeTime

/-- The seconds to a group's presence expiry, absent when it is absent or passed. -/
def Group.presenceLeft (now : Nat) (g : Group) : Option Nat :=
  match g.presence with
  | some t => if now < t then some (t - now) else none
  | none => none

/-- The content of GROUP-QUERY: FFFFh marks an absent level or time, which no level of 0 to 1000 and no hold time is (R185),
and the conditions have no count of their own, since the outputs before them have one (log 10). -/
def State.groupData (s : State) (i : Nat) (g : Group) : List Byte :=
  groupDefnBytes i g.defn
    ++ orOnes 2 (g.override.map u16) ++ orOnes 2 ((g.presenceLeft s.now).map u16)
    ++ u16 g.target ++ u8 (targetCauseCode g.cause)
    ++ u16 (outputCode g.defn.polarity g.target) ++ u16 g.fade
    ++ orOnes 2 (g.inFlight.map u16) ++ orOnes 2 (g.applied.map u16)
    ++ g.conditions.flatMap (fun c => u8 (lampConditionCode c))
    ++ flag (s.alarmView g.defn.zone) ++ u8 (siteModeCode s.light.mode)
    ++ s.standing g.defn.node

/-- The owner's part of GROUP-QUERY. -/
def ownGroupQuery (i : Nat) (s : State) : Owned :=
  refuseIf (Config.groups ≤ i) .outOfRange <|
  match s.light.groups.get i with
  | none => .error .notDefined
  | some g => .ok (s, .data (s.groupData i g))

/-! ### NODE-QUERY (R144) -/

/-- The role report as NOTE-NODE carries it (11.3); a byte with no stated content is free (log 12). -/
def roleReportBytes (role : Role) : RoleReport → List Byte
  | .sign c => u8 (signConditionCode c) ++ filler 10 1
  | .ramp n => u8 n ++ filler 11 1
  | .lamp cs => packQuads (cs.map lampConditionCode)
  | .empty =>
    match role with
    | .ramp => u8 0 ++ filler 11 1
    | .bay | .gas | .fan | .lamp | .sign => filler 12 2

/-- The content of NODE-QUERY in the NODE form: every field of R127 and the place in the urgent write queue, 1 byte with FFh
for none (log 10). -/
def State.nodeData (s : State) (n : NodeId) (x : Node) : List Byte :=
  placeBytes n ++ u8 (roleCode x.defn.role) ++ u8 x.defn.setup.length ++ x.defn.setup ++ u8 (nodeStateCode x.state)
    ++ u8 x.failures ++ u8 (failureCode x.lastFailure) ++ optionals [x.lastSeen.map u32]
    ++ flag x.attention ++ flag x.setupDue ++ flag x.refreshOwed ++ flag x.retiring
    ++ roleReportBytes x.defn.role x.report ++ idByte (s.loops.urgent.findIdx? (· == n))

/-- The addresses 1 to 31. -/
def addresses : List Nat := (List.range 31).map (· + 1)

/-- The content of NODE-QUERY in the LOOP form; an address without an entry is sent as FFh (log 10). -/
def State.loopData (s : State) (l : LoopId) : List Byte :=
  let x := s.line l
  flag x.latch ++ counted x.service ++ u8 x.empties ++ flag x.ignoredSince.isSome
    ++ u16 (match x.ignoredSince with | some t => remaining s.now t 10 | none => 0)
    ++ addresses.flatMap fun a =>
        match s.node ⟨l, a⟩ with
        | some n => u8 (nodeStateCode n.state)
        | none => u8 0xFF

/-- The refresh owed marks as a mask of 124 bits in 16 bytes. -/
def State.owedMask (s : State) : List Byte :=
  packBits
    ((List.range 128).map fun i =>
      decide (i < Config.nodes) && (match s.loops.nodes.get i with | some x => x.refreshOwed | none => false))

/-- The content of NODE-QUERY in the QUEUE form; the engine's count is a count of 11.1, 1 byte, held at 255 (log 10). -/
def State.queueData (s : State) : List Byte :=
  u8 s.loops.urgent.length ++ s.loops.urgent.flatMap placeBytes ++ s.owedMask ++ u8 (min 255 s.loops.sinceList)
    ++ orOnes 3 (s.loops.tx.map fun t => placeBytes t.node ++ u8 (opCode t.op))

/-- The owner's part of NODE-QUERY. -/
def ownNodeQuery (r : Nat × Nat × Nat) (s : State) : Owned :=
  match r.1 with
  | 0 =>
    match nodeOf r.2.1 r.2.2 with
    | none => .error .outOfRange
    | some n =>
      match s.node n with
      | none => .error .notDefined
      | some x => .ok (s, .data (s.nodeData n x))
  | 1 =>
    match loopOf r.2.1 with
    | none => .error .outOfRange
    | some l => .ok (s, .data (s.loopData l))
  | 2 => .ok (s, .data s.queueData)
  | _ => .error .outOfRange

/-! ### LIST-READ, LIST-QUERY and FOUND-READ (R160, R161) -/

/-- The owner's part of LIST-READ (R160): a range beyond entry 255 is cut there, and in the reply FFh marks an absent index
in execution (11.1; log 10). DESIGN CHOICE (log 52): the first index FFh of the request is entry 255. -/
def ownListRead (r : Nat × Nat) (s : State) : Owned :=
  refuseIf (Config.listEntries ≤ r.1 || r.2 == 0 || 32 < r.2) .outOfRange <|
  .ok (s, .data
    ((List.range (min r.2 (Config.listEntries - r.1))).flatMap (fun k => entryBytes (s.list.entry (r.1 + k)))
      ++ idByte s.list.inExecution))

/-- The loop and address of a stop error; a JUMP_LOOP has none, and its loop byte has no stated value (11.1, log 12). -/
def stopPlace : Option NodeId → List Byte
  | some n => placeBytes n
  | none => filler 20 1 ++ idByte none

/-- The stop error's fields. -/
def stopErrorBytes (e : StopError) : List Byte :=
  u8 e.index ++ u8 (listErrorCode e.kind) ++ stopPlace e.node ++ u32 e.time

/-- The progress LIST-QUERY shows: a SWEEP's next address, FFh where absent, and the milliseconds of a REPEAT's item, held at
65535 and so under a presence flag (11.1, R185). DESIGN CHOICE (log 51): a RUN is in progress while the cursor stands on it,
whatever the list state. -/
def State.progressFields (s : State) : List Byte :=
  match s.list.entry s.list.cursor with
  | .run _ _ .sweep _ => idByte s.list.progress.nextAddr ++ optionals [none]
  | .run _ _ .repeat _ => idByte none ++ optionals [s.list.progress.itemStart.map fun t => u16 (age s.clockMs t)]
  | .run _ _ .stop _ | .run _ _ .ignore _ | .poll _ _ _ | .pause _ | .jump _ | .halt => idByte none ++ optionals [none]

/-- The content of LIST-QUERY. -/
def State.listData (s : State) : List Byte :=
  let l := s.list
  u8 (listStateCode l.state) ++ u8 l.cursor ++ u8 (entryCode (l.entry l.cursor)) ++ flag l.haltPending
    ++ optionals [l.remaining.map u8] ++ s.progressFields
    ++ orOnes 3 (l.inFlight.map fun p => placeBytes p.1 ++ u8 (opCode p.2)) ++ flag l.abandoned
    ++ optionals [l.stopError.map stopErrorBytes]
    ++ u16 l.continued ++ u16 s.items.repeatLimit ++ flag s.items.autoStart

/-- The owner's part of LIST-QUERY. -/
def ownListQuery (_ : Unit) (s : State) : Owned := .ok (s, .data s.listData)

/-- The owner's part of FOUND-READ. -/
def ownFoundRead (place : Nat) (s : State) : Owned :=
  refuseIf (124 ≤ place) .outOfRange <|
  let some' := (s.loops.found.drop place).take 64
  .ok (s, .data (u8 s.loops.found.length ++ some'.flatMap fun f => placeBytes f.node ++ u8 f.role))

end Sys2Proof.Machine
end

