-- ==== Sys2Proof/Machine/Port.lean ====
section
/-! DEFINITION. The Supervisor Port (09_the_supervisor_link): receiver, dispatch, transmitter, notes, access levels,
supervision, IDENT and PING. -/

namespace Sys2Proof.Machine

/-- Change the Supervisor Port. -/
def State.withPort (f : Port → Port) (s : State) : State := { s with port := f s.port }

/-! ### Request kinds (11.2) -/

/-- The command of a request kind with a frame's tag and body; none for any other kind. LOOP-RESET takes the levels of the
attention lines with it, since it samples its loop's at its end (R133; log 6). -/
def requestOf (kind : Nat) (tag : Byte) (body : List Byte) (lines : PerLoop Bool) : Option Instr :=
  match kind with
  | 0x01 => some (.ident tag body)
  | 0x02 => some (.ping tag body)
  | 0x03 => some (.login tag body)
  | 0x04 => some (.logout tag body)
  | 0x05 => some (.setItem tag body)
  | 0x06 => some (.getItem tag body)
  | 0x07 => some (.save tag body)
  | 0x08 => some (.defaults tag body)
  | 0x10 => some (.headDef tag body)
  | 0x11 => some (.headCal tag body)
  | 0x12 => some (.gasQuery tag body)
  | 0x18 => some (.zoneDef tag body)
  | 0x19 => some (.zoneLimits tag body)
  | 0x1A => some (.zoneClose tag body)
  | 0x1B => some (.zoneOpen tag body)
  | 0x1C => some (.zoneQuery tag body)
  | 0x20 => some (.fanDef tag body)
  | 0x21 => some (.planDef tag body)
  | 0x22 => some (.planBase tag body)
  | 0x23 => some (.planForce tag body)
  | 0x24 => some (.planUnforce tag body)
  | 0x25 => some (.fanHold tag body)
  | 0x26 => some (.fanFree tag body)
  | 0x27 => some (.fanClear tag body)
  | 0x28 => some (.fanQuery tag body)
  | 0x30 => some (.bayDef tag body)
  | 0x31 => some (.bayService tag body)
  | 0x32 => some (.bayQuery tag body)
  | 0x33 => some (.countQuery tag body)
  | 0x34 => some (.rampDef tag body)
  | 0x38 => some (.signDef tag body)
  | 0x39 => some (.signQuery tag body)
  | 0x40 => some (.groupDef tag body)
  | 0x41 => some (.groupOverride tag body)
  | 0x42 => some (.groupRelease tag body)
  | 0x43 => some (.groupQuery tag body)
  | 0x44 => some (.siteMode tag body)
  | 0x48 => some (.nodeDef tag body)
  | 0x49 => some (.nodeQuery tag body)
  | 0x4A => some (.loopReset tag ⟨body, lines⟩)
  | 0x50 => some (.listLoad tag body)
  | 0x51 => some (.listGo tag body)
  | 0x52 => some (.listHalt tag body)
  | 0x53 => some (.listRead tag body)
  | 0x54 => some (.listQuery tag body)
  | 0x55 => some (.foundRead tag body)
  | _ => none

/-- The level of a loop's attention line at a moment at which no command tells it: a free value (log 6). -/
def State.freeLevel (s : State) (l : LoopId) : Bool := Config.attentionLevel (loopCode l) s.clockMs

/-- The free levels of the four lines (log 6). -/
def State.freeLevels (s : State) : PerLoop Bool := ⟨s.freeLevel .a, s.freeLevel .b, s.freeLevel .c, s.freeLevel .d⟩

/-- The command of a frame that passed its check: its request, or an unknown kind; with 4 replies waiting it is dropped
(R166). A LOOP-RESET that comes as bytes has free levels of the lines (log 6). -/
def State.dispatch (s : State) (kind tag : Byte) (body : List Byte) : Instr :=
  if Config.replyCapacity ≤ s.port.replies.length then .frameDropped kind tag body
  else (requestOf kind.toNat tag body s.freeLevels).getD (.unknownKind kind tag body)

/-- UNKNOWN_KIND: refused after the frame's restart of supervision (R166, R175). -/
def effUnknownKind (tag : Byte) (s : State) : State :=
  let p := s.framePassed
  if Config.replyCapacity ≤ p.port.replies.length then p else p.reply (refusedFrame tag .unknownKind)

/-- FRAME_DROPPED_REPLY_QUEUE_FULL: the frame restarts supervision and its request is not dispatched (R166, R174). -/
def effFrameDropped (s : State) : State := s.framePassed

/-! ### The receiver (R165) -/

/-- What a received byte does to the receiver: its state after, and the frame it completes. -/
def Receiver.take (r : Receiver) (b : Byte) : Receiver × Option (List Byte) :=
  match r with
  | .hunting => (if b = 0xC3 then .inFrame [] else .hunting, none)
  | .inFrame bs =>
    let all := bs ++ [b]
    match all with
    | [] => (.hunting, none)
    | len :: _ =>
      if 240 < len.toNat then (.hunting, none)
      else if all.length < len.toNat + 5 then (.inFrame all, none)
      else (.hunting, some all)

/-- Reads a completed frame: kind, tag and body, when its check matches (R164). -/
def readFrame : List Byte → Option (Byte × Byte × List Byte)
  | len :: kind :: tag :: rest =>
    let body := rest.take len.toNat
    if rest.drop len.toNat = u16 (crc16 (len :: kind :: tag :: body)).toNat then some (kind, tag, body) else none
  | _ => none

/-- RECEIVE_BYTE: a gap of more than 20 ms discards a frame in progress first; a missing stop bit or a break discards it
with the byte; a frame that passes its check is handed to the dispatch (R165). -/
def effReceiveByte (b : Byte) (stopBit gap : Bool) (s : State) : State :=
  let start := if gap then Receiver.hunting else s.port.receiver
  if stopBit then
    let next := start.take b
    let t := s.withPort fun p => { p with receiver := next.1 }
    match next.2.bind readFrame with
    | some (kind, tag, body) => t.framePassed.hand (t.dispatch kind tag body)
    | none => t
  else s.withPort fun p => { p with receiver := .hunting }

/-! ### Notes (11.3) -/

/-- NOTE-START's frame (R170). -/
def State.startFrame (s : State) : Frame where
  kind := 0x90
  tag := 0
  body :=
    u32 s.now ++ u8 (startCauseCode s.port.startCause) ++ flagsByte [s.port.storeInvalid] ++ u8 (linkCode s.port.link)
      ++ u8 (accessCode s.port.access)
  newRate := none

/-- NOTE-SITE's body after the site clock (R171). -/
def State.siteBody (s : State) : List Byte :=
  u8 (linkCode s.port.link) ++ u8 (siteModeCode s.light.mode) ++ u8 s.fans.activePlan ++ sourceBytes s.fans.source
    ++ idByte s.fans.forcedPlan ++ u8 s.fans.basePlan ++ u8 (saveStateCode s.store.saveState) ++ u32 s.store.saveStamp
    ++ counted s.air.alarmOrder

/-- NOTE-LIST's body after the site clock (R162); the fields of an absent stop error have no stated value but for the
identities (log 12). -/
def State.listBody (s : State) : List Byte :=
  u8 (listStateCode s.list.state) ++ u8 s.list.cursor
    ++ flagsByte [s.list.haltPending, s.list.stopError.isSome]
    ++ (match s.list.stopError with
        | some e => stopErrorBytes e
        | none => idByte none ++ filler 21 1 ++ stopPlace none ++ filler 22 4)
    ++ u16 s.list.continued

/-- A figure of NOTE-ZONE; an UNKNOWN one has no stated value (log 12). -/
def noteFigure (place : Nat) : Option Nat → List Byte
  | some n => u16 n
  | none => filler place 2

/-- NOTE-ZONE's body after the site clock (R35). -/
def State.zoneBody (s : State) (i : Nat) : List Byte :=
  u8 i
    ++ match s.zone i with
       | none => List.replicate 42 0
       | some z =>
         flagsByte
             [true, z.coFigure.isSome, z.no2Figure.isSome, z.hostClosed, z.unventilated, z.inAlarm, z.hostClosed]
           ++ u8 (zoneKindCode z.defn.kind) ++ u8 z.defn.level ++ noteFigure 30 z.coFigure ++ noteFigure 32 z.no2Figure
           ++ flagsByte [z.coAlarm, z.no2Alarm] ++ idByte (s.alarmPlace i) ++ u8 z.demand ++ classBytes (s.counts i)

/-- NOTE-FAN's body after the site clock (R69). -/
def State.fanBody (s : State) (i : Nat) : List Byte :=
  u8 i
    ++ match s.fan i with
       | none => List.replicate 10 0
       | some f =>
         flagsByte [true, f.speedupFailed, f.exercise] ++ u8 f.defn.zone ++ u8 (fanStateCode f.state)
           ++ [commandByte f.command] ++ u8 (fanCauseCode f.cause) ++ u8 f.heldLoad ++ reportByte f.report
           ++ u24 f.runMinutes

/-- NOTE-NODE's body after the site clock (R143); an absent age has no stated value (log 12). -/
def State.nodeBody (s : State) (n : NodeId) : List Byte :=
  let ignored := (s.line n.loop).ignoredSince.isSome
  placeBytes n
    ++ match s.node n with
       | none => flagsByte [false, false, false, ignored] ++ List.replicate 8 0
       | some x =>
         flagsByte [true, x.attention, x.lastSeen.isSome, ignored] ++ u8 (roleCode x.defn.role)
           ++ u8 (nodeStateCode x.state) ++ u8 x.failures ++ u8 (failureCode x.lastFailure)
           ++ (match x.lastSeen with | some t => u16 (age s.now t) | none => filler 34 2)
           ++ roleReportBytes x.defn.role x.report

/-- The note of a subject, built from the owner's present state (R169). -/
def State.noteFrame (s : State) (x : Subject) : Frame :=
  let kb : Byte × List Byte :=
    match x with
    | .site => (0x91, s.siteBody)
    | .list => (0x92, s.listBody)
    | .zone i => (0x93, s.zoneBody i)
    | .fan i => (0x94, s.fanBody i)
    | .node n => (0x95, s.nodeBody n)
  { kind := kb.1, tag := 0, body := u32 s.now ++ kb.2, newRate := none }

/-! ### The transmitter (R168) -/

/-- The free transmitter takes the head reply, else the start note, else the head subject's note; the note set waits while
handed events are still to be taken (log 4). -/
def State.transmit (s : State) : State :=
  if s.port.sending.isSome then s
  else
    match s.port.replies with
    | f :: rest => s.withPort fun p => { p with sending := some f, replies := rest }
    | [] =>
      if s.port.startNote then s.withPort fun p => { p with sending := some s.startFrame, startNote := false }
      else
        match s.port.notes with
        | x :: rest =>
          if s.handed.isEmpty then s.withPort fun p => { p with sending := some (s.noteFrame x), notes := rest } else s
        | [] => s

/-- FRAME_SENT: the frame on the line ends; at the end of the reply that accepts a rate, the line takes it and a frame in
progress is discarded (R164, R168). -/
def effFrameSent (s : State) : State :=
  match s.port.sending with
  | none => s
  | some f =>
    match f.newRate with
    | none => s.withPort fun p => { p with sending := none }
    | some r => s.withPort fun p => { p with sending := none, rate := r, receiver := .hunting }

/-! ### Access levels (R172) -/

/-- The greater of two access levels. -/
def Access.max (a b : Access) : Access := if accessCode a ≤ accessCode b then b else a

/-- The base level: the highest level whose stored code is FFFFFFFFh, or VIEW. -/
def accessBase (it : Items) : Access :=
  if it.installerCode = 0xFFFFFFFF then .installer
  else if it.operatorCode = 0xFFFFFFFF then .operator
  else .view

/-- The present level takes a value. -/
def State.setAccess (a : Access) (s : State) : State := s.withPort fun p => { p with access := a }

/-- The owner's part of LOGIN. -/
def ownLogin (code : Nat) (s : State) : Owned :=
  if code = s.items.installerCode then accept false (s.setAccess .installer)
  else if code = s.items.operatorCode then accept false (s.setAccess (Access.max .operator (accessBase s.items)))
  else .error .badCode

/-- The owner's part of LOGOUT. -/
def ownLogout (_ : Unit) (s : State) : Owned := accept false (s.setAccess (accessBase s.items))

/-! ### Supervision (R174) -/

/-- Whether the supervision timer has run out; a time of 0 is off. -/
def State.supervisionDue (s : State) : Bool :=
  s.port.link == .supervised && decide (0 < s.items.supervisionTime)
    && decide (s.port.supervisedAt + s.items.supervisionTime ≤ s.now)

/-- SUPERVISION_EXPIRY: the link becomes AUTONOMOUS, the site is marked, and the expiry is handed to the Lighting
Controller and the Fan Controller. -/
def effSupervisionExpiry (s : State) : State :=
  if s.supervisionDue then
    ((s.withPort fun p => { p with link := .autonomous }).mark .site).handAll
      [.supervisionExpiryLighting, .supervisionExpiryFans]
  else s

/-! ### Identity and echo (R176) -/

/-- The content of IDENT; 2 bytes for the identity and each capacity, 1 for the revision, 4 for the rate (log 10). -/
def State.identData (s : State) : List Byte :=
  u16 Config.identity ++ u8 Config.revision
    ++ u16 Config.zones ++ u16 Config.fans ++ u16 Config.heads ++ u16 Config.bays ++ u16 Config.groups
    ++ u16 Config.signs ++ u16 Config.ramps ++ u16 Config.listEntries ++ u16 Config.nodes
    ++ u32 s.port.rate ++ u8 (linkCode s.port.link) ++ u8 (accessCode s.port.access) ++ u32 s.now
    ++ u8 (startCauseCode s.port.startCause) ++ flagsByte [s.port.storeInvalid]

/-- The owner's part of IDENT. -/
def ownIdent (_ : Unit) (s : State) : Owned := .ok (s, .data s.identData)

/-- The owner's part of PING: the same bytes. -/
def ownPing (body : List Byte) (s : State) : Owned := .ok (s, .data body)

end Sys2Proof.Machine
end

