-- ==== Sys2Proof/Machine/Store.lean ====
section
/-! DEFINITION. The Settings Store (10_settings_store_and_start_up): site items, SAVE, DEFAULTS, and the two starts. -/

namespace Sys2Proof.Machine

/-! ### Site items (R178) -/

/-- The working value of an item. -/
def Items.value (it : Items) : Nat → Nat
  | 0 => it.supplyLimit
  | 1 => it.startSpacing
  | 2 => it.startTimeout
  | 3 => it.minimumRun
  | 4 => it.holdTime
  | 5 => it.hysteresis
  | 6 => it.exerciseInterval
  | 7 => it.exerciseRun
  | 8 => it.fallback
  | 9 => it.openFloor
  | 10 => it.quietFloor
  | 11 => it.trafficWindow
  | 12 => it.staleTime
  | 13 => it.confirmation
  | 14 => it.openBase
  | 15 => it.quietBase
  | 16 => it.failLimit
  | 17 => it.repeatLimit
  | 18 => it.autoStart.toNat
  | 19 => it.supervisionTime
  | 20 => it.lineRate
  | 21 => it.operatorCode
  | 22 => it.installerCode
  | 23 => it.editPlans.toNat
  | 24 => it.editService.toNat
  | _ => 0

/-- Write the working value of an item. -/
def Items.write (it : Items) (n v : Nat) : Items :=
  match n with
  | 0 => { it with supplyLimit := v }
  | 1 => { it with startSpacing := v }
  | 2 => { it with startTimeout := v }
  | 3 => { it with minimumRun := v }
  | 4 => { it with holdTime := v }
  | 5 => { it with hysteresis := v }
  | 6 => { it with exerciseInterval := v }
  | 7 => { it with exerciseRun := v }
  | 8 => { it with fallback := v }
  | 9 => { it with openFloor := v }
  | 10 => { it with quietFloor := v }
  | 11 => { it with trafficWindow := v }
  | 12 => { it with staleTime := v }
  | 13 => { it with confirmation := v }
  | 14 => { it with openBase := v }
  | 15 => { it with quietBase := v }
  | 16 => { it with failLimit := v }
  | 17 => { it with repeatLimit := v }
  | 18 => { it with autoStart := v == 1 }
  | 19 => { it with supervisionTime := v }
  | 20 => { it with lineRate := v }
  | 21 => { it with operatorCode := v }
  | 22 => { it with installerCode := v }
  | 23 => { it with editPlans := v == 1 }
  | 24 => { it with editService := v == 1 }
  | _ => it

/-- The seven line rates (R164, R178). -/
def lineRates : List Nat := [9600, 19200, 38400, 57600, 115200, 230400, 460800]

/-- Whether a value is in the code set of an item that has one (R178). -/
def itemCodeOk (n v : Nat) : Bool :=
  if n = 18 ∨ n = 23 ∨ n = 24 then decide (v ≤ 1) else if n = 20 then lineRates.contains v else true

/-- The range of an item that is clamped, absent for the items that are not (R178). -/
def itemRange : Nat → Option (Nat × Nat)
  | 0 => some (1, 255)
  | 1 => some (1, 60)
  | 2 => some (5, 120)
  | 3 => some (0, 900)
  | 4 => some (0, 3600)
  | 5 => some (0, 50)
  | 6 => some (0, 240)
  | 7 => some (30, 600)
  | 8 => some (0, 100)
  | 9 => some (0, 100)
  | 10 => some (0, 100)
  | 11 => some (6, 600)
  | 12 => some (10, 600)
  | 13 => some (1, 15)
  | 14 => some (0, 1000)
  | 15 => some (0, 1000)
  | 16 => some (1, 15)
  | 17 => some (5, 500)
  | 19 => some (0, 255)
  | _ => none

/-- The value an item takes: clamped to its range, and a traffic window rounded down to a multiple of 6 (R178). -/
def itemClamp (n v : Nat) : Nat :=
  match itemRange n with
  | none => v
  | some (lo, hi) => if n = 11 then clamp lo hi v / 6 * 6 else clamp lo hi v

/-- SET-ITEM of the start spacing takes effect from the stamp already held: a spacing that has passed under the new value
ends at once, and one that has not runs on (R56). -/
def recheckSpacing (s : State) : State :=
  effStartSpacingExpiry
    { s with fans := { s.fans with spacing := s.fans.spacing || !s.spacingPassed } }

/-- The owner of an item takes its change; `old` are the items before it (R178). A change of the hysteresis maps every zone
in rising order and evaluates the start queue once after all of them (DEDUCED, log 17). -/
def itemChanged (n : Nat) (old : Items) (s : State) : State :=
  match n with
  | 0 => if old.supplyLimit < s.items.supplyLimit then s.evaluate else s
  | 1 => recheckSpacing s
  | 2 => (s.eachFan effStartTimeout).eachFan effSpeedupTimeout
  | 3 => s.eachFan effMinimumRunTimeMet
  | 4 => s.eachFan effHoldTimeExpiry
  | 5 => (s.air.zones.keys.foldl (fun s z => s.remap z) s).evaluate
  | 6 => s.eachFan effExerciseDue
  | 8 => recheckZones s
  | 9 => if s.light.mode = .opened then effSiteModeFloor .opened s else s
  | 10 => if s.light.mode = .quiet then effSiteModeFloor .quiet s else s
  | 11 => restartTraffic s
  | 12 => recheckStale s
  | 14 => if s.light.mode = .opened then retargetAll s else s
  | 15 => if s.light.mode = .quiet then retargetAll s else s
  | 16 => recheckFailLimit s
  | 17 => effRepeatLimitExpiry s
  | 21 => s.setAccess (s.port.access.max (accessBase s.items))
  | 22 => s.setAccess (s.port.access.max (accessBase s.items))
  | _ => s

/-- Write an item and hand the change to its owner; a value that equals the present one changes nothing (R178). -/
def State.applyItem (n v : Nat) (s : State) : State :=
  if s.items.value n = v then s
  else itemChanged n s.items { s with store := { s.store with items := s.store.items.write n v } }

/-- The rate that the end of the accepting reply brings, when an item write changes it (R164). -/
def rateChange (before after : Items) : Option Nat :=
  if before.lineRate = after.lineRate then none else some after.lineRate

/-- The owner's part of SET-ITEM (R178). DESIGN CHOICE (log 38): LIMIT_IN_USE is judged on the clamped value. -/
def ownSetItem (r : Nat × Nat) (s : State) : Owned :=
  refuseIf (25 ≤ r.1) .outOfRange <|
  refuseIf (!itemCodeOk r.1 r.2) .outOfRange <|
  let v := itemClamp r.1 r.2
  refuseIf (r.1 == 0 && decide (v < s.fans.account)) .limitInUse <|
  .ok (s.applyItem r.1 v, .done (v != r.2) (rateChange s.items (s.items.write r.1 v)))

/-- The owner's part of GET-ITEM: the codes are returned as 0 (R179). -/
def ownGetItem (n : Nat) (s : State) : Owned :=
  refuseIf (25 ≤ n) .outOfRange <|
  .ok (s, .data (u8 n ++ u32 (if n = 21 ∨ n = 22 then 0 else s.items.value n)))

/-! ### SAVE (R177, R180, R181) -/

/-- The working settings as a SAVE takes them. DESIGN CHOICE (log 49): the entries still retiring after DEFAULTS are among
them. -/
def State.settings (s : State) : Settings where
  heads := s.gas.heads.map fun _ h => h.defn
  zones := s.air.zones.map fun _ z => z.defn
  fans := s.fans.fans.map fun _ f => { defn := f.defn, runMinutes := f.runMinutes }
  plans := s.fans.plans
  basePlan := s.fans.basePlan
  bays := s.occ.bays.map fun _ b => b.defn
  ramps := s.occ.ramps.map fun _ r => r.defn
  signs := s.guide.signs.map fun _ g => g.defn
  groups := s.light.groups.map fun _ g => g.defn
  nodes := s.loops.nodes.map fun _ n => n.defn
  list := s.list.memory
  items := s.store.items

/-- The image of settings with its CRC-32 (R177). -/
def imageOf (c : Settings) : StoredImage := .written c (crc32 (Config.imageBytes c))

/-- Whether an image passes its check (R177). -/
def StoredImage.contents : StoredImage → Option Settings
  | .spoiled => none
  | .written c crc => if crc32 (Config.imageBytes c) = crc then some c else none

/-- The owner's part of SAVE: the snapshot is fixed and the old image is erased (R180). -/
def ownSave (_ : Unit) (s : State) : Owned :=
  refuseIf (s.store.saveState == .inProgress) .busy <|
  accept false
    { s with
      store :=
        { s.store with
          image := .spoiled, snapshot := some s.settings, saveState := .inProgress, saveStamp := s.now } }

/-- SAVE_COMPLETION: the written image is read back; `readBack` says whether it came back as written (R180; log 7). -/
def effSaveCompletion (readBack : Bool) (s : State) : State :=
  match s.store.saveState, s.store.snapshot with
  | .inProgress, some c =>
    ({ s with
        store :=
          { s.store with
            image := if readBack then imageOf c else .spoiled
            snapshot := none
            saveState := if readBack then .complete else .failed
            saveStamp := s.now } } : State).mark .site
  | _, _ => s

/-! ### DEFAULTS (R182) -/

/-- DEFAULTS stage 3: each owner empties its definitions. The updates of the removed heads wait in the handed list and find
every zone undefined (DEDUCED, log 22). -/
def defaultsOwners (s : State) : State :=
  defaultsListMemory (defaultsZones (defaultsLights (defaultsOccupancy (defaultsSigns (defaultsFans (defaultsGas s))))))

/-- DEFAULTS stage 4: every site item takes its factory value and each change is handed to its owner. -/
def defaultsItems (s : State) : State :=
  (List.range 25).foldl (fun s n => s.applyItem n (Items.factory.value n)) s

/-- The owner's part of DEFAULTS: its five stages. -/
def ownDefaults (_ : Unit) (s : State) : Owned :=
  let t := defaultsNodes (defaultsItems (defaultsOwners (defaultsStopFans (defaultsIdleList s))))
  .ok (t, .done false (rateChange s.items Items.factory))

/-! ### The starts (R183, R184) -/

/-- The settings a start loads, and whether the image failed its check (R183). -/
def State.loaded (s : State) : Settings × Bool :=
  match s.store.image.contents with
  | some c => (c, false)
  | none => (Settings.factory, true)

/-- A fan's run minutes at a start: the image's at POWER-ON, working memory's at RESTART where it held the fan (R183). -/
def State.startMinutes (s : State) (cause : StartCause) (i : Nat) (x : SavedFan) : SavedFan :=
  match cause with
  | .powerOn => x
  | .restart =>
    match s.fan i with
    | some f => { x with runMinutes := f.runMinutes }
    | none => x

/-- The blocks right after the settings are loaded, before the start-up posts (R184). -/
def startBlocks (c : Settings) (cause : StartCause) (invalid : Bool) (lines : PerLoop Bool) (image : StoredImage)
    (pending : List Instr) : State :=
  let fans := startFans c.fans
  let zoneFans := c.zones.map fun z _ => startZoneFans fans c.plans c.basePlan z
  let bays := startBays c.bays
  { pending := pending
    handed := []
    clockMs := 0
    gas := startGas c.heads
    air :=
      { zones := startZones c.zones c.items fun z => match zoneFans.get z with | some x => x.unventilated | none => true
        alarmOrder := []
        subWindowStart := 0 }
    fans :=
      { fans := fans, plans := c.plans, basePlan := c.basePlan, forcedPlan := none, activePlan := c.basePlan
        source := .base, queue := [], account := 0, lastGrant := none, spacing := false, zones := zoneFans }
    occ := { bays := bays, counts := startCounts bays, ramps := startRamps c.ramps }
    guide := { signs := startSigns c.signs, view := startView }
    light :=
      { groups := startGroups c.groups c.items, zoneAlarm := List.replicate Config.zones false, mode := .opened }
    loops := startLoops c.nodes lines
    list := startList c.list
    port :=
      { receiver := .hunting, replies := [], sending := none, notes := [], startNote := true
        access := accessBase c.items, link := .supervised, supervisedAt := 0, rate := c.items.lineRate
        startCause := cause, storeInvalid := invalid }
    store := { items := c.items, image := image, snapshot := none, saveState := .none, saveStamp := 0 } }

/-- The nodes posted at a start: of every fan, sign and group (R75, R108, R126, R145). -/
def State.startPosts (s : State) : List NodeId :=
  List.map (fun e : Nat × Fan => e.2.defn.node) s.fans.fans
    ++ List.map (fun e : Nat × Sign => e.2.defn.node) s.guide.signs
    ++ List.map (fun e : Nat × Group => e.2.defn.node) s.light.groups

/-- A start of the part (R183, R184): the settings are loaded, the blocks start, the owners post, the lines are sampled,
an auto-started list reaches entry 0, the zones' first demands are handed on, and nothing is marked. -/
def State.start (cause : StartCause) (lines : PerLoop Bool) (s : State) : State :=
  let l := s.loaded
  let c : Settings := { l.1 with fans := l.1.fans.map fun i x => s.startMinutes cause i x }
  let b := startBlocks c cause l.2 lines s.store.image s.pending
  let t := (b.postAll b.startPosts).sampleAll.autoStart
  (t.withPort fun p => { p with notes := [] }).handAll (startZoneChanges b.air.zones)

/-- POWER_ON (R183, R184). -/
def effPowerOn (lines : PerLoop Bool) (s : State) : State := s.start .powerOn lines

/-- RESTART (R183, R184). -/
def effRestart (lines : PerLoop Bool) (s : State) : State := s.start .restart lines

end Sys2Proof.Machine
end

