-- ==== Sys2Proof/Machine/Requests.lean ====
section
/-! DEFINITION. The effect of each host request: the least access level of its kind (R173), the form of its body (11.2)
and its owner's part, taken through the port's checks (R166). -/

namespace Sys2Proof.Machine

/-- IDENT (R176). -/
def effIdent (tag : Byte) (body : List Byte) : State → State :=
  State.request tag levelView (parseEmpty body) ownIdent

/-- PING (R176). -/
def effPing (tag : Byte) (body : List Byte) : State → State :=
  State.request tag levelView (parsePing body) ownPing

/-- LOGIN (R172). -/
def effLogin (tag : Byte) (body : List Byte) : State → State :=
  State.request tag levelView (parseCode body) ownLogin

/-- LOGOUT (R172). -/
def effLogout (tag : Byte) (body : List Byte) : State → State :=
  State.request tag levelView (parseEmpty body) ownLogout

/-- SET_ITEM (R178). -/
def effSetItem (tag : Byte) (body : List Byte) : State → State :=
  State.request tag levelInstaller (parseSetItem body) ownSetItem

/-- GET_ITEM (R179). -/
def effGetItem (tag : Byte) (body : List Byte) : State → State :=
  State.request tag levelView (parseByte body) ownGetItem

/-- SAVE (R180). -/
def effSave (tag : Byte) (body : List Byte) : State → State :=
  State.request tag levelInstaller (parseEmpty body) ownSave

/-- DEFAULTS (R182). -/
def effDefaults (tag : Byte) (body : List Byte) : State → State :=
  State.request tag levelInstaller (parseEmpty body) ownDefaults

/-- HEAD_DEF (R16). -/
def effHeadDef (tag : Byte) (body : List Byte) : State → State :=
  State.request tag levelInstaller (parseHeadDef body) ownHeadDef

/-- HEAD_CAL (R17). -/
def effHeadCal (tag : Byte) (body : List Byte) : State → State :=
  State.request tag levelInstaller (parseHeadCal body) ownHeadCal

/-- GAS_QUERY (R19). -/
def effGasQuery (tag : Byte) (body : List Byte) : State → State :=
  State.request tag levelView (parseByte body) ownGasQuery

/-- ZONE_DEF (R36). -/
def effZoneDef (tag : Byte) (body : List Byte) : State → State :=
  State.request tag levelInstaller (parseZoneDef body) ownZoneDef

/-- ZONE_LIMITS (R37). -/
def effZoneLimits (tag : Byte) (body : List Byte) : State → State :=
  State.request tag levelInstaller (parseZoneLimits body) ownZoneLimits

/-- ZONE_CLOSE (R38). -/
def effZoneClose (tag : Byte) (body : List Byte) : State → State :=
  State.request tag levelService (parseByte body) (ownZoneClosure true)

/-- ZONE_OPEN (R38). -/
def effZoneOpen (tag : Byte) (body : List Byte) : State → State :=
  State.request tag levelService (parseByte body) (ownZoneClosure false)

/-- ZONE_QUERY (R39). -/
def effZoneQuery (tag : Byte) (body : List Byte) : State → State :=
  State.request tag levelView (parseByte body) ownZoneQuery

/-- FAN_DEF (R72). -/
def effFanDef (tag : Byte) (body : List Byte) : State → State :=
  State.request tag levelInstaller (parseFanDef body) ownFanDef

/-- PLAN_DEF (R73). -/
def effPlanDef (tag : Byte) (body : List Byte) : State → State :=
  State.request tag levelPlans (parsePlanDef body) ownPlanDef

/-- PLAN_BASE (R73). -/
def effPlanBase (tag : Byte) (body : List Byte) : State → State :=
  State.request tag levelPlans (parseByte body) ownPlanBase

/-- PLAN_FORCE (R74). -/
def effPlanForce (tag : Byte) (body : List Byte) : State → State :=
  State.request tag levelInstaller (parseByte body) ownPlanForce

/-- PLAN_UNFORCE (R74). -/
def effPlanUnforce (tag : Byte) (body : List Byte) : State → State :=
  State.request tag levelInstaller (parseEmpty body) ownPlanUnforce

/-- FAN_HOLD (R66). -/
def effFanHold (tag : Byte) (body : List Byte) : State → State :=
  State.request tag levelService (parseByte body) ownFanHold

/-- FAN_FREE (R67). -/
def effFanFree (tag : Byte) (body : List Byte) : State → State :=
  State.request tag levelService (parseByte body) ownFanFree

/-- FAN_CLEAR (R68). -/
def effFanClear (tag : Byte) (body : List Byte) : State → State :=
  State.request tag levelOperator (parseByte body) ownFanClear

/-- FAN_QUERY (R70). -/
def effFanQuery (tag : Byte) (body : List Byte) : State → State :=
  State.request tag levelView (parseByte body) ownFanQuery

/-- BAY_DEF (R85). -/
def effBayDef (tag : Byte) (body : List Byte) : State → State :=
  State.request tag levelInstaller (parseBayDef body) ownBayDef

/-- BAY_SERVICE (R86). -/
def effBayService (tag : Byte) (body : List Byte) : State → State :=
  State.request tag levelService (parseBayService body) ownBayService

/-- BAY_QUERY (R87). -/
def effBayQuery (tag : Byte) (body : List Byte) : State → State :=
  State.request tag levelView (parseBayQuery body) ownBayQuery

/-- COUNT_QUERY (R88). -/
def effCountQuery (tag : Byte) (body : List Byte) : State → State :=
  State.request tag levelView (parseByte2 body) ownCountQuery

/-- RAMP_DEF (R93). -/
def effRampDef (tag : Byte) (body : List Byte) : State → State :=
  State.request tag levelInstaller (parseRampDef body) ownRampDef

/-- SIGN_DEF (R106). -/
def effSignDef (tag : Byte) (body : List Byte) : State → State :=
  State.request tag levelInstaller (parseSignDef body) ownSignDef

/-- SIGN_QUERY (R107). -/
def effSignQuery (tag : Byte) (body : List Byte) : State → State :=
  State.request tag levelView (parseByte body) ownSignQuery

/-- GROUP_DEF (R124). -/
def effGroupDef (tag : Byte) (body : List Byte) : State → State :=
  State.request tag levelInstaller (parseGroupDef body) ownGroupDef

/-- GROUP_OVERRIDE (R121). -/
def effGroupOverride (tag : Byte) (body : List Byte) : State → State :=
  State.request tag levelOperator (parseGroupOverride body) ownGroupOverride

/-- GROUP_RELEASE (R121). -/
def effGroupRelease (tag : Byte) (body : List Byte) : State → State :=
  State.request tag levelOperator (parseByte2 body) ownGroupRelease

/-- GROUP_QUERY (R125). -/
def effGroupQuery (tag : Byte) (body : List Byte) : State → State :=
  State.request tag levelView (parseByte body) ownGroupQuery

/-- SITE_MODE (R120). -/
def effSiteMode (tag : Byte) (body : List Byte) : State → State :=
  State.request tag levelOperator (parseByte body) ownSiteMode

/-- NODE_DEF (R141). -/
def effNodeDef (tag : Byte) (body : List Byte) : State → State :=
  State.request tag levelInstaller (parseNodeDef body) ownNodeDef

/-- NODE_QUERY (R144). -/
def effNodeQuery (tag : Byte) (body : List Byte) : State → State :=
  State.request tag levelView (parseNodeQuery body) ownNodeQuery

/-- LOOP_RESET (R140). -/
def effLoopReset (tag : Byte) (body : SampledBody) : State → State :=
  State.request tag levelInstaller (parseByte body.bytes) (ownLoopReset body.lines)

/-- LIST_LOAD (R157). -/
def effListLoad (tag : Byte) (body : List Byte) : State → State :=
  State.request tag levelInstaller (parseListLoad body) ownListLoad

/-- LIST_GO (R158). -/
def effListGo (tag : Byte) (body : List Byte) : State → State :=
  State.request tag levelInstaller (parseByte body) ownListGo

/-- LIST_HALT (R159). -/
def effListHalt (tag : Byte) (body : List Byte) : State → State :=
  State.request tag levelInstaller (parseEmpty body) ownListHalt

/-- LIST_READ (R160). -/
def effListRead (tag : Byte) (body : List Byte) : State → State :=
  State.request tag levelView (parseByte2 body) ownListRead

/-- LIST_QUERY (R160). -/
def effListQuery (tag : Byte) (body : List Byte) : State → State :=
  State.request tag levelView (parseEmpty body) ownListQuery

/-- FOUND_READ (R161). -/
def effFoundRead (tag : Byte) (body : List Byte) : State → State :=
  State.request tag levelView (parseByte body) ownFoundRead

end Sys2Proof.Machine
end

