-- ==== Sys2Proof/Machine/Effects.lean ====
section
/-! DEFINITION. The effect of each command on the records of the part, and what surrounds it: the events it hands on, the
engine's next transaction, and the transmitter's next frame. -/

namespace Sys2Proof.Machine

/-- The effect of a command, before the engine and the transmitter act. -/
def effect : Instr → State → State
  | .ident t b => effIdent t b
  | .ping t b => effPing t b
  | .login t b => effLogin t b
  | .logout t b => effLogout t b
  | .setItem t b => effSetItem t b
  | .getItem t b => effGetItem t b
  | .save t b => effSave t b
  | .defaults t b => effDefaults t b
  | .headDef t b => effHeadDef t b
  | .headCal t b => effHeadCal t b
  | .gasQuery t b => effGasQuery t b
  | .zoneDef t b => effZoneDef t b
  | .zoneLimits t b => effZoneLimits t b
  | .zoneClose t b => effZoneClose t b
  | .zoneOpen t b => effZoneOpen t b
  | .zoneQuery t b => effZoneQuery t b
  | .fanDef t b => effFanDef t b
  | .planDef t b => effPlanDef t b
  | .planBase t b => effPlanBase t b
  | .planForce t b => effPlanForce t b
  | .planUnforce t b => effPlanUnforce t b
  | .fanHold t b => effFanHold t b
  | .fanFree t b => effFanFree t b
  | .fanClear t b => effFanClear t b
  | .fanQuery t b => effFanQuery t b
  | .bayDef t b => effBayDef t b
  | .bayService t b => effBayService t b
  | .bayQuery t b => effBayQuery t b
  | .countQuery t b => effCountQuery t b
  | .rampDef t b => effRampDef t b
  | .signDef t b => effSignDef t b
  | .signQuery t b => effSignQuery t b
  | .groupDef t b => effGroupDef t b
  | .groupOverride t b => effGroupOverride t b
  | .groupRelease t b => effGroupRelease t b
  | .groupQuery t b => effGroupQuery t b
  | .siteMode t b => effSiteMode t b
  | .nodeDef t b => effNodeDef t b
  | .nodeQuery t b => effNodeQuery t b
  | .loopReset t b => effLoopReset t b
  | .listLoad t b => effListLoad t b
  | .listGo t b => effListGo t b
  | .listHalt t b => effListHalt t b
  | .listRead t b => effListRead t b
  | .listQuery t b => effListQuery t b
  | .foundRead t b => effFoundRead t b
  | .unknownKind _ t _ => effUnknownKind t
  | .frameDropped _ _ _ => effFrameDropped
  | .receiveByte b stop gap => effReceiveByte b stop gap
  | .frameSent => effFrameSent
  | .supervisionExpiry => effSupervisionExpiry
  | .supervisionExpiryLighting => effSupervisionLighting
  | .supervisionExpiryFans => effSupervisionFans
  | .powerOn lines => effPowerOn lines
  | .restart lines => effRestart lines
  | .saveCompletion ok => effSaveCompletion ok
  | .attentionAsserted l => effAttentionAsserted l
  | .attentionIgnoreExpiry l => effAttentionIgnoreExpiry l
  | .replyReceived r lines => effReplyReceived r lines
  | .replyTimeout lines => effReplyTimeout lines
  | .rollcallEnd m lines => effRollcallEnd m lines
  | .gasReading n r p => effGasReading n r p
  | .staleExpiry h g => effStaleExpiry h g
  | .gasNodeLost n => effGasNodeLost n
  | .gasNodeReset n => effGasNodeReset n
  | .gasUpdate z u more => effGasUpdate z u more
  | .trafficEvent z => effTrafficEvent z
  | .subWindowExpiry => effSubWindowExpiry
  | .standingChange z r f => effStandingChange z r f
  | .unventilatedFlagChange z f => effUnventilated z f
  | .siteModeFloorChange m => effSiteModeFloor m
  | .zoneChangeFan c => effZoneChangeFan c
  | .zoneChangeGuidance z c => effZoneChangeGuidance z c
  | .zoneChangeLighting z a => effZoneChangeLighting z a
  | .driveReport n r p => effDriveReport n r p
  | .startSpacingExpiry => effStartSpacingExpiry
  | .startTimeout i => effStartTimeout i
  | .speedupTimeout i => effSpeedupTimeout i
  | .minimumRunTimeMet i => effMinimumRunTimeMet i
  | .holdTimeExpiry i => effHoldTimeExpiry i
  | .rundownEnd i => effRundownEnd i
  | .exerciseDue i => effExerciseDue i
  | .exerciseRunEnd i => effExerciseRunEnd i
  | .runMinute i => effRunMinute i
  | .fanNodeLost n => effFanNodeLost n
  | .fanNodeRestart n => effFanNodeRestart n
  | .fanNodeReset n => effFanNodeReset n
  | .bayStripReading n r p => effBayStripReading n r p
  | .bayNodeLost n => effBayNodeLost n
  | .bayNodeReset n => effBayNodeReset n
  | .bayNodeRestart n => effBayNodeRestart n
  | .rampReading n r p => effRampReading n r p
  | .rampNodeLost n => effRampNodeLost n
  | .rampNodeReset n => effRampNodeReset n
  | .countDelivery z c n => effCountDelivery z c n
  | .signReport n r p => effSignReport n r p
  | .signNodeLost n => effSignNodeLost n
  | .signNodeReset n => effSignNodeReset n
  | .presenceTrigger p => effPresenceTrigger p
  | .escort g => effEscort g
  | .presenceExpiry i => effPresenceExpiry i
  | .lampWriteOutcome n a => effLampWriteOutcome n a
  | .lampReport n r p => effLampReport n r p
  | .lampNodeLost n => effLampNodeLost n
  | .lampNodeReset n => effLampNodeReset n
  | .lampNodeReturn n => effLampNodeReturn n
  | .listOutcome o => effListOutcome o
  | .pauseExpiry => effPauseExpiry
  | .repeatLimitExpiry => effRepeatLimitExpiry

/-- The choices the engine makes at most in one event (log 8). -/
def choiceLimit : Nat := 512

/-- After an event the free engine chooses, once no handed event waits, and the free transmitter takes its next frame
(R136, R168; log 4). -/
def settle (s : State) : State := (if s.handed.isEmpty then s.choose choiceLimit else s).transmit

/-- The first handed event is taken as an event of its own (log 2). -/
def takeHanded (s : State) : State :=
  match s.handed with
  | [] => s
  | e :: rest => settle (effect e { s with handed := rest })

/-- The handed events are taken one by one, in the order in which they were handed, at most `fuel` of them (log 2). -/
def catchUp : Nat → State → State
  | 0, s => s
  | fuel + 1, s => if s.handed.isEmpty then s else catchUp fuel (takeHanded s)

/-- The handed events taken at most before a command (log 2). -/
def catchUpLimit : Nat := 4096

/-- A start discards what was handed and in flight (R183, R184); every other command waits for it. -/
def isStart : Instr → Bool
  | .powerOn _ => true
  | .restart _ => true
  | _ => false

/-- From which block to which an event goes. The deliveries of one lane are taken in the order in which they were handed;
between two lanes the spec fixes no order (R34, R81, R102). A passage's escort has a lane of its own, since R91 fixes no
order of it and the presence trigger. Time and the line outside have one lane, which no block hands on. -/
inductive Lane where
  | outside | lineToDispatch | portToFans | portToLighting | loopsToGas | loopsToFans | loopsToOccupancy | loopsToGuidance
  | loopsToLighting | loopsToList | gasToAir | occupancyToAir | fansToAir | lightingToAir | airToFans | airToGuidance
  | airToLighting | occupancyToGuidance | occupancyToLighting | escorts
deriving DecidableEq, Repr

/-- The lane of an event (R13, R29, R34, R49, R81, R91, R117, R120, R131, R132, R149, R165, R174). -/
def lane : Instr → Lane
  | .ident .. | .ping .. | .login .. | .logout .. | .setItem .. | .getItem .. | .save .. | .defaults .. | .headDef ..
  | .headCal .. | .gasQuery .. | .zoneDef .. | .zoneLimits .. | .zoneClose .. | .zoneOpen .. | .zoneQuery .. | .fanDef ..
  | .planDef .. | .planBase .. | .planForce .. | .planUnforce .. | .fanHold .. | .fanFree .. | .fanClear .. | .fanQuery ..
  | .bayDef .. | .bayService .. | .bayQuery .. | .countQuery .. | .rampDef .. | .signDef .. | .signQuery .. | .groupDef ..
  | .groupOverride .. | .groupRelease .. | .groupQuery .. | .siteMode .. | .nodeDef .. | .nodeQuery .. | .loopReset ..
  | .listLoad .. | .listGo .. | .listHalt .. | .listRead .. | .listQuery .. | .foundRead .. | .unknownKind ..
  | .frameDropped .. => .lineToDispatch
  | .supervisionExpiryFans => .portToFans
  | .supervisionExpiryLighting => .portToLighting
  | .gasReading .. | .gasNodeLost .. | .gasNodeReset .. => .loopsToGas
  | .driveReport .. | .fanNodeLost .. | .fanNodeRestart .. | .fanNodeReset .. => .loopsToFans
  | .bayStripReading .. | .bayNodeLost .. | .bayNodeReset .. | .bayNodeRestart .. | .rampReading .. | .rampNodeLost ..
  | .rampNodeReset .. => .loopsToOccupancy
  | .signReport .. | .signNodeLost .. | .signNodeReset .. => .loopsToGuidance
  | .lampWriteOutcome .. | .lampReport .. | .lampNodeLost .. | .lampNodeReset .. | .lampNodeReturn .. => .loopsToLighting
  | .listOutcome .. => .loopsToList
  | .gasUpdate .. => .gasToAir
  | .trafficEvent .. | .standingChange .. => .occupancyToAir
  | .unventilatedFlagChange .. => .fansToAir
  | .siteModeFloorChange .. => .lightingToAir
  | .zoneChangeFan .. => .airToFans
  | .zoneChangeGuidance .. => .airToGuidance
  | .zoneChangeLighting .. => .airToLighting
  | .countDelivery .. => .occupancyToGuidance
  | .presenceTrigger .. => .occupancyToLighting
  | .escort .. => .escorts
  | .receiveByte .. | .frameSent | .supervisionExpiry | .powerOn .. | .restart .. | .saveCompletion .. | .attentionAsserted ..
  | .attentionIgnoreExpiry .. | .replyReceived .. | .replyTimeout .. | .rollcallEnd .. | .staleExpiry .. | .subWindowExpiry
  | .startSpacingExpiry | .startTimeout .. | .speedupTimeout .. | .minimumRunTimeMet .. | .holdTimeExpiry .. | .rundownEnd ..
  | .exerciseDue .. | .exerciseRunEnd .. | .runMinute .. | .presenceExpiry .. | .pauseExpiry | .repeatLimitExpiry => .outside

/-- The handed events that must be taken before the handed event `c`: those of its lane that were handed before it (R34). -/
def earlier (c : Instr) (s : State) : List Instr :=
  (s.handed.takeWhile fun e => decide (e ≠ c)).filter fun e => decide (lane e = lane c)

/-- One handed event leaves the list, wherever it stands in it, and is taken as an event of its own. -/
def takeOne (s : State) (e : Instr) : State := settle (effect e { s with handed := s.handed.erase e })

/-- Before a command. A start waits for nothing. An event that stands among the handed events is that one: what its lane
holds before it is taken first, in the order in which it was handed (R34), and the event then leaves the list. Before any
other command all handed events are taken (log 2). -/
def prepare (c : Instr) (s : State) : State :=
  if isStart c then s
  else if c ∈ s.handed then
    let t := (earlier c s).foldl takeOne s
    { t with handed := t.handed.erase c }
  else catchUp catchUpLimit s

/-- A command whose effect is `f` is taken whole: what was handed before it, its effect, the engine, the transmitter. -/
def perform (c : Instr) (f : State → State) (s : State) : State := settle (f (prepare c s))

end Sys2Proof.Machine
end

