-- ==== Sys2Proof/Machine/Commands.lean ====
section
/-! DEFINITION. The meaning of each command on everything but the queue: what was handed before it is taken, its effect
acts, then the engine chooses and the transmitter sends. Every command answers a next state. -/

namespace Sys2Proof.Machine

/-- What a command answers. -/
abbrev Result := Host.Outcome State Fault Refusal

/-! ### Requests of the Supervisor Port and the Settings Store -/

/-- IDENT (R176). -/
def execIdent (tag : Byte) (body : List Byte) (s : State) : Result :=
  .next (perform (.ident tag body) (effIdent tag body) s)

/-- PING (R176). -/
def execPing (tag : Byte) (body : List Byte) (s : State) : Result :=
  .next (perform (.ping tag body) (effPing tag body) s)

/-- LOGIN (R172). -/
def execLogin (tag : Byte) (body : List Byte) (s : State) : Result :=
  .next (perform (.login tag body) (effLogin tag body) s)

/-- LOGOUT (R172). -/
def execLogout (tag : Byte) (body : List Byte) (s : State) : Result :=
  .next (perform (.logout tag body) (effLogout tag body) s)

/-- SET_ITEM (R178). -/
def execSetItem (tag : Byte) (body : List Byte) (s : State) : Result :=
  .next (perform (.setItem tag body) (effSetItem tag body) s)

/-- GET_ITEM (R179). -/
def execGetItem (tag : Byte) (body : List Byte) (s : State) : Result :=
  .next (perform (.getItem tag body) (effGetItem tag body) s)

/-- SAVE (R180). -/
def execSave (tag : Byte) (body : List Byte) (s : State) : Result :=
  .next (perform (.save tag body) (effSave tag body) s)

/-- DEFAULTS (R182). -/
def execDefaults (tag : Byte) (body : List Byte) (s : State) : Result :=
  .next (perform (.defaults tag body) (effDefaults tag body) s)

/-! ### Requests of the Gas Conversion Unit and the Zone Air Unit -/

/-- HEAD_DEF (R16). -/
def execHeadDef (tag : Byte) (body : List Byte) (s : State) : Result :=
  .next (perform (.headDef tag body) (effHeadDef tag body) s)

/-- HEAD_CAL (R17). -/
def execHeadCal (tag : Byte) (body : List Byte) (s : State) : Result :=
  .next (perform (.headCal tag body) (effHeadCal tag body) s)

/-- GAS_QUERY (R19). -/
def execGasQuery (tag : Byte) (body : List Byte) (s : State) : Result :=
  .next (perform (.gasQuery tag body) (effGasQuery tag body) s)

/-- ZONE_DEF (R36). -/
def execZoneDef (tag : Byte) (body : List Byte) (s : State) : Result :=
  .next (perform (.zoneDef tag body) (effZoneDef tag body) s)

/-- ZONE_LIMITS (R37). -/
def execZoneLimits (tag : Byte) (body : List Byte) (s : State) : Result :=
  .next (perform (.zoneLimits tag body) (effZoneLimits tag body) s)

/-- ZONE_CLOSE (R38). -/
def execZoneClose (tag : Byte) (body : List Byte) (s : State) : Result :=
  .next (perform (.zoneClose tag body) (effZoneClose tag body) s)

/-- ZONE_OPEN (R38). -/
def execZoneOpen (tag : Byte) (body : List Byte) (s : State) : Result :=
  .next (perform (.zoneOpen tag body) (effZoneOpen tag body) s)

/-- ZONE_QUERY (R39). -/
def execZoneQuery (tag : Byte) (body : List Byte) (s : State) : Result :=
  .next (perform (.zoneQuery tag body) (effZoneQuery tag body) s)

/-! ### Requests of the Fan Controller -/

/-- FAN_DEF (R72). -/
def execFanDef (tag : Byte) (body : List Byte) (s : State) : Result :=
  .next (perform (.fanDef tag body) (effFanDef tag body) s)

/-- PLAN_DEF (R73). -/
def execPlanDef (tag : Byte) (body : List Byte) (s : State) : Result :=
  .next (perform (.planDef tag body) (effPlanDef tag body) s)

/-- PLAN_BASE (R73). -/
def execPlanBase (tag : Byte) (body : List Byte) (s : State) : Result :=
  .next (perform (.planBase tag body) (effPlanBase tag body) s)

/-- PLAN_FORCE (R74). -/
def execPlanForce (tag : Byte) (body : List Byte) (s : State) : Result :=
  .next (perform (.planForce tag body) (effPlanForce tag body) s)

/-- PLAN_UNFORCE (R74). -/
def execPlanUnforce (tag : Byte) (body : List Byte) (s : State) : Result :=
  .next (perform (.planUnforce tag body) (effPlanUnforce tag body) s)

/-- FAN_HOLD (R66). -/
def execFanHold (tag : Byte) (body : List Byte) (s : State) : Result :=
  .next (perform (.fanHold tag body) (effFanHold tag body) s)

/-- FAN_FREE (R67). -/
def execFanFree (tag : Byte) (body : List Byte) (s : State) : Result :=
  .next (perform (.fanFree tag body) (effFanFree tag body) s)

/-- FAN_CLEAR (R68). -/
def execFanClear (tag : Byte) (body : List Byte) (s : State) : Result :=
  .next (perform (.fanClear tag body) (effFanClear tag body) s)

/-- FAN_QUERY (R70). -/
def execFanQuery (tag : Byte) (body : List Byte) (s : State) : Result :=
  .next (perform (.fanQuery tag body) (effFanQuery tag body) s)

/-! ### Requests of the Occupancy Unit -/

/-- BAY_DEF (R85). -/
def execBayDef (tag : Byte) (body : List Byte) (s : State) : Result :=
  .next (perform (.bayDef tag body) (effBayDef tag body) s)

/-- BAY_SERVICE (R86). -/
def execBayService (tag : Byte) (body : List Byte) (s : State) : Result :=
  .next (perform (.bayService tag body) (effBayService tag body) s)

/-- BAY_QUERY (R87). -/
def execBayQuery (tag : Byte) (body : List Byte) (s : State) : Result :=
  .next (perform (.bayQuery tag body) (effBayQuery tag body) s)

/-- COUNT_QUERY (R88). -/
def execCountQuery (tag : Byte) (body : List Byte) (s : State) : Result :=
  .next (perform (.countQuery tag body) (effCountQuery tag body) s)

/-- RAMP_DEF (R93). -/
def execRampDef (tag : Byte) (body : List Byte) (s : State) : Result :=
  .next (perform (.rampDef tag body) (effRampDef tag body) s)

/-! ### Requests of the Guidance Unit and the Lighting Controller -/

/-- SIGN_DEF (R106). -/
def execSignDef (tag : Byte) (body : List Byte) (s : State) : Result :=
  .next (perform (.signDef tag body) (effSignDef tag body) s)

/-- SIGN_QUERY (R107). -/
def execSignQuery (tag : Byte) (body : List Byte) (s : State) : Result :=
  .next (perform (.signQuery tag body) (effSignQuery tag body) s)

/-- GROUP_DEF (R124). -/
def execGroupDef (tag : Byte) (body : List Byte) (s : State) : Result :=
  .next (perform (.groupDef tag body) (effGroupDef tag body) s)

/-- GROUP_OVERRIDE (R121). -/
def execGroupOverride (tag : Byte) (body : List Byte) (s : State) : Result :=
  .next (perform (.groupOverride tag body) (effGroupOverride tag body) s)

/-- GROUP_RELEASE (R121). -/
def execGroupRelease (tag : Byte) (body : List Byte) (s : State) : Result :=
  .next (perform (.groupRelease tag body) (effGroupRelease tag body) s)

/-- GROUP_QUERY (R125). -/
def execGroupQuery (tag : Byte) (body : List Byte) (s : State) : Result :=
  .next (perform (.groupQuery tag body) (effGroupQuery tag body) s)

/-- SITE_MODE (R120). -/
def execSiteMode (tag : Byte) (body : List Byte) (s : State) : Result :=
  .next (perform (.siteMode tag body) (effSiteMode tag body) s)

/-! ### Requests of the Loop Master and the Scan List Unit -/

/-- NODE_DEF (R141). -/
def execNodeDef (tag : Byte) (body : List Byte) (s : State) : Result :=
  .next (perform (.nodeDef tag body) (effNodeDef tag body) s)

/-- NODE_QUERY (R144). -/
def execNodeQuery (tag : Byte) (body : List Byte) (s : State) : Result :=
  .next (perform (.nodeQuery tag body) (effNodeQuery tag body) s)

/-- LOOP_RESET (R140). -/
def execLoopReset (tag : Byte) (body : SampledBody) (s : State) : Result :=
  .next (perform (.loopReset tag body) (effLoopReset tag body) s)

/-- LIST_LOAD (R157). -/
def execListLoad (tag : Byte) (body : List Byte) (s : State) : Result :=
  .next (perform (.listLoad tag body) (effListLoad tag body) s)

/-- LIST_GO (R158). -/
def execListGo (tag : Byte) (body : List Byte) (s : State) : Result :=
  .next (perform (.listGo tag body) (effListGo tag body) s)

/-- LIST_HALT (R159). -/
def execListHalt (tag : Byte) (body : List Byte) (s : State) : Result :=
  .next (perform (.listHalt tag body) (effListHalt tag body) s)

/-- LIST_READ (R160). -/
def execListRead (tag : Byte) (body : List Byte) (s : State) : Result :=
  .next (perform (.listRead tag body) (effListRead tag body) s)

/-- LIST_QUERY (R160). -/
def execListQuery (tag : Byte) (body : List Byte) (s : State) : Result :=
  .next (perform (.listQuery tag body) (effListQuery tag body) s)

/-- FOUND_READ (R161). -/
def execFoundRead (tag : Byte) (body : List Byte) (s : State) : Result :=
  .next (perform (.foundRead tag body) (effFoundRead tag body) s)

/-! ### The supervisor line -/

/-- UNKNOWN_KIND (R166). -/
def execUnknownKind (kind tag : Byte) (body : List Byte) (s : State) : Result :=
  .next (perform (.unknownKind kind tag body) (effUnknownKind tag) s)

/-- FRAME_DROPPED_REPLY_QUEUE_FULL (R166). -/
def execFrameDropped (kind tag : Byte) (body : List Byte) (s : State) : Result :=
  .next (perform (.frameDropped kind tag body) effFrameDropped s)

/-- RECEIVE_BYTE (R165). -/
def execReceiveByte (byte : Byte) (stopBit : Bool) (gap : Bool) (s : State) : Result :=
  .next (perform (.receiveByte byte stopBit gap) (effReceiveByte byte stopBit gap) s)

/-- FRAME_SENT (R168). -/
def execFrameSent (s : State) : Result :=
  .next (perform .frameSent effFrameSent s)

/-- SUPERVISION_EXPIRY (R174). -/
def execSupervisionExpiry (s : State) : Result :=
  .next (perform .supervisionExpiry effSupervisionExpiry s)

/-- SUPERVISION_EXPIRY_LIGHTING (R122). -/
def execSupervisionExpiryLighting (s : State) : Result :=
  .next (perform .supervisionExpiryLighting effSupervisionLighting s)

/-- SUPERVISION_EXPIRY_FANS (R74). -/
def execSupervisionExpiryFans (s : State) : Result :=
  .next (perform .supervisionExpiryFans effSupervisionFans s)

/-! ### Starts and the store -/

/-- POWER_ON (R183). -/
def execPowerOn (lines : PerLoop Bool) (s : State) : Result :=
  .next (perform (.powerOn lines) (effPowerOn lines) s)

/-- RESTART (R183). -/
def execRestart (lines : PerLoop Bool) (s : State) : Result :=
  .next (perform (.restart lines) (effRestart lines) s)

/-- SAVE_COMPLETION (R180). -/
def execSaveCompletion (readBack : Bool) (s : State) : Result :=
  .next (perform (.saveCompletion readBack) (effSaveCompletion readBack) s)

/-! ### The zone loops -/

/-- ATTENTION_ASSERTED (R133). -/
def execAttentionAsserted (loop : LoopId) (s : State) : Result :=
  .next (perform (.attentionAsserted loop) (effAttentionAsserted loop) s)

/-- ATTENTION_IGNORE_EXPIRY (R135). -/
def execAttentionIgnoreExpiry (loop : LineSample) (s : State) : Result :=
  .next (perform (.attentionIgnoreExpiry loop) (effAttentionIgnoreExpiry loop) s)

/-- REPLY_RECEIVED (R131). -/
def execReplyReceived (reply : List Byte) (lines : PerLoop Bool) (s : State) : Result :=
  .next (perform (.replyReceived reply lines) (effReplyReceived reply lines) s)

/-- REPLY_TIMEOUT (R128). -/
def execReplyTimeout (lines : PerLoop Bool) (s : State) : Result :=
  .next (perform (.replyTimeout lines) (effReplyTimeout lines) s)

/-- ROLLCALL_END (R134). -/
def execRollcallEnd (mask : BitVec 32) (lines : PerLoop Bool) (s : State) : Result :=
  .next (perform (.rollcallEnd mask lines) (effRollcallEnd mask lines) s)

/-! ### Gas heads -/

/-- GAS_READING (R3). -/
def execGasReading (node : NodeId) (ready : Bool) (payload : List Byte) (s : State) : Result :=
  .next (perform (.gasReading node ready payload) (effGasReading node ready payload) s)

/-- STALE_EXPIRY (R12). -/
def execStaleExpiry (head : Nat) (gas : Gas) (s : State) : Result :=
  .next (perform (.staleExpiry head gas) (effStaleExpiry head gas) s)

/-- GAS_NODE_LOST (R14). -/
def execGasNodeLost (node : NodeId) (s : State) : Result :=
  .next (perform (.gasNodeLost node) (effGasNodeLost node) s)

/-- GAS_NODE_RESET (R14). -/
def execGasNodeReset (node : NodeId) (s : State) : Result :=
  .next (perform (.gasNodeReset node) (effGasNodeReset node) s)

/-! ### Zones -/

/-- GAS_UPDATE (R22). -/
def execGasUpdate (zone : Nat) (update : HeadUpdate) (more : List HeadUpdate) (s : State) : Result :=
  .next (perform (.gasUpdate zone update more) (effGasUpdate zone update more) s)

/-- TRAFFIC_EVENT (R26). -/
def execTrafficEvent (zone : Nat) (s : State) : Result :=
  .next (perform (.trafficEvent zone) (effTrafficEvent zone) s)

/-- SUB_WINDOW_EXPIRY (R27). -/
def execSubWindowExpiry (s : State) : Result :=
  .next (perform .subWindowExpiry effSubWindowExpiry s)

/-- STANDING_CHANGE (R29). -/
def execStandingChange (zone ramp : Nat) (standing : Bool) (s : State) : Result :=
  .next (perform (.standingChange zone ramp standing) (effStandingChange zone ramp standing) s)

/-- UNVENTILATED_FLAG_CHANGE (R33). -/
def execUnventilatedFlagChange (zone : Nat) (flag : Bool) (s : State) : Result :=
  .next (perform (.unventilatedFlagChange zone flag) (effUnventilated zone flag) s)

/-- SITE_MODE_FLOOR_CHANGE (R30). -/
def execSiteModeFloorChange (mode : SiteMode) (s : State) : Result :=
  .next (perform (.siteModeFloorChange mode) (effSiteModeFloor mode) s)

/-- ZONE_CHANGE_FAN (R50). -/
def execZoneChangeFan (change : ZoneChange) (s : State) : Result :=
  .next (perform (.zoneChangeFan change) (effZoneChangeFan change) s)

/-- ZONE_CHANGE_GUIDANCE (R100). -/
def execZoneChangeGuidance (zone : Nat) (closed : Bool) (s : State) : Result :=
  .next (perform (.zoneChangeGuidance zone closed) (effZoneChangeGuidance zone closed) s)

/-- ZONE_CHANGE_LIGHTING (R110). -/
def execZoneChangeLighting (zone : Nat) (inAlarm : Bool) (s : State) : Result :=
  .next (perform (.zoneChangeLighting zone inAlarm) (effZoneChangeLighting zone inAlarm) s)

/-! ### Fans -/

/-- DRIVE_REPORT (R44). -/
def execDriveReport (node : NodeId) (ready : Bool) (payload : List Byte) (s : State) : Result :=
  .next (perform (.driveReport node ready payload) (effDriveReport node ready payload) s)

/-- START_SPACING_EXPIRY (R53). -/
def execStartSpacingExpiry (s : State) : Result :=
  .next (perform .startSpacingExpiry effStartSpacingExpiry s)

/-- START_TIMEOUT (R57). -/
def execStartTimeout (fan : Nat) (s : State) : Result :=
  .next (perform (.startTimeout fan) (effStartTimeout fan) s)

/-- SPEEDUP_TIMEOUT (R55). -/
def execSpeedupTimeout (fan : Nat) (s : State) : Result :=
  .next (perform (.speedupTimeout fan) (effSpeedupTimeout fan) s)

/-- MINIMUM_RUN_TIME_MET (R60). -/
def execMinimumRunTimeMet (fan : Nat) (s : State) : Result :=
  .next (perform (.minimumRunTimeMet fan) (effMinimumRunTimeMet fan) s)

/-- HOLD_TIME_EXPIRY (R60). -/
def execHoldTimeExpiry (fan : Nat) (s : State) : Result :=
  .next (perform (.holdTimeExpiry fan) (effHoldTimeExpiry fan) s)

/-- RUNDOWN_END (R61). -/
def execRundownEnd (fan : Nat) (s : State) : Result :=
  .next (perform (.rundownEnd fan) (effRundownEnd fan) s)

/-- EXERCISE_DUE (R64). -/
def execExerciseDue (fan : Nat) (s : State) : Result :=
  .next (perform (.exerciseDue fan) (effExerciseDue fan) s)

/-- EXERCISE_RUN_END (R64). -/
def execExerciseRunEnd (fan : Nat) (s : State) : Result :=
  .next (perform (.exerciseRunEnd fan) (effExerciseRunEnd fan) s)

/-- RUN_MINUTE (R65). -/
def execRunMinute (fan : Nat) (s : State) : Result :=
  .next (perform (.runMinute fan) (effRunMinute fan) s)

/-- FAN_NODE_LOST (R62). -/
def execFanNodeLost (node : NodeId) (s : State) : Result :=
  .next (perform (.fanNodeLost node) (effFanNodeLost node) s)

/-- FAN_NODE_RESTART (R63). -/
def execFanNodeRestart (node : NodeId) (s : State) : Result :=
  .next (perform (.fanNodeRestart node) (effFanNodeRestart node) s)

/-- FAN_NODE_RESET (R63). -/
def execFanNodeReset (node : NodeId) (s : State) : Result :=
  .next (perform (.fanNodeReset node) (effFanNodeReset node) s)

/-! ### Bays and ramps -/

/-- BAY_STRIP_READING (R77). -/
def execBayStripReading (node : NodeId) (ready : Bool) (payload : List Byte) (s : State) : Result :=
  .next (perform (.bayStripReading node ready payload) (effBayStripReading node ready payload) s)

/-- BAY_NODE_LOST (R83). -/
def execBayNodeLost (node : NodeId) (s : State) : Result :=
  .next (perform (.bayNodeLost node) (effBayNodeLost node) s)

/-- BAY_NODE_RESET (R83). -/
def execBayNodeReset (node : NodeId) (s : State) : Result :=
  .next (perform (.bayNodeReset node) (effBayNodeReset node) s)

/-- BAY_NODE_RESTART (R83). -/
def execBayNodeRestart (node : NodeId) (s : State) : Result :=
  .next (perform (.bayNodeRestart node) (effBayNodeRestart node) s)

/-- RAMP_READING (R90). -/
def execRampReading (node : NodeId) (ready : Bool) (payload : List Byte) (s : State) : Result :=
  .next (perform (.rampReading node ready payload) (effRampReading node ready payload) s)

/-- RAMP_NODE_LOST (R92). -/
def execRampNodeLost (node : NodeId) (s : State) : Result :=
  .next (perform (.rampNodeLost node) (effRampNodeLost node) s)

/-- RAMP_NODE_RESET (R92). -/
def execRampNodeReset (node : NodeId) (s : State) : Result :=
  .next (perform (.rampNodeReset node) (effRampNodeReset node) s)

/-! ### Signs -/

/-- COUNT_DELIVERY (R100). -/
def execCountDelivery (zone : Nat) (cls : BayClass) (count : Nat) (s : State) : Result :=
  .next (perform (.countDelivery zone cls count) (effCountDelivery zone cls count) s)

/-- SIGN_REPORT (R103). -/
def execSignReport (node : NodeId) (ready : Bool) (payload : List Byte) (s : State) : Result :=
  .next (perform (.signReport node ready payload) (effSignReport node ready payload) s)

/-- SIGN_NODE_LOST (R104). -/
def execSignNodeLost (node : NodeId) (s : State) : Result :=
  .next (perform (.signNodeLost node) (effSignNodeLost node) s)

/-- SIGN_NODE_RESET (R104). -/
def execSignNodeReset (node : NodeId) (s : State) : Result :=
  .next (perform (.signNodeReset node) (effSignNodeReset node) s)

/-! ### Lighting groups -/

/-- PRESENCE_TRIGGER (R113). -/
def execPresenceTrigger (source : PresenceSource) (s : State) : Result :=
  .next (perform (.presenceTrigger source) (effPresenceTrigger source) s)

/-- ESCORT (R115). -/
def execEscort (sign : Nat) (s : State) : Result :=
  .next (perform (.escort sign) (effEscort sign) s)

/-- PRESENCE_EXPIRY (R114). -/
def execPresenceExpiry (group : Nat) (s : State) : Result :=
  .next (perform (.presenceExpiry group) (effPresenceExpiry group) s)

/-- LAMP_WRITE_OUTCOME (R117). -/
def execLampWriteOutcome (node : NodeId) (accepted : Bool) (s : State) : Result :=
  .next (perform (.lampWriteOutcome node accepted) (effLampWriteOutcome node accepted) s)

/-- LAMP_REPORT (R118). -/
def execLampReport (node : NodeId) (ready : Bool) (payload : List Byte) (s : State) : Result :=
  .next (perform (.lampReport node ready payload) (effLampReport node ready payload) s)

/-- LAMP_NODE_LOST (R119). -/
def execLampNodeLost (node : NodeId) (s : State) : Result :=
  .next (perform (.lampNodeLost node) (effLampNodeLost node) s)

/-- LAMP_NODE_RESET (R119). -/
def execLampNodeReset (node : NodeId) (s : State) : Result :=
  .next (perform (.lampNodeReset node) (effLampNodeReset node) s)

/-- LAMP_NODE_RETURN (R119). -/
def execLampNodeReturn (node : NodeId) (s : State) : Result :=
  .next (perform (.lampNodeReturn node) (effLampNodeReturn node) s)

/-! ### The scan list -/

/-- LIST_OUTCOME (R149). -/
def execListOutcome (outcome : ListOutcome) (s : State) : Result :=
  .next (perform (.listOutcome outcome) (effListOutcome outcome) s)

/-- PAUSE_EXPIRY (R148). -/
def execPauseExpiry (s : State) : Result :=
  .next (perform .pauseExpiry effPauseExpiry s)

/-- REPEAT_LIMIT_EXPIRY (R154). -/
def execRepeatLimitExpiry (s : State) : Result :=
  .next (perform .repeatLimitExpiry effRepeatLimitExpiry s)

end Sys2Proof.Machine
end

