-- ==== Sys2Proof/Machine/Dispatch.lean ====
section
/-! DEFINITION. The dispatch: one arm for each command. -/

namespace Sys2Proof.Machine

def exec (i : Instr) (s : State) : Host.Outcome State Fault Refusal :=
  match i with
  | .ident tag body => Sys2Proof.Machine.execIdent tag body s
  | .ping tag body => Sys2Proof.Machine.execPing tag body s
  | .login tag body => Sys2Proof.Machine.execLogin tag body s
  | .logout tag body => Sys2Proof.Machine.execLogout tag body s
  | .setItem tag body => Sys2Proof.Machine.execSetItem tag body s
  | .getItem tag body => Sys2Proof.Machine.execGetItem tag body s
  | .save tag body => Sys2Proof.Machine.execSave tag body s
  | .defaults tag body => Sys2Proof.Machine.execDefaults tag body s
  | .headDef tag body => Sys2Proof.Machine.execHeadDef tag body s
  | .headCal tag body => Sys2Proof.Machine.execHeadCal tag body s
  | .gasQuery tag body => Sys2Proof.Machine.execGasQuery tag body s
  | .zoneDef tag body => Sys2Proof.Machine.execZoneDef tag body s
  | .zoneLimits tag body => Sys2Proof.Machine.execZoneLimits tag body s
  | .zoneClose tag body => Sys2Proof.Machine.execZoneClose tag body s
  | .zoneOpen tag body => Sys2Proof.Machine.execZoneOpen tag body s
  | .zoneQuery tag body => Sys2Proof.Machine.execZoneQuery tag body s
  | .fanDef tag body => Sys2Proof.Machine.execFanDef tag body s
  | .planDef tag body => Sys2Proof.Machine.execPlanDef tag body s
  | .planBase tag body => Sys2Proof.Machine.execPlanBase tag body s
  | .planForce tag body => Sys2Proof.Machine.execPlanForce tag body s
  | .planUnforce tag body => Sys2Proof.Machine.execPlanUnforce tag body s
  | .fanHold tag body => Sys2Proof.Machine.execFanHold tag body s
  | .fanFree tag body => Sys2Proof.Machine.execFanFree tag body s
  | .fanClear tag body => Sys2Proof.Machine.execFanClear tag body s
  | .fanQuery tag body => Sys2Proof.Machine.execFanQuery tag body s
  | .bayDef tag body => Sys2Proof.Machine.execBayDef tag body s
  | .bayService tag body => Sys2Proof.Machine.execBayService tag body s
  | .bayQuery tag body => Sys2Proof.Machine.execBayQuery tag body s
  | .countQuery tag body => Sys2Proof.Machine.execCountQuery tag body s
  | .rampDef tag body => Sys2Proof.Machine.execRampDef tag body s
  | .signDef tag body => Sys2Proof.Machine.execSignDef tag body s
  | .signQuery tag body => Sys2Proof.Machine.execSignQuery tag body s
  | .groupDef tag body => Sys2Proof.Machine.execGroupDef tag body s
  | .groupOverride tag body => Sys2Proof.Machine.execGroupOverride tag body s
  | .groupRelease tag body => Sys2Proof.Machine.execGroupRelease tag body s
  | .groupQuery tag body => Sys2Proof.Machine.execGroupQuery tag body s
  | .siteMode tag body => Sys2Proof.Machine.execSiteMode tag body s
  | .nodeDef tag body => Sys2Proof.Machine.execNodeDef tag body s
  | .nodeQuery tag body => Sys2Proof.Machine.execNodeQuery tag body s
  | .loopReset tag body => Sys2Proof.Machine.execLoopReset tag body s
  | .listLoad tag body => Sys2Proof.Machine.execListLoad tag body s
  | .listGo tag body => Sys2Proof.Machine.execListGo tag body s
  | .listHalt tag body => Sys2Proof.Machine.execListHalt tag body s
  | .listRead tag body => Sys2Proof.Machine.execListRead tag body s
  | .listQuery tag body => Sys2Proof.Machine.execListQuery tag body s
  | .foundRead tag body => Sys2Proof.Machine.execFoundRead tag body s
  | .unknownKind kind tag body => Sys2Proof.Machine.execUnknownKind kind tag body s
  | .frameDropped kind tag body => Sys2Proof.Machine.execFrameDropped kind tag body s
  | .receiveByte byte stopBit gap => Sys2Proof.Machine.execReceiveByte byte stopBit gap s
  | .frameSent => Sys2Proof.Machine.execFrameSent s
  | .supervisionExpiry => Sys2Proof.Machine.execSupervisionExpiry s
  | .supervisionExpiryLighting => Sys2Proof.Machine.execSupervisionExpiryLighting s
  | .supervisionExpiryFans => Sys2Proof.Machine.execSupervisionExpiryFans s
  | .powerOn lines => Sys2Proof.Machine.execPowerOn lines s
  | .restart lines => Sys2Proof.Machine.execRestart lines s
  | .saveCompletion readBack => Sys2Proof.Machine.execSaveCompletion readBack s
  | .attentionAsserted loop => Sys2Proof.Machine.execAttentionAsserted loop s
  | .attentionIgnoreExpiry loop => Sys2Proof.Machine.execAttentionIgnoreExpiry loop s
  | .replyReceived reply lines => Sys2Proof.Machine.execReplyReceived reply lines s
  | .replyTimeout lines => Sys2Proof.Machine.execReplyTimeout lines s
  | .rollcallEnd mask lines => Sys2Proof.Machine.execRollcallEnd mask lines s
  | .gasReading node ready payload => Sys2Proof.Machine.execGasReading node ready payload s
  | .staleExpiry head gas => Sys2Proof.Machine.execStaleExpiry head gas s
  | .gasNodeLost node => Sys2Proof.Machine.execGasNodeLost node s
  | .gasNodeReset node => Sys2Proof.Machine.execGasNodeReset node s
  | .gasUpdate zone update more => Sys2Proof.Machine.execGasUpdate zone update more s
  | .trafficEvent zone => Sys2Proof.Machine.execTrafficEvent zone s
  | .subWindowExpiry => Sys2Proof.Machine.execSubWindowExpiry s
  | .standingChange zone ramp standing => Sys2Proof.Machine.execStandingChange zone ramp standing s
  | .unventilatedFlagChange zone flag => Sys2Proof.Machine.execUnventilatedFlagChange zone flag s
  | .siteModeFloorChange mode => Sys2Proof.Machine.execSiteModeFloorChange mode s
  | .zoneChangeFan change => Sys2Proof.Machine.execZoneChangeFan change s
  | .zoneChangeGuidance zone closed => Sys2Proof.Machine.execZoneChangeGuidance zone closed s
  | .zoneChangeLighting zone inAlarm => Sys2Proof.Machine.execZoneChangeLighting zone inAlarm s
  | .driveReport node ready payload => Sys2Proof.Machine.execDriveReport node ready payload s
  | .startSpacingExpiry => Sys2Proof.Machine.execStartSpacingExpiry s
  | .startTimeout fan => Sys2Proof.Machine.execStartTimeout fan s
  | .speedupTimeout fan => Sys2Proof.Machine.execSpeedupTimeout fan s
  | .minimumRunTimeMet fan => Sys2Proof.Machine.execMinimumRunTimeMet fan s
  | .holdTimeExpiry fan => Sys2Proof.Machine.execHoldTimeExpiry fan s
  | .rundownEnd fan => Sys2Proof.Machine.execRundownEnd fan s
  | .exerciseDue fan => Sys2Proof.Machine.execExerciseDue fan s
  | .exerciseRunEnd fan => Sys2Proof.Machine.execExerciseRunEnd fan s
  | .runMinute fan => Sys2Proof.Machine.execRunMinute fan s
  | .fanNodeLost node => Sys2Proof.Machine.execFanNodeLost node s
  | .fanNodeRestart node => Sys2Proof.Machine.execFanNodeRestart node s
  | .fanNodeReset node => Sys2Proof.Machine.execFanNodeReset node s
  | .bayStripReading node ready payload => Sys2Proof.Machine.execBayStripReading node ready payload s
  | .bayNodeLost node => Sys2Proof.Machine.execBayNodeLost node s
  | .bayNodeReset node => Sys2Proof.Machine.execBayNodeReset node s
  | .bayNodeRestart node => Sys2Proof.Machine.execBayNodeRestart node s
  | .rampReading node ready payload => Sys2Proof.Machine.execRampReading node ready payload s
  | .rampNodeLost node => Sys2Proof.Machine.execRampNodeLost node s
  | .rampNodeReset node => Sys2Proof.Machine.execRampNodeReset node s
  | .countDelivery zone cls count => Sys2Proof.Machine.execCountDelivery zone cls count s
  | .signReport node ready payload => Sys2Proof.Machine.execSignReport node ready payload s
  | .signNodeLost node => Sys2Proof.Machine.execSignNodeLost node s
  | .signNodeReset node => Sys2Proof.Machine.execSignNodeReset node s
  | .presenceTrigger source => Sys2Proof.Machine.execPresenceTrigger source s
  | .escort sign => Sys2Proof.Machine.execEscort sign s
  | .presenceExpiry group => Sys2Proof.Machine.execPresenceExpiry group s
  | .lampWriteOutcome node accepted => Sys2Proof.Machine.execLampWriteOutcome node accepted s
  | .lampReport node ready payload => Sys2Proof.Machine.execLampReport node ready payload s
  | .lampNodeLost node => Sys2Proof.Machine.execLampNodeLost node s
  | .lampNodeReset node => Sys2Proof.Machine.execLampNodeReset node s
  | .lampNodeReturn node => Sys2Proof.Machine.execLampNodeReturn node s
  | .listOutcome outcome => Sys2Proof.Machine.execListOutcome outcome s
  | .pauseExpiry => Sys2Proof.Machine.execPauseExpiry s
  | .repeatLimitExpiry => Sys2Proof.Machine.execRepeatLimitExpiry s

end Sys2Proof.Machine
end

