-- ==== Sys2Proof/Machine/Time.lean ====
section
/-! DEFINITION. What the part does when no command waits: it takes what its blocks handed each other, then the timers that
have run out, one event at a time, and otherwise the clock goes on by 1 ms (log 3). -/

namespace Sys2Proof.Machine

/-- A command where its time has come. -/
def whenTrue (b : Bool) (c : Instr) : List Instr := if b then [c] else []

/-- The expiries due of a head's two channels (R12). -/
def State.dueHead (s : State) (i : Nat) (h : Head) : List Instr :=
  whenTrue (h.co.staleDue s.now s.items.staleTime) (.staleExpiry i .co)
    ++ whenTrue (h.no2.staleDue s.now s.items.staleTime) (.staleExpiry i .no2)

/-- The timer events due of a fan (R55, R57, R60, R61, R64, R65). -/
def State.dueFan (s : State) (i : Nat) (f : Fan) : List Instr :=
  whenTrue (f.startTimeoutDue s.now s.items.startTimeout) (.startTimeout i)
    ++ whenTrue (f.speedupTimeoutDue s.now s.items.startTimeout) (.speedupTimeout i)
    ++ whenTrue (f.minuteDue s.now) (.runMinute i)
    ++ whenTrue (f.minimumRunDue s.now s.items.minimumRun) (.minimumRunTimeMet i)
    ++ whenTrue (f.holdDue s.now s.items.holdTime) (.holdTimeExpiry i)
    ++ whenTrue (f.rundownDue s.now) (.rundownEnd i)
    ++ whenTrue (f.exerciseEndDue s.now s.items.exerciseRun) (.exerciseRunEnd i)
    ++ whenTrue (f.exerciseDue s.now s.items.exerciseInterval) (.exerciseDue i)

/-- The timer events due at the present clock, in the order in which the model takes them (log 3); no command tells the level
of an attention line at the end of IGNORED, which is free (log 6). -/
def State.due (s : State) : List Instr :=
  whenTrue s.supervisionDue .supervisionExpiry
    ++ List.flatMap (fun e : Nat × Head => s.dueHead e.1 e.2) s.gas.heads
    ++ whenTrue s.subWindowDue .subWindowExpiry
    ++ whenTrue s.spacingDue .startSpacingExpiry
    ++ List.flatMap (fun e : Nat × Fan => s.dueFan e.1 e.2) s.fans.fans
    ++ List.flatMap (fun e : Nat × Group => whenTrue (e.2.presenceDue s.now) (.presenceExpiry e.1)) s.light.groups
    ++ loopList.flatMap (fun l => whenTrue (s.ignoreDue l) (.attentionIgnoreExpiry ⟨l, s.freeLevel l⟩))
    ++ whenTrue s.pauseDue .pauseExpiry
    ++ whenTrue s.limitDue .repeatLimitExpiry

/-- The clock goes on by 1 ms. -/
def State.tick (s : State) : State := settle { s with clockMs := s.clockMs + 1 }

/-- What an empty queue lets the part do (log 3). -/
def idle (s : State) : State :=
  match s.handed with
  | _ :: _ => takeHanded s
  | [] =>
    match s.due with
    | c :: _ => perform c (effect c) s
    | [] => s.tick

end Sys2Proof.Machine
end

