-- ==== Sys2Proof/Safety.lean ====
section
/-! DEFINITION. What counts as a sound state and a safe run, in the terms the statements use. -/

namespace Sys2Proof.Machine

/-! ### Capacities -/

/-- The capacities of the part: at most 4 replies wait (R166), at most 32 urgent entries with at most one per node (R137),
each subject at most once in the note set (R169), and list memory holds 256 entries (R146). -/
structure Capacities (s : State) : Prop where
  replies : s.port.replies.length ≤ Config.replyCapacity
  urgent : s.loops.urgent.length ≤ Config.urgentCapacity
  urgentOnce : s.loops.urgent.Nodup
  notesOnce : s.port.notes.Nodup
  memory : s.list.memory.length = Config.listEntries

/-! ### The supply -/

/-- The order of a fan's loads that every accepted definition has (R71): low at most start, low at most high. -/
def FanDefn.ordered (d : FanDefn) : Bool := decide (d.lowLoad ≤ d.startLoad) && decide (d.lowLoad ≤ d.highLoad)

/-- The sum of the counted loads of all fans (R42). -/
def countedLoads (fans : Table Fan) : Nat := (List.map (fun e : Nat × Fan => e.2.load) fans).sum

/-- A fan that holds the start slot: STARTING, or with a speed-up in flight (R53). -/
def Fan.holdsSlot (f : Fan) : Bool := f.state == .starting || f.speedup

/-- How many fans hold the start slot. -/
def slotHolders (fans : Table Fan) : Nat := (List.filter (fun e : Nat × Fan => e.2.holdsSlot) fans).length

/-- The supply is sound: the supply account is the sum of the counted loads of all fans (R42) and at most the supply limit
(R53, R56), at most one fan holds the start slot (R53), and the loads of every definition are ordered (R71). -/
structure SupplySound (s : State) : Prop where
  table : Table.wf s.fans.fans = true
  ordered : ∀ i f, s.fan i = some f → f.defn.ordered = true
  account : s.fans.account = countedLoads s.fans.fans
  limit : s.fans.account ≤ s.items.supplyLimit
  slot : slotHolders s.fans.fans ≤ 1

/-! ### The alarm order list -/

/-- The zone air is sound: the zone table keeps its form, and the alarm order list holds exactly the defined zones in gas
alarm, each once (R24). -/
structure AlarmOrderSound (a : ZoneAir) : Prop where
  table : Table.wf a.zones = true
  once : a.alarmOrder.Nodup
  exact : ∀ i, i ∈ a.alarmOrder ↔ ∃ z, a.zones.get i = some z ∧ z.inAlarm = true

/-! ### The bay counts -/

/-- How many bays of a table are of a zone, a class and a state. -/
def bayTally (bays : Table Bay) (z : Nat) (c : BayClass) (st : BayState) : Nat :=
  (List.filter
    (fun e : Nat × Bay => decide (e.2.defn.zone = z) && decide (e.2.defn.cls = c) && decide (e.2.state = st)) bays).length

/-- The counts are sound: the bay table keeps its form, and each zone's count of each class and state is the number of its
bays of that class in that state (R82). -/
structure CountsSound (o : Occupancy) : Prop where
  table : Table.wf o.bays = true
  exact : ∀ z c st, (((o.counts.get z).getD noCounts).get c).get st = bayTally o.bays z c st

/-! ### The outputs and the node table -/

/-- The guidance is sound: the sign table keeps its form, the view has an entry for each zone, and every display record is the
one its definition and the view give (R97, R98, R99, R102). -/
structure GuideSound (g : Guidance) : Prop where
  table : Table.wf g.signs = true
  view : g.view.length = Config.zones
  agree : ∀ i x, g.signs.get i = some x → x.display = displayOf g.view x.defn x.display.lastChange

/-- The lighting is sound: the group table keeps its form, and the zone alarm view has an entry for each zone (R110). -/
structure LightSound (l : Lighting) : Prop where
  table : Table.wf l.groups = true
  view : l.zoneAlarm.length = Config.zones

/-- The node table is sound: it keeps its form, and its entries are of the 124 places (R127). -/
structure NodesSound (m : LoopMaster) : Prop where
  table : Table.wf m.nodes = true
  places : ∀ i x, m.nodes.get i = some x → i < Config.nodes

/-! ### Saved settings -/

/-- Saved settings are sound: their tables keep their form, their fans' loads are ordered, their nodes are of the 124 places,
and their list memory holds 256 entries. -/
structure SettingsSound (c : Settings) : Prop where
  fans : Table.wf c.fans = true
  ordered : ∀ i x, Table.get c.fans i = some x → x.defn.ordered = true
  zones : Table.wf c.zones = true
  bays : Table.wf c.bays = true
  signs : Table.wf c.signs = true
  groups : Table.wf c.groups = true
  nodes : Table.wf c.nodes = true
  places : ∀ i x, Table.get c.nodes i = some x → i < Config.nodes
  memory : c.list.length = Config.listEntries

/-- What the store keeps is sound: the snapshot of a SAVE, and a stored image that passes its check (R177, R180). -/
structure SavedSound (x : Store) : Prop where
  snapshot : ∀ c, x.snapshot = some c → SettingsSound c
  image : ∀ c, x.image.contents = some c → SettingsSound c

/-! ### Requests, as the statements speak of them -/

/-- A request of a least level is taken on its merits: nothing handed waits, fewer than 4 replies wait (R166), and the
present level reaches it (R173). -/
structure Admits (least : Access) (s : State) : Prop where
  handed : s.handed = []
  room : s.port.replies.length < 4
  level : accessCode least ≤ accessCode s.port.access

/-- A request accepted over the records `t`: DONE with its tag and its CLAMPED flag joins the reply queue (R166, R185), and
the engine and the transmitter go on. -/
def State.done (tag : Byte) (clamped : Bool) (t : State) : State :=
  settle (t.reply { kind := 0x80, tag := tag, body := [if clamped then 1 else 0], newRate := none })

/-- A query answered over the records `t`: DATA with its tag joins the reply queue (R166, R185). -/
def State.told (tag : Byte) (data : List Byte) (t : State) : State :=
  settle (t.reply { kind := 0x81, tag := tag, body := data, newRate := none })

/-- A request refused over the records `t`: REFUSED with its tag and its code joins the reply queue (R166, R185). -/
def State.turnedAway (tag : Byte) (c : RefusalCode) (t : State) : State :=
  settle (t.reply { kind := 0x82, tag := tag, body := [BitVec.ofNat 8 (refusalCode c)], newRate := none })

/-- Mark a subject when a condition holds (R169). -/
def State.markWhen (b : Bool) (x : Subject) (s : State) : State := if b then s.mark x else s

/-! ### Safe runs -/

/-- A sound state. -/
structure Sound (s : State) : Prop where
  capacities : Capacities s
  supply : SupplySound s
  alarmOrder : AlarmOrderSound s.air
  counts : CountsSound s.occ
  guide : GuideSound s.guide
  light : LightSound s.light
  nodes : NodesSound s.loops
  saved : SavedSound s.store

/-- A safe outcome: the part goes on, in a sound state. -/
def safe : Host.Outcome State Fault Refusal → Prop
  | .next t => Sound t
  | .fault _ => False
  | .refused _ => False

end Sys2Proof.Machine
end

