-- ==== Sys2Proof/WellFormed.lean ====
section
/-! DEFINITION. Well-formed commands: the operands each command can carry where it comes from. A frame's body has at most 240
bytes (R164), an event names numbers and places of the manual's ranges, and a reading has the length of its role (11.5). -/

namespace Sys2Proof

open Machine

/-- What an ill-formed command breaks. -/
inductive Check where
  /-- A frame's body of more than 240 bytes (R164). -/
  | bodyLength
  /-- An unknown kind that is a request kind (R166). -/
  | kindKnown
  /-- A node address that is not 1 to 31 (R127). -/
  | address
  /-- A head that is not 0 to 47 (R1). -/
  | head
  /-- A zone that is not 0 to 23 (R21). -/
  | zone
  /-- A fan that is not 0 to 47 (R41). -/
  | fan
  /-- A bay that is not 0 to 2047 (R76). -/
  | bay
  /-- A ramp that is not 0 to 31 (R89). -/
  | ramp
  /-- A sign that is not 0 to 63 (R95). -/
  | sign
  /-- A lighting group that is not 0 to 191 (R109). -/
  | group
  /-- A reply of no bytes: no reply begins (R128). -/
  | replyEmpty
  /-- A roll-call mask with bit 0 set: no node has address 0 (R127, R134). -/
  | mask
  /-- A reading whose payload is not that of its role (R186, 11.5). -/
  | payload
  /-- A smoothed value above 65535 (R2). -/
  | value
  /-- A demand above 100 (R31). -/
  | demand
  /-- A count of more bays than there are (R76). -/
  | count
  /-- A role code above 7: the status byte has three bits for it (11.5). -/
  | roleCode
deriving DecidableEq, Repr

/-- The check of a frame's body. -/
def checkBody (body : List Byte) : List (Check × Bool) := [(.bodyLength, decide (body.length ≤ 240))]

/-- The check of a node's place. -/
def checkNode (n : NodeId) : List (Check × Bool) := [(.address, addrOk n.addr)]

/-- The checks of a reading: its place, and its payload. -/
def checkReading (n : NodeId) (role : Role) (payload : List Byte) : List (Check × Bool) :=
  checkNode n ++ [(.payload, decide (payload.length = readLength (roleCode role)))]

/-- The check of a number below a bound. -/
def checkBelow (c : Check) (bound n : Nat) : List (Check × Bool) := [(c, decide (n < bound))]

/-- A head's part of an update: the head and the values of its entry. -/
def checkUpdate (u : HeadUpdate) : List (Check × Bool) :=
  checkBelow .head Config.heads u.head
    ++ (match u.entry with
        | some e => checkBelow .value 65536 e.coValue ++ checkBelow .value 65536 e.no2Value
        | none => [])

/-- The checks of a command, in order; each with whether it holds. -/
def checks : Instr → List (Check × Bool)
  | .ident _ body => checkBody body
  | .ping _ body => checkBody body
  | .login _ body => checkBody body
  | .logout _ body => checkBody body
  | .setItem _ body => checkBody body
  | .getItem _ body => checkBody body
  | .save _ body => checkBody body
  | .defaults _ body => checkBody body
  | .headDef _ body => checkBody body
  | .headCal _ body => checkBody body
  | .gasQuery _ body => checkBody body
  | .zoneDef _ body => checkBody body
  | .zoneLimits _ body => checkBody body
  | .zoneClose _ body => checkBody body
  | .zoneOpen _ body => checkBody body
  | .zoneQuery _ body => checkBody body
  | .fanDef _ body => checkBody body
  | .planDef _ body => checkBody body
  | .planBase _ body => checkBody body
  | .planForce _ body => checkBody body
  | .planUnforce _ body => checkBody body
  | .fanHold _ body => checkBody body
  | .fanFree _ body => checkBody body
  | .fanClear _ body => checkBody body
  | .fanQuery _ body => checkBody body
  | .bayDef _ body => checkBody body
  | .bayService _ body => checkBody body
  | .bayQuery _ body => checkBody body
  | .countQuery _ body => checkBody body
  | .rampDef _ body => checkBody body
  | .signDef _ body => checkBody body
  | .signQuery _ body => checkBody body
  | .groupDef _ body => checkBody body
  | .groupOverride _ body => checkBody body
  | .groupRelease _ body => checkBody body
  | .groupQuery _ body => checkBody body
  | .siteMode _ body => checkBody body
  | .nodeDef _ body => checkBody body
  | .nodeQuery _ body => checkBody body
  | .loopReset _ body => checkBody body.bytes
  | .listLoad _ body => checkBody body
  | .listGo _ body => checkBody body
  | .listHalt _ body => checkBody body
  | .listRead _ body => checkBody body
  | .listQuery _ body => checkBody body
  | .foundRead _ body => checkBody body
  | .unknownKind kind tag body => checkBody body ++ [(.kindKnown, (requestOf kind.toNat tag body ⟨false, false, false, false⟩).isNone)]
  | .frameDropped _ _ body => checkBody body
  | .receiveByte _ _ _ => []
  | .frameSent => []
  | .supervisionExpiry => []
  | .supervisionExpiryLighting => []
  | .supervisionExpiryFans => []
  | .powerOn _ => []
  | .restart _ => []
  | .saveCompletion _ => []
  | .attentionAsserted _ => []
  | .attentionIgnoreExpiry _ => []
  | .replyReceived reply _ => [(.replyEmpty, !reply.isEmpty)]
  | .replyTimeout _ => []
  | .rollcallEnd mask _ => [(.mask, !mask.getLsbD 0)]
  | .gasReading n _ payload => checkReading n .gas payload
  | .staleExpiry head _ => checkBelow .head Config.heads head
  | .gasNodeLost n => checkNode n
  | .gasNodeReset n => checkNode n
  | .gasUpdate zone update more => checkBelow .zone Config.zones zone ++ (update :: more).flatMap checkUpdate
  | .trafficEvent zone => checkBelow .zone Config.zones zone
  | .subWindowExpiry => []
  | .standingChange zone ramp _ => checkBelow .zone Config.zones zone ++ checkBelow .ramp Config.ramps ramp
  | .unventilatedFlagChange zone _ => checkBelow .zone Config.zones zone
  | .siteModeFloorChange _ => []
  | .zoneChangeFan c =>
    checkBelow .zone Config.zones c.zone ++ (match c.demand with | some d => checkBelow .demand 101 d | none => [])
  | .zoneChangeGuidance zone _ => checkBelow .zone Config.zones zone
  | .zoneChangeLighting zone _ => checkBelow .zone Config.zones zone
  | .driveReport n _ payload => checkReading n .fan payload
  | .startSpacingExpiry => []
  | .startTimeout fan => checkBelow .fan Config.fans fan
  | .speedupTimeout fan => checkBelow .fan Config.fans fan
  | .minimumRunTimeMet fan => checkBelow .fan Config.fans fan
  | .holdTimeExpiry fan => checkBelow .fan Config.fans fan
  | .rundownEnd fan => checkBelow .fan Config.fans fan
  | .exerciseDue fan => checkBelow .fan Config.fans fan
  | .exerciseRunEnd fan => checkBelow .fan Config.fans fan
  | .runMinute fan => checkBelow .fan Config.fans fan
  | .fanNodeLost n => checkNode n
  | .fanNodeRestart n => checkNode n
  | .fanNodeReset n => checkNode n
  | .bayStripReading n _ payload => checkReading n .bay payload
  | .bayNodeLost n => checkNode n
  | .bayNodeReset n => checkNode n
  | .bayNodeRestart n => checkNode n
  | .rampReading n _ payload => checkReading n .ramp payload
  | .rampNodeLost n => checkNode n
  | .rampNodeReset n => checkNode n
  | .countDelivery zone _ count => checkBelow .zone Config.zones zone ++ checkBelow .count (Config.bays + 1) count
  | .signReport n _ payload => checkReading n .sign payload
  | .signNodeLost n => checkNode n
  | .signNodeReset n => checkNode n
  | .presenceTrigger (.bay b) => checkBelow .bay Config.bays b
  | .presenceTrigger (.ramp r) => checkBelow .ramp Config.ramps r
  | .escort sign => checkBelow .sign Config.signs sign
  | .presenceExpiry group => checkBelow .group Config.groups group
  | .lampWriteOutcome n _ => checkNode n
  | .lampReport n _ payload => checkReading n .lamp payload
  | .lampNodeLost n => checkNode n
  | .lampNodeReset n => checkNode n
  | .lampNodeReturn n => checkNode n
  | .listOutcome o => (match o.role with | some r => checkBelow .roleCode 8 r | none => [])
  | .pauseExpiry => []
  | .repeatLimitExpiry => []

/-- The first check an ill-formed command fails; `none` for a well-formed one. -/
def illFormed (c : Instr) : Option Check := ((checks c).find? fun p => !p.2).map Prod.fst

/-- A well-formed command. -/
def wellFormed (c : Instr) : Bool := (illFormed c).isNone

end Sys2Proof
end

