-- ==== Sys2Proof/Certificates/Slice0/Obligations.lean ====
section
/-! DEFINITION. The statements for the provers, unit by unit in the order of the spec's chapters, and the part as a whole. -/

open Sys2Proof Sys2Proof.Machine

/-! ## The Gas Conversion Unit -/

/-- R5: each intermediate range of the table, the clamp on both sides, the value, and the bound of the value. -/
def Obligations.GasConversionFollowsTheFiveSteps : Prop :=
  ∀ (c : Calibration) (raw gain : Nat) (offset : Int) (shift : Nat),
    raw ≤ 4095 → gain ≤ 65535 → -32768 ≤ offset → offset ≤ 32767 → shift ≤ 7 →
    c.fine raw = convert raw c.fineGain c.fineOffset c.shift
    ∧ c.coarse raw = convert raw c.coarseGain c.coarseOffset c.shift
    ∧ raw * gain ≤ 268365825
    ∧ raw * gain / 4096 ≤ 65519
    ∧ -32768 ≤ (raw * gain / 4096 : Nat) + offset
    ∧ (raw * gain / 4096 : Nat) + offset ≤ 98286
    ∧ ((raw * gain / 4096 : Nat) + offset < 0 → convert raw gain offset shift = 0)
    ∧ (0 ≤ (raw * gain / 4096 : Nat) + offset → (raw * gain / 4096 : Nat) + offset ≤ 65535 →
        (convert raw gain offset shift : Int) = ((raw * gain / 4096 : Nat) + offset) / 2 ^ shift)
    ∧ (65535 < (raw * gain / 4096 : Nat) + offset → convert raw gain offset shift = 65535 / 2 ^ shift)
    ∧ convert raw gain offset shift ≤ 65535 / 2 ^ shift

/-- R6 and R7: when a channel leaves its range, and which count gives the result; the comparison with X − Y is made on
signed integers. R9: the new smoothed value, between the old one and the reading; it equals the reading at exponent 0
and rests within 2^a − 1 of it. -/
def Obligations.GasRangeSelectionAndSmoothing : Prop :=
  (∀ (c : Calibration) (fine coarse : Nat), fine ≤ 4095 → coarse ≤ 4095 →
    selectRange c .fine fine coarse
      = (if fine = 4095 ∨ c.crossover ≤ c.fine fine then (.coarse, c.coarse coarse) else (.fine, c.fine fine))
    ∧ selectRange c .coarse fine coarse
      = (if 0 < (c.crossover : Int) - c.hysteresis ∧ (c.coarse coarse : Int) < (c.crossover : Int) - c.hysteresis
            ∧ fine < 4095 then
          (.fine, c.fine fine)
        else (.coarse, c.coarse coarse))
    ∧ (c.crossover = 0 → (selectRange c .fine fine coarse).1 = .coarse)
    ∧ (c.crossover ≤ c.hysteresis → (selectRange c .coarse fine coarse).1 = .coarse))
  ∧ ∀ (a m v : Nat),
    smooth true a m v = v
    ∧ (m ≤ v → smooth false a m v = m + (v - m) / 2 ^ a)
    ∧ (v < m → smooth false a m v = m - (m - v) / 2 ^ a)
    ∧ min m v ≤ smooth false a m v ∧ smooth false a m v ≤ max m v
    ∧ smooth false 0 m v = v
    ∧ (smooth false a m v = m ↔ m < v + 2 ^ a ∧ v < m + 2 ^ a)

/-- R3, R4, R13: a READY reading of a defined head converts and smooths both channels and hands one update; the zone is
marked when a validity changed. That an update is handed at every fresh reading is the model's reading (log 33). -/
def Obligations.GasReadingReadyTakesBothChannels : Prop :=
  ∀ (s : State) (n : NodeId) (i : Nat) (h : Head) (a1 a0 b1 b0 c1 c0 d1 d0 : Byte),
    s.handed = [] → s.headOf n = some i → s.gas.heads.get i = some h →
    let co := selectRange h.defn.co h.co.range (min (nat16 a1 a0) 4095) (min (nat16 b1 b0) 4095)
    let no2 := selectRange h.defn.no2 h.no2.range (min (nat16 c1 c0) 4095) (min (nat16 d1 d0) 4095)
    let coM := smooth h.co.seedPending h.defn.exponent h.co.smoothed co.2
    let no2M := smooth h.no2.seedPending h.defn.exponent h.no2.smoothed no2.2
    let marked := s.markWhen (h.co.validity != .valid || h.no2.validity != .valid) (.zone h.defn.zone)
    exec (.gasReading n true [1, a1, a0, b1, b0, c1, c0, d1, d0]) s
      = .next (settle
          { marked with
            gas :=
              { heads := s.gas.heads.put i
                  { h with
                    lastStatus := some .ready
                    co :=
                      { range := co.1, validity := .valid, cause := none, seedPending := false
                        rawFine := min (nat16 a1 a0) 4095, rawCoarse := min (nat16 b1 b0) 4095
                        value := co.2, smoothed := coM, lastFresh := some s.now }
                    no2 :=
                      { range := no2.1, validity := .valid, cause := none, seedPending := false
                        rawFine := min (nat16 c1 c0) 4095, rawCoarse := min (nat16 d1 d0) 4095
                        value := no2.2, smoothed := no2M, lastFresh := some s.now } } }
            handed := [.gasUpdate h.defn.zone ⟨i, some ⟨.valid, coM, .valid, no2M⟩⟩ []] })

/-- R8, R10, R11, R12, R14: what a WARMING or a FAULT reading, the stale time, the loss of the node and a LOOP-RESET
do to a head's channels: the validity, the cause, the seed pending mark and the last fresh time; the range, the
counts, the value and the smoothed value stay. A reading with READY clear, or from a node that no head names, changes
nothing. When an update is handed is the model's reading (log 33), and that an event of no record (log 25) and a
STALE_EXPIRY before its time (log 3) change nothing are its choices. -/
def Obligations.GasValidityFollowsTheEvents : Prop :=
  ∀ (s : State) (n : NodeId) (i : Nat) (h : Head) (payload : List Byte),
    s.handed = [] → payload.length = 8 →
    exec (.gasReading n false (1 :: payload)) s = .next (settle s)
    ∧ (s.headOf n = none → exec (.gasReading n true (1 :: payload)) s = .next (settle s))
    ∧ (s.headOf n = some i → s.gas.heads.get i = some h →
        let after (co no2 : ChannelRun) (status : Option HeadStatus) : State :=
          { s.markWhen (h.co.validity != co.validity || h.no2.validity != no2.validity) (.zone h.defn.zone) with
            gas := { heads := s.gas.heads.put i { h with lastStatus := status, co := co, no2 := no2 } }
            handed := [.gasUpdate h.defn.zone ⟨i, some ⟨co.validity, co.smoothed, no2.validity, no2.smoothed⟩⟩ []] }
        exec (.gasReading n true (0 :: payload)) s
          = .next (settle (after
              { h.co with validity := .warming, cause := none, lastFresh := some s.now }
              { h.no2 with validity := .warming, cause := none, lastFresh := some s.now } (some .warming)))
        ∧ (∀ code : Byte, 2 ≤ code.toNat →
            exec (.gasReading n true (code :: payload)) s
              = .next (settle (after
                  { h.co with validity := .fault, cause := some .head, seedPending := true, lastFresh := some s.now }
                  { h.no2 with validity := .fault, cause := some .head, seedPending := true, lastFresh := some s.now }
                  (some .fault))))
        ∧ exec (.gasNodeLost n) s
          = .next (settle (after
              { h.co with validity := .fault, cause := some .link, seedPending := true }
              { h.no2 with validity := .fault, cause := some .link, seedPending := true } h.lastStatus))
        ∧ exec (.gasNodeReset n) s
          = .next (settle (after
              { h.co with validity := .noData, cause := none, seedPending := true, lastFresh := none }
              { h.no2 with validity := .noData, cause := none, seedPending := true, lastFresh := none } h.lastStatus)))
    ∧ (∀ t : Nat, s.gas.heads.get i = some h → h.co.validity = .valid ∨ h.co.validity = .warming →
        h.co.lastFresh = some t →
        exec (.staleExpiry i .co) s
          = .next (settle
              (if t + s.items.staleTime ≤ s.now then
                { s.mark (.zone h.defn.zone) with
                  gas :=
                    { heads :=
                        s.gas.heads.put i { h with co := { h.co with validity := .stale, seedPending := true } } }
                  handed :=
                    [.gasUpdate h.defn.zone ⟨i, some ⟨.stale, h.co.smoothed, h.no2.validity, h.no2.smoothed⟩⟩ []] }
              else s)))
    ∧ (∀ t : Nat, s.gas.heads.get i = some h → h.no2.validity = .valid ∨ h.no2.validity = .warming →
        h.no2.lastFresh = some t →
        exec (.staleExpiry i .no2) s
          = .next (settle
              (if t + s.items.staleTime ≤ s.now then
                { s.mark (.zone h.defn.zone) with
                  gas :=
                    { heads :=
                        s.gas.heads.put i { h with no2 := { h.no2 with validity := .stale, seedPending := true } } }
                  handed :=
                    [.gasUpdate h.defn.zone ⟨i, some ⟨h.co.validity, h.co.smoothed, .stale, h.no2.smoothed⟩⟩ []] }
              else s)))

/-- R15, R16: HEAD-DEF creates a head with the neutral calibration and fresh channels, changes its exponent alone,
moves it, or removes it; its frame; and each check of R15 refuses with its code. That a creation or a removal marks no
zone and a move the new zone alone is the model's reading (log 33). -/
def Obligations.HeadDefFollowsItsRules : Prop :=
  ∀ (s : State) (tag i f z l a e : Byte), Admits .installer s →
    let p := s.framePassed
    let fresh (lost : Bool) : ChannelRun :=
      { range := .fine, validity := if lost then .fault else .noData, cause := if lost then some .link else none
        seedPending := true, rawFine := 0, rawCoarse := 0, value := 0, smoothed := 0, lastFresh := none }
    let c : Instr := .headDef tag [i, f, z, l, a, e]
    (48 ≤ i.toNat → exec c s = .next (p.turnedAway tag .outOfRange))
    ∧ (i.toNat < 48 → f.getLsbD 0 = true →
        (s.gas.heads.get i.toNat = none → exec c s = .next (p.turnedAway tag .notDefined))
        ∧ ∀ h, s.gas.heads.get i.toNat = some h →
          exec c s
            = .next (State.done tag false
                { p with
                  gas := { heads := s.gas.heads.del i.toNat }, handed := [.gasUpdate h.defn.zone ⟨i.toNat, none⟩ []] }))
    ∧ (i.toNat < 48 → f.getLsbD 0 = false →
        (24 ≤ z.toNat ∨ nodeOf l.toNat a.toNat = none → exec c s = .next (p.turnedAway tag .outOfRange))
        ∧ ∀ n, z.toNat < 24 → nodeOf l.toNat a.toNat = some n →
          (s.zone z.toNat = none ∨ s.node n = none → exec c s = .next (p.turnedAway tag .notDefined))
          ∧ ∀ zr x, s.zone z.toNat = some zr → s.node n = some x →
            (x.defn.role ≠ .gas ∨ (∃ o ∈ s.gas.heads, o.1 ≠ i.toNat ∧ o.2.defn.node = n) →
              exec c s = .next (p.turnedAway tag .conflict))
            ∧ (x.defn.role = .gas → (∀ o ∈ s.gas.heads, o.2.defn.node = n → o.1 = i.toNat) →
              (s.gas.heads.get i.toNat = none →
                exec c s
                  = .next (State.done tag (decide (7 < e.toNat))
                      { p with
                        gas :=
                          { heads :=
                              s.gas.heads.put i.toNat
                                { defn :=
                                    { zone := z.toNat, node := n, exponent := min 7 e.toNat
                                      co := ⟨4096, 0, 4096, 0, 0, 65535, 0⟩, no2 := ⟨4096, 0, 4096, 0, 0, 65535, 0⟩ }
                                  lastStatus := none, co := fresh (x.state == .lost)
                                  no2 := fresh (x.state == .lost) } }
                        handed :=
                          [.gasUpdate z.toNat ⟨i.toNat,
                            some ⟨if x.state = .lost then .fault else .noData, 0,
                              if x.state = .lost then .fault else .noData, 0⟩⟩ []] }))
              ∧ ∀ h, s.gas.heads.get i.toNat = some h →
                (h.defn.zone = z.toNat → h.defn.node = n →
                  exec c s
                    = .next (State.done tag (decide (7 < e.toNat))
                        { p with
                          gas :=
                            { heads :=
                                s.gas.heads.put i.toNat
                                  { h with defn := { h.defn with exponent := min 7 e.toNat } } } }))
                ∧ (h.defn.zone ≠ z.toNat ∨ h.defn.node ≠ n →
                  exec c s
                    = .next (State.done tag (decide (7 < e.toNat))
                        { p.markWhen
                            (h.co.validity != (fresh (x.state == .lost)).validity
                              || h.no2.validity != (fresh (x.state == .lost)).validity) (.zone z.toNat) with
                          gas :=
                            { heads :=
                                s.gas.heads.put i.toNat
                                  { defn := { h.defn with zone := z.toNat, node := n, exponent := min 7 e.toNat }
                                    lastStatus := none, co := fresh (x.state == .lost)
                                    no2 := fresh (x.state == .lost) } }
                          handed :=
                            (if h.defn.zone = z.toNat then [] else [.gasUpdate h.defn.zone ⟨i.toNat, none⟩ []])
                              ++ [.gasUpdate z.toNat ⟨i.toNat,
                                some ⟨if x.state = .lost then .fault else .noData, 0,
                                  if x.state = .lost then .fault else .noData, 0⟩⟩ []] }))))

/-- R17: HEAD-CAL replaces the calibration of one channel and resets that channel's run state; the other channel
stays. R19: GAS-QUERY tells the head's record field by field and changes no state but the reply. Their refusals; that
HEAD-CAL checks its gas code before its head is the model's choice (log 35). The layout of DATA is the model's where
the spec leaves it open (log 10). -/
def Obligations.HeadCalAndGasQueryFollowTheirRules : Prop :=
  ∀ (s : State) (tag i : Byte),
    let p := s.framePassed
    let byte (n : Nat) : Byte := BitVec.ofNat 8 n
    let channel (c : ChannelRun) (k : Calibration) : List Byte :=
      [byte (rangeCode c.range), byte (validityCode c.validity), byte (channelCauseCode c.cause), byte c.seedPending.toNat]
        ++ u16 c.rawFine ++ u16 c.rawCoarse ++ u16 c.value ++ u16 c.smoothed
        ++ (match c.lastFresh with | some t => 1 :: u16 (min 65535 (s.now - t)) | none => [0])
        ++ u16 k.fineGain ++ i16 k.fineOffset ++ u16 k.coarseGain ++ i16 k.coarseOffset
        ++ byte k.shift :: u16 k.crossover ++ u16 k.hysteresis
    (Admits .view s →
      (48 ≤ i.toNat → exec (.gasQuery tag [i]) s = .next (p.turnedAway tag .outOfRange))
      ∧ (i.toNat < 48 → s.gas.heads.get i.toNat = none →
          exec (.gasQuery tag [i]) s = .next (p.turnedAway tag .notDefined))
      ∧ ∀ h, i.toNat < 48 → s.gas.heads.get i.toNat = some h →
          exec (.gasQuery tag [i]) s
            = .next (p.told tag
                ([i, byte h.defn.zone, byte (loopCode h.defn.node.loop), byte h.defn.node.addr, byte h.defn.exponent,
                    byte (headStatusCode h.lastStatus)]
                  ++ channel h.co h.defn.co ++ channel h.no2 h.defn.no2)))
    ∧ ∀ (g gf1 gf0 of1 of0 gc1 gc0 oc1 oc0 k x1 x0 y1 y0 : Byte), Admits .installer s →
      let c : Instr := .headCal tag [i, g, gf1, gf0, of1, of0, gc1, gc0, oc1, oc0, k, x1, x0, y1, y0]
      let cal : Calibration :=
        ⟨nat16 gf1 gf0, int16 of1 of0, nat16 gc1 gc0, int16 oc1 oc0, min 7 k.toNat, nat16 x1 x0, nat16 y1 y0⟩
      (48 ≤ i.toNat ∨ 2 ≤ g.toNat → exec c s = .next (p.turnedAway tag .outOfRange))
      ∧ (i.toNat < 48 → g.toNat < 2 → s.gas.heads.get i.toNat = none →
          exec c s = .next (p.turnedAway tag .notDefined))
      ∧ ∀ h, i.toNat < 48 → s.gas.heads.get i.toNat = some h →
          let lost := s.nodeLost h.defn.node
          let fresh : ChannelRun :=
            { range := .fine, validity := if lost then .fault else .noData, cause := if lost then some .link else none
              seedPending := true, rawFine := 0, rawCoarse := 0, value := 0, smoothed := 0, lastFresh := none }
          (g = 0 →
            exec c s
              = .next (State.done tag (decide (7 < k.toNat))
                  { p.markWhen (h.co.validity != fresh.validity) (.zone h.defn.zone) with
                    gas :=
                      { heads := s.gas.heads.put i.toNat { h with defn := { h.defn with co := cal }, co := fresh } }
                    handed :=
                      [.gasUpdate h.defn.zone ⟨i.toNat,
                        some ⟨fresh.validity, 0, h.no2.validity, h.no2.smoothed⟩⟩ []] }))
          ∧ (g = 1 →
            exec c s
              = .next (State.done tag (decide (7 < k.toNat))
                  { p.markWhen (h.no2.validity != fresh.validity) (.zone h.defn.zone) with
                    gas :=
                      { heads := s.gas.heads.put i.toNat { h with defn := { h.defn with no2 := cal }, no2 := fresh } }
                    handed :=
                      [.gasUpdate h.defn.zone ⟨i.toNat,
                        some ⟨h.co.validity, h.co.smoothed, fresh.validity, 0⟩⟩ []] }))

/-! ## The Zone Air Unit -/

/-- R22, R23, R25, R28: the figure of a view, the alarm table with the clearing threshold, the gas term table and the
traffic term with its bound. -/
def Obligations.ZoneFigureAlarmAndTerms : Prop :=
  (∀ (view : Table ViewEntry),
    (figureOf view .co = none ↔ ∀ e ∈ view, e.2.coValidity ≠ .valid)
    ∧ (∀ m, figureOf view .co = some m ↔
        (∃ e ∈ view, e.2.coValidity = .valid ∧ e.2.coValue = m)
        ∧ ∀ e ∈ view, e.2.coValidity = .valid → e.2.coValue ≤ m)
    ∧ (figureOf view .no2 = none ↔ ∀ e ∈ view, e.2.no2Validity ≠ .valid)
    ∧ (∀ m, figureOf view .no2 = some m ↔
        (∃ e ∈ view, e.2.no2Validity = .valid ∧ e.2.no2Value = m)
        ∧ ∀ e ∈ view, e.2.no2Validity = .valid → e.2.no2Value ≤ m))
  ∧ (∀ (l : GasLimits) (set : Bool) (f : Nat),
    alarmAfter l none set = set
    ∧ (l.alarmOn ≤ f → alarmAfter l (some f) false = true)
    ∧ (f < l.alarmOn → alarmAfter l (some f) false = false)
    ∧ (l.alarmOff ≤ l.alarmOn → (alarmAfter l (some f) true = false ↔ f < l.alarmOff))
    ∧ (l.alarmOn < l.alarmOff → (alarmAfter l (some f) true = false ↔ f < l.alarmOn)))
  ∧ (∀ (l : GasLimits) (fallback f : Nat),
    gasTerm fallback l none = fallback
    ∧ (l.start < l.full → f ≤ l.start → gasTerm fallback l (some f) = 0)
    ∧ (l.start < l.full → l.full ≤ f → gasTerm fallback l (some f) = 100)
    ∧ (l.start < l.full → l.start < f → f < l.full →
        gasTerm fallback l (some f) = 100 * (f - l.start) / (l.full - l.start))
    ∧ (l.full ≤ l.start → l.start ≤ f → gasTerm fallback l (some f) = 100)
    ∧ (l.full ≤ l.start → f < l.start → gasTerm fallback l (some f) = 0)
    ∧ gasTerm fallback l (some f) ≤ 100)
  ∧ ∀ (t w : Nat),
    trafficTermOf t w = min 100 (t * w / 4) ∧ trafficTermOf t 0 = 0 ∧ (2 ≤ t → trafficTermOf t 255 = 100)

/-- R24, R31, R34, R35: how the Zone Air Unit settles a zone whose record became `new`: the terms and the demand, the
alarm order list, the marks, and the zone changes handed on; nothing else changes. The order in which the zone changes
are handed on (log 2), that the site is marked before the zone (log 40) and that D is carried only when it changed
(log 20) are the model's. -/
def Obligations.ZoneSettlesWhole : Prop :=
  ∀ (s : State) (i : Nat) (old new : Zone),
    let co := gasTerm s.items.fallback new.defn.co new.coFigure
    let no2 := gasTerm s.items.fallback new.defn.no2 new.no2Figure
    let traffic := min 100 (new.ring.sum * new.defn.weight / 4)
    let queue := if new.standing = [] then 0 else new.defn.queueDemand
    let demand := if new.inAlarm then 100 else max co (max no2 (max traffic (max queue new.floorTerm)))
    let z : Zone := { new with coTerm := co, no2Term := no2, trafficTerm := traffic, queueTerm := queue, demand := demand }
    let planChanged := new.inAlarm && old.defn.alarmPlan != new.defn.alarmPlan
    s.settleZone i old new
      = { (s.markWhen (old.inAlarm != new.inAlarm) .site).markWhen
            (old.coAlarm != new.coAlarm || old.no2Alarm != new.no2Alarm || old.hostClosed != new.hostClosed
              || old.demand != demand || old.unventilated != new.unventilated) (.zone i) with
          air :=
            { s.air with
              zones := s.air.zones.put i z
              alarmOrder :=
                if !old.inAlarm && new.inAlarm then s.air.alarmOrder ++ [i]
                else if old.inAlarm && !new.inAlarm then s.air.alarmOrder.filter (· ≠ i)
                else s.air.alarmOrder }
          handed :=
            s.handed
              ++ (if old.demand != demand || old.alarm != new.alarm || planChanged then
                  [.zoneChangeFan
                    ⟨i, if old.demand = demand then none else some demand, new.alarm,
                      if !old.inAlarm && new.inAlarm then .entered
                      else if old.inAlarm && !new.inAlarm then .left
                      else .stayed, planChanged⟩]
                else [])
              ++ (if (old.inAlarm || old.hostClosed) != (new.inAlarm || new.hostClosed) then
                  [.zoneChangeGuidance i (new.inAlarm || new.hostClosed)]
                else [])
              ++ (if old.inAlarm != new.inAlarm then [.zoneChangeLighting i new.inAlarm] else []) }

/-- R22, R23, R26, R29, R33: what an update of the channel view, a traffic event, a standing change and a change of
the unventilated flag make of a zone's record, which is then settled; an event that names an undefined zone changes
nothing. That an event of an undefined zone changes nothing is the model's choice (log 25). -/
def Obligations.ZoneEventsSettleTheZone : Prop :=
  ∀ (s : State) (i : Nat), s.handed = [] →
    (∀ z, s.zone i = some z →
      (∀ (u : HeadUpdate) (more : List HeadUpdate),
        let view :=
          (u :: more).foldl (fun v x => match x.entry with | some e => v.put x.head e | none => v.del x.head) z.view
        exec (.gasUpdate i u more) s
          = .next (settle (s.settleZone i z
              { z with
                view := view
                coFigure := figureOf view .co
                no2Figure := figureOf view .no2
                coAlarm := alarmAfter z.defn.co (figureOf view .co) z.coAlarm
                no2Alarm := alarmAfter z.defn.no2 (figureOf view .no2) z.no2Alarm })))
      ∧ (∀ (older : List Nat) (newest : Nat), z.ring = older ++ [newest] →
          exec (.trafficEvent i) s
            = .next (settle (s.settleZone i z { z with ring := older ++ [min 255 (newest + 1)] })))
      ∧ (∀ ramp, ramp ∉ z.standing →
          exec (.standingChange i ramp true) s
            = .next (settle (s.settleZone i z { z with standing := z.standing ++ [ramp] })))
      ∧ (∀ ramp, ramp ∈ z.standing →
          exec (.standingChange i ramp true) s = .next (settle (s.settleZone i z z)))
      ∧ (∀ ramp,
          exec (.standingChange i ramp false) s
            = .next (settle (s.settleZone i z { z with standing := z.standing.filter (· ≠ ramp) })))
      ∧ (∀ flag,
          exec (.unventilatedFlagChange i flag) s
            = .next (settle (s.settleZone i z { z with unventilated := flag }))))
    ∧ (s.zone i = none →
        (∀ u more, exec (.gasUpdate i u more) s = .next (settle s))
        ∧ exec (.trafficEvent i) s = .next (settle s)
        ∧ (∀ ramp flag, exec (.standingChange i ramp flag) s = .next (settle s))
        ∧ ∀ flag, exec (.unventilatedFlagChange i flag) s = .next (settle s))

/-- R27, R30, R34, R35: at its time the sub-window timer restarts and every defined zone's ring drops its oldest
sub-count and opens a new one at 0; a change of the site mode gives every defined zone the floor of that mode. The
terms and the demand follow, a zone whose demand changed is marked and hands its zone change to the Fan Controller,
and nothing else changes, the alarm order list with it. That a SUB_WINDOW_EXPIRY before its time changes nothing (log
3), that the zones go in rising number (log 39) and that D is carried only when it changed (log 20) are the model's. -/
def Obligations.ZoneSweepsReachEveryZone : Prop :=
  ∀ (s : State), s.handed = [] → Table.wf s.air.zones = true →
    let swept (f : Zone → Zone) (start : Nat) : State :=
      { (List.foldl
            (fun (t : State) (e : Nat × Zone) =>
              t.markWhen (e.2.demand != ((f e.2).recompute s.items.fallback).demand) (.zone e.1)) s s.air.zones) with
        air :=
          { s.air with
            zones := s.air.zones.map fun _ z => (f z).recompute s.items.fallback
            subWindowStart := start }
        handed :=
          (List.filter (fun e : Nat × Zone => e.2.demand != ((f e.2).recompute s.items.fallback).demand)
              s.air.zones).map fun e =>
            .zoneChangeFan ⟨e.1, some ((f e.2).recompute s.items.fallback).demand, e.2.alarm, .stayed, false⟩ }
    (s.air.subWindowStart + s.items.trafficWindow / 6 ≤ s.now →
      exec .subWindowExpiry s = .next (settle (swept (fun z => { z with ring := z.ring.drop 1 ++ [0] }) s.now)))
    ∧ (s.now < s.air.subWindowStart + s.items.trafficWindow / 6 → exec .subWindowExpiry s = .next (settle s))
    ∧ exec (.siteModeFloorChange .opened) s
        = .next (settle (swept (fun z => { z with floorTerm := s.items.openFloor }) s.air.subWindowStart))
    ∧ exec (.siteModeFloorChange .quiet) s
        = .next (settle (swept (fun z => { z with floorTerm := s.items.quietFloor }) s.air.subWindowStart))

/-- R36: ZONE-DEF creates a zone with the definition limits, changes the definition of a defined one, and removes one
that no head, bay, ramp, fan, group or sign names; each check refuses with its code. The order in which the zone
changes are handed on (log 2) and the site's mark before the zone's (log 40) are the model's. -/
def Obligations.ZoneDefFollowsItsRules : Prop :=
  ∀ (s : State) (tag i f k l p w q : Byte), Admits .installer s →
    let r := s.framePassed
    let c : Instr := .zoneDef tag [i, f, k, l, p, w, q]
    let plan := if p = 0xFF then none else some p.toNat
    let named : Prop :=
      (∃ e ∈ s.gas.heads, e.2.defn.zone = i.toNat) ∨ (∃ e ∈ s.occ.bays, e.2.defn.zone = i.toNat)
        ∨ (∃ e ∈ s.occ.ramps, e.2.defn.zone = i.toNat) ∨ (∃ e ∈ s.fans.fans, e.2.defn.zone = i.toNat)
        ∨ (∃ e ∈ s.light.groups, e.2.defn.zone = i.toNat)
        ∨ ∃ e ∈ s.guide.signs, i.toNat ∈ e.2.defn.sources ∨ ∃ d ∈ e.2.defn.directions, i.toNat ∈ d.zones
    (24 ≤ i.toNat → exec c s = .next (r.turnedAway tag .outOfRange))
    ∧ (i.toNat < 24 → f.getLsbD 0 = true →
        (s.zone i.toNat = none → exec c s = .next (r.turnedAway tag .notDefined))
        ∧ ∀ z, s.zone i.toNat = some z →
          (named → exec c s = .next (r.turnedAway tag .conflict))
          ∧ (¬ named →
              exec c s
                = .next (State.done tag false
                    { (r.markWhen z.inAlarm .site).mark (.zone i.toNat) with
                      air :=
                        { s.air with
                          zones := s.air.zones.del i.toNat
                          alarmOrder :=
                            if z.inAlarm then s.air.alarmOrder.filter (· ≠ i.toNat) else s.air.alarmOrder }
                      fans := { s.fans with zones := s.fans.zones.del i.toNat }
                      occ := { s.occ with counts := s.occ.counts.del i.toNat }
                      handed :=
                        (if z.inAlarm then [.zoneChangeFan ⟨i.toNat, none, .none, .left, false⟩] else [])
                          ++ (if z.inAlarm || z.hostClosed then [.zoneChangeGuidance i.toNat false] else [])
                          ++ (if z.inAlarm then [.zoneChangeLighting i.toNat false] else []) })))
    ∧ (i.toNat < 24 → f.getLsbD 0 = false →
        (2 ≤ k.toNat ∨ 8 ≤ l.toNat ∨ (p ≠ 0xFF ∧ 8 ≤ p.toNat) → exec c s = .next (r.turnedAway tag .outOfRange))
        ∧ ∀ kind, zoneKindOf k.toNat = some kind → l.toNat < 8 → p = 0xFF ∨ p.toNat < 8 →
          (s.zone i.toNat = none →
            let z : Zone :=
              { defn :=
                  { kind := kind, level := l.toNat, co := ⟨300, 1000, 1500, 1000⟩, no2 := ⟨100, 300, 500, 300⟩
                    alarmPlan := plan, weight := w.toNat, queueDemand := min 100 q.toNat }
                view := [], coFigure := none, no2Figure := none, coAlarm := false, no2Alarm := false
                ring := [0, 0, 0, 0, 0, 0], standing := [], coTerm := 0, no2Term := 0, trafficTerm := 0
                queueTerm := 0, floorTerm := floorOf s.items s.light.mode, demand := 0, hostClosed := false
                unventilated := true }
            let fresh : ZoneFans := { steps := 0, duty := [], available := 0, unventilated := true }
            exec c s
              = .next (State.done tag (decide (100 < q.toNat))
                  ((({ r with fans := { s.fans with zones := s.fans.zones.put i.toNat fresh } } : State).settleZone
                      i.toNat z z).mark (.zone i.toNat))))
          ∧ ∀ z, s.zone i.toNat = some z →
            exec c s
              = .next (State.done tag (decide (100 < q.toNat))
                  ((r.settleZone i.toNat z
                      { z with
                        defn :=
                          { z.defn with
                            kind := kind, level := l.toNat, alarmPlan := plan, weight := w.toNat
                            queueDemand := min 100 q.toNat } }).mark (.zone i.toNat))))

/-- R37, R38, R39: ZONE-LIMITS replaces one gas's limits and evaluates it at once; ZONE-CLOSE and ZONE-OPEN set and
clear the host closure flag at the level of R173; ZONE-QUERY tells the record field by field; their refusals. That a
ZONE-LIMITS that repeats the present limits marks the zone (log 36) and that a bad gas code at an undefined zone is
OUT_OF_RANGE (log 35) are the model's choices. The layout of DATA is the model's where the spec leaves it open (log
10). -/
def Obligations.ZoneRequestsFollowTheirRules : Prop :=
  ∀ (s : State) (tag i : Byte),
    let r := s.framePassed
    let service := if s.items.editService then Access.operator else Access.installer
    let byte (n : Nat) : Byte := BitVec.ofNat 8 n
    let orFF (o : Option Nat) : Byte := match o with | some n => byte n | none => 0xFF
    let limits (l : GasLimits) : List Byte := u16 l.start ++ u16 l.full ++ u16 l.alarmOn ++ u16 l.alarmOff
    let figure (f : Option Nat) (valid : Nat) : List Byte :=
      (match f with | some n => 1 :: u16 n | none => [0]) ++ [byte valid]
    (∀ z, i.toNat < 24 → s.zone i.toNat = some z →
      (Admits .view s →
        exec (.zoneQuery tag [i]) s
          = .next (r.told tag
              ([byte (zoneKindCode z.defn.kind), byte z.defn.level, orFF z.defn.alarmPlan, byte z.defn.weight,
                  byte z.defn.queueDemand]
                ++ limits z.defn.co ++ limits z.defn.no2
                ++ figure z.coFigure (z.view.filter fun e => e.2.coValidity = .valid).length
                ++ figure z.no2Figure (z.view.filter fun e => e.2.no2Validity = .valid).length
                ++ [byte z.coAlarm.toNat, byte z.no2Alarm.toNat, byte (z.coAlarm.toNat + 2 * z.no2Alarm.toNat),
                  orFF (s.air.alarmOrder.findIdx? (· == i.toNat))]
                ++ z.ring.map byte ++ u16 z.ring.sum ++ byte z.standing.length :: z.standing.map byte
                ++ [byte z.coTerm, byte z.no2Term, byte z.trafficTerm, byte z.queueTerm, byte z.floorTerm, byte z.demand,
                  byte ((z.coAlarm || z.no2Alarm).toNat + 2 * z.hostClosed.toNat), byte z.hostClosed.toNat,
                  byte z.unventilated.toNat])))
      ∧ (Admits service s →
          (z.hostClosed = false →
            exec (.zoneClose tag [i]) s
                = .next (State.done tag false (r.settleZone i.toNat z { z with hostClosed := true }))
            ∧ exec (.zoneOpen tag [i]) s = .next (State.done tag false r))
          ∧ (z.hostClosed = true →
            exec (.zoneOpen tag [i]) s
                = .next (State.done tag false (r.settleZone i.toNat z { z with hostClosed := false }))
            ∧ exec (.zoneClose tag [i]) s = .next (State.done tag false r)))
      ∧ (Admits .installer s → ∀ s1 s0 f1 f0 n1 n0 o1 o0 : Byte,
          let l : GasLimits := ⟨nat16 s1 s0, nat16 f1 f0, nat16 n1 n0, nat16 o1 o0⟩
          exec (.zoneLimits tag [i, 0, s1, s0, f1, f0, n1, n0, o1, o0]) s
              = .next (State.done tag false
                  ((r.settleZone i.toNat z
                      { z with defn := { z.defn with co := l }, coAlarm := alarmAfter l z.coFigure z.coAlarm }).mark
                    (.zone i.toNat)))
          ∧ exec (.zoneLimits tag [i, 1, s1, s0, f1, f0, n1, n0, o1, o0]) s
              = .next (State.done tag false
                  ((r.settleZone i.toNat z
                      { z with defn := { z.defn with no2 := l }, no2Alarm := alarmAfter l z.no2Figure z.no2Alarm }).mark
                    (.zone i.toNat)))))
    ∧ (24 ≤ i.toNat →
        (Admits .view s → exec (.zoneQuery tag [i]) s = .next (r.turnedAway tag .outOfRange))
        ∧ (Admits service s →
            exec (.zoneClose tag [i]) s = .next (r.turnedAway tag .outOfRange)
            ∧ exec (.zoneOpen tag [i]) s = .next (r.turnedAway tag .outOfRange)))
    ∧ (Admits .installer s → ∀ g s1 s0 f1 f0 n1 n0 o1 o0 : Byte,
        (24 ≤ i.toNat ∨ 2 ≤ g.toNat →
          exec (.zoneLimits tag [i, g, s1, s0, f1, f0, n1, n0, o1, o0]) s = .next (r.turnedAway tag .outOfRange))
        ∧ (i.toNat < 24 → g.toNat < 2 → s.zone i.toNat = none →
          exec (.zoneLimits tag [i, g, s1, s0, f1, f0, n1, n0, o1, o0]) s = .next (r.turnedAway tag .notDefined)))
    ∧ (i.toNat < 24 → s.zone i.toNat = none →
        (Admits .view s → exec (.zoneQuery tag [i]) s = .next (r.turnedAway tag .notDefined))
        ∧ (Admits service s →
            exec (.zoneClose tag [i]) s = .next (r.turnedAway tag .notDefined)
            ∧ exec (.zoneOpen tag [i]) s = .next (r.turnedAway tag .notDefined)))

/-! ## The Fan Controller -/

/-- R42, R43, R69: how a fan's record changes from `old` to `new`: the supply account follows the counted load, the
node is posted exactly when the drive command changed, the fan is marked; and the loads and drive commands of R42's
table. R43, R62, R65: a stop command into a state: the stop is stamped, start, speed-up and exercise end, whole run
minutes are counted and the seconds left over kept, and the fan's queue entry leaves. The field `rest` is the model's
own (log 11), and that the hold start clears is its reading (log 18). -/
def Obligations.FanChangesAndStops : Prop :=
  (∀ (s : State) (i : Nat) (old new : Fan),
    let t : State :=
      { s with
        fans := { s.fans with fans := s.fans.fans.put i new, account := s.fans.account + new.load - old.load } }
    s.changeFan i old new
      = (if old.command = new.command then t else t.post new.defn.node).markWhen
          (old.defn != new.defn || old.state != new.state || old.cause != new.cause || old.heldLoad != new.heldLoad
            || old.direction != new.direction || old.speed != new.speed || old.speedupFailed != new.speedupFailed
            || old.exercise != new.exercise) (.fan i))
  ∧ (∀ f : Fan,
    (f.state = .off ∨ f.state = .queued ∨ f.state = .rundown ∨ f.state = .held → f.load = 0 ∧ f.command = .stop)
    ∧ (f.state = .starting → f.load = f.defn.startLoad ∧ f.command = .run f.direction .low)
    ∧ (f.state = .running → f.speed = .low → f.load = f.defn.lowLoad ∧ f.command = .run f.direction .low)
    ∧ (f.state = .running → f.speed = .high → f.load = f.defn.highLoad ∧ f.command = .run f.direction .high)
    ∧ (f.state = .faulted → f.load = f.heldLoad ∧ f.command = .stop))
  ∧ ∀ (s : State) (i : Nat) (f : Fan) (st : FanState) (cause : Option FanCause) (held : Nat), s.fan i = some f →
    let seconds := match f.minuteStart with | some t => f.leftover + (s.now - t) | none => f.leftover
    let g : Fan :=
      { f with
        state := st, exercise := false, speedup := false, speedupFailed := false, lastStop := s.now
        holdStart := none, cause := cause, heldLoad := held, rest := f.defn.rundown
        runMinutes := min 16777215 (f.runMinutes + seconds / 60), leftover := seconds % 60, minuteStart := none }
    let t := s.changeFan i f g
    s.stopFan i st cause held = { t with fans := { t.fans with queue := t.fans.queue.filter fun e => e.fan ≠ i } }
    ∧ ∀ e ∈ (s.stopFan i st cause held).fans.queue, e.fan ≠ i

/-- R52: an entry joins a queue that is in order of class behind every entry of its class or an earlier one and before
every later class, and the queue stays in order. R53, R54, R55: the head is granted exactly when the slot is free, the
spacing has passed and the raised account fits the limit; what a grant does; a head that does not fit blocks the
queue. -/
def Obligations.QueueJoinsAndGrants : Prop :=
  (∀ (e : QueueEntry) (q : List QueueEntry), q.Pairwise (fun a b => a.cls.rank ≤ b.cls.rank) →
    ∃ before after, q = before ++ after ∧ joinQueue e q = before ++ e :: after
      ∧ (∀ x ∈ before, x.cls.rank ≤ e.cls.rank) ∧ (∀ x ∈ after, e.cls.rank < x.cls.rank)
      ∧ (joinQueue e q).Pairwise (fun a b => a.cls.rank ≤ b.cls.rank))
  ∧ ∀ (s : State) (e : QueueEntry) (rest : List QueueEntry) (f : Fan),
    s.fans.queue = e :: rest → s.fan e.fan = some f →
    let added := match e.kind with | .start => f.defn.startLoad | .speedup => f.defn.highLoad - f.defn.lowLoad
    let free := ∀ x ∈ s.fans.fans, x.2.state ≠ .starting ∧ x.2.speedup = false
    let spaced := ∀ t, s.fans.lastGrant = some t → t + s.items.startSpacing ≤ s.now
    (¬ (free ∧ spaced ∧ s.fans.account + added ≤ s.items.supplyLimit) → s.evaluate = s)
    ∧ (free → spaced → s.fans.account + added ≤ s.items.supplyLimit →
        let t : State := { s with fans := { s.fans with queue := rest, lastGrant := some s.now, spacing := true } }
        let direction := match s.activeEntry e.fan with
          | .forward => FanDir.forward
          | .reverse => FanDir.reverse
          | .idle => if f.exercise then f.defn.home else f.direction
        (e.kind = .start →
          s.evaluate
            = t.changeFan e.fan f
                { f with state := .starting, direction := direction, speed := .low, lastGrant := some s.now })
        ∧ (e.kind = .speedup →
          s.evaluate = t.changeFan e.fan f { f with speed := .high, speedup := true, lastGrant := some s.now }))

/-- R49, R50: the steps after one run of the mapping, for a demand of at most 100: never above 2n, never below the
step demand, none at demand 0, the step demand when it rises, and otherwise kept down by the hysteresis; and how the
steps are handed out over n fans in duty order. R49, R50, R51: re-ranking orders fans by run minutes ascending, ties
by fan number ascending, each once; a zone change with a new demand sets the zone's steps by the mapping and re-ranks
its duty order when the steps fall to 0; one run of the mapping hands the available fans their wants in duty order and
then OFF to the others in rising order; a recount counts the available fans and hands a changed unventilated finding.
That a recount maps with the present D is the model's reading (log 20), and that a re-ranked zone hands its OFF wants
in the new order its choice (log 37). -/
def Obligations.StepsAndMapping : Prop :=
  (∀ (steps n d h : Nat), d ≤ 100 →
    let up := (d * (2 * n) + 99) / 100
    let keep := if d = 0 then 0 else (min 100 (d + h) * (2 * n) + 99) / 100
    stepsAfter steps n d h = (if min steps (2 * n) ≤ up then up else max up (min (min steps (2 * n)) keep))
    ∧ up ≤ stepsAfter steps n d h
    ∧ stepsAfter steps n d h ≤ 2 * n
    ∧ stepsAfter steps n d h ≤ max up steps
    ∧ (d = 0 → stepsAfter steps n d h = 0)
    ∧ (d = 100 → stepsAfter steps n d h = 2 * n)
    ∧ ∀ (cur place : Nat), cur ≤ 2 * n → place < n →
      (wantAt cur n place = .off ↔ cur ≤ place)
      ∧ (wantAt cur n place = .high ↔ n + place < cur))
  ∧ (∀ (minutes : Nat → Nat) (l : List Nat), l.Nodup →
    (rankFans minutes l).Perm l
    ∧ (rankFans minutes l).Pairwise fun a b => minutes a < minutes b ∨ (minutes a = minutes b ∧ a < b))
  ∧ (∀ (s : State) (z d : Nat) (alarm : ZoneAlarm) (x : ZoneFans), s.handed = [] → s.zoneFans z = some x →
    let steps := stepsAfter x.steps x.available d s.items.hysteresis
    ∃ t, exec (.zoneChangeFan ⟨z, some d, alarm, .stayed, false⟩) s = .next t
      ∧ t.zoneFans z
        = some { x with
                  steps := steps
                  duty := if steps = 0 ∧ 0 < x.steps then rankFans s.minutesOf x.duty else x.duty })
  ∧ (∀ (s : State) (z d : Nat) (x : ZoneFans), s.zoneFans z = some x →
    let available (i : Nat) : Bool :=
      match s.fan i with
      | some f => decide (s.activeEntry i ≠ .idle ∧ f.state ≠ .held ∧ f.state ≠ .faulted)
      | none => false
    let steps := stepsAfter x.steps x.available d s.items.hysteresis
    let duty := if steps = 0 ∧ 0 < x.steps then rankFans s.minutesOf x.duty else x.duty
    let others := ((s.fans.fans.filter fun e => decide (e.2.defn.zone = z)).map Prod.fst).filter fun i => !available i
    s.mapZone z d
      = List.foldl (fun (t : State) (p : Nat × Want) => t.takeWant p.1 p.2)
          { s with fans := { s.fans with zones := s.fans.zones.put z { x with steps := steps, duty := duty } } }
          (((duty.filter available).mapIdx fun place i => (i, wantAt steps x.available place))
            ++ others.map fun i => (i, .off)))
  ∧ ∀ (s : State) (z : Nat) (x : ZoneFans), s.zoneFans z = some x →
    let n :=
      (s.fans.fans.filter fun e =>
        decide (e.2.defn.zone = z)
          && (match s.fan e.1 with
              | some f => decide (s.activeEntry e.1 ≠ .idle ∧ f.state ≠ .held ∧ f.state ≠ .faulted)
              | none => false)).length
    s.recount z
      = { s with
          fans := { s.fans with zones := s.fans.zones.put z { x with available := n, unventilated := n == 0 } }
          handed := s.handed ++ (if x.unventilated = (n == 0) then [] else [.unventilatedFlagChange z (n == 0)]) }

/-- R50, R52, R55, R57, R59, R60, R61, R64: what a fan does with the want that a run of the mapping hands it, in each
of its states: an OFF fan joins the start queue, a QUEUED one leaves it or takes its exercise entry's place anew, a
STARTING, a RUNDOWN, a HELD and a FAULTED one remember the want, and a RUNNING one asks for its speed-up, falls to
LOW, or, once its minimum run time is met, follows its policy. That a waiting SPEEDUP entry leaves the queue also when
the want falls to OFF is the model's reading (log 14). -/
def Obligations.FanTakesItsWant : Prop :=
  ∀ (s : State) (i : Nat) (f : Fan) (w : Want), s.fan i = some f →
    let start : QueueEntry := ⟨i, .start, if s.zoneInAlarm f.defn.zone then .alarm else .normal⟩
    let speedup : QueueEntry := { start with kind := .speedup }
    let set (g : Fan) : State := s.changeFan i f g
    let left (t : State) : State := { t with fans := { t.fans with queue := t.fans.queue.filter fun e => e.fan ≠ i } }
    let joined (e : QueueEntry) (t : State) : State :=
      { t with fans := { t.fans with queue := joinQueue e t.fans.queue } }
    (f.state = .off →
        s.takeWant i .off = set { f with want := .off }
        ∧ (w ≠ .off → s.takeWant i w = joined start (set { f with want := w, state := .queued })))
    ∧ (f.state = .queued → f.exercise = false →
        s.takeWant i .off = left (set { f with want := .off, state := .off })
        ∧ (w ≠ .off → s.takeWant i w = set { f with want := w }))
    ∧ (f.state = .queued → f.exercise = true →
        s.takeWant i .off = set { f with want := .off }
        ∧ (w ≠ .off → s.takeWant i w = joined start (left (set { f with want := w, exercise := false }))))
    ∧ (f.state = .starting →
        s.takeWant i .off = set { f with want := .off }
        ∧ (w ≠ .off → s.takeWant i w = set { f with want := w, exercise := false }))
    ∧ (f.state = .rundown ∨ f.state = .held ∨ f.state = .faulted → s.takeWant i w = set { f with want := w })
    ∧ (f.state = .running →
        s.takeWant i .low
          = left (set
              { f with
                want := .low, exercise := false, holdStart := none, speed := .low, speedup := false
                speedupFailed := false })
        ∧ (let t := set { f with want := .high, exercise := false, holdStart := none }
           (f.speed = .low ∧ f.speedupFailed = false ∧ (∀ e ∈ s.fans.queue, e.fan ≠ i) →
              s.takeWant i .high = joined speedup t)
           ∧ (f.speed = .high ∨ f.speedupFailed = true ∨ (∃ e ∈ s.fans.queue, e.fan = i) → s.takeWant i .high = t))
        ∧ (f.exercise = true → s.takeWant i .off = set { f with want := .off })
        ∧ (f.exercise = false →
            let g : Fan := { f with want := .off, speedup := false, speedupFailed := false }
            let t := left (set g)
            let met := ∀ u, f.runningSince = some u → u + s.items.minimumRun ≤ s.now
            (f.want = .off ∨ ¬ met → s.takeWant i .off = t)
            ∧ (f.want ≠ .off → met → f.defn.policy = .release ∨ s.items.holdTime = 0 →
                s.takeWant i .off = t.stopFan i .rundown none 0)
            ∧ (f.want ≠ .off → met → f.defn.policy = .hold → s.items.holdTime ≠ 0 →
                s.takeWant i .off
                  = left (t.changeFan i g { g with speed := .low, speedup := false, holdStart := some s.now }))))

/-- R34, R46, R50, R52: a zone change raises the class of a zone that entered the alarm order list, evaluates the
active plan when the list or its plans changed, maps a new demand, and evaluates the queue. R52: the raised entries
join the tail of the ALARM entries in their order, and every entry is kept and every other one keeps its class and its
order, EXERCISE at the end. R46: the choice of the active plan, the mark of the site by a change of plan or source,
and the plan change by a new plan alone. That D is carried only when it changed, and that the queue is evaluated last,
are the model's reading (logs 17 and 20). -/
def Obligations.ZoneChangeReachesTheFans : Prop :=
  (∀ (s : State) (c : ZoneChange), s.handed = [] →
    let a := if c.move = .entered then s.raiseClass c.zone else s
    let b := if c.move = .stayed ∧ c.planChanged = false then a else a.evaluatePlan
    exec (.zoneChangeFan c) s
      = .next (settle
          (match c.demand with | some d => (b.mapZone c.zone d).evaluate | none => b.evaluate)))
  ∧ (∀ (s : State) (zone : Nat), s.fans.queue.Pairwise (fun a b => a.cls.rank ≤ b.cls.rank) →
      let ofZone (e : QueueEntry) : Bool :=
        match s.fan e.fan with | some f => decide (f.defn.zone = zone) | none => false
      s.raiseClass zone
        = { s with
            fans :=
              { s.fans with
                queue :=
                  s.fans.queue.filter (fun e => e.cls = .alarm)
                    ++ (s.fans.queue.filter fun e => e.cls = .normal && ofZone e).map (fun e => { e with cls := .alarm })
                    ++ s.fans.queue.filter (fun e => e.cls = .normal && !ofZone e)
                    ++ s.fans.queue.filter (fun e => e.cls = .exercise) } })
  ∧ (∀ s : State,
    (s.choosePlan.1 = s.fans.activePlan → s.choosePlan.2 = s.fans.source → s.evaluatePlan = s)
    ∧ (s.choosePlan.1 = s.fans.activePlan → s.choosePlan.2 ≠ s.fans.source →
        s.evaluatePlan = ({ s with fans := { s.fans with source := s.choosePlan.2 } } : State).mark .site)
    ∧ (s.choosePlan.1 ≠ s.fans.activePlan →
        s.evaluatePlan
          = (({ s with
                fans := { s.fans with activePlan := s.choosePlan.1, source := s.choosePlan.2 } } : State).mark
              .site).planChange))
  ∧ ∀ s : State,
    (∀ p, s.fans.forcedPlan = some p → s.choosePlan = (p, .forced))
    ∧ (s.fans.forcedPlan = none →
        (∀ before zone after p z, s.air.alarmOrder = before ++ zone :: after →
          (∀ y ∈ before, ∀ r, s.zone y = some r → r.defn.alarmPlan = none) →
          s.zone zone = some z → z.defn.alarmPlan = some p → s.choosePlan = (p, .alarm zone))
        ∧ ((∀ y ∈ s.air.alarmOrder, ∀ r, s.zone y = some r → r.defn.alarmPlan = none) →
            s.choosePlan = (s.fans.basePlan, .base)))

/-- R47: a plan change is taken whole. First each fan that is STARTING or RUNNING against its required direction, or
that requires no rotation, is stopped into RUNDOWN and leaves the queue, and every other fan and entry stays as it
was; then every zone is recounted and mapped with its present demand; then the queue is evaluated. After it, a fan
that was stopped rests, and a fan that was turning and still turns does so in its required direction. The field `rest`
is the model's own (log 11), and the order of the stops and of the zones its reading (log 17). -/
def Obligations.PlanChangeRestsTurningFans : Prop :=
  ∀ s : State, Table.wf s.fans.fans = true →
    let required (i : Nat) (f : Fan) : Option FanDir :=
      match (s.fans.plans.getD s.fans.activePlan []).getD i .forward with
      | .forward => some .forward
      | .reverse => some .reverse
      | .idle => if f.exercise then some f.defn.home else none
    let turning (f : Fan) : Prop := f.state = .starting ∨ f.state = .running
    let against :=
      s.fans.fans.filter fun e => (e.2.state = .starting ∨ e.2.state = .running) ∧ required e.1 e.2 ≠ some e.2.direction
    let stopped : State := against.foldl (fun t e => t.stopFan e.1 .rundown none 0) s
    (s.planChange
      = (s.air.zones.keys.foldl
          (fun t z => match (t.recount z).zone z with | some r => (t.recount z).mapZone z r.demand | none => t.recount z)
          stopped).evaluate)
    ∧ (∀ i f, s.fan i = some f → ¬ (turning f ∧ required i f ≠ some f.direction) → stopped.fan i = some f)
    ∧ stopped.fans.queue = s.fans.queue.filter (fun e => against.all fun a => a.1 ≠ e.fan)
    ∧ ∀ i f, s.fan i = some f → turning f →
      (required i f ≠ some f.direction →
        ∃ g, s.planChange.fan i = some g ∧ g.state = .rundown ∧ g.lastStop = s.now ∧ g.rest = f.defn.rundown
          ∧ g.speedup = false ∧ g.exercise = false)
      ∧ ∃ g, s.planChange.fan i = some g ∧ (turning g → required i g = some g.direction)

/-- R73, R74: PLAN-DEF replaces the entries of a plan that is not active and moves no fan; PLAN-BASE, PLAN-FORCE,
PLAN-UNFORCE and the supervision expiry set and remove the base plan and the forced plan, mark the site and evaluate
the active plan; the refusals and the requests that change nothing. That a PLAN-DEF of the active plan with a bad
entry is OUT_OF_RANGE is the model's choice (log 35). -/
def Obligations.PlanRequestsFollowTheirRules : Prop :=
  ∀ (s : State) (tag p : Byte),
    let r := s.framePassed
    let plans := if s.items.editPlans then Access.operator else Access.installer
    (∀ body : List Byte, body.length = 12 → Admits plans s →
      (8 ≤ p.toNat ∨ planEntries (body.flatMap quads) = none →
        exec (.planDef tag (p :: body)) s = .next (r.turnedAway tag .outOfRange))
      ∧ ∀ es, p.toNat < 8 → planEntries (body.flatMap quads) = some es →
        (p.toNat = s.fans.activePlan → exec (.planDef tag (p :: body)) s = .next (r.turnedAway tag .conflict))
        ∧ (p.toNat ≠ s.fans.activePlan →
            exec (.planDef tag (p :: body)) s
              = .next (State.done tag false { r with fans := { s.fans with plans := s.fans.plans.set p.toNat es } })))
    ∧ (Admits plans s →
        (8 ≤ p.toNat → exec (.planBase tag [p]) s = .next (r.turnedAway tag .outOfRange))
        ∧ (p.toNat < 8 → p.toNat = s.fans.basePlan → exec (.planBase tag [p]) s = .next (State.done tag false r))
        ∧ (p.toNat < 8 → p.toNat ≠ s.fans.basePlan →
            exec (.planBase tag [p]) s
              = .next (State.done tag false
                  ((({ r with fans := { s.fans with basePlan := p.toNat } } : State).mark .site).evaluatePlan))))
    ∧ (Admits .installer s →
        (8 ≤ p.toNat → exec (.planForce tag [p]) s = .next (r.turnedAway tag .outOfRange))
        ∧ (p.toNat < 8 →
            exec (.planForce tag [p]) s
              = .next (State.done tag false
                  ((({ r with fans := { s.fans with forcedPlan := some p.toNat } } : State).markWhen
                    (s.fans.forcedPlan != some p.toNat) .site).evaluatePlan)))
        ∧ (s.fans.forcedPlan = none → exec (.planUnforce tag []) s = .next (State.done tag false r))
        ∧ (s.fans.forcedPlan ≠ none →
            exec (.planUnforce tag []) s
              = .next (State.done tag false
                  ((({ r with fans := { s.fans with forcedPlan := none } } : State).mark .site).evaluatePlan))))
    ∧ (s.handed = [] →
        exec .supervisionExpiryFans s
          = .next (settle
              ((({ s with fans := { s.fans with forcedPlan := none } } : State).markWhen
                s.fans.forcedPlan.isSome .site).evaluatePlan)))

/-- R53, R55, R57, R60, R61, R64, R65: what each timer of the Fan Controller does when its time has come, and that it
does nothing before. That a timer command before its time changes nothing is the model's choice (log 3); `rest` is its
own field (log 11). -/
def Obligations.FanTimersActAtTheirTime : Prop :=
  ∀ (s : State) (i : Nat) (f : Fan) (t : Nat), s.handed = [] → s.fan i = some f →
    (f.state = .starting → f.lastGrant = some t →
      exec (.startTimeout i) s
        = .next (settle
            (if t + s.items.startTimeout ≤ s.now then
              (s.stopFan i .faulted (some .drive) 0).remapEvaluate f.defn.zone
            else s)))
    ∧ (f.state = .running → f.speedup = true → f.lastGrant = some t →
      exec (.speedupTimeout i) s
        = .next (settle
            (if t + s.items.startTimeout ≤ s.now then
              (s.changeFan i f { f with speed := .low, speedup := false, speedupFailed := true }).evaluate
            else s)))
    ∧ (f.state = .running → f.want = .off → f.exercise = false → f.holdStart = none → f.runningSince = some t →
      exec (.minimumRunTimeMet i) s
        = .next (settle
            (if t + s.items.minimumRun ≤ s.now then
              (if f.defn.policy = .release ∨ s.items.holdTime = 0 then s.stopFan i .rundown none 0
              else
                (s.changeFan i f { f with speed := .low, speedup := false, holdStart := some s.now }).dequeue
                  i).evaluate
            else s)))
    ∧ (f.state = .running → f.want = .off → f.holdStart = some t →
      exec (.holdTimeExpiry i) s
        = .next (settle
            (if t + s.items.holdTime ≤ s.now then (s.stopFan i .rundown none 0).evaluate else s)))
    ∧ (f.state = .rundown →
      exec (.rundownEnd i) s
        = .next (settle
            (if f.lastStop + f.rest ≤ s.now then
              if f.want = .off then s.changeFan i f { f with state := .off }
              else
                ((s.changeFan i f { f with state := .queued }).enqueue
                  ⟨i, .start, if s.zoneInAlarm f.defn.zone then .alarm else .normal⟩).evaluate
            else s)))
    ∧ (f.state = .off →
      exec (.exerciseDue i) s
        = .next (settle
            (if 0 < s.items.exerciseInterval ∧ f.lastStop + s.items.exerciseInterval * 3600 ≤ s.now then
              ((s.changeFan i f { f with state := .queued, exercise := true }).enqueue ⟨i, .start, .exercise⟩).evaluate
            else s)))
    ∧ (f.state = .running → f.exercise = true → f.runningSince = some t →
      exec (.exerciseRunEnd i) s
        = .next (settle
            (if t + s.items.exerciseRun ≤ s.now then (s.stopFan i .rundown none 0).evaluate else s)))
    ∧ (f.state = .running → f.minuteStart = some t →
      exec (.runMinute i) s
        = .next (settle
            (if 60 ≤ f.leftover + (s.now - t) then
              s.changeFan i f
                { f with
                  runMinutes := min 16777215 (f.runMinutes + 1), minuteStart := some (t + (60 - f.leftover))
                  leftover := 0 }
            else s)))
    ∧ (s.fans.spacing = true → ∀ u, s.fans.lastGrant = some u →
      exec .startSpacingExpiry s
        = .next (settle
            (if u + s.items.startSpacing ≤ s.now then
              ({ s with fans := { s.fans with spacing := false } } : State).evaluate
            else s)))

/-- R44, R55, R57, R62: what a fresh drive report does in each state of the fan; a report with READY clear, or from a
node that no fan names, changes nothing. That a report of no record changes nothing is the model's choice (log 25). -/
def Obligations.DriveReportMovesTheFan : Prop :=
  ∀ (s : State) (n : NodeId) (b : Byte), s.handed = [] →
    exec (.driveReport n false [b]) s = .next (settle s)
    ∧ (s.fanOf n = none → exec (.driveReport n true [b]) s = .next (settle s))
    ∧ ∀ (i : Nat) (f : Fan), s.fanOf n = some i → s.fan i = some f →
      let r : DriveReport :=
        ⟨driveConditionOf (b.toNat % 8), if b.getLsbD 3 then .reverse else .forward,
          if b.getLsbD 4 then .high else .low⟩
      let g : Fan := { f with report := some r }
      let t := s.changeFan i f g
      (4 ≤ b.toNat % 8 →
        (f.state = .held ∨ (f.state = .faulted ∧ f.cause = some .link) →
          exec (.driveReport n true [b]) s = .next (settle t))
        ∧ (f.state ≠ .held → (f.state = .faulted → f.cause ≠ some .link) →
          exec (.driveReport n true [b]) s
            = .next (settle ((t.stopFan i .faulted (some .drive) 0).remapEvaluate f.defn.zone))))
      ∧ (b.toNat % 8 = 2 → r.direction = f.direction → f.state = .starting →
          exec (.driveReport n true [b]) s
            = .next (settle
                (((t.changeFan i g
                    { g with
                      state := .running, speed := .low, runningSince := some s.now, holdStart := none
                      minuteStart := some s.now }).askSpeedup i).evaluate)))
      ∧ (b.toNat % 8 = 2 → r.direction = f.direction → f.state = .running → f.speedup = true → r.speed = .high →
          exec (.driveReport n true [b]) s
            = .next (settle ((t.changeFan i g { g with speedup := false }).evaluate)))
      ∧ (b.toNat % 8 < 4 →
          b.toNat % 8 ≠ 2 ∨ r.direction ≠ f.direction ∨
            (f.state ≠ .starting ∧ (f.state ≠ .running ∨ f.speedup = false ∨ r.speed = .low)) →
          exec (.driveReport n true [b]) s = .next (settle t))

/-- R62, R63: the loss, the restart and the reset of a fan's node. -/
def Obligations.FanNodeEventsFollowTheState : Prop :=
  ∀ (s : State) (n : NodeId) (i : Nat) (f : Fan), s.handed = [] → s.fanOf n = some i → s.fan i = some f →
    (f.state = .held → exec (.fanNodeLost n) s = .next (settle s))
    ∧ (f.state ≠ .held →
        exec (.fanNodeLost n) s
          = .next (settle ((s.stopFan i .faulted (some .link) f.load).remapEvaluate f.defn.zone)))
    ∧ (f.state = .starting ∨ f.state = .running →
        exec (.fanNodeRestart n) s = .next (settle ((s.stopFan i .rundown none 0).post n).evaluate))
    ∧ (f.state ≠ .starting → f.state ≠ .running → exec (.fanNodeRestart n) s = .next (settle s))
    ∧ exec (.fanNodeReset n) s = .next (settle (s.post n))

/-- R66, R67, R68, R70: FAN-HOLD, FAN-FREE, FAN-CLEAR and FAN-QUERY of a defined fan in each of its states, with their
refusals; FAN-QUERY tells every field of the fan, and of the site in its site form. The layout of DATA (logs 10 and
16) and the field `rest` (log 11) are the model's. -/
def Obligations.FanRequestsFollowTheState : Prop :=
  ∀ (s : State) (tag i : Byte),
    let r := s.framePassed
    let service := if s.items.editService then Access.operator else Access.installer
    let byte (n : Nat) : Byte := BitVec.ofNat 8 n
    let orFF (o : Option Nat) : Byte := match o with | some n => byte n | none => 0xFF
    let stamp (o : Option Nat) : List Byte := match o with | some t => u32 t | none => []
    let left (since : Option Nat) (time : Nat) : Option Nat := since.map fun t => t + time - s.now
    let timer (f : Fan) : Option Nat :=
      match f.state with
      | .starting => left f.lastGrant s.items.startTimeout
      | .rundown => left (some f.lastStop) f.rest
      | .running =>
        if f.exercise then left f.runningSince s.items.exerciseRun
        else if f.want = .off then
          if f.holdStart.isSome then left f.holdStart s.items.holdTime else left f.runningSince s.items.minimumRun
        else if f.speedup then left f.lastGrant s.items.startTimeout else none
      | .off | .queued | .held | .faulted => none
    let definition (d : FanDefn) : List Byte :=
      [byte d.zone, byte (loopCode d.node.loop), byte d.node.addr, byte (fanDirCode d.home), byte d.startLoad,
        byte d.lowLoad, byte d.highLoad] ++ u16 d.rundown ++ [byte (policyCode d.policy)]
    let run (f : Fan) : List Byte :=
      [byte (fanStateCode f.state), (match f.want with | .off => 0 | .low => 1 | .high => 2), byte f.exercise.toNat,
          byte (fanDirCode f.direction), (match f.speed with | .low => 0 | .high => 1), byte f.speedup.toNat,
          byte f.speedupFailed.toNat]
        ++ u32 f.lastStop
        ++ byte (f.lastGrant.isSome.toNat + 2 * f.runningSince.isSome.toNat + 4 * f.holdStart.isSome.toNat)
          :: stamp f.lastGrant ++ stamp f.runningSince ++ stamp f.holdStart
        ++ [byte (fanCauseCode f.cause), byte f.heldLoad,
          (match f.report with
            | some r =>
              byte (driveConditionCode r.condition) + (if r.direction = .reverse then 8 else 0)
                + (if r.speed = .high then 16 else 0)
            | none => 0xFF),
          byte (f.runMinutes / 65536), byte (f.runMinutes / 256), byte f.runMinutes]
    (Admits .view s →
      exec (.fanQuery tag [0xFF]) s
        = .next (r.told tag
            (byte s.fans.account :: u16 s.items.supplyLimit
              ++ (match List.find? (fun e : Nat × Fan => e.2.state == .starting) s.fans.fans with
                | some e => [byte e.1, 0]
                | none =>
                  match List.find? (fun e : Nat × Fan => e.2.speedup) s.fans.fans with
                  | some e => [byte e.1, 1]
                  | none => [0xFF, 0xFF])
              ++ (match s.fans.lastGrant with | some t => 1 :: u16 (min 65535 (s.now - t)) | none => [0])
              ++ [byte s.fans.activePlan, (match s.fans.source with | .base => 0 | .alarm _ => 1 | .forced => 2),
                (match s.fans.source with | .alarm z => byte z | .base | .forced => 0xFF), orFF s.fans.forcedPlan,
                byte s.fans.basePlan, byte s.fans.queue.length]
              ++ s.fans.queue.flatMap (fun e => [byte e.fan, byte (entryKindCode e.kind), byte (entryClassCode e.cls)])
              ++ (List.range 24).flatMap fun z =>
                  match s.zone z, s.fans.zones.get z with
                  | some x, some y => [byte y.available, byte y.steps, byte x.unventilated.toNat]
                  | _, _ => [0, 0, 0])))
    ∧ (48 ≤ i.toNat →
        (Admits service s →
          exec (.fanHold tag [i]) s = .next (r.turnedAway tag .outOfRange)
          ∧ exec (.fanFree tag [i]) s = .next (r.turnedAway tag .outOfRange))
        ∧ (Admits .operator s → exec (.fanClear tag [i]) s = .next (r.turnedAway tag .outOfRange))
        ∧ (Admits .view s → i ≠ 0xFF → exec (.fanQuery tag [i]) s = .next (r.turnedAway tag .outOfRange)))
    ∧ (i.toNat < 48 → s.fan i.toNat = none →
        (Admits service s →
          exec (.fanHold tag [i]) s = .next (r.turnedAway tag .notDefined)
          ∧ exec (.fanFree tag [i]) s = .next (r.turnedAway tag .notDefined))
        ∧ (Admits .operator s → exec (.fanClear tag [i]) s = .next (r.turnedAway tag .notDefined))
        ∧ (Admits .view s → exec (.fanQuery tag [i]) s = .next (r.turnedAway tag .notDefined)))
    ∧ ∀ f, i.toNat < 48 → s.fan i.toNat = some f →
      (Admits .view s →
          exec (.fanQuery tag [i]) s
            = .next (r.told tag
                (definition f.defn ++ run f
                  ++ (List.range 8).map (fun p => byte (planEntryCode ((s.fans.plans.getD p []).getD i.toNat .forward)))
                  ++ [orFF ((s.fans.zones.get f.defn.zone).bind fun x => x.duty.findIdx? (· == i.toNat))]
                  ++ (match s.fans.queue.findIdx? fun e => e.fan == i.toNat with
                    | some k =>
                      match s.fans.queue[k]? with
                      | some e => [byte (entryKindCode e.kind), byte (entryClassCode e.cls), byte k]
                      | none => [0xFF, 0xFF, 0xFF]
                    | none => [0xFF, 0xFF, 0xFF])
                  ++ match timer f with | some t => u16 t | none => [0xFF, 0xFF])))
      ∧ (Admits service s →
          (f.state = .faulted → f.cause = some .link →
            exec (.fanHold tag [i]) s = .next (r.turnedAway tag .conflict))
          ∧ (f.state = .held → exec (.fanHold tag [i]) s = .next (State.done tag false r))
          ∧ (f.state ≠ .held → (f.state = .faulted → f.cause ≠ some .link) →
            exec (.fanHold tag [i]) s
              = .next (State.done tag false ((r.stopFan i.toNat .held none 0).remapEvaluate f.defn.zone)))
          ∧ (f.state ≠ .held → exec (.fanFree tag [i]) s = .next (State.done tag false r))
          ∧ (f.state = .held →
            exec (.fanFree tag [i]) s
              = .next (State.done tag false
                  ((r.changeFan i.toNat f
                    (if s.nodeLost f.defn.node then { f with state := .faulted, cause := some .link, heldLoad := 0 }
                    else if f.lastStop + f.defn.rundown ≤ s.now then { f with state := .off }
                    else { f with state := .rundown, rest := f.defn.rundown })).remapEvaluate f.defn.zone))))
      ∧ (Admits .operator s →
          (f.state ≠ .faulted → exec (.fanClear tag [i]) s = .next (State.done tag false r))
          ∧ (f.state = .faulted → (∀ x, s.node f.defn.node = some x → x.state ≠ .online) →
            exec (.fanClear tag [i]) s = .next (r.turnedAway tag .conflict))
          ∧ (f.state = .faulted → ∀ x, s.node f.defn.node = some x → x.state = .online →
            exec (.fanClear tag [i]) s
              = .next (State.done tag false ((r.stopFan i.toNat .rundown none 0).remapEvaluate f.defn.zone))))

/-- R71, R72: FAN-DEF clamps its tuning fields, creates a fan in RUNDOWN with its stop stamped now, gives a defined
fan its new fields, and removes one that is OFF or HELD; each check refuses with its code. The field `rest` (log 11),
the direction FORWARD and speed LOW of a new fan (log 13), the old zone before the new one of a fan that moves (log
41) and the exercise flag that clears (log 18) are the model's. -/
def Obligations.FanDefFollowsItsRules : Prop :=
  ∀ (s : State) (tag i fl z l a h sl ll hl r1 r0 p : Byte), Admits .installer s →
    let r := s.framePassed
    let c : Instr := .fanDef tag [i, fl, z, l, a, h, sl, ll, hl, r1, r0, p]
    (48 ≤ i.toNat → exec c s = .next (r.turnedAway tag .outOfRange))
    ∧ (i.toNat < 48 → fl.getLsbD 0 = true →
        (s.fan i.toNat = none → exec c s = .next (r.turnedAway tag .notDefined))
        ∧ ∀ f, s.fan i.toNat = some f →
          (f.state ≠ .off → f.state ≠ .held → exec c s = .next (r.turnedAway tag .conflict))
          ∧ (f.state = .off ∨ f.state = .held →
              exec c s
                = .next (State.done tag false
                    ((({ r with fans := { s.fans with fans := s.fans.fans.del i.toNat } } : State).leaveDuty i.toNat
                      f.defn.zone).afterFanDef i.toNat [f.defn.zone]))))
    ∧ (i.toNat < 48 → fl.getLsbD 0 = false →
        (24 ≤ z.toNat ∨ nodeOf l.toNat a.toNat = none ∨ fanDirOf h.toNat = none ∨ policyOf p.toNat = none →
          exec c s = .next (r.turnedAway tag .outOfRange))
        ∧ ∀ n home policy, z.toNat < 24 → nodeOf l.toNat a.toNat = some n → fanDirOf h.toNat = some home →
          policyOf p.toNat = some policy →
          (s.zone z.toNat = none ∨ s.node n = none → exec c s = .next (r.turnedAway tag .notDefined))
          ∧ ∀ zr x, s.zone z.toNat = some zr → s.node n = some x →
            (x.defn.role ≠ .fan ∨ (∃ o ∈ s.fans.fans, o.1 ≠ i.toNat ∧ o.2.defn.node = n) →
              exec c s = .next (r.turnedAway tag .conflict))
            ∧ (x.defn.role = .fan → (∀ o ∈ s.fans.fans, o.2.defn.node = n → o.1 = i.toNat) →
              let start := max 1 sl.toNat
              let low := min start (max 1 ll.toNat)
              let high := max low (max 1 hl.toNat)
              let rundown := max 10 (min 600 (nat16 r1 r0))
              let d : FanDefn := ⟨z.toNat, n, home, start, low, high, rundown, policy⟩
              let clamped :=
                start != sl.toNat || low != ll.toNat || high != hl.toNat || rundown != nat16 r1 r0
              (s.fan i.toNat = none →
                exec c s
                  = .next (State.done tag clamped
                      (((({ r with
                            fans :=
                              { s.fans with
                                fans :=
                                  s.fans.fans.put i.toNat
                                    { defn := d, state := .rundown, want := .off, exercise := false
                                      direction := .forward, speed := .low, speedup := false, speedupFailed := false
                                      lastStop := s.now, lastGrant := none, runningSince := none, holdStart := none
                                      cause := none, heldLoad := 0, report := none, runMinutes := 0, rest := rundown
                                      leftover := 0, minuteStart := none } } } : State).post n).joinDuty i.toNat
                          z.toNat).afterFanDef i.toNat [z.toNat])))
              ∧ ∀ f, s.fan i.toNat = some f →
                (f.defn.zone ≠ z.toNat ∨ f.defn.node ≠ n → f.state ≠ .off → f.state ≠ .held →
                  exec c s = .next (r.turnedAway tag .conflict))
                ∧ (f.defn.zone ≠ z.toNat → f.state = .off ∨ f.state = .held →
                  let g : Fan :=
                    if f.state = .off ∧ s.now < f.lastStop + rundown then
                      { f with defn := d, state := .rundown, exercise := false, rest := rundown }
                    else { f with defn := d }
                  let u := r.changeFan i.toNat f g
                  let v := if g.state = f.state then u else u.dequeue i.toNat
                  exec c s
                    = .next (State.done tag clamped
                        (((v.leaveDuty i.toNat f.defn.zone).joinDuty i.toNat z.toNat).afterFanDef i.toNat
                          [f.defn.zone, z.toNat])))
                ∧ (f.defn.zone = z.toNat → f.defn.node = n ∨ f.state = .off ∨ f.state = .held →
                  (f.state = .starting ∨ f.state = .running →
                    let g : Fan := { f with defn := d }
                    (s.items.supplyLimit < s.fans.account + g.load - f.load →
                      exec c s = .next (r.turnedAway tag .limitInUse))
                    ∧ (s.fans.account + g.load - f.load ≤ s.items.supplyLimit →
                      exec c s
                        = .next (State.done tag clamped ((r.changeFan i.toNat f g).afterFanDef i.toNat [z.toNat]))))
                  ∧ (f.state = .held ∨ f.state = .faulted →
                      exec c s
                        = .next (State.done tag clamped
                            ((r.changeFan i.toNat f { f with defn := d }).afterFanDef i.toNat [z.toNat])))
                  ∧ (f.state = .rundown →
                      exec c s
                        = .next (State.done tag clamped
                            ((r.changeFan i.toNat f { f with defn := d, rest := max f.rest rundown }).afterFanDef
                              i.toNat [z.toNat])))
                  ∧ (f.state = .off ∨ f.state = .queued →
                      exec c s
                        = .next (State.done tag clamped
                            ((if s.now < f.lastStop + rundown then
                                (r.changeFan i.toNat f
                                  { f with
                                    defn := d, state := .rundown, exercise := false, rest := rundown }).dequeue i.toNat
                              else r.changeFan i.toNat f { f with defn := d }).afterFanDef i.toNat [z.toNat]))))))

/-! ## The Occupancy Unit -/

/-- R78, R79, R80: how a bay takes a reading: agreement, the same candidate, a new candidate, confirmation at K reads,
and the bay OUT_OF_SERVICE that keeps its state while its counter stops at K. R82, R85: how a bay's change moves its
contribution between the counts: one leaves the count of the old zone, class and state, one enters that of the new,
and every other count stays; the zones are marked. -/
def Obligations.BayDebounceAndCounts : Prop :=
  (∀ (now k : Nat) (r : BayReading) (b : Bay), 1 ≤ k →
    let agree :=
      (r = .vacant ∧ b.state = .free) ∨ (r = .present ∧ b.state = .occupied)
        ∨ ((r = .fault ∨ r = .notFitted) ∧ b.state = .unknown)
    let count := if b.candidate = some r then b.counter + 1 else 1
    (b.state ≠ .outOfService → agree → b.debounce now k r = { b with counter := 0 })
    ∧ (b.state ≠ .outOfService → ¬ agree → count < k →
        b.debounce now k r = { b with candidate := some r, counter := count })
    ∧ (b.state ≠ .outOfService → ¬ agree → k ≤ count →
        b.debounce now k r
            = { b with
                candidate := some r, counter := 0, lastChange := now
                state := match r with | .vacant => .free | .present => .occupied | .fault | .notFitted => .unknown }
        ∧ (b.debounce now k r).state ≠ b.state)
    ∧ (b.state = .outOfService →
        (b.candidate = some r →
          b.debounce now k r = { b with counter := if b.counter < k then b.counter + 1 else k })
        ∧ (b.candidate ≠ some r → b.debounce now k r = { b with candidate := some r, counter := 1 })))
  ∧ ∀ (s : State) (i : Nat) (old new : Bay),
    let same := old.state = new.state ∧ old.defn.zone = new.defn.zone ∧ old.defn.cls = new.defn.cls
    let t := s.changeBay i old new
    t.occ.bays = s.occ.bays.put i new
    ∧ (same → t.occ.counts = s.occ.counts ∧ t.port = s.port)
    ∧ (¬ same → 1 ≤ ((s.counts old.defn.zone).get old.defn.cls).get old.state →
        (((t.counts old.defn.zone).get old.defn.cls).get old.state + 1
            = ((s.counts old.defn.zone).get old.defn.cls).get old.state)
        ∧ (((t.counts new.defn.zone).get new.defn.cls).get new.state
            = ((s.counts new.defn.zone).get new.defn.cls).get new.state + 1)
        ∧ (∀ z c st, (z, c, st) ≠ (old.defn.zone, old.defn.cls, old.state) →
            (z, c, st) ≠ (new.defn.zone, new.defn.cls, new.state) →
            ((t.counts z).get c).get st = ((s.counts z).get c).get st)
        ∧ Subject.zone old.defn.zone ∈ t.port.notes ∧ Subject.zone new.defn.zone ∈ t.port.notes)
    ∧ t = { s with occ := { s.occ with bays := t.occ.bays, counts := t.occ.counts }, port := { s.port with notes := t.port.notes } }

/-- R77, R79, R81: a fresh strip reading debounces every bay of the node by the reading of its channel, in ascending
id; each bay event hands one traffic event and one presence trigger, and each changed free count one delivery. R82,
R79: each bay that changes its state moves one bay between two counts of its zone and class, which stay the numbers of
the bays, and only the zones of those bays are marked. The ramps stay, and nothing outside the Occupancy Unit changes
but the note set. A reading with READY clear changes nothing. The order of what is handed on is the model's (log 2). -/
def Obligations.StripReadingDebouncesEveryBay : Prop :=
  ∀ (s : State) (n : NodeId) (payload : List Byte), s.handed = [] → payload.length = 6 →
    exec (.bayStripReading n false payload) s = .next (settle s)
    ∧ (Table.wf s.occ.bays = true →
        let readings := (payload.flatMap quads).map bayReadingOf
        let after (b : Bay) : Bay := b.debounce s.now s.items.confirmation (readings.getD b.defn.channel .fault)
        let changed := s.occ.bays.filter fun e => e.2.defn.node = n ∧ (after e.2).state ≠ e.2.state
        ∃ u, exec (.bayStripReading n true payload) s = .next (settle u)
          ∧ (∀ j, u.occ.bays.get j
              = (s.occ.bays.get j).map fun b => if b.defn.node = n then after b else b)
          ∧ u.occ.ramps = s.occ.ramps
          ∧ u.occ.counts
            = (changed.foldl
                (fun t e =>
                  (t.recordCount e.2.defn.zone e.2.defn.cls e.2.state (· - 1)).recordCount e.2.defn.zone e.2.defn.cls
                    (after e.2).state (· + 1)) s).occ.counts
          ∧ (CountsSound s.occ → ∀ z c st, ((u.counts z).get c).get st = bayTally u.occ.bays z c st)
          ∧ u.port.notes
            = (s.markAll (List.map (fun e : Nat × Bay => Subject.zone e.2.defn.zone) changed)).port.notes
          ∧ u.handed
            = (s.occ.bays.filter fun e => e.2.defn.node = n).flatMap (fun e =>
                  if (e.2.state = .free ∧ (after e.2).state = .occupied)
                      ∨ (e.2.state = .occupied ∧ (after e.2).state = .free) then
                    [.trafficEvent e.2.defn.zone, .presenceTrigger (.bay e.1)]
                  else [])
              ++ countDeliveries s u
          ∧ (∀ z c m, Instr.countDelivery z c m ∈ countDeliveries s u ↔
              z < 24 ∧ ((u.counts z).get c).free = m ∧ ((s.counts z).get c).free ≠ m)
          ∧ u = { s with occ := u.occ, handed := u.handed, port := { s.port with notes := u.port.notes } })

/-- R83, R86: what the loss, the LOOP-RESET and the restart of a strip's node, and BAY-SERVICE OUT and IN, do to the
bays they concern; none of them is a bay event; the changed free counts are handed on. R82, R79: each bay that changes
its state moves one bay between two counts of its zone and class, which stay the numbers of the bays, only the zones
of those bays are marked, and the ramps stay. The order of the deliveries among zones and classes is the model's (log
2). -/
def Obligations.BayNodeEventsAndServiceSetTheBays : Prop :=
  ∀ (s : State), s.handed = [] → Table.wf s.occ.bays = true →
    let changes (start u : State) (concerned : Nat → Bay → Prop) [∀ j, DecidablePred (concerned j)]
        (f : Bay → Bay) : Prop :=
      let changed := s.occ.bays.filter fun e => concerned e.1 e.2 ∧ (f e.2).state ≠ e.2.state
      (∀ j b, s.occ.bays.get j = some b → concerned j b → u.occ.bays.get j = some (f b))
      ∧ (∀ j b, s.occ.bays.get j = some b → ¬ concerned j b → u.occ.bays.get j = some b)
      ∧ (∀ j, s.occ.bays.get j = none → u.occ.bays.get j = none)
      ∧ u.occ.ramps = s.occ.ramps
      ∧ u.occ.counts
        = (changed.foldl
            (fun t e =>
              (t.recordCount e.2.defn.zone e.2.defn.cls e.2.state (· - 1)).recordCount e.2.defn.zone e.2.defn.cls
                (f e.2).state (· + 1)) s).occ.counts
      ∧ (CountsSound s.occ → ∀ z c st, ((u.counts z).get c).get st = bayTally u.occ.bays z c st)
      ∧ u.port.notes
        = (start.markAll (List.map (fun e : Nat × Bay => Subject.zone e.2.defn.zone) changed)).port.notes
      ∧ u.handed = countDeliveries s u
      ∧ u = { start with occ := u.occ, handed := u.handed, port := { start.port with notes := u.port.notes } }
    let lost (b : Bay) : Bay :=
      { b with
        candidate := none, counter := 0
        state := if b.state = .outOfService then .outOfService else .unknown
        lastChange := if b.state = .free ∨ b.state = .occupied then s.now else b.lastChange }
    (∀ n : NodeId,
      (∃ u, exec (.bayNodeLost n) s = .next (settle u) ∧ changes s u (fun _ b => b.defn.node = n) lost)
      ∧ (∃ u, exec (.bayNodeReset n) s = .next (settle u) ∧ changes s u (fun _ b => b.defn.node = n) lost)
      ∧ ∃ u, exec (.bayNodeRestart n) s = .next (settle u)
          ∧ changes s u (fun _ b => b.defn.node = n) fun b => { b with candidate := none, counter := 0 })
    ∧ ∀ (tag f1 f0 l1 l0 d : Byte),
      Admits (if s.items.editService then .operator else .installer) s →
      let c : Instr := .bayService tag [f1, f0, l1, l0, d]
      let first := nat16 f1 f0
      let last := nat16 l1 l0
      (2048 ≤ first ∨ 2048 ≤ last ∨ last < first ∨ 2 ≤ d.toNat →
        exec c s = .next (s.framePassed.turnedAway tag .outOfRange))
      ∧ (first ≤ last → last < 2048 → d.toNat < 2 →
          ((∀ j, first ≤ j → j ≤ last → s.occ.bays.get j = none) →
            exec c s = .next (s.framePassed.turnedAway tag .notDefined))
          ∧ ((∃ j, first ≤ j ∧ j ≤ last ∧ s.occ.bays.get j ≠ none) →
              ∃ u, exec c s = .next (State.done tag false u)
                ∧ changes s.framePassed u (fun j _ => first ≤ j ∧ j ≤ last) fun b =>
                    if d = 0 then
                      if b.state = .outOfService then b else { b with state := .outOfService, lastChange := s.now }
                    else if b.state = .outOfService then
                      { b with state := .unknown, candidate := none, counter := 0, lastChange := s.now }
                    else b))

/-- R84, R85: BAY-DEF creates a bay in UNKNOWN, moves one, changes its class alone, leaves one whose fields are
unchanged, and removes one; each check refuses with its code. The order of the deliveries among zones and classes is
the model's (log 2). -/
def Obligations.BayDefFollowsItsRules : Prop :=
  ∀ (s : State) (tag b1 b0 f z l a ch k : Byte), Admits .installer s →
    let r := s.framePassed
    let i := nat16 b1 b0
    let c : Instr := .bayDef tag [b1, b0, f, z, l, a, ch, k]
    (2048 ≤ i → exec c s = .next (r.turnedAway tag .outOfRange))
    ∧ (i < 2048 → f.getLsbD 0 = true →
        (s.occ.bays.get i = none → exec c s = .next (r.turnedAway tag .notDefined))
        ∧ ∀ b, s.occ.bays.get i = some b →
          exec c s
            = .next (State.done tag false
                (((({ r with occ := { s.occ with bays := s.occ.bays.del i } } : State).recordCount b.defn.zone
                    b.defn.cls b.state (· - 1)).mark (.zone b.defn.zone)).handCounts s)))
    ∧ (i < 2048 → f.getLsbD 0 = false →
        (24 ≤ z.toNat ∨ 24 ≤ ch.toNat ∨ nodeOf l.toNat a.toNat = none ∨ 4 ≤ k.toNat →
          exec c s = .next (r.turnedAway tag .outOfRange))
        ∧ ∀ n cls, z.toNat < 24 → ch.toNat < 24 → nodeOf l.toNat a.toNat = some n → classOf k.toNat = some cls →
          (s.zone z.toNat = none ∨ s.node n = none → exec c s = .next (r.turnedAway tag .notDefined))
          ∧ ∀ zr x, s.zone z.toNat = some zr → s.node n = some x →
            (x.defn.role ≠ .bay
                ∨ (∃ o ∈ s.occ.bays, o.1 ≠ i ∧ o.2.defn.node = n ∧ o.2.defn.channel = ch.toNat) →
              exec c s = .next (r.turnedAway tag .conflict))
            ∧ (x.defn.role = .bay →
                (∀ o ∈ s.occ.bays, o.2.defn.node = n → o.2.defn.channel = ch.toNat → o.1 = i) →
              let d : BayDefn := { zone := z.toNat, node := n, channel := ch.toNat, cls := cls }
              let fresh : Bay := { defn := d, state := .unknown, candidate := none, counter := 0, lastChange := s.now }
              (s.occ.bays.get i = none →
                exec c s
                  = .next (State.done tag false
                      (((({ r with occ := { s.occ with bays := s.occ.bays.put i fresh } } : State).recordCount
                          z.toNat cls .unknown (· + 1)).mark (.zone z.toNat)).handCounts s)))
              ∧ ∀ b, s.occ.bays.get i = some b →
                (b.defn = d → exec c s = .next (State.done tag false r))
                ∧ (b.defn ≠ d →
                    exec c s
                      = .next (State.done tag false
                          ((r.changeBay i b
                            (if b.defn.zone = z.toNat ∧ b.defn.node = n ∧ b.defn.channel = ch.toNat then
                              { b with defn := d }
                            else fresh)).handCounts s)))))

/-- R87, R88: BAY-QUERY and the four forms of COUNT-QUERY tell the records field by field and change no state but the
reply; their refusals. The layout of DATA is the model's where the spec leaves it open (logs 10 and 12). -/
def Obligations.BayAndCountQueriesTell : Prop :=
  ∀ (s : State) (tag : Byte), Admits .view s →
    let r := s.framePassed
    let byte (n : Nat) : Byte := BitVec.ofNat 8 n
    let orFF (o : Option Nat) : Byte := match o with | some n => byte n | none => 0xFF
    let told (count : BayClass → (Counts → Nat) → Nat) : List Byte :=
      let total (k : Counts → Nat) : Nat :=
        count .standard k + count .wide k + count .charging k + count .accessible k
      [BayClass.standard, .wide, .charging, .accessible].flatMap (fun c =>
          u16 (count c Counts.free) ++ u16 (count c Counts.occupied) ++ u16 (count c Counts.unknown)
            ++ u16 (count c Counts.outOfService))
        ++ u16 (total Counts.free) ++ u16 (total Counts.occupied) ++ u16 (total Counts.unknown)
        ++ u16 (total Counts.outOfService)
    let summed (zones : List Nat) : List Byte := told fun c k => (zones.map fun z => k ((s.counts z).get c)).sum
    (∀ f1 f0 n : Byte,
      (2048 ≤ nat16 f1 f0 ∨ n = 0 ∨ 16 < n.toNat →
        exec (.bayQuery tag [f1, f0, n]) s = .next (r.turnedAway tag .outOfRange))
      ∧ (nat16 f1 f0 < 2048 → 1 ≤ n.toNat → n.toNat ≤ 16 →
          exec (.bayQuery tag [f1, f0, n]) s
            = .next (r.told tag ((List.range (min n.toNat (2048 - nat16 f1 f0))).flatMap fun k =>
                match s.occ.bays.get (nat16 f1 f0 + k) with
                | none => [0]
                | some b =>
                  [1, byte b.defn.zone, byte (loopCode b.defn.node.loop), byte b.defn.node.addr, byte b.defn.channel,
                    byte (classCode b.defn.cls), byte (bayStateCode b.state), byte (bayCandidateCode b.candidate),
                    byte b.counter] ++ u16 (min 65535 (s.now - b.lastChange))))))
    ∧ ∀ x : Byte,
      (24 ≤ x.toNat → exec (.countQuery tag [0, x]) s = .next (r.turnedAway tag .outOfRange))
      ∧ (x.toNat < 24 → s.zone x.toNat = none → exec (.countQuery tag [0, x]) s = .next (r.turnedAway tag .notDefined))
      ∧ (∀ z, x.toNat < 24 → s.zone x.toNat = some z →
          exec (.countQuery tag [0, x]) s
            = .next (r.told tag
                (told (fun c k => k ((s.counts x.toNat).get c))
                  ++ [byte ((z.coAlarm || z.no2Alarm).toNat + 2 * z.hostClosed.toNat)])))
      ∧ (8 ≤ x.toNat → exec (.countQuery tag [1, x]) s = .next (r.turnedAway tag .outOfRange))
      ∧ (x.toNat < 8 →
          let zones := (s.air.zones.filter fun e => e.2.defn.level = x.toNat).map Prod.fst
          exec (.countQuery tag [1, x]) s
            = .next (r.told tag (summed zones ++ byte zones.length :: zones.map byte)))
      ∧ exec (.countQuery tag [2, x]) s = .next (r.told tag (summed (List.map Prod.fst s.air.zones)))
      ∧ (32 ≤ x.toNat → exec (.countQuery tag [3, x]) s = .next (r.turnedAway tag .outOfRange))
      ∧ (x.toNat < 32 → s.occ.ramps.get x.toNat = none →
          exec (.countQuery tag [3, x]) s = .next (r.turnedAway tag .notDefined))
      ∧ (∀ p, x.toNat < 32 → s.occ.ramps.get x.toNat = some p →
          exec (.countQuery tag [3, x]) s
            = .next (r.told tag
                ([x, byte (loopCode p.defn.node.loop), byte p.defn.node.addr, byte p.defn.zone, byte p.defn.upper,
                    byte p.defn.lower, orFF p.defn.lowerSign, orFF p.defn.upperSign, byte p.standing.toNat]
                  ++ u16 p.upTally ++ u16 p.downTally
                  ++ match p.last with
                    | some (.up, t) => 0 :: u32 t
                    | some (.down, t) => 1 :: u32 t
                    | some (.unknown, t) => 2 :: u32 t
                    | none => [0xFF, 0xFF, 0xFF, 0xFF, 0xFF])))
      ∧ ∀ form : Byte, 4 ≤ form.toNat → exec (.countQuery tag [form, x]) s = .next (r.turnedAway tag .outOfRange)

/-- R90, R91, R92, R143: a reply of a ramp detector is taken whole: the standing flag first, then the overflow, which
raises the tally of the node, held at 255, and marks the node, with READY set or clear and with any standing flag,
then the passage with its tally, its stamp and what it hands on; the loss of the node keeps the ramp and a LOOP-RESET
clears its standing flag. The order of what is handed on is the model's (log 2), and that a reply of no record changes
nothing its choice (log 25). -/
def Obligations.RampReplyIsTakenInOrder : Prop :=
  ∀ (s : State) (n : NodeId) (b : Byte), s.handed = [] →
    exec (.rampNodeLost n) s = .next (settle s)
    ∧ (s.rampOf n = none → ∀ ready,
        exec (.rampReading n ready [b]) s = .next (settle s) ∧ exec (.rampNodeReset n) s = .next (settle s))
    ∧ ∀ i r, s.rampOf n = some i → s.occ.ramps.get i = some r →
      let put (s : State) (r : Ramp) : State := { s with occ := { s.occ with ramps := s.occ.ramps.put i r } }
      let counted : State :=
        match b.getLsbD 1, s.node n with
        | true, some x =>
          let tally := match x.report with | .ramp k => k | .empty | .sign _ | .lamp _ => 0
          ({ s with
              loops :=
                { s.loops with
                  nodes := s.loops.nodes.put (nodeIndex n) { x with report := .ramp (min 255 (tally + 1)) } } } :
            State).mark (.node n)
        | _, _ => s
      (r.standing = false → exec (.rampNodeReset n) s = .next (settle s))
      ∧ (r.standing = true →
          exec (.rampNodeReset n) s
            = .next (settle
                { put s { r with standing := false } with handed := [.standingChange r.defn.zone i false] }))
      ∧ (b.getLsbD 0 = r.standing → exec (.rampReading n false [b]) s = .next (settle counted))
      ∧ (b.getLsbD 0 ≠ r.standing →
          exec (.rampReading n false [b]) s
            = .next (settle
                { put counted { r with standing := b.getLsbD 0 } with
                  handed := [.standingChange r.defn.zone i (b.getLsbD 0)] }))
      ∧ (let moved := if b.getLsbD 0 = r.standing then [] else [Instr.standingChange r.defn.zone i (b.getLsbD 0)]
         let common := [Instr.trafficEvent r.defn.zone, .presenceTrigger (.ramp i)]
         (b.toNat / 4 % 4 = 0 →
           exec (.rampReading n true [b]) s
             = .next (settle
                 { put counted
                     { r with
                       standing := b.getLsbD 0, upTally := min 65535 (r.upTally + 1), last := some (.up, s.now) } with
                   handed := moved ++ common ++ (match r.defn.upperSign with | some g => [.escort g] | none => []) }))
         ∧ (b.toNat / 4 % 4 = 1 →
           exec (.rampReading n true [b]) s
             = .next (settle
                 { put counted
                     { r with
                       standing := b.getLsbD 0, downTally := min 65535 (r.downTally + 1)
                       last := some (.down, s.now) } with
                   handed := moved ++ common ++ (match r.defn.lowerSign with | some g => [.escort g] | none => []) }))
         ∧ (2 ≤ b.toNat / 4 % 4 →
           exec (.rampReading n true [b]) s
             = .next (settle
                 { put counted { r with standing := b.getLsbD 0, last := some (.unknown, s.now) } with
                   handed := moved ++ common })))

/-- R93: RAMP-DEF creates a ramp, gives a defined one its new fields with the standing moves they bring, and removes
one; each check refuses with its code. The order of what is handed on is the model's (log 2). -/
def Obligations.RampDefFollowsItsRules : Prop :=
  ∀ (s : State) (tag i f l a z u w ls us : Byte), Admits .installer s →
    let r := s.framePassed
    let c : Instr := .rampDef tag [i, f, l, a, z, u, w, ls, us]
    let sign (b : Byte) : Option Nat := if b = 0xFF then none else some b.toNat
    let put (p : Ramp) : State := { r with occ := { s.occ with ramps := s.occ.ramps.put i.toNat p } }
    (32 ≤ i.toNat → exec c s = .next (r.turnedAway tag .outOfRange))
    ∧ (i.toNat < 32 → f.getLsbD 0 = true →
        (s.occ.ramps.get i.toNat = none → exec c s = .next (r.turnedAway tag .notDefined))
        ∧ ∀ p, s.occ.ramps.get i.toNat = some p →
          exec c s
            = .next (State.done tag false
                { r with
                  occ := { s.occ with ramps := s.occ.ramps.del i.toNat }
                  handed := if p.standing then [.standingChange p.defn.zone i.toNat false] else [] }))
    ∧ (i.toNat < 32 → f.getLsbD 0 = false →
        (24 ≤ z.toNat ∨ nodeOf l.toNat a.toNat = none ∨ 8 ≤ u.toNat ∨ 8 ≤ w.toNat ∨ w.toNat < u.toNat
            ∨ (ls ≠ 0xFF ∧ 64 ≤ ls.toNat) ∨ (us ≠ 0xFF ∧ 64 ≤ us.toNat) →
          exec c s = .next (r.turnedAway tag .outOfRange))
        ∧ ∀ n, z.toNat < 24 → nodeOf l.toNat a.toNat = some n → u.toNat ≤ w.toNat → w.toNat < 8 →
          ls = 0xFF ∨ ls.toNat < 64 → us = 0xFF ∨ us.toNat < 64 →
          (s.zone z.toNat = none ∨ s.node n = none → exec c s = .next (r.turnedAway tag .notDefined))
          ∧ ∀ zr x, s.zone z.toNat = some zr → s.node n = some x →
            (x.defn.role ≠ .ramp ∨ (∃ o ∈ s.occ.ramps, o.1 ≠ i.toNat ∧ o.2.defn.node = n) →
              exec c s = .next (r.turnedAway tag .conflict))
            ∧ (x.defn.role = .ramp → (∀ o ∈ s.occ.ramps, o.2.defn.node = n → o.1 = i.toNat) →
              let d : RampDefn :=
                { node := n, zone := z.toNat, upper := u.toNat, lower := w.toNat, lowerSign := sign ls
                  upperSign := sign us }
              (s.occ.ramps.get i.toNat = none →
                exec c s
                  = .next (State.done tag false
                      (put { defn := d, standing := false, upTally := 0, downTally := 0, last := none })))
              ∧ ∀ p, s.occ.ramps.get i.toNat = some p →
                (p.defn.node ≠ n →
                  exec c s
                    = .next (State.done tag false
                        { put { p with defn := d, standing := false } with
                          handed := if p.standing then [.standingChange p.defn.zone i.toNat false] else [] }))
                ∧ (p.defn.node = n →
                  exec c s
                    = .next (State.done tag false
                        { put { p with defn := d } with
                          handed :=
                            if p.defn.zone ≠ z.toNat ∧ p.standing = true then
                              [.standingChange p.defn.zone i.toNat false, .standingChange z.toNat i.toNat true]
                            else [] }))))

/-! ## The Guidance Unit -/

/-- R98, R99: the offered figure, the text, the chosen direction and the arrow that a guidance view gives a sign. -/
def Obligations.SignDisplayFollowsTheView : Prop :=
  ∀ (view : List GuideZone) (d : SignDefn) (now : Nat),
    let entry (z : Nat) : GuideZone := view.getD z .initial
    let free (z : Nat) : Nat :=
      (if d.filter.standard then (entry z).free.standard else 0) + (if d.filter.wide then (entry z).free.wide else 0)
        + (if d.filter.charging then (entry z).free.charging else 0)
        + (if d.filter.accessible then (entry z).free.accessible else 0)
    let offer (zs : List Nat) : Nat := (zs.map fun z => if (entry z).closed then 0 else free z).sum
    let r := displayOf view d now
    let anyOpen := ∃ z ∈ d.sources, (entry z).closed = false
    r.offered = min 9999 (offer d.sources)
    ∧ (r.text = .closed ↔ ¬ anyOpen)
    ∧ (r.text = .full ↔ anyOpen ∧ r.offered ≤ d.threshold)
    ∧ (∀ n, r.text = .number n ↔ anyOpen ∧ d.threshold < r.offered ∧ n = r.offered)
    ∧ (∀ i, r.chosen = some i ↔
        ∃ x, d.directions[i]? = some x ∧ 1 ≤ offer x.zones
          ∧ ∀ j y, j < i → d.directions[j]? = some y → offer y.zones = 0)
    ∧ (∀ i x, r.chosen = some i → d.directions[i]? = some x → r.arrow = x.arrow)
    ∧ (r.chosen = none → r.arrow = .none)

/-- R96, R97, R100, R101: a count delivery and a closure change enter the view, recompute exactly the signs that
depend on them, and post the nodes whose shown content changed; a record that keeps its offered figure, its text and
its chosen direction keeps its last change time. -/
def Obligations.SignEventsRecomputeTheSigns : Prop :=
  ∀ (s : State) (z : Nat), s.handed = [] → Table.wf s.guide.signs = true → s.guide.view.length = 24 → z < 24 →
    let zone := s.guide.view.getD z .initial
    let named (g : Sign) : Prop := z ∈ g.defn.sources ∨ ∃ r ∈ g.defn.directions, z ∈ r.zones
    let fresh (view : List GuideZone) (g : Sign) : Sign :=
      let d := displayOf view g.defn s.now
      let same := d.offered = g.display.offered ∧ d.text = g.display.text ∧ d.chosen = g.display.chosen
      { g with display := if same then { d with lastChange := g.display.lastChange } else d }
    let taken (u : State) (touched : Sign → Prop) [DecidablePred touched] : Prop :=
      (∀ j, u.guide.signs.get j
        = (s.guide.signs.get j).map fun g => if touched g then fresh u.guide.view g else g)
      ∧ u = { s.postAll (List.map (fun e : Nat × Sign => e.2.defn.node)
                (s.guide.signs.filter fun e => touched e.2 ∧ (fresh u.guide.view e.2).content ≠ e.2.content)) with
              guide := u.guide }
    (∀ (c : BayClass) (m : Nat),
      ∃ u, exec (.countDelivery z c m) s = .next (settle u)
        ∧ u.guide.view = s.guide.view.set z { zone with free := zone.free.set c m }
        ∧ taken u fun g => g.defn.filter.get c = true ∧ named g)
    ∧ ∀ closed : Bool,
      ∃ u, exec (.zoneChangeGuidance z closed) s = .next (settle u)
        ∧ u.guide.view = s.guide.view.set z { zone with closed := closed }
        ∧ taken u named

/-- R103, R104: a READY reply of a sign gives the condition and the echo, and posts the node when the echo differs
from the content of the present record and the sign is not DARK; a loss and a LOOP-RESET give UNKNOWN and no echo. A
reply with READY clear, or from a node that no sign names, changes nothing. That a reply of no record changes nothing
is the model's choice (log 25). -/
def Obligations.SignReportsAndNodeEventsAreTaken : Prop :=
  ∀ (s : State) (n : NodeId) (c t1 t0 a : Byte), s.handed = [] →
    exec (.signReport n false [c, t1, t0, a]) s = .next (settle s)
    ∧ ((∀ e ∈ s.guide.signs, e.2.defn.node ≠ n) →
        exec (.signReport n true [c, t1, t0, a]) s = .next (settle s)
        ∧ exec (.signNodeLost n) s = .next (settle s) ∧ exec (.signNodeReset n) s = .next (settle s))
    ∧ ∀ i g, s.guide.signs.get i = some g → g.defn.node = n → (∀ e ∈ s.guide.signs, e.2.defn.node = n → e.1 = i) →
      let put (h : Sign) : State := { s with guide := { s.guide with signs := s.guide.signs.put i h } }
      let cond : SignCondition := if c.toNat = 0 then .ok else if c.toNat = 1 then .partFailed else .dark
      let shown : SignContent := { text := nat16 t1 t0, arrow := a.toNat }
      let t := put { g with condition := cond, echo := some shown }
      let u := if g.condition = cond then t else t.setReport n (.sign cond)
      exec (.signReport n true [c, t1, t0, a]) s
        = .next (settle (if 2 ≤ c.toNat ∨ shown = g.content then u else u.post n))
      ∧ exec (.signNodeLost n) s = .next (settle (put { g with condition := .unknown, echo := none }))
      ∧ exec (.signNodeReset n) s = .next (settle (put { g with condition := .unknown, echo := none }))

/-- R105, R106, R107: SIGN-DEF creates a sign, changes one on its node, moves one to another node, leaves one whose
definition it repeats, and removes one; each check refuses with its code. SIGN-QUERY tells the record field by field.
The refusal of a class filter without a bit of a class or with another bit set is the model's reading (log 27), and
the layout of DATA its choice where the spec leaves it open (log 10), as is the order in which the two nodes of a sign
that moves are posted (log 41). -/
def Obligations.SignRequestsFollowTheirRules : Prop :=
  ∀ (s : State) (tag i : Byte),
    let r := s.framePassed
    let put (h : Sign) : State := { r with guide := { s.guide with signs := s.guide.signs.put i.toNat h } }
    let byte (n : Nat) : Byte := BitVec.ofNat 8 n
    let many (l : List Nat) : List Byte := byte l.length :: l.map byte
    (Admits .view s →
      (64 ≤ i.toNat → exec (.signQuery tag [i]) s = .next (r.turnedAway tag .outOfRange))
      ∧ (i.toNat < 64 → s.guide.signs.get i.toNat = none →
          exec (.signQuery tag [i]) s = .next (r.turnedAway tag .notDefined))
      ∧ ∀ g, i.toNat < 64 → s.guide.signs.get i.toNat = some g →
          let seen (z : Nat) : GuideZone := s.guide.view.getD z ⟨⟨0, 0, 0, 0⟩, false⟩
          let filtered (z : Nat) : Nat :=
            (if g.defn.filter.standard then (seen z).free.standard else 0)
              + (if g.defn.filter.wide then (seen z).free.wide else 0)
              + (if g.defn.filter.charging then (seen z).free.charging else 0)
              + (if g.defn.filter.accessible then (seen z).free.accessible else 0)
          exec (.signQuery tag [i]) s
            = .next (r.told tag
                ([i, byte (loopCode g.defn.node.loop), byte g.defn.node.addr, byte (signKindCode g.defn.kind)]
                  ++ many g.defn.sources
                  ++ [byte (g.defn.filter.standard.toNat + 2 * g.defn.filter.wide.toNat + 4 * g.defn.filter.charging.toNat
                        + 8 * g.defn.filter.accessible.toNat),
                    byte g.defn.threshold, byte g.defn.directions.length]
                  ++ g.defn.directions.flatMap (fun d => byte (arrowCode d.arrow) :: many d.zones ++ many d.lanes)
                  ++ u16 g.display.offered ++ u16 (signTextCode g.display.text)
                  ++ [(match g.display.chosen with | some k => byte k | none => 0xFF), byte (arrowCode g.display.arrow)]
                  ++ u16 (min 65535 (s.now - g.display.lastChange))
                  ++ g.defn.sources.flatMap (fun z => byte (seen z).closed.toNat :: u16 (filtered z))
                  ++ g.defn.directions.flatMap
                      (fun d => u16 ((d.zones.map fun z => if (seen z).closed then 0 else filtered z).sum))
                  ++ [byte (signConditionCode g.condition)]
                  ++ (match g.echo with | some e => 1 :: u16 e.text ++ [byte e.arrow] | none => [0])
                  ++ [(match s.node g.defn.node with | some x => byte (nodeStateCode x.state) | none => 0xFF),
                    byte ((s.loops.urgent.contains g.defn.node).toNat
                      + 2 * (match s.node g.defn.node with | some x => x.refreshOwed.toNat | none => 0))])))
    ∧ ∀ (f l a k fi th : Byte) (zs : List Byte) (ds : List (Byte × List Byte × List Byte)), Admits .installer s →
      zs.length < 256 → ds.length < 256 → (∀ d ∈ ds, d.2.1.length < 256 ∧ d.2.2.length < 256) →
      let listed (l : List Byte) : List Byte := BitVec.ofNat 8 l.length :: l
      let c : Instr :=
        .signDef tag ([i, f, l, a, k] ++ listed zs ++ [fi, th, BitVec.ofNat 8 ds.length]
          ++ ds.flatMap fun d => d.1 :: listed d.2.1 ++ listed d.2.2)
      let inRange : Prop :=
        nodeOf l.toNat a.toNat ≠ none ∧ k.toNat < 3 ∧ 1 ≤ zs.length ∧ zs.length ≤ 8 ∧ (∀ z ∈ zs, z.toNat < 24)
          ∧ 1 ≤ fi.toNat ∧ fi.toNat < 16 ∧ ds.length ≤ 3
          ∧ ∀ d ∈ ds, 1 ≤ d.1.toNat ∧ d.1.toNat ≤ 5 ∧ 1 ≤ d.2.1.length ∧ d.2.1.length ≤ 4
              ∧ (∀ z ∈ d.2.1, z.toNat < 24) ∧ d.2.2.length ≤ 8 ∧ ∀ x ∈ d.2.2, x.toNat < 192
      (64 ≤ i.toNat → exec c s = .next (r.turnedAway tag .outOfRange))
      ∧ (i.toNat < 64 → f.getLsbD 0 = true →
          (s.guide.signs.get i.toNat = none → exec c s = .next (r.turnedAway tag .notDefined))
          ∧ ∀ g, s.guide.signs.get i.toNat = some g →
            exec c s
              = .next (State.done tag false
                  (({ r with guide := { s.guide with signs := s.guide.signs.del i.toNat } } : State).post g.defn.node)))
      ∧ (i.toNat < 64 → f.getLsbD 0 = false →
          (¬ inRange → exec c s = .next (r.turnedAway tag .outOfRange))
          ∧ ∀ n, nodeOf l.toNat a.toNat = some n → inRange →
            ((∃ z ∈ zs ++ ds.flatMap (fun d => d.2.1), s.zone z.toNat = none) ∨ s.node n = none →
              exec c s = .next (r.turnedAway tag .notDefined))
            ∧ ∀ x, (∀ z ∈ zs ++ ds.flatMap (fun d => d.2.1), s.zone z.toNat ≠ none) → s.node n = some x →
              (x.defn.role ≠ .sign ∨ (∃ e ∈ s.guide.signs, e.1 ≠ i.toNat ∧ e.2.defn.node = n)
                  ∨ ¬ zs.Nodup ∨ (∃ d ∈ ds, ¬ d.2.1.Nodup ∨ ¬ d.2.2.Nodup) →
                exec c s = .next (r.turnedAway tag .conflict))
              ∧ (x.defn.role = .sign → (∀ e ∈ s.guide.signs, e.2.defn.node = n → e.1 = i.toNat) → zs.Nodup →
                  (∀ d ∈ ds, d.2.1.Nodup ∧ d.2.2.Nodup) →
                let d : SignDefn :=
                  { node := n
                    kind := if k.toNat = 0 then .count else if k.toNat = 1 then .arrow else .countArrow
                    sources := zs.map BitVec.toNat
                    filter := ⟨fi.getLsbD 0, fi.getLsbD 1, fi.getLsbD 2, fi.getLsbD 3⟩
                    threshold := min 99 th.toNat
                    directions := ds.map fun d =>
                      { arrow :=
                          if d.1.toNat = 1 then .left else if d.1.toNat = 2 then .right
                          else if d.1.toNat = 3 then .ahead else if d.1.toNat = 4 then .up else .down
                        zones := d.2.1.map BitVec.toNat, lanes := d.2.2.map BitVec.toNat } }
                let shown := displayOf s.guide.view d s.now
                let kept (g : Sign) : Display :=
                  if shown.offered = g.display.offered ∧ shown.text = g.display.text ∧ shown.chosen = g.display.chosen then
                    { shown with lastChange := g.display.lastChange }
                  else shown
                let answer := State.done tag (decide (99 < th.toNat))
                (s.guide.signs.get i.toNat = none →
                  exec c s
                    = .next (answer ((put { defn := d, display := shown, condition := .unknown, echo := none }).post n)))
                ∧ ∀ g, s.guide.signs.get i.toNat = some g →
                  (g.defn.node = n →
                    let h : Sign := { g with defn := d, display := kept g }
                    exec c s = .next (answer (if h.content = g.content then put h else (put h).post n)))
                  ∧ (g.defn.node ≠ n →
                    exec c s
                      = .next (answer
                          (((put { defn := d, display := kept g, condition := .unknown, echo := none }).post
                            g.defn.node).post n)))))

/-! ## The Lighting Controller -/

/-- R111, R116: the target and its cause, the code of a level under each polarity, the fade, the 24 bytes of a write,
and the in-flight levels that are taken with it. -/
def Obligations.LampTargetsAndContentFollowTheRules : Prop :=
  (∀ (s : State) (g : Machine.Group),
    let alarm := s.light.zoneAlarm.getD g.defn.zone false
    let present := ∃ t, g.presence = some t ∧ s.now < t
    let base := match s.light.mode with | .opened => s.items.openBase | .quiet => s.items.quietBase
    (∀ l, g.override = some l → s.targeted g = { g with target := l, cause := .override })
    ∧ (g.override = none → alarm = true → s.targeted g = { g with target := 1000, cause := .alarm })
    ∧ (g.override = none → alarm = false → present →
        s.targeted g = { g with target := g.defn.presenceLevel, cause := .presence })
    ∧ (g.override = none → alarm = false → ¬ present → s.targeted g = { g with target := base, cause := .base }))
  ∧ (∀ l, l ≤ 1000 →
      outputCode .normal l = l * 1023 / 1000 ∧ outputCode .inverted l + outputCode .normal l = 1023
      ∧ ∀ m, l ≤ m → outputCode .normal l ≤ outputCode .normal m)
  ∧ ∀ (s : State) (n : NodeId),
      let groups := s.light.groups
      (lampContent groups n).length = 24
      ∧ (∀ o, o < 8 →
          ((∀ e ∈ groups, e.2.defn.node = n → o ∉ e.2.defn.outputs) →
            ((lampContent groups n).drop (3 * o)).take 3 = [0, 0, 0])
          ∧ ∀ i g, (i, g) ∈ groups → g.defn.node = n → o ∈ g.defn.outputs →
            (∀ e ∈ groups, e.2.defn.node = n → o ∈ e.2.defn.outputs → e = (i, g)) →
            let fade :=
              match g.applied with
              | none => 0
              | some l => if g.target < l then g.defn.fadeTime else 0
            ((lampContent groups n).drop (3 * o)).take 3 = u16 (outputCode g.defn.polarity g.target) ++ u8 fade)
      ∧ (∀ j, (s.takeInFlight n).light.groups.get j
          = (groups.get j).map fun g => if g.defn.node = n then { g with inFlight := some g.target } else g)

/-- R110, R112 to R115, R122: a zone change, a presence trigger of a bay or a ramp, an escort, a presence expiry and
supervision expiry change the inputs of exactly the groups they concern, recompute their targets, and post the nodes
whose level changed. That an event of no record, or an expiry before its time, changes nothing is the model's choice
(logs 3 and 25), as is the ascending id in which the groups of one event are taken (log 39). -/
def Obligations.LightingEventsRetargetTheGroups : Prop :=
  ∀ s : State, s.handed = [] → Table.wf s.light.groups = true → s.light.zoneAlarm.length = 24 →
    let taken (u : State) (concerned : Nat → Machine.Group → Prop) [∀ i, DecidablePred (concerned i)] (f : Machine.Group → Machine.Group) : Prop :=
      (∀ j, u.light.groups.get j = (s.light.groups.get j).map fun g => if concerned j g then u.targeted (f g) else g)
      ∧ u.light.mode = s.light.mode
      ∧ u = { s.postAll (List.map (fun e : Nat × Machine.Group => e.2.defn.node)
                (s.light.groups.filter fun e => concerned e.1 e.2 ∧ (u.targeted (f e.2)).target ≠ e.2.target)) with
              light := u.light }
    let trigger (g : Machine.Group) : Machine.Group := { g with presence := some (s.now + g.defn.holdTime) }
    (∀ z b, z < 24 →
      ∃ u, exec (.zoneChangeLighting z b) s = .next (settle u)
        ∧ u.light.zoneAlarm = s.light.zoneAlarm.set z b ∧ taken u (fun _ g => g.defn.zone = z) id)
    ∧ (∀ b, ∃ u, exec (.presenceTrigger (.bay b)) s = .next (settle u) ∧ u.light.zoneAlarm = s.light.zoneAlarm
        ∧ taken u (fun _ g => (g.defn.bayRange.any fun r => decide (r.1 ≤ b) && decide (b ≤ r.2)) = true) trigger)
    ∧ (∀ r, ∃ u, exec (.presenceTrigger (.ramp r)) s = .next (settle u) ∧ u.light.zoneAlarm = s.light.zoneAlarm
        ∧ taken u (fun _ g => g.defn.ramp = some r) trigger)
    ∧ (∃ u, exec .supervisionExpiryLighting s = .next (settle u) ∧ u.light.zoneAlarm = s.light.zoneAlarm
        ∧ taken u (fun _ _ => True) fun g => { g with override := none })
    ∧ (∀ i g, s.light.groups.get i = some g →
        (∀ t, g.presence = some t → t ≤ s.now →
          ∃ u, exec (.presenceExpiry i) s = .next (settle u) ∧ u.light.zoneAlarm = s.light.zoneAlarm
            ∧ taken u (fun j _ => j = i) fun g => { g with presence := none })
        ∧ ((∀ t, g.presence = some t → s.now < t) → exec (.presenceExpiry i) s = .next (settle s)))
    ∧ (∀ i, s.light.groups.get i = none → exec (.presenceExpiry i) s = .next (settle s))
    ∧ ∀ sign : Nat,
      (s.guide.signs.get sign = none → exec (.escort sign) s = .next (settle s))
      ∧ ∀ x, s.guide.signs.get sign = some x →
        ((∀ k, x.display.chosen = some k → x.defn.directions[k]? = none) → exec (.escort sign) s = .next (settle s))
        ∧ ∀ k d, x.display.chosen = some k → x.defn.directions[k]? = some d → d.lanes.Nodup →
          ∃ u, exec (.escort sign) s = .next (settle u)
            ∧ (∀ j, u.light.groups.get j
                = (s.light.groups.get j).map fun g => if j ∈ d.lanes then u.targeted (trigger g) else g)
            ∧ u.light.zoneAlarm = s.light.zoneAlarm ∧ u.light.mode = s.light.mode
            ∧ u = { s.postAll (d.lanes.filterMap fun j =>
                      (s.light.groups.get j).bind fun g =>
                        if (u.targeted (trigger g)).target = g.target then none else some g.defn.node) with
                    light := u.light }

/-- R117, R118, R119: the outcome of a write, a READY report, the loss, the LOOP-RESET and the return of a luminaire
driver act on the groups that name the node and on no other; a report with READY clear changes nothing. The condition
UNKNOWN of an output that no group owns is the model's choice (log 15), and the place of each output in the report its
reading (log 44). -/
def Obligations.LampOutcomesReportsAndNodeEventsAreTaken : Prop :=
  ∀ (s : State) (n : NodeId), s.handed = [] →
    let on (f : Machine.Group → Machine.Group) : State :=
      { s with
        light :=
          { s.light with
            groups :=
              List.map (fun e : Nat × Machine.Group => (e.1, if e.2.defn.node = n then f e.2 else e.2)) s.light.groups } }
    let unknowns (g : Machine.Group) : List LampCondition := g.defn.outputs.map fun _ => .unknown
    (∀ accepted,
      exec (.lampWriteOutcome n accepted) s
        = .next (settle (on fun g =>
            { g with applied := if accepted then g.inFlight.or g.applied else g.applied, inFlight := none })))
    ∧ exec (.lampNodeLost n) s
        = .next (settle (on fun g => { g with applied := none, inFlight := none, conditions := unknowns g }))
    ∧ exec (.lampNodeReset n) s
        = .next (settle (on fun g => { g with applied := none, inFlight := none, conditions := unknowns g }))
    ∧ exec (.lampNodeReturn n) s = .next (settle (on fun g => { g with applied := none, inFlight := none }))
    ∧ ∀ b1 b0 : Byte,
        exec (.lampReport n false [b1, b0]) s = .next (settle s)
        ∧ let code (o : Nat) : Nat := (if o < 4 then b1 else b0).toNat / 4 ^ (3 - o % 4) % 4
          let reported (o : Nat) : LampCondition :=
            if 8 ≤ o then .unknown else if code o = 0 then .ok else if code o = 2 then .notFitted else .failed
          let t := on fun g => { g with conditions := g.defn.outputs.map reported }
          exec (.lampReport n true [b1, b0]) s
            = .next (settle
                (if nodeConditions s.light.groups n = nodeConditions t.light.groups n then t
                  else t.setReport n (.lamp (nodeConditions t.light.groups n))))

/-- R120, R121, R125: SITE-MODE sets the mode, hands it on and marks the site; GROUP-OVERRIDE and GROUP-RELEASE act on
every defined group of their range; GROUP-QUERY tells the record field by field; the refusals of each. The layout of
DATA is the model's where the spec leaves it open (log 10), as is the ascending id in which SITE-MODE retargets the
groups (log 39). -/
def Obligations.LightingRequestsFollowTheirRules : Prop :=
  ∀ (s : State) (tag : Byte),
    let r := s.framePassed
    let taken (start u : State) (concerned : Nat → Prop) [DecidablePred concerned] (f : Machine.Group → Machine.Group) : Prop :=
      (∀ j, u.light.groups.get j
        = (s.light.groups.get j).map fun g => if concerned j then u.targeted (f g) else g)
      ∧ u.light.zoneAlarm = s.light.zoneAlarm
      ∧ u = { start.postAll (List.map (fun e : Nat × Machine.Group => e.2.defn.node)
                (s.light.groups.filter fun e => concerned e.1 ∧ (u.targeted (f e.2)).target ≠ e.2.target)) with
              light := u.light }
    let byte (n : Nat) : Byte := BitVec.ofNat 8 n
    (Admits .operator s → Table.wf s.light.groups = true →
      (∀ m : Byte,
        (2 ≤ m.toNat → exec (.siteMode tag [m]) s = .next (r.turnedAway tag .outOfRange))
        ∧ ∀ mode : SiteMode, m.toNat = (match mode with | .opened => 0 | .quiet => 1) →
          (s.light.mode = mode → exec (.siteMode tag [m]) s = .next (State.done tag false r))
          ∧ (s.light.mode ≠ mode →
              ∃ u, exec (.siteMode tag [m]) s
                  = .next (State.done tag false (({ u with handed := [.siteModeFloorChange mode] } : State).mark .site))
                ∧ u.light.mode = mode ∧ taken r u (fun _ => True) id))
      ∧ ∀ a b v1 v0 : Byte,
        let level := nat16 v1 v0
        let overriding : Instr := .groupOverride tag [a, b, v1, v0]
        let back : Instr := .groupRelease tag [a, b]
        (192 ≤ a.toNat ∨ 192 ≤ b.toNat ∨ b.toNat < a.toNat →
          exec overriding s = .next (r.turnedAway tag .outOfRange) ∧ exec back s = .next (r.turnedAway tag .outOfRange))
        ∧ (a.toNat ≤ b.toNat → b.toNat < 192 →
          ((∀ j, a.toNat ≤ j → j ≤ b.toNat → s.light.groups.get j = none) →
            exec overriding s = .next (r.turnedAway tag .notDefined) ∧ exec back s = .next (r.turnedAway tag .notDefined))
          ∧ ((∃ j, a.toNat ≤ j ∧ j ≤ b.toNat ∧ s.light.groups.get j ≠ none) →
            (∃ u, exec overriding s = .next (State.done tag (decide (1000 < level)) u) ∧ u.light.mode = s.light.mode
              ∧ taken r u (fun j => a.toNat ≤ j ∧ j ≤ b.toNat) fun g => { g with override := some (min 1000 level) })
            ∧ ∃ u, exec back s = .next (State.done tag false u) ∧ u.light.mode = s.light.mode
              ∧ taken r u (fun j => a.toNat ≤ j ∧ j ≤ b.toNat) fun g => { g with override := none })))
    ∧ (Admits .view s → ∀ i : Byte,
      (192 ≤ i.toNat → exec (.groupQuery tag [i]) s = .next (r.turnedAway tag .outOfRange))
      ∧ (i.toNat < 192 → s.light.groups.get i.toNat = none →
          exec (.groupQuery tag [i]) s = .next (r.turnedAway tag .notDefined))
      ∧ ∀ g, i.toNat < 192 → s.light.groups.get i.toNat = some g →
          let orFFFF (o : Option Nat) : List Byte := match o with | some n => u16 n | none => [0xFF, 0xFF]
          let code := g.target * 1023 / 1000
          exec (.groupQuery tag [i]) s
            = .next (r.told tag
                ([i, byte g.defn.zone, byte (loopCode g.defn.node.loop), byte g.defn.node.addr,
                    byte g.defn.outputs.length]
                  ++ g.defn.outputs.map byte ++ [byte (polarityCode g.defn.polarity)]
                  ++ (match g.defn.bayRange with
                    | some (lo, hi) => u16 lo ++ u16 hi
                    | none => [0xFF, 0xFF, 0xFF, 0xFF])
                  ++ [match g.defn.ramp with | some p => byte p | none => 0xFF]
                  ++ u16 g.defn.presenceLevel ++ u16 g.defn.holdTime ++ u16 g.defn.fadeTime
                  ++ orFFFF g.override
                  ++ (match g.presence with
                    | some t => if s.now < t then u16 (t - s.now) else [0xFF, 0xFF]
                    | none => [0xFF, 0xFF])
                  ++ u16 g.target ++ [byte (targetCauseCode g.cause)]
                  ++ u16 (match g.defn.polarity with | .normal => code | .inverted => 1023 - code)
                  ++ u16 (match g.applied with
                      | some a => if a ≤ g.target then 0 else g.defn.fadeTime
                      | none => 0)
                  ++ orFFFF g.inFlight ++ orFFFF g.applied ++ g.conditions.map (fun c => byte (lampConditionCode c))
                  ++ [byte (s.light.zoneAlarm.getD g.defn.zone false).toNat, byte (siteModeCode s.light.mode),
                    (match s.node g.defn.node with | some x => byte (nodeStateCode x.state) | none => 0xFF),
                    byte ((s.loops.urgent.contains g.defn.node).toNat
                      + 2 * (match s.node g.defn.node with | some x => x.refreshOwed.toNat | none => 0))])))

/-- R123, R124: GROUP-DEF creates a group, changes one on its node, moves one to another node, leaves one whose
definition it repeats, and removes one; the tuning fields are clamped, and each check refuses with its code. That a
group that moves posts its old node first (log 41), and that the presence flags win over FFFFh and FFh (log 45), are
the model's choice. -/
def Obligations.GroupDefFollowsItsRules : Prop :=
  ∀ (s : State) (tag i f z l a p f1 f0 e1 e0 rm v1 v0 h1 h0 fd : Byte) (os : List Byte),
    Admits .installer s → os.length < 256 →
    let r := s.framePassed
    let c : Instr :=
      .groupDef tag ([i, f, z, l, a, BitVec.ofNat 8 os.length] ++ os ++ [p, f1, f0, e1, e0, rm, v1, v0, h1, h0, fd])
    let put (h : Machine.Group) : State := { r with light := { s.light with groups := s.light.groups.put i.toNat h } }
    let level := nat16 v1 v0
    let hold := nat16 h1 h0
    let inRange : Prop :=
      z.toNat < 24 ∧ nodeOf l.toNat a.toNat ≠ none ∧ 1 ≤ os.length ∧ os.length ≤ 8 ∧ (∀ o ∈ os, o.toNat < 8)
        ∧ p.toNat < 2 ∧ (f.getLsbD 1 = true → nat16 f1 f0 ≤ nat16 e1 e0 ∧ nat16 e1 e0 < 2048)
        ∧ (f.getLsbD 2 = true → rm.toNat < 32)
    (192 ≤ i.toNat → exec c s = .next (r.turnedAway tag .outOfRange))
    ∧ (i.toNat < 192 → f.getLsbD 0 = true →
        (s.light.groups.get i.toNat = none → exec c s = .next (r.turnedAway tag .notDefined))
        ∧ ∀ g, s.light.groups.get i.toNat = some g →
          exec c s
            = .next (State.done tag false
                (({ r with light := { s.light with groups := s.light.groups.del i.toNat } } : State).post g.defn.node)))
    ∧ (i.toNat < 192 → f.getLsbD 0 = false →
        (¬ inRange → exec c s = .next (r.turnedAway tag .outOfRange))
        ∧ ∀ n, nodeOf l.toNat a.toNat = some n → inRange →
          (s.zone z.toNat = none ∨ s.node n = none → exec c s = .next (r.turnedAway tag .notDefined))
          ∧ ∀ zr x, s.zone z.toNat = some zr → s.node n = some x →
            let outs := os.map BitVec.toNat
            (x.defn.role ≠ .lamp ∨ ¬ os.Nodup
                ∨ (∃ e ∈ s.light.groups, e.1 ≠ i.toNat ∧ e.2.defn.node = n ∧ ∃ o ∈ e.2.defn.outputs, o ∈ outs) →
              exec c s = .next (r.turnedAway tag .conflict))
            ∧ (x.defn.role = .lamp → os.Nodup →
                (∀ e ∈ s.light.groups, e.2.defn.node = n → (∃ o ∈ e.2.defn.outputs, o ∈ outs) → e.1 = i.toNat) →
              let d : GroupDefn :=
                { zone := z.toNat, node := n, outputs := outs
                  polarity := if p.toNat = 0 then .normal else .inverted
                  bayRange := if f.getLsbD 1 then some (nat16 f1 f0, nat16 e1 e0) else none
                  ramp := if f.getLsbD 2 then some rm.toNat else none
                  presenceLevel := min 1000 level, holdTime := max 5 (min 1800 hold), fadeTime := min 60 fd.toNat }
              let answer :=
                State.done tag (decide (1000 < level ∨ hold < 5 ∨ 1800 < hold ∨ 60 < fd.toNat))
              let unknowns := outs.map fun _ => LampCondition.unknown
              (s.light.groups.get i.toNat = none →
                exec c s
                  = .next (answer
                      ((put (s.targeted
                        { defn := d, override := none, presence := none, target := 0, cause := .base, inFlight := none
                          applied := none, conditions := unknowns })).post n)))
              ∧ ∀ g, s.light.groups.get i.toNat = some g →
                (g.defn = d → exec c s = .next (answer r))
                ∧ (g.defn ≠ d → g.defn.node = n →
                    let h := s.targeted
                      { g with
                        defn := d
                        conditions := outs.map fun o =>
                          if o ∈ g.defn.outputs then g.conditions.getD (g.defn.outputs.idxOf o) .unknown
                          else .unknown }
                    exec c s
                      = .next (answer
                          (if g.target ≠ h.target ∨ g.defn.polarity ≠ d.polarity ∨ g.defn.outputs ≠ outs then
                            (put h).post n
                          else put h)))
                ∧ (g.defn.node ≠ n →
                    exec c s
                      = .next (answer
                          (((put (s.targeted
                            { g with defn := d, inFlight := none, applied := none, conditions := unknowns })).post
                            g.defn.node).post n)))))

/-! ## The Loop Master -/

/-- R141, R142, R144: NODE-DEF makes an entry, gives one new setup values, makes one afresh under another role, and
removes one; each check refuses with its code. NODE-QUERY tells the entry, the loop or the queue field by field. The
layout of DATA (logs 10 and 12) and the voided transactions and retiring entries (logs 24 and 31) are the model's
where the spec leaves them open. -/
def Obligations.NodeRequestsFollowTheirRules : Prop :=
  ∀ (s : State) (tag l a : Byte),
    let r := s.framePassed
    let byte (n : Nat) : Byte := BitVec.ofNat 8 n
    (Admits .view s → ∀ f : Byte,
      (3 ≤ f.toNat → exec (.nodeQuery tag [f, l, a]) s = .next (r.turnedAway tag .outOfRange))
      ∧ (nodeOf l.toNat a.toNat = none → exec (.nodeQuery tag [0, l, a]) s = .next (r.turnedAway tag .outOfRange))
      ∧ (∀ n, nodeOf l.toNat a.toNat = some n →
          (s.node n = none → exec (.nodeQuery tag [0, l, a]) s = .next (r.turnedAway tag .notDefined))
          ∧ ∀ x, s.node n = some x → ∃ report : List Byte,
            (∀ c, x.report = .sign c → ∃ b : Byte, report = [byte (signConditionCode c), b])
            ∧ (∀ k, x.report = .ramp k → ∃ b : Byte, report = [byte k, b])
            ∧ (∀ c0 c1 c2 c3 c4 c5 c6 c7 : LampCondition, x.report = .lamp [c0, c1, c2, c3, c4, c5, c6, c7] →
                let code := lampConditionCode
                report
                  = [byte (code c0 * 64 + code c1 * 16 + code c2 * 4 + code c3),
                      byte (code c4 * 64 + code c5 * 16 + code c6 * 4 + code c7)])
            ∧ (x.report = .empty → report.length = 2 ∧ (x.defn.role = .ramp → report.head? = some 0))
            ∧ exec (.nodeQuery tag [0, l, a]) s
              = .next (r.told tag
                  ([byte (loopCode n.loop), byte n.addr, byte (roleCode x.defn.role), byte x.defn.setup.length]
                    ++ x.defn.setup ++ [byte (nodeStateCode x.state), byte x.failures, byte (failureCode x.lastFailure)]
                    ++ (match x.lastSeen with | some t => 1 :: u32 t | none => [0])
                    ++ [byte x.attention.toNat, byte x.setupDue.toNat, byte x.refreshOwed.toNat, byte x.retiring.toNat]
                    ++ report
                    ++ [match s.loops.urgent.findIdx? (· == n) with | some k => byte k | none => 0xFF])))
      ∧ (4 ≤ l.toNat → exec (.nodeQuery tag [1, l, a]) s = .next (r.turnedAway tag .outOfRange))
      ∧ (∀ k, loopOf l.toNat = some k →
          let x := s.line k
          exec (.nodeQuery tag [1, l, a]) s
            = .next (r.told tag
                (byte x.latch.toNat :: byte x.service.length :: x.service.map byte
                  ++ [byte x.empties, byte x.ignoredSince.isSome.toNat]
                  ++ u16 (match x.ignoredSince with | some t => t + 10 - s.now | none => 0)
                  ++ (List.range 31).map fun j =>
                      match s.node ⟨k, j + 1⟩ with | some y => byte (nodeStateCode y.state) | none => 0xFF)))
      ∧ (let owed (i : Nat) : Bool :=
          match s.loops.nodes.get i with | some x => x.refreshOwed && decide (i < 124) | none => false
        exec (.nodeQuery tag [2, l, a]) s
          = .next (r.told tag
              (byte s.loops.urgent.length :: s.loops.urgent.flatMap (fun n => [byte (loopCode n.loop), byte n.addr])
                ++ (List.range 16).map
                    (fun j => byte ((List.range 8).map fun b => if owed (8 * j + b) then 2 ^ (7 - b) else 0).sum)
                ++ [byte (min 255 s.loops.sinceList)]
                ++ match s.loops.tx with
                  | some t => [byte (loopCode t.node.loop), byte t.node.addr, byte (opCode t.op)]
                  | none => [0xFF, 0xFF, 0xFF]))))
    ∧ (Admits .installer s → ∀ (f p : Byte) (setup : List Byte), setup.length < 256 →
      let c : Instr := .nodeDef tag ([l, a, f, p, BitVec.ofNat 8 setup.length] ++ setup)
      let named (n : NodeId) : Prop :=
        (∃ e ∈ s.gas.heads, e.2.defn.node = n) ∨ (∃ e ∈ s.occ.bays, e.2.defn.node = n)
          ∨ (∃ e ∈ s.occ.ramps, e.2.defn.node = n) ∨ (∃ e ∈ s.fans.fans, e.2.defn.node = n)
          ∨ (∃ e ∈ s.light.groups, e.2.defn.node = n) ∨ ∃ e ∈ s.guide.signs, e.2.defn.node = n
      let voiding (n : NodeId) : State :=
        r.withLoops fun m =>
          { m with tx := m.tx.map fun t => if t.node = n ∧ t.op ≠ .rollcall then { t with voided := true } else t }
      (nodeOf l.toNat a.toNat = none → exec c s = .next (r.turnedAway tag .outOfRange))
      ∧ ∀ n, nodeOf l.toNat a.toNat = some n →
        let answer (t : State) := State.done tag false (t.mark (.node n))
        (f.getLsbD 0 = true →
          (s.node n = none → exec c s = .next (r.turnedAway tag .notDefined))
          ∧ (s.node n ≠ none → named n → exec c s = .next (r.turnedAway tag .conflict))
          ∧ (s.node n ≠ none → ¬ named n → exec c s = .next (answer ((voiding n).deleteNode n))))
        ∧ (f.getLsbD 0 = false →
          (6 ≤ p.toNat ∨ 8 < setup.length → exec c s = .next (r.turnedAway tag .outOfRange))
          ∧ ∀ role, roleOf p.toNat = some role → setup.length ≤ 8 →
            let fresh : Node :=
              { defn := { role := role, setup := setup }, state := .defined, failures := 0, lastFailure := .none
                lastSeen := none, attention := false, setupDue := false, refreshOwed := false, retiring := false
                report := .empty }
            (s.node n = none → exec c s = .next (answer (r.setNode n fresh)))
            ∧ ∀ x, s.node n = some x →
              (x.defn.role = role →
                let due := x.defn.setup ≠ setup ∧ x.state = .online
                let t := r.setNode n
                  { x with
                    defn := { role := role, setup := setup }, retiring := false, setupDue := x.setupDue || decide due }
                exec c s = .next (answer (if due then t.post n else t)))
              ∧ (x.defn.role ≠ role → named n → exec c s = .next (r.turnedAway tag .conflict))
              ∧ (x.defn.role ≠ role → ¬ named n →
                exec c s = .next (answer (((voiding n).setNode n fresh).removeUrgent (· == n))))))

/-- R133, R140, R142, R145: LOOP-RESET sets every entry of its loop to DEFINED and deletes a retiring one, hands the
resets on in ascending address, clears the loop's attention, service set and found records, removes its urgent
entries, samples the loop's line at the end, and leaves the other loops' entries and conditions. That the attention
flag shown of an entry stays (log 31), that the resets go to the different owners in that order (log 2) and that the
levels of the lines come with the request (log 6) are the model's. -/
def Obligations.LoopResetActsOnItsLoop : Prop :=
  ∀ (s : State) (tag b : Byte) (levels : PerLoop Bool), Admits .installer s →
    let r := s.framePassed
    let c : Instr := .loopReset tag ⟨[b], levels⟩
    (4 ≤ b.toNat → exec c s = .next (r.turnedAway tag .outOfRange))
    ∧ ∀ l, loopOf b.toNat = some l → Table.wf s.loops.nodes = true → (∀ i x, s.loops.nodes.get i = some x → i < 124) →
      let mine := s.loops.nodes.filter fun e => (nodeAt e.1).loop = l
      let line (m : LoopId) : LoopState :=
        if m = l then
          { (s.line m) with
            line := levels.get m, latch := levels.get m, service := [], empties := 0, ignoredSince := none }
        else { (s.line m) with line := levels.get m }
      let reset : State :=
        { r.markAll (mine.map fun e => Subject.node (nodeAt e.1)) with
          loops :=
            { s.loops with
              nodes :=
                List.map
                  (fun e : Nat × Node =>
                    if (nodeAt e.1).loop = l then
                      (e.1, { e.2 with state := .defined, failures := 0, setupDue := false, refreshOwed := false })
                    else e)
                  (s.loops.nodes.filter fun e => ¬ ((nodeAt e.1).loop = l ∧ e.2.retiring = true))
              found := s.loops.found.filter fun f => f.node.loop != l
              tx := s.loops.tx.map fun t => if t.node.loop = l then { t with voided := true, emptied := false } else t }
          handed := mine.map fun e =>
            match e.2.defn.role with
            | .gas => .gasNodeReset (nodeAt e.1)
            | .bay => .bayNodeReset (nodeAt e.1)
            | .ramp => .rampNodeReset (nodeAt e.1)
            | .fan => .fanNodeReset (nodeAt e.1)
            | .sign => .signNodeReset (nodeAt e.1)
            | .lamp => .lampNodeReset (nodeAt e.1) }
      let t := reset.removeUrgent fun n => n.loop == l
      exec c s
        = .next (State.done tag false
            { t with loops := { t.loops with lines := ⟨line .a, line .b, line .c, line .d⟩ } })

/-- R133, R134, R135: the sampling of an asserted line, the service set of a roll-call, the count of empty ones, the
10 s of IGNORED that the third in a row begins, and their end; a voided roll-call forms no set and changes no count.
The levels of the lines that come with the end of a roll-call and of IGNORED are the model's operands (log 6); that
the end of IGNORED does nothing on a loop that is not IGNORED (log 25) or before its time (log 3) is its choice, and
so is the moment of sampling (log 19). -/
def Obligations.AttentionAndRollcallsFollowTheRules : Prop :=
  ∀ (s : State) (l : LoopId), s.handed = [] →
    let with' (t : State) (y : LoopState) : State := { t with loops := { t.loops with lines := t.loops.lines.set l y } }
    let sampled (y : LoopState) : LoopState :=
      if y.line = true ∧ y.ignoredSince = none then { y with latch := true } else y
    let marked (t : State) : State :=
      t.markAll ((s.loops.nodes.filter fun e => (nodeAt e.1).loop = l).map fun e => Subject.node (nodeAt e.1))
    let x := s.line l
    exec (.attentionAsserted l) s = .next (settle (with' s (sampled { x with line := true })))
    ∧ (∀ asserted, x.ignoredSince = none → exec (.attentionIgnoreExpiry ⟨l, asserted⟩) s = .next (settle s))
    ∧ (∀ t asserted, x.ignoredSince = some t →
        (s.now < t + 10 → exec (.attentionIgnoreExpiry ⟨l, asserted⟩) s = .next (settle s))
        ∧ (t + 10 ≤ s.now →
            exec (.attentionIgnoreExpiry ⟨l, asserted⟩) s
              = .next (settle (marked (with' s (sampled { x with ignoredSince := none, line := asserted }))))))
    ∧ ∀ (tx : Transaction) (mask : BitVec 32) (lines : PerLoop Bool),
      s.loops.tx = some tx → tx.op = .rollcall → tx.node.loop = l →
      let level (m : LoopId) : LoopState := { (s.line m) with line := lines.get m }
      let heard := (List.range 32).filter fun a =>
        mask.getLsbD a = true ∧ ∃ y, s.node ⟨l, a⟩ = some y ∧ y.retiring = false
      let ended : State :=
        { s with loops := { s.loops with tx := none, lines := ⟨level .a, level .b, level .c, level .d⟩ } }
      (tx.voided = true → exec (.rollcallEnd mask lines) s = .next (settle ended))
      ∧ (tx.voided = false → heard ≠ [] →
          exec (.rollcallEnd mask lines) s
            = .next (settle (with' ended { level l with service := heard, empties := 0 })))
      ∧ (tx.voided = false → heard = [] → x.empties < 2 →
          exec (.rollcallEnd mask lines) s
            = .next (settle (with' ended (sampled { level l with service := [], empties := x.empties + 1 }))))
      ∧ (tx.voided = false → heard = [] → 2 ≤ x.empties →
          exec (.rollcallEnd mask lines) s
            = .next (settle (marked (with' ended
                { level l with service := [], empties := 0, latch := false, ignoredSince := some s.now }))))

/-- R128 to R131, R133, R138, R139, R142, R145, R150: what the outcome of a transaction other than a roll-call does to
the entry of its node, and what it hands on, for no-answer, a garbled reply, a wrong role, a refusal and a good reply.
A transaction whose effect a LOOP-RESET or a NODE-DEF ended, and one sent to an address that had no entry, also where
NODE-DEF has made one since, change no entry and tell the list and the Lighting Controller alone; a failed SETUP is
re-posted even so, and a WRITE so ended is not; the last write of a retiring entry, and its loss, delete it. The
levels of the lines that come with an outcome (log 6), the moment of sampling (log 19), the order of what is handed on
(log 2), that a SETUP which brings its entry ONLINE, or was in flight at a NODE-DEF of new setup values, leaves setup
due clear (logs 42 and 47), that an outcome is classified against the entry that stands when it is taken (log 46), a
voided one too (log 24), that a node which has lost its entry is re-posted (log 48) and the moments at which a
retiring entry goes (log 31) are the model's. -/
def Obligations.OutcomesReachTheNodeEntry : Prop :=
  ∀ (s : State) (tx : Transaction) (lines : PerLoop Bool),
    s.handed = [] → s.loops.tx = some tx → tx.op ≠ .rollcall →
    let n := tx.node
    let level (l : LoopId) : LoopState :=
      let y : LoopState := { (s.line l) with line := lines.get l }
      if tx.emptied = true ∧ l = n.loop ∧ y.line = true ∧ y.ignoredSince = none then { y with latch := true } else y
    let ended (role : Option Nat) (nodes : Table Node) : State :=
      { s with
        loops :=
          { s.loops with
            tx := none, lines := ⟨level .a, level .b, level .c, level .d⟩, nodes := nodes
            found :=
              match tx.op, role with
              | .identify, some p => (s.loops.found.filter fun f => f.node != n) ++ [{ node := n, role := p }]
              | _, _ => s.loops.found } }
    let told (cls : TxClass) (ready : Bool) (role : Option Nat) (hasEntry : Bool) : List Instr :=
      (if tx.op = .write ∧ tx.role = some .lamp then [.lampWriteOutcome n (cls == .good && !tx.voided)] else [])
        ++ if tx.source = .list then [.listOutcome { cls := cls, hasEntry := hasEntry, ready := ready, role := role }]
          else []
    let timeout := exec (.replyTimeout lines) s
    let stopsShort (reply : List Byte) : Prop :=
      reply = []
        ∨ (∃ st rest, reply = st :: rest ∧ rest.length ≤ replyLength tx.op (st.toNat % 8))
        ∨ ∃ st check payload extra, payload.length = replyLength tx.op (st.toNat % 8) ∧ check ≠ crc8 (st :: payload)
            ∧ reply = st :: payload ++ check :: extra
    let complete (st : Byte) (payload reply : List Byte) : Prop :=
      payload.length = replyLength tx.op (st.toNat % 8)
        ∧ ∃ extra, reply = st :: payload ++ crc8 (st :: payload) :: extra
    (tx.voided = true ∨ tx.role = none ∨ s.node n = none →
      let retiring : Bool := match s.node n with | some x => x.retiring | none => tx.lastWrite
      let urgent := tx.source = .urgent ∧ ¬ (tx.voided = true ∧ tx.op = .write)
      let bare (cls : TxClass) (ready : Bool) (role : Option Nat) : State :=
        let t := ended role s.loops.nodes
        let u :=
          if urgent ∧ retiring = true ∧ tx.lastWrite = true ∧ s.node n ≠ none then t.deleteNode n
          else if urgent ∧ retiring = false ∧ cls ≠ .good then t.post n
          else t
        { u with handed := told cls ready role (s.node n).isSome }
      timeout = .next (settle (bare .noAnswer false none))
      ∧ (∀ reply, stopsShort reply → exec (.replyReceived reply lines) s = .next (settle (bare .garbled false none)))
      ∧ ∀ st payload reply, complete st payload reply →
        let answer (cls : TxClass) : Prop :=
          exec (.replyReceived reply lines) s = .next (settle (bare cls (st.getLsbD 7) (some (st.toNat % 8))))
        let differs := ∃ x, s.node n = some x ∧ roleCode x.defn.role ≠ st.toNat % 8
        let refused := (tx.op = .write ∨ tx.op = .setup) ∧ st.getLsbD 7 = false
        (differs → answer .wrongRole) ∧ (¬ differs → refused → answer .refused)
          ∧ (¬ differs → ¬ refused → answer .good))
    ∧ ∀ x, tx.voided = false → tx.role ≠ none → s.node n = some x →
      let entry (role : Option Nat) (y : Node) : State := ended role (s.loops.nodes.put (nodeIndex n) y)
      let last := x.retiring = true ∧ tx.source = .urgent ∧ tx.lastWrite = true
      let gone (y : Node) := x.retiring = true ∧ x.state ≠ .lost ∧ y.state = .lost
      let reposted := tx.source = .urgent ∧ x.retiring = false
      let lostTo (y : Node) : List Instr :=
        if x.state ≠ .lost ∧ y.state = .lost then
          match x.defn.role with
          | .gas => [.gasNodeLost n] | .bay => [.bayNodeLost n] | .ramp => [.rampNodeLost n]
          | .fan => [.fanNodeLost n] | .sign => [.signNodeLost n] | .lamp => [.lampNodeLost n]
        else []
      let restarts : List Instr :=
        match x.defn.role with
        | .bay => [.bayNodeRestart n] | .fan => [.fanNodeRestart n] | .lamp => [.lampNodeReturn n]
        | .gas | .ramp | .sign => []
      let failed (y : Node) (k : FailureKind) : Node :=
        { y with
          failures := min 15 (x.failures + 1), lastFailure := k
          state := if s.items.failLimit ≤ min 15 (x.failures + 1) then .lost else x.state }
      let fail (k : FailureKind) (cls : TxClass) (ready : Bool) (role : Option Nat) : State :=
        let y := failed x k
        let t := (entry role y).markWhen
          (x.state != y.state || (k == .wrongRole && x.lastFailure != .wrongRole)) (.node n)
        { (if gone y ∨ last then t.deleteNode n else if reposted then t.post n else t) with
          handed := lostTo y ++ told cls ready role (decide (¬ (gone y ∨ last))) }
      (tx.op ≠ .identify → timeout = .next (settle (fail .noAnswer .noAnswer false none)))
      ∧ (tx.op = .identify → tx.source ≠ .urgent →
          timeout = .next (settle { ended none s.loops.nodes with handed := told .noAnswer false none true }))
      ∧ (∀ reply, stopsShort reply →
          exec (.replyReceived reply lines) s = .next (settle (fail .garbled .garbled false none)))
      ∧ ∀ st payload reply, complete st payload reply →
          let ready := st.getLsbD 7
          let role := st.toNat % 8
          let restarted := st.getLsbD 6 = true ∧ x.setupDue = false
          let seen : Node := { x with lastSeen := some s.now, attention := st.getLsbD 5 }
          let answer := exec (.replyReceived reply lines) s
          (role ≠ roleCode x.defn.role → answer = .next (settle (fail .wrongRole .wrongRole ready (some role))))
          ∧ (role = roleCode x.defn.role → tx.op = .write ∨ tx.op = .setup → ready = false →
              let y : Node := { failed seen .refused with setupDue := x.setupDue || decide restarted }
              let t := (entry (some role) y).markWhen (x.state != y.state) (.node n)
              let u := if restarted ∨ reposted then t.post n else t
              answer
                = .next (settle
                    { (if gone y then t.deleteNode n else if last then u.deleteNode n else u) with
                      handed :=
                        lostTo y ++ (if restarted ∧ ¬ gone y then restarts else [])
                          ++ told .refused ready (some role) (decide (¬ (gone y ∨ last))) }))
          ∧ (role = roleCode x.defn.role → ((tx.op = .write ∨ tx.op = .setup) → ready = true) →
              let y : Node :=
                { seen with
                  failures := 0, state := .online
                  setupDue :=
                    decide (tx.op ≠ .setup) && (x.setupDue || decide (x.state ≠ .online) || decide restarted) }
              let t := (entry (some role) y).markWhen (x.state != .online) (.node n)
              let posted :=
                x.state ≠ .online ∨ restarted
                  ∨ (tx.op = .setup ∧ (x.defn.role = .fan ∨ x.defn.role = .lamp ∨ x.defn.role = .sign))
              let u := if posted then t.post n else t
              let reading : List Instr :=
                if tx.op = .read then
                  match x.defn.role with
                  | .gas => [.gasReading n ready payload] | .bay => [.bayStripReading n ready payload]
                  | .ramp => [.rampReading n ready payload] | .fan => [.driveReport n ready payload]
                  | .sign => [.signReport n ready payload] | .lamp => [.lampReport n ready payload]
                else []
              answer
                = .next (settle
                    { (if last then u.deleteNode n else u) with
                      handed :=
                        (if x.state = .lost ∧ x.defn.role = .lamp then [.lampNodeReturn n] else [])
                          ++ (if restarted then restarts else []) ++ reading
                          ++ told .good ready (some role) (decide (¬ last)) }))

/-- R137, R138, R140, R141, R145: a post, the head that leaves the queue, the removal of entries and the deletion of a
node's entry with its urgent entry: the room each leaves is filled from the refresh owed marks in node-table order,
and a mark of a node that has an entry in the queue is cleared without a post. That a post of a node without an entry
joins the queue is the model's reading (log 23). -/
def Obligations.UrgentQueueKeepsItsOrder : Prop :=
  ∀ s : State,
    (∀ n,
      (n ∈ s.loops.urgent → s.post n = s)
      ∧ (n ∉ s.loops.urgent → s.loops.urgent.length < 32 →
          s.post n = { s with loops := { s.loops with urgent := s.loops.urgent ++ [n] } })
      ∧ (∀ x, n ∉ s.loops.urgent → 32 ≤ s.loops.urgent.length → s.node n = some x →
          s.post n = s.setNode n { x with refreshOwed := true }))
    ∧ (Table.wf s.loops.nodes = true → (∀ i x, s.loops.nodes.get i = some x → i < 124) → s.loops.urgent.length ≤ 32 →
        let filled (nodes : Table Node) (rest : List NodeId) (u : State) : Prop :=
          ∃ k,
            let owed := (nodes.filter fun e => e.2.refreshOwed).map fun e => nodeAt e.1
            let joined := (owed.take k).filter fun m => m ∉ rest
            (owed.length ≤ k ∨ u.loops.urgent.length = 32)
            ∧ u.loops.urgent.length ≤ 32
            ∧ u = { s with
                    loops :=
                      { s.loops with
                        urgent := rest ++ joined
                        nodes := List.map
                          (fun e : Nat × Node =>
                            if nodeAt e.1 ∈ owed.take k then (e.1, { e.2 with refreshOwed := false }) else e)
                          nodes } }
        (∀ n rest, s.loops.urgent = n :: rest → filled s.loops.nodes rest s.popUrgent)
        ∧ (∀ p : NodeId → Bool, filled s.loops.nodes (s.loops.urgent.filter fun n => !p n) (s.removeUrgent p))
        ∧ ∀ n, addrOk n.addr = true →
            filled (s.loops.nodes.filter fun e => nodeAt e.1 ≠ n) (s.loops.urgent.filter fun m => m ≠ n)
              (s.deleteNode n))

/-- R136, R138: the free engine reads the service set in progress, else performs the pending roll-call that is next in
the rotation, else takes the head of the urgent write queue, else the list; the list goes first when 8 others went
since its last transaction. A head that is discarded without a transaction leaves the queue, and the engine chooses
again at once, at most 512 times in one event (log 8). The content of a write is built from the records that name the
node. When the engine chooses (log 4), when the count since the last list transaction rises (log 30), that an address
whose entry has gone is read from its service set (log 43), that an urgent head whose node has no entry is discarded
(log 23) and what becomes of a retiring entry (log 31) are the model's reading. -/
def Obligations.EngineChoosesInOrder : Prop :=
  (∀ s : State, s.handed = [] → s.loops.tx = none →
    let e := settle s
    let listFirst := 8 ≤ s.loops.sinceList ∧ s.list.ready = true
    let noService := ∀ m, (s.line m).service = []
    let noRollcall := ∀ m, (s.line m).latch = false
    let begun (n : NodeId) (op : LoopOp) (src : TxSource) (role : Option Role) (payload : List Byte) (last : Bool) :
        Transaction :=
      let bytes := BitVec.ofNat 8 (opCode op * 32 + n.addr) :: payload
      { node := n, op := op, source := src, role := role, request := bytes ++ [crc8 bytes], voided := false
        lastWrite := last, emptied := false }
    let roleAt (n : NodeId) : Option Role := (s.node n).map fun x => x.defn.role
    (∀ l a rest, ¬ listFirst → (s.line l).service = a :: rest →
        (∀ m, loopCode m < loopCode l → (s.line m).service = []) →
        e.loops.tx
            = some { begun ⟨l, a⟩ .read .service (roleAt ⟨l, a⟩) [] false with emptied := rest.isEmpty }
        ∧ e.loops = { s.loops with
                      tx := e.loops.tx, sinceList := s.loops.sinceList + 1
                      lines := s.loops.lines.set l { (s.line l) with service := rest } }
        ∧ e.list = s.list)
    ∧ (∀ l, ¬ listFirst → noService → (s.line l).latch = true →
        let after := match s.loops.lastRollcall with | none => 0 | some k => loopCode k + 1
        let turn (m : LoopId) : Nat := (loopCode m + 4 - after) % 4
        (∀ m, (s.line m).latch = true → turn l ≤ turn m) →
        e.loops.tx = some (begun ⟨l, 0⟩ .rollcall .rollcall none [] false)
        ∧ e.loops = { s.loops with
                      tx := e.loops.tx, sinceList := s.loops.sinceList + 1, lastRollcall := some l
                      lines := s.loops.lines.set l { (s.line l) with latch := false } }
        ∧ e.list = s.list)
    ∧ (∀ n rest x, ¬ listFirst → noService → noRollcall → s.loops.urgent = n :: rest →
        let u := s.popUrgent
        u.node n = some x →
        (x.state ≠ .lost → x.setupDue = true → x.retiring = false →
          e.loops = { u.loops with
                      tx := some (begun n .setup .urgent (some x.defn.role) x.defn.setup false)
                      sinceList := s.loops.sinceList + 1 })
        ∧ (x.state ≠ .lost → x.setupDue = false ∨ x.retiring = true →
            x.defn.role = .fan ∨ x.defn.role = .lamp ∨ x.defn.role = .sign →
            e.loops = { u.loops with
                        tx := some (begun n .write .urgent (some x.defn.role) (s.content n x) x.retiring)
                        sinceList := s.loops.sinceList + 1 }
            ∧ (∀ j, e.light.groups.get j = (s.light.groups.get j).map fun g =>
                if x.defn.role = .lamp ∧ g.defn.node = n then { g with inFlight := some g.target } else g))
        ∧ (x.state = .lost
              ∨ ((x.setupDue = false ∨ x.retiring = true)
                  ∧ (x.defn.role = .bay ∨ x.defn.role = .gas ∨ x.defn.role = .ramp)) →
            ∀ k, s.choose (k + 1) = (if x.retiring then u.deleteNode n else u).choose k))
    ∧ (∀ n rest, ¬ listFirst → noService → noRollcall → s.loops.urgent = n :: rest → s.popUrgent.node n = none →
        ∀ k, s.choose (k + 1) = s.popUrgent.choose k)
    ∧ e = (s.choose 512).transmit
    ∧ (∀ n b, listFirst ∨ (noService ∧ noRollcall ∧ s.loops.urgent = [] ∧ s.list.ready = true) →
        s.list.entry s.list.cursor = .poll n false b →
        e.loops = { s.loops with tx := some (begun n .read .list (roleAt n) [] false), sinceList := 0 }
        ∧ e.list = { s.list with inFlight := some (n, .read) })
    ∧ (noService → noRollcall → s.loops.urgent = [] → s.list.ready = false → e.loops = s.loops ∧ e.list = s.list))
  ∧ ∀ (s : State) (n : NodeId) (x : Node),
    (x.defn.role = .fan →
      (x.retiring = true ∨ (∀ e ∈ s.fans.fans, e.2.defn.node ≠ n) → s.content n x = [0])
      ∧ (∀ i f, s.fan i = some f → f.defn.node = n → (∀ e ∈ s.fans.fans, e.2.defn.node = n → e.1 = i) →
          x.retiring = false →
          s.content n x
            = [match f.command with
                | .stop => 0
                | .run dir sp =>
                  BitVec.ofNat 8 (1 + (if dir = .reverse then 2 else 0) + (if sp = .high then 4 else 0))]))
    ∧ (x.defn.role = .sign →
      (x.retiring = true ∨ (∀ e ∈ s.guide.signs, e.2.defn.node ≠ n) → s.content n x = [0xFF, 0xFF, 0])
      ∧ (∀ i g, s.guide.signs.get i = some g → g.defn.node = n → (∀ e ∈ s.guide.signs, e.2.defn.node = n → e.1 = i) →
          x.retiring = false →
          s.content n x
            = (match g.defn.kind with
                | .count => u16 (signTextCode g.display.text) ++ [0]
                | .arrow => [0xFF, 0xFF] ++ u8 (arrowCode g.display.arrow)
                | .countArrow => u16 (signTextCode g.display.text) ++ u8 (arrowCode g.display.arrow))))
    ∧ (x.defn.role = .lamp → s.content n x = lampContent (if x.retiring then [] else s.light.groups) n)

/-- R136, R138, R139, R149, R151 to R155: what the engine sends when it takes the turn of a ready list whose cursor
stands on a RUN or on a POLL WRITE: a READ, with the start stamp of a REPEAT item, the IDENTIFY of a SWEEP, whose
first one deletes the loop's found records, a SETUP or a WRITE of the owner's content; a POLL WRITE to a node that
takes no output meets the error NOT_WRITABLE, and the engine chooses again without counting it, at most 512 times in
one event (log 8). When the engine chooses (log 4) is the model's reading. -/
def Obligations.EngineTakesTheListsTurn : Prop :=
  ∀ s : State, s.handed = [] → s.loops.tx = none →
    s.list.state = .running → s.list.inFlight = none → s.list.haltPending = false →
    8 ≤ s.loops.sinceList
      ∨ ((∀ m, (s.line m).service = []) ∧ (∀ m, (s.line m).latch = false) ∧ s.loops.urgent = []) →
    let e := settle s
    let entry := s.list.memory.getD s.list.cursor .halt
    let begun (n : NodeId) (op : LoopOp) (role : Option Role) (payload : List Byte) : Transaction :=
      let bytes := BitVec.ofNat 8 (opCode op * 32 + n.addr) :: payload
      { node := n, op := op, source := .list, role := role, request := bytes ++ [crc8 bytes], voided := false
        lastWrite := false, emptied := false }
    let roleAt (n : NodeId) : Option Role := (s.node n).map fun x => x.defn.role
    (∀ n k d, entry = .run n k .stop d ∨ entry = .run n k .ignore d →
      e.loops = { s.loops with tx := some (begun n .read (roleAt n) []), sinceList := 0 }
      ∧ e.list = { s.list with inFlight := some (n, .read) })
    ∧ (∀ n k d, entry = .run n k .repeat d →
      e.loops = { s.loops with tx := some (begun n .read (roleAt n) []), sinceList := 0 }
      ∧ e.list
        = { s.list with
            inFlight := some (n, .read)
            progress :=
              if s.list.progress.itemStart = none then
                { s.list.progress with itemStart := some s.clockMs, limitRunning := true, expired := false }
              else s.list.progress })
    ∧ (∀ n k d a, entry = .run n k .sweep d → s.list.progress.nextAddr = some a →
      e.loops
        = { s.loops with
            tx := some (begun ⟨n.loop, a⟩ .identify (roleAt ⟨n.loop, a⟩) []), sinceList := 0
            found :=
              if s.list.progress.sweepBegun then s.loops.found
              else s.loops.found.filter fun f => f.node.loop ≠ n.loop }
      ∧ e.list
        = { s.list with
            inFlight := some (⟨n.loop, a⟩, .identify), progress := { s.list.progress with sweepBegun := true } })
    ∧ ∀ n d, entry = .poll n true d →
      (∀ x, s.node n = some x → x.defn.role = .fan ∨ x.defn.role = .lamp ∨ x.defn.role = .sign →
        (x.setupDue = true → x.retiring = false →
          e.loops = { s.loops with tx := some (begun n .setup (some x.defn.role) x.defn.setup), sinceList := 0 }
          ∧ e.list = { s.list with inFlight := some (n, .setup) })
        ∧ (x.setupDue = false ∨ x.retiring = true →
          e.loops = { s.loops with tx := some (begun n .write (some x.defn.role) (s.content n x)), sinceList := 0 }
          ∧ e.list = { s.list with inFlight := some (n, .write) }
          ∧ ∀ j, e.light.groups.get j = (s.light.groups.get j).map fun g =>
              if x.defn.role = .lamp ∧ g.defn.node = n then { g with inFlight := some g.target } else g))
      ∧ ((∀ x, s.node n = some x → x.defn.role = .bay ∨ x.defn.role = .gas ∨ x.defn.role = .ramp) →
        e = (s.choose 512).transmit
        ∧ ∀ k, s.choose (k + 1)
          = (if d then
              ({ s with list := { s.list with continued := min 65535 (s.list.continued + 1) } } : State).reachAt
                ((s.list.cursor + 1) % 256)
            else
              ({ s with
                  list :=
                    { s.list with
                      state := .faulted
                      stopError := some { index := s.list.cursor, kind := .notWritable, node := some n, time := s.now }
                      progress := { s.list.progress with limitRunning := false, expired := false } } } : State).mark
                .list).choose k)

/-! ## The Scan List Unit -/

/-- R157 to R161: LIST-LOAD, LIST-GO, LIST-HALT, LIST-READ, LIST-QUERY and FOUND-READ, with the refusals of each; the
entries of list memory are read and told by the table of 11.4, and each query tells its record field by field. The
layout of DATA is the model's where the spec leaves it open (logs 10 and 12), as is what LIST-QUERY tells of the
progress of a list that is stopped (log 51), and that a list index or a JUMP target FFh is entry 255 (log 52). -/
def Obligations.ListRequestsFollowTheirRules : Prop :=
  ∀ (s : State) (tag : Byte),
    let r := s.framePassed
    let withList (x : ScanList) : State := { r with list := x }
    let executing (i : Nat) : Prop := (s.list.state = .running ∨ s.list.state = .paused) ∧ s.list.cursor = i
    let byte (n : Nat) : Byte := BitVec.ofNat 8 n
    let place (n : NodeId) (passOver : Bool) : List Byte :=
      [byte (loopCode n.loop), byte ((if passOver then 128 else 0) + n.addr)]
    let entry (e : ListEntry) : List Byte :=
      match e with
      | .poll n write passOver => 0 :: place n passOver ++ [0, byte write.toNat]
      | .run n count mode passOver =>
        1 :: place n passOver
          ++ [byte count, (match mode with | .stop => 0 | .ignore => 1 | .repeat => 2 | .sweep => 3)]
      | .pause ms => 2 :: u16 ms ++ [0, 0]
      | .jump target => [3, byte target, 0, 0, 0]
      | .halt => [4, 0, 0, 0, 0]
    (Admits .view s →
      (∀ f m : Byte,
        (m = 0 ∨ 32 < m.toNat → exec (.listRead tag [f, m]) s = .next (r.turnedAway tag .outOfRange))
        ∧ (1 ≤ m.toNat → m.toNat ≤ 32 →
          exec (.listRead tag [f, m]) s
            = .next (r.told tag
                ((List.range (min m.toNat (256 - f.toNat))).flatMap (fun k =>
                    entry (s.list.memory.getD (f.toNat + k) .halt))
                  ++ (if s.list.state = .running ∨ s.list.state = .paused then [byte s.list.cursor] else [0xFF])))))
      ∧ (let here := s.list.memory.getD s.list.cursor .halt
        ∃ loop : Byte,
          exec (.listQuery tag []) s
            = .next (r.told tag
                ([byte (listStateCode s.list.state), byte s.list.cursor,
                    (match here with | .poll .. => 0 | .run .. => 1 | .pause _ => 2 | .jump _ => 3 | .halt => 4),
                    byte s.list.haltPending.toNat]
                  ++ (match s.list.remaining with | some n => [1, byte n] | none => [0])
                  ++ (match here with
                    | .run _ _ .sweep _ =>
                      [(match s.list.progress.nextAddr with | some a => byte a | none => 0xFF), 0]
                    | .run _ _ .repeat _ =>
                      0xFF :: (match s.list.progress.itemStart with
                        | some t => 1 :: u16 (min 65535 (s.clockMs - t))
                        | none => [0])
                    | _ => [0xFF, 0])
                  ++ (match s.list.inFlight with
                    | some (n, op) => [byte (loopCode n.loop), byte n.addr, byte (opCode op)]
                    | none => [0xFF, 0xFF, 0xFF])
                  ++ [byte s.list.abandoned.toNat]
                  ++ (match s.list.stopError with
                    | some e =>
                      [1, byte e.index, byte (listErrorCode e.kind)]
                        ++ (match e.node with | some n => [byte (loopCode n.loop), byte n.addr] | none => [loop, 0xFF])
                        ++ u32 e.time
                    | none => [0])
                  ++ u16 s.list.continued ++ u16 s.items.repeatLimit ++ [byte s.items.autoStart.toNat])))
      ∧ ∀ p : Byte,
        (124 ≤ p.toNat → exec (.foundRead tag [p]) s = .next (r.turnedAway tag .outOfRange))
        ∧ (p.toNat < 124 →
          exec (.foundRead tag [p]) s
            = .next (r.told tag
                (byte s.loops.found.length
                  :: ((s.loops.found.drop p.toNat).take 64).flatMap fun f =>
                    [byte (loopCode f.node.loop), byte f.node.addr, byte f.role]))))
    ∧ (Admits .installer s →
      (∀ (f : Byte) (es : List (Byte × Byte × Byte × Byte × Byte)), es.length < 256 →
        let c : Instr :=
          .listLoad tag (f :: BitVec.ofNat 8 es.length
            :: es.flatMap fun e => [e.1, e.2.1, e.2.2.1, e.2.2.2.1, e.2.2.2.2])
        let read (e : Byte × Byte × Byte × Byte × Byte) : Option ListEntry :=
          let place := nodeOf e.2.1.toNat (e.2.2.1.toNat % 32)
          let passOver := e.2.2.1.getLsbD 7
          if e.1 = 0 then
            if e.2.2.2.2 = 0 then place.map fun n => .poll n false passOver
            else if e.2.2.2.2 = 1 then place.map fun n => .poll n true passOver else none
          else if e.1 = 1 then
            if e.2.2.2.2 = 0 then place.map fun n => .run n (max 1 e.2.2.2.1.toNat) .stop passOver
            else if e.2.2.2.2 = 1 then place.map fun n => .run n (max 1 e.2.2.2.1.toNat) .ignore passOver
            else if e.2.2.2.2 = 2 then place.map fun n => .run n (max 1 e.2.2.2.1.toNat) .repeat passOver
            else if e.2.2.2.2 = 3 then place.map fun n => .run n (max 1 e.2.2.2.1.toNat) .sweep passOver else none
          else if e.1 = 2 then some (.pause (max 1 (nat16 e.2.1 e.2.2.1)))
          else if e.1 = 3 then some (.jump e.2.1.toNat)
          else if e.1 = 4 then some .halt else none
        let raised := es.any fun e => (e.1 = 1 && e.2.2.2.1 = 0) || (e.1 = 2 && e.2.1 = 0 && e.2.2.1 = 0)
        (es = [] ∨ 32 < es.length ∨ 256 < f.toNat + es.length ∨ (∃ e ∈ es, read e = none) →
          exec c s = .next (r.turnedAway tag .outOfRange))
        ∧ (∀ xs, es ≠ [] → es.length ≤ 32 → f.toNat + es.length ≤ 256 → es.map read = xs.map some →
          ((∃ i, executing i ∧ f.toNat ≤ i ∧ i < f.toNat + es.length) → exec c s = .next (r.turnedAway tag .busy))
          ∧ ((∀ i, executing i → i < f.toNat ∨ f.toNat + es.length ≤ i) →
            exec c s
              = .next (State.done tag raised
                  (withList { s.list with
                    memory := s.list.memory.take f.toNat ++ xs ++ s.list.memory.drop (f.toNat + xs.length) })))))
      ∧ (∀ i : Byte,
        exec (.listGo tag [i]) s
          = .next (State.done tag false
              (((withList { s.list with
                  state := .running, abandoned := s.list.inFlight.isSome, haltPending := false, stopError := none
                  continued := 0, jumpRun := 0, pauseStart := none
                  progress := { s.list.progress with limitRunning := false, expired := false } }).markWhen
                (s.list.state != .running && s.list.state != .paused) .list).reachAt i.toNat |>.mark .list)))
      ∧ (let c : Instr := .listHalt tag []
        let idled := (withList { s.list with
          state := .idle, pauseStart := none
          progress := { s.list.progress with limitRunning := false, expired := false } }).mark .list
        let own := s.list.inFlight ≠ none ∧ s.list.abandoned = false
        (s.list.state = .idle → exec c s = .next (State.done tag false r))
        ∧ (s.list.state = .running → own → s.list.haltPending = true → exec c s = .next (State.done tag false r))
        ∧ (s.list.state = .running → own → s.list.haltPending = false →
            exec c s
              = .next (State.done tag false
                  ((withList { s.list with
                    haltPending := true
                    progress := { s.list.progress with limitRunning := false, expired := false } }).mark .list)))
        ∧ (s.list.state = .running → ¬ own → exec c s = .next (State.done tag false idled))
        ∧ (s.list.state = .paused ∨ s.list.state = .done ∨ s.list.state = .faulted →
            exec c s = .next (State.done tag false idled))))

/-- R148 to R156, R159: how the list reaches an entry, how the entry at its cursor takes the outcome of its
transaction, what an error does, and what the pause timer and the limit timer of a REPEAT item do. What an error
leaves of a SWEEP's remaining count and next address, and the address of its record, is the model's reading (log 29);
an outcome without a list transaction and a timer before its time change nothing by its choice (logs 3 and 25). -/
def Obligations.ListStepsByTheEntryAtItsCursor : Prop :=
  (∀ (s : State) (i : Nat), s.list.memory.length = 256 →
    let at' := s.list.memory.getD i .halt
    let idle : Progress := { nextAddr := none, sweepBegun := false, itemStart := none, limitRunning := false, expired := false }
    let here : ScanList := { s.list with cursor := i, remaining := none, progress := idle, jumpRun := 0 }
    (∀ n w d, at' = .poll n w d → s.reachAt i = { s with list := here })
    ∧ (∀ n k m d, at' = .run n k m d →
        s.reachAt i
          = { s with
              list :=
                { here with
                  remaining := some (if m = .sweep then min k (32 - n.addr) else k)
                  progress := { idle with nextAddr := if m = .sweep then some n.addr else none } } })
    ∧ (∀ ms, at' = .pause ms → s.list.state = .running →
        s.reachAt i = { s with list := { here with state := .paused, pauseStart := some s.clockMs } })
    ∧ (∀ j, at' = .jump j → s.list.jumpRun < 255 →
        s.reachAt i
          = ({ s with list := { here with jumpRun := s.list.jumpRun + 1 } } : State).reachAt j)
    ∧ (∀ j, at' = .jump j → s.list.jumpRun = 255 → s.list.state = .running →
        s.reachAt i
          = ({ s with
                list :=
                  { here with
                    state := .faulted, jumpRun := 256
                    stopError := some { index := i, kind := .jumpLoop, node := none, time := s.now } } } : State).mark
              .list)
    ∧ (at' = .halt → s.list.state = .running →
        s.reachAt i = ({ s with list := { here with state := .done } } : State).mark .list))
  ∧ ∀ s : State, s.handed = [] →
    let l := s.list
    let entry := l.memory.getD l.cursor .halt
    let withList (x : ScanList) : State := { s with list := x }
    let next (x : ScanList) : State := (withList x).reachAt ((l.cursor + 1) % 256)
    let calm (x : ScanList) : ScanList := { x with progress := { x.progress with limitRunning := false, expired := false } }
    let stop (x : ScanList) (k : ListErrorKind) (n : NodeId) : State :=
      (withList
        { calm x with
          state := .faulted
          stopError := some { index := l.cursor, kind := k, node := some n, time := s.now } }).mark .list
    let passed (x : ScanList) : ScanList := { x with continued := min 65535 (x.continued + 1) }
    (∀ o, l.inFlight = none → exec (.listOutcome o) s = .next (settle s))
    ∧ (∀ p o, l.inFlight = some p → l.abandoned = true →
        exec (.listOutcome o) s = .next (settle (withList { l with inFlight := none, abandoned := false })))
    ∧ (∀ p o, l.inFlight = some p → l.abandoned = false → l.haltPending = true → l.state = .running →
        exec (.listOutcome o) s
          = .next (settle
              ((withList { l with inFlight := none, haltPending := false, state := .idle }).mark .list)))
    ∧ (∀ p o, l.inFlight = some p → l.abandoned = false → l.haltPending = false → l.state = .running →
      let t : ScanList := { l with inFlight := none }
      let answer (u : State) : Prop := exec (.listOutcome o) s = .next (settle u)
      let kind : ListErrorKind :=
        match o.cls with
        | .noAnswer => .noAnswer | .garbled => .garbled | .wrongRole => .wrongRole | .refused | .good => .refused
      (∀ n w d, entry = .poll n w d →
        (o.cls = .good ∨ (o.cls = .wrongRole ∧ w = false) → answer (next t))
        ∧ (o.cls ≠ .good → (o.cls = .wrongRole → w = true) →
            answer (if d then next (passed t) else stop t kind n)))
      ∧ (∀ n k d m, entry = .run n k .stop d → l.remaining = some (m + 1) →
        (o.cls = .good → o.ready = true → 1 ≤ m → answer (withList { t with remaining := some m }))
        ∧ (o.cls = .good → o.ready = false ∨ m = 0 → answer (next { t with remaining := some m }))
        ∧ (o.cls ≠ .good → answer (if d then next (passed t) else stop t kind n)))
      ∧ (∀ n k d m, entry = .run n k .ignore d → l.remaining = some (m + 1) →
        let counted (x : ScanList) : State :=
          if m = 0 then next { x with remaining := some 0 } else withList { x with remaining := some m }
        (o.cls = .good → answer (counted t))
        ∧ (o.cls ≠ .good → answer (if d then counted (passed t) else stop { t with remaining := some m } kind n)))
      ∧ (∀ n k d m, entry = .run n k .repeat d → l.remaining = some (m + 1) →
        let fresh : ScanList :=
          { t with
            remaining := some m
            progress := { t.progress with itemStart := none, limitRunning := false, expired := false } }
        (o.cls = .good → o.ready = true → answer (if m = 0 then next fresh else withList fresh))
        ∧ (o.cls = .good → o.ready = false → l.progress.expired = false → answer (withList t))
        ∧ (o.cls = .good → o.ready = false → l.progress.expired = true →
            answer (if d then next (passed t) else stop t .limit n))
        ∧ (o.cls ≠ .good → answer (if d then next (passed t) else stop t kind n)))
      ∧ ∀ n k d m a, entry = .run n k .sweep d → l.remaining = some (m + 1) → l.progress.nextAddr = some a →
        let moved (x : ScanList) : ScanList :=
          { x with remaining := some m, progress := { x.progress with nextAddr := some (a + 1) } }
        let counted (x : ScanList) : State := if m = 0 then next (moved x) else withList (moved x)
        (o.cls ≠ .garbled → answer (counted t))
        ∧ (o.cls = .garbled → answer (if d then counted (passed t) else stop t .garbled ⟨n.loop, a⟩)))
    ∧ (∀ ms t, l.state = .paused → entry = .pause ms → l.pauseStart = some t →
        (s.clockMs < t + ms → exec .pauseExpiry s = .next (settle s))
        ∧ (t + ms ≤ s.clockMs → exec .pauseExpiry s = .next (settle (next { l with state := .running, pauseStart := none }))))
    ∧ (∀ t, l.state = .running → l.progress.itemStart = some t → l.progress.limitRunning = true →
        l.progress.expired = false →
        (s.clockMs < t + s.items.repeatLimit → exec .repeatLimitExpiry s = .next (settle s))
        ∧ (t + s.items.repeatLimit ≤ s.clockMs →
            (l.inFlight ≠ none →
              exec .repeatLimitExpiry s
                = .next (settle (withList { l with progress := { l.progress with expired := true } })))
            ∧ ∀ n k d, l.inFlight = none → entry = .run n k .repeat d →
              exec .repeatLimitExpiry s = .next (settle (if d then next (passed l) else stop l .limit n))))
    ∧ (l.progress.limitRunning = false → exec .repeatLimitExpiry s = .next (settle s))
    ∧ (l.state ≠ .paused → exec .pauseExpiry s = .next (settle s))

/-! ## The Supervisor Port and the Settings Store -/

/-- R172, R176, R178, R179: IDENT, PING, LOGIN, LOGOUT, GET-ITEM and SET-ITEM, with the refusals of each: the base
level, the ranges of the items, the clamp, and the rate that the accepting reply brings. The widths of IDENT's
identity and capacities (log 10), and that LIMIT_IN_USE of the supply limit is judged on the clamped value (log 38),
are the model's choice. -/
def Obligations.PortRequestsFollowTheirRules : Prop :=
  ∀ (s : State) (tag : Byte),
    let r := s.framePassed
    let it := s.items
    let level (a : Access) : State := { r with port := { r.port with access := a } }
    let base : Access :=
      if it.installerCode = 0xFFFFFFFF then .installer else if it.operatorCode = 0xFFFFFFFF then .operator else .view
    (Admits .view s →
      exec (.ident tag []) s
        = .next (r.told tag
            (([0x12, 0xD4, 1, 0, 24, 0, 48, 0, 48, 8, 0, 0, 192, 0, 64, 0, 32, 1, 0, 0, 124] : List Byte) ++ u32 s.port.rate
              ++ u8 0 ++ u8 (match s.port.access with | .view => 0 | .operator => 1 | .installer => 2) ++ u32 s.now
              ++ u8 (match s.port.startCause with | .powerOn => 0 | .restart => 1)
              ++ u8 (if s.port.storeInvalid then 1 else 0)))
      ∧ (∀ body : List Byte,
          (body.length ≤ 240 → exec (.ping tag body) s = .next (r.told tag body))
          ∧ (240 < body.length → exec (.ping tag body) s = .next (r.turnedAway tag .badLength)))
      ∧ (∀ a b c d : Byte,
          let code := nat32 a b c d
          let login : Instr := .login tag [a, b, c, d]
          (code = it.installerCode → exec login s = .next (State.done tag false (level .installer)))
          ∧ (code ≠ it.installerCode → code = it.operatorCode →
              exec login s = .next (State.done tag false (level (if base = .installer then .installer else .operator))))
          ∧ (code ≠ it.installerCode → code ≠ it.operatorCode →
              exec login s = .next (r.turnedAway tag .badCode)))
      ∧ exec (.logout tag []) s = .next (State.done tag false (level base))
      ∧ ∀ n : Byte,
          (25 ≤ n.toNat → exec (.getItem tag [n]) s = .next (r.turnedAway tag .outOfRange))
          ∧ (n.toNat < 25 →
              exec (.getItem tag [n]) s
                = .next (r.told tag (n :: u32 (if n.toNat = 21 ∨ n.toNat = 22 then 0 else it.value n.toNat)))))
    ∧ (Admits .installer s → ∀ n a b c d : Byte,
      let i := n.toNat
      let given := nat32 a b c d
      let bounds : List (Nat × Nat) :=
        [(1, 255), (1, 60), (5, 120), (0, 900), (0, 3600), (0, 50), (0, 240), (30, 600), (0, 100), (0, 100), (0, 100),
          (6, 600), (10, 600), (1, 15), (0, 1000), (0, 1000), (1, 15), (5, 500)]
      let v :=
        if i < 18 then
          let held := max (bounds.getD i (0, 0)).1 (min (bounds.getD i (0, 0)).2 given)
          if i = 11 then held / 6 * 6 else held
        else if i = 19 then min 255 given else given
      let coded : Prop :=
        (i = 18 ∨ i = 23 ∨ i = 24 → given ≤ 1)
          ∧ (i = 20 → given ∈ [9600, 19200, 38400, 57600, 115200, 230400, 460800])
      let set : Instr := .setItem tag [n, a, b, c, d]
      let answer (t : State) (rate : Option Nat) : State :=
        settle (t.reply
          { kind := 0x80, tag := tag, body := [if v = given then 0 else 1], newRate := rate })
      let written : State := { r with store := { s.store with items := it.write i v } }
      (25 ≤ i ∨ ¬ coded → exec set s = .next (r.turnedAway tag .outOfRange))
      ∧ (i = 0 → v < s.fans.account → exec set s = .next (r.turnedAway tag .limitInUse))
      ∧ (i < 25 → coded → (i = 0 → s.fans.account ≤ v) →
          (it.value i = v → exec set s = .next (answer r none))
          ∧ (it.value i ≠ v →
              exec set s = .next (answer (itemChanged i it written) (if i = 20 then some given else none))
              ∧ (it.write i v).value i = v
              ∧ (∀ j, j ≠ i → (it.write i v).value j = it.value j)
              ∧ (i ∈ [7, 13, 18, 19, 20, 23, 24] → itemChanged i it written = written))))

/-- R12, R27, R30, R40, R50, R56, R60, R64, R112, R129, R154, R172: what SET-ITEM does at the owner of the item it
changed: the item is written, and `old` are the items before it. The supply limit, the spacing, the timeouts, the run
and hold times, the exercise interval, the stale time and the REPEAT limit act on the stamps already held; the
hysteresis maps every zone; the fallback, the floor of the present mode and the traffic window recompute every zone's
terms; the base level of the present mode retargets the groups; the fail limit makes entries LOST; the codes raise the
access level to the base level. That the hysteresis evaluates the queue once after all zones (log 17), what becomes of
a retiring entry (log 31), that a spacing not yet passed runs on from the last grant (log 32), that fans and zones are
taken in rising number (log 39), that an expiry mark once set outlasts a raised REPEAT limit (log 50), and the fixed
order of the two timeouts and of what is handed on (log 2) are the model's. -/
def Obligations.ItemChangesReachTheirOwners : Prop :=
  ∀ (s : State) (old : Items),
    let it := s.items
    let passed (u : State) (since : Option Nat) (time : Nat) : Bool :=
      match since with | some t => decide (t + time ≤ u.now) | none => false
    let each (due : State → Fan → Bool) (act : Nat → Fan → State → State) (t : State) : State :=
      List.foldl
        (fun u i => match u.fan i with | some f => if due u f then act i f u else u | none => u) t s.fans.fans.keys
    let swept (f : Zone → Zone) (start : Nat) : State :=
      { (List.foldl
            (fun (t : State) (e : Nat × Zone) =>
              t.markWhen (e.2.demand != ((f e.2).recompute it.fallback).demand) (.zone e.1)) s s.air.zones) with
        air :=
          { s.air with
            zones := s.air.zones.map fun _ z => (f z).recompute it.fallback
            subWindowStart := start }
        handed :=
          s.handed ++
            (List.filter (fun e : Nat × Zone => e.2.demand != ((f e.2).recompute it.fallback).demand)
              s.air.zones).map fun e =>
              .zoneChangeFan ⟨e.1, some ((f e.2).recompute it.fallback).demand, e.2.alarm, .stayed, false⟩ }
    let retargeted : State :=
      { s.postAll (List.map (fun e : Nat × Machine.Group => e.2.defn.node)
          (s.light.groups.filter fun e => (s.targeted e.2).target ≠ e.2.target)) with
        light := { s.light with groups := s.light.groups.map fun _ g => s.targeted g } }
    let gone (c : ChannelRun) : Bool := (c.validity == .valid || c.validity == .warming) && passed s c.lastFresh it.staleTime
    let stale (c : ChannelRun) : ChannelRun := if gone c then { c with validity := .stale, seedPending := true } else c
    (itemChanged 0 old s = if old.supplyLimit < it.supplyLimit then s.evaluate else s)
    ∧ itemChanged 1 old s
        = (if s.fans.lastGrant.isNone || passed s s.fans.lastGrant it.startSpacing then
            if s.fans.spacing then ({ s with fans := { s.fans with spacing := false } } : State).evaluate else s
          else { s with fans := { s.fans with spacing := true } })
    ∧ (Table.wf s.fans.fans = true →
        itemChanged 2 old s
        = each (fun u f => f.state == .running && f.speedup && passed u f.lastGrant it.startTimeout)
            (fun i f u => (u.changeFan i f { f with speed := .low, speedup := false, speedupFailed := true }).evaluate)
            (each (fun u f => f.state == .starting && passed u f.lastGrant it.startTimeout)
              (fun i f u => (u.stopFan i .faulted (some .drive) 0).remapEvaluate f.defn.zone) s))
    ∧ itemChanged 3 old s
        = each
            (fun u f =>
              f.state == .running && f.want == .off && !f.exercise && f.holdStart.isNone
                && (f.runningSince.isNone || passed u f.runningSince it.minimumRun))
            (fun i f u =>
              (if f.defn.policy = .release ∨ it.holdTime = 0 then u.stopFan i .rundown none 0
                else
                  (u.changeFan i f { f with speed := .low, speedup := false, holdStart := some u.now }).dequeue
                    i).evaluate)
            s
    ∧ itemChanged 4 old s
        = each (fun u f => f.state == .running && f.want == .off && passed u f.holdStart it.holdTime)
            (fun i _ u => (u.stopFan i .rundown none 0).evaluate) s
    ∧ itemChanged 5 old s
        = (s.air.zones.keys.foldl
            (fun u z => match (u.recount z).zone z with | some r => (u.recount z).mapZone z r.demand | none => u.recount z)
            s).evaluate
    ∧ itemChanged 6 old s
        = each
            (fun u f =>
              f.state == .off && decide (0 < it.exerciseInterval)
                && passed u (some f.lastStop) (it.exerciseInterval * 3600))
            (fun i f u =>
              ((u.changeFan i f { f with state := .queued, exercise := true }).enqueue ⟨i, .start, .exercise⟩).evaluate)
            s
    ∧ (Table.wf s.air.zones = true →
        itemChanged 8 old s = swept id s.air.subWindowStart
        ∧ itemChanged 9 old s
            = (if s.light.mode = .opened then swept (fun z => { z with floorTerm := it.openFloor }) s.air.subWindowStart
              else s)
        ∧ itemChanged 10 old s
            = (if s.light.mode = .quiet then swept (fun z => { z with floorTerm := it.quietFloor }) s.air.subWindowStart
              else s)
        ∧ itemChanged 11 old s = swept (fun z => { z with ring := [0, 0, 0, 0, 0, 0] }) s.now)
    ∧ (let affected := s.gas.heads.filter fun e => gone e.2.co || gone e.2.no2
      itemChanged 12 old s
        = { s.markAll (List.map (fun e : Nat × Head => Subject.zone e.2.defn.zone) affected) with
            gas := { heads := s.gas.heads.map fun _ h => { h with co := stale h.co, no2 := stale h.no2 } }
            handed :=
              s.handed ++ (List.range 24).flatMap fun z =>
                match
                  (List.filter (fun e : Nat × Head => e.2.defn.zone = z) affected).map fun e =>
                    (⟨e.1, some ⟨(stale e.2.co).validity, e.2.co.smoothed, (stale e.2.no2).validity, e.2.no2.smoothed⟩⟩ :
                      HeadUpdate)
                with
                | [] => []
                | u :: more => [.gasUpdate z u more] })
    ∧ (Table.wf s.light.groups = true →
        itemChanged 14 old s = (if s.light.mode = .opened then retargeted else s)
        ∧ itemChanged 15 old s = if s.light.mode = .quiet then retargeted else s)
    ∧ itemChanged 16 old s
        = s.loops.nodes.keys.foldl
            (fun u i =>
              let n := nodeAt i
              match u.node n with
              | none => u
              | some x =>
                if x.state = .lost ∨ x.failures < it.failLimit then u
                else
                  let t := (u.setNode n { x with state := .lost }).mark (.node n)
                  let lost : Instr :=
                    match x.defn.role with
                    | .gas => .gasNodeLost n | .bay => .bayNodeLost n | .ramp => .rampNodeLost n
                    | .fan => .fanNodeLost n | .sign => .signNodeLost n | .lamp => .lampNodeLost n
                  let v : State := { t with handed := u.handed ++ [lost] }
                  if x.retiring then v.deleteNode n else v)
            s
    ∧ (s.handed = [] → exec .repeatLimitExpiry s = .next (settle (itemChanged 17 old s)))
    ∧ ∀ i ∈ [21, 22],
        let least : Access :=
          if it.installerCode = 0xFFFFFFFF then .installer else if it.operatorCode = 0xFFFFFFFF then .operator else .view
        (itemChanged i old s).port.access
          = (if accessCode s.port.access ≤ accessCode least then least else s.port.access)
        ∧ itemChanged i old s = { s with port := { s.port with access := (itemChanged i old s).port.access } }

/-- R177, R180, R181, R183: SAVE fixes a snapshot and erases the old image, a second one is refused with BUSY, and the
completion writes the snapshot or spoils the image; a start loads the image that passes its check, else the factory
values; the settings a SAVE took in a sound state are the settings after its completion and a POWER-ON. R20, R40, R75,
R94, R108, R126, R170, R172, R184: NOTE-START, the access level, and the run state in which each head, zone, fan, bay,
ramp, sign and group starts (StartsBeginTheLoopsAndTheList says it of the loops and the list). The operand that says
whether the image read back, and the layout of the image (log 7), the operand that gives the lines (log 6), that
NOTE-START is on the line when the start ends (log 9), that a SAVE_COMPLETION without a SAVE changes nothing (log 25),
what a start discards (log 26), that the unventilated flags are set with the start itself (log 28) and that a SAVE
takes retiring entries among its settings (log 49) are the model's. -/
def Obligations.SavedSettingsComeBack : Prop :=
  ∀ s : State,
    (∀ tag, Admits .installer s →
      let r := s.framePassed
      (s.store.saveState = .inProgress → exec (.save tag []) s = .next (r.turnedAway tag .busy))
      ∧ (s.store.saveState ≠ .inProgress →
          let saved : State :=
            State.done tag false
              { r with
                store :=
                  { s.store with
                    image := .spoiled, snapshot := some s.settings, saveState := .inProgress, saveStamp := s.now } }
          exec (.save tag []) s = .next saved
          ∧ (Sound s → ∀ lines, ∃ t u,
            exec (.saveCompletion true) saved = .next t ∧ t.store.saveState = .complete ∧ Subject.site ∈ t.port.notes
            ∧ exec (.powerOn lines) t = .next u ∧ u.settings = s.settings ∧ u.port.storeInvalid = false)))
    ∧ (s.handed = [] → ∀ readBack,
        (∀ c, s.store.saveState = .inProgress → s.store.snapshot = some c →
          exec (.saveCompletion readBack) s
            = .next (settle
                (({ s with
                    store :=
                      { s.store with
                        image := if readBack then .written c (crc32 (Config.imageBytes c)) else .spoiled
                        snapshot := none, saveState := if readBack then .complete else .failed
                        saveStamp := s.now } } : State).mark .site)))
        ∧ (s.store.saveState ≠ .inProgress → exec (.saveCompletion readBack) s = .next (settle s)))
    ∧ (SavedSound s.store → ∀ lines : PerLoop Bool,
      let loaded : Option Settings :=
        match s.store.image with
        | .spoiled => none
        | .written c crc => if crc32 (Config.imageBytes c) = crc then some c else none
      let channel : ChannelRun :=
        { range := .fine, validity := .noData, cause := none, seedPending := true, rawFine := 0, rawCoarse := 0, value := 0
          smoothed := 0, lastFresh := none }
      let portStarts (cause : StartCause) (it : Items) (invalid : Bool) (t : State) : Prop :=
        let base : Access :=
          if it.installerCode = 0xFFFFFFFF then .installer else if it.operatorCode = 0xFFFFFFFF then .operator else .view
        t.port.storeInvalid = invalid ∧ t.port.startCause = cause ∧ t.port.link = .supervised ∧ t.port.supervisedAt = 0
          ∧ t.port.replies = [] ∧ t.port.rate = it.lineRate ∧ t.port.receiver = .hunting
          ∧ t.port.access = base ∧ t.port.startNote = false
          ∧ t.port.sending = some
              { kind := 0x90, tag := 0, newRate := none
                body :=
                  [0, 0, 0, 0, (match cause with | .powerOn => 0 | .restart => 1), (if invalid then 1 else 0), 0,
                    (match base with | .view => 0 | .operator => 1 | .installer => 2)] }
      let blocksStart (c : Settings) (t : State) : Prop :=
        (∀ i h, t.gas.heads.get i = some h → h.lastStatus = none ∧ h.co = channel ∧ h.no2 = channel)
        ∧ t.air.alarmOrder = [] ∧ t.air.subWindowStart = 0
        ∧ (∀ i z, t.zone i = some z →
            z.view = [] ∧ z.coFigure = none ∧ z.no2Figure = none ∧ z.coAlarm = false ∧ z.no2Alarm = false
            ∧ z.ring = [0, 0, 0, 0, 0, 0] ∧ z.standing = [] ∧ z.hostClosed = false
            ∧ z.demand = max c.items.fallback c.items.openFloor
            ∧ ∃ x, t.zoneFans i = some x ∧ x.steps = 0 ∧ z.unventilated = x.unventilated
              ∧ x.available
                = (c.fans.filter fun e =>
                    e.2.defn.zone = i ∧ (c.plans.getD c.basePlan []).getD e.1 .forward ≠ .idle).length
              ∧ x.unventilated = (x.available == 0)
              ∧ x.duty.Pairwise (fun a b => ∃ f g, t.fan a = some f ∧ t.fan b = some g
                  ∧ (f.runMinutes < g.runMinutes ∨ (f.runMinutes = g.runMinutes ∧ a < b)))
              ∧ ∀ j, j ∈ x.duty ↔ ∃ f, t.fan j = some f ∧ f.defn.zone = i)
        ∧ t.fans.queue = [] ∧ t.fans.account = 0 ∧ t.fans.lastGrant = none ∧ t.fans.forcedPlan = none
        ∧ t.fans.activePlan = c.basePlan ∧ t.fans.source = .base
        ∧ (∀ i f, t.fan i = some f →
            f.state = .rundown ∧ f.want = .off ∧ f.exercise = false ∧ f.speedup = false ∧ f.speedupFailed = false
            ∧ f.lastStop = 0 ∧ f.rest = f.defn.rundown ∧ f.lastGrant = none ∧ f.runningSince = none
            ∧ f.holdStart = none ∧ f.cause = none ∧ f.heldLoad = 0 ∧ f.report = none)
        ∧ (∀ i b, t.occ.bays.get i = some b →
            b.state = .unknown ∧ b.candidate = none ∧ b.counter = 0 ∧ b.lastChange = 0)
        ∧ (∀ z cls, (t.counts z).get cls
            = ⟨0, 0, (c.bays.filter fun e => e.2.zone = z ∧ e.2.cls = cls).length, 0⟩)
        ∧ (∀ i p, t.occ.ramps.get i = some p →
            p.standing = false ∧ p.upTally = 0 ∧ p.downTally = 0 ∧ p.last = none)
        ∧ t.guide.view = List.replicate 24 ⟨⟨0, 0, 0, 0⟩, false⟩
        ∧ (∀ i g, t.guide.signs.get i = some g →
            g.condition = .unknown ∧ g.echo = none ∧ (g.defn.sources ≠ [] → g.display = ⟨0, .full, none, .none, 0⟩))
        ∧ t.light.mode = .opened ∧ t.light.zoneAlarm = List.replicate 24 false
        ∧ ∀ i g, t.light.groups.get i = some g →
            g.override = none ∧ g.presence = none ∧ g.target = c.items.openBase ∧ g.cause = .base
            ∧ g.inFlight = none ∧ g.applied = none ∧ g.conditions = g.defn.outputs.map fun _ => .unknown
      let started (start : Instr) (cause : StartCause) (c : Settings) (invalid : Bool) : Prop :=
        ∃ u, exec start s = .next (settle u) ∧ (settle u).settings = c ∧ (settle u).clockMs = 0
          ∧ (settle u).pending = s.pending ∧ (settle u).store.image = s.store.image
          ∧ (settle u).store.saveState = .none ∧ portStarts cause c.items invalid (settle u) ∧ blocksStart c u
      (∀ c, loaded = some c →
        started (.powerOn lines) .powerOn c false
        ∧ started (.restart lines) .restart
            { c with
              fans := c.fans.map fun i x =>
                match s.fan i with
                | some f => { x with runMinutes := f.runMinutes }
                | none => x }
            false)
      ∧ (loaded = none →
        started (.powerOn lines) .powerOn Settings.factory true
        ∧ started (.restart lines) .restart Settings.factory true))

/-- R40, R133, R145, R163, R184: what the Loop Master, the node table and the Scan List Unit start with at a POWER-ON
and at a RESTART, before the engine first chooses: every loaded entry afresh in DEFINED, no service set, no IGNORED
loop, a latch on each loop whose line is asserted, no found record, no count of the engine, the nodes of the fans,
signs and groups posted in that order, and the list IDLE, or RUNNING with entry 0 reached while auto-start is set;
nothing is marked, and the zones' first demands are handed on. That the owners post in that order and the unventilated
findings go out without deliveries (log 28), that the starts carry the levels of the lines (log 6), when the engine
first chooses (log 4), that the first demands go in rising zone number (log 39) and what a start discards (log 26) are
the model's. -/
def Obligations.StartsBeginTheLoopsAndTheList : Prop :=
  ∀ (s : State) (lines : PerLoop Bool) (start : Instr), start = .powerOn lines ∨ start = .restart lines →
    let c : Settings :=
      match s.store.image with
      | .spoiled => Settings.factory
      | .written c crc => if crc32 (Config.imageBytes c) = crc then c else Settings.factory
    Table.wf c.nodes = true → (∀ i d, c.nodes.get i = some d → i < 124) →
    let posts : List NodeId :=
      List.map (fun e : Nat × SavedFan => e.2.defn.node) c.fans ++ List.map (fun e : Nat × SignDefn => e.2.node) c.signs
        ++ List.map (fun e : Nat × GroupDefn => e.2.node) c.groups
    let once := posts.foldl (fun l n => if n ∈ l then l else l ++ [n]) []
    let line (m : LoopId) : LoopState :=
      { latch := lines.get m, service := [], empties := 0, ignoredSince := none, line := lines.get m }
    let idle : ScanList :=
      { memory := c.list, state := .idle, cursor := 0, remaining := none
        progress :=
          { nextAddr := none, sweepBegun := false, itemStart := none, limitRunning := false, expired := false }
        inFlight := none, abandoned := false, haltPending := false, jumpRun := 0, stopError := none, continued := 0
        pauseStart := none }
    ∃ u : State,
      exec start s = .next (settle u)
      ∧ u.loops
        = { nodes :=
              List.map
                (fun e : Nat × NodeDefn =>
                  (e.1,
                    { defn := e.2, state := .defined, failures := 0, lastFailure := .none, lastSeen := none
                      attention := false, setupDue := false, refreshOwed := decide (nodeAt e.1 ∈ once.drop 32)
                      retiring := false, report := .empty }))
                c.nodes
            lines := ⟨line .a, line .b, line .c, line .d⟩, urgent := once.take 32, sinceList := 0
            lastRollcall := none, found := [], tx := none }
      ∧ (c.items.autoStart = false → u.list = idle)
      ∧ (c.items.autoStart = true →
          ∃ v : State, v.list = { idle with state := .running } ∧ v.clockMs = 0 ∧ u.list = (v.reachAt 0).list)
      ∧ u.port.notes = []
      ∧ u.handed
        = List.map (fun e : Nat × Zone => .zoneChangeFan ⟨e.1, some e.2.demand, .none, .stayed, false⟩) u.air.zones

/-- R182: DEFAULTS empties every table and sets every item, plan and list entry to its factory value; it keeps the
stored image, the save state, the site mode and the link state, and a rate other than 115200 changes at the end of its
reply. R75, R108, R126, R137: it posts the nodes of the fans not OFF, of the signs and of the groups. R145: the
entries that then hold an urgent entry or a refresh owed mark stay as retiring ones, and every other entry is deleted;
an entry that the factory fail limit makes LOST (R129) is deleted if it was retiring already. R46, R148: the active
plan is BASE plan 0, at the latest once the Fan Controller has taken the changes of the zones that left the alarm
order list, and the list at its HALT has no remaining count. What the stages of R182 leave between them is the model's
reading (logs 22 and 31), as is that a zone's change waits until DEFAULTS has ended (log 2). -/
def Obligations.DefaultsGivesTheFactorySettings : Prop :=
  ∀ (s : State) (tag : Byte), Admits .installer s →
    ∃ u : State,
      exec (.defaults tag []) s
        = .next (settle (u.reply
            { kind := 0x80, tag := tag, body := [0]
              newRate := if s.items.lineRate = 115200 then none else some 115200 }))
      ∧ u.gas.heads = [] ∧ u.fans.fans = [] ∧ u.guide.signs = [] ∧ u.occ.bays = [] ∧ u.occ.ramps = []
      ∧ u.light.groups = [] ∧ u.air.zones = []
      ∧ u.fans.queue = [] ∧ u.fans.account = 0
      ∧ u.fans.forcedPlan = none ∧ u.fans.basePlan = 0 ∧ u.fans.plans = Settings.factory.plans
      ∧ ((∀ i ∈ s.air.alarmOrder, ∃ z, s.zone i = some z ∧ z.inAlarm = true) →
          u.air.alarmOrder = []
          ∧ ((∀ i ∈ s.air.alarmOrder, ∀ z, s.zone i = some z → z.defn.alarmPlan = none) →
              u.fans.activePlan = 0 ∧ u.fans.source = .base)
          ∧ ∀ i ∈ s.air.alarmOrder, ∃ demand planChanged,
              let left : Instr := .zoneChangeFan ⟨i, demand, .none, .left, planChanged⟩
              left ∈ u.handed
              ∧ ∀ w : State, w.handed = [] → w.air.alarmOrder = [] → w.fans.forcedPlan = none → w.fans.basePlan = 0 →
                ∃ v, exec left w = .next v ∧ v.fans.activePlan = 0 ∧ v.fans.source = .base)
      ∧ u.list.memory = List.replicate 256 .halt ∧ u.list.state = .idle ∧ u.list.cursor = 0
      ∧ u.list.remaining = none
      ∧ u.store = { s.store with items := Items.factory }
      ∧ u.light.mode = s.light.mode ∧ u.port.access = .installer
      ∧ u.port.link = .supervised ∧ u.port.supervisedAt = s.now
      ∧ (NodesSound s.loops → ∀ i,
          let posted : List NodeId :=
            List.map (fun e : Nat × Fan => e.2.defn.node) (s.fans.fans.filter fun e => e.2.state ≠ .off)
              ++ List.map (fun e : Nat × Sign => e.2.defn.node) s.guide.signs
              ++ List.map (fun e : Nat × Machine.Group => e.2.defn.node) s.light.groups
          (s.loops.nodes.get i = none → u.loops.nodes.get i = none)
          ∧ ∀ x, s.loops.nodes.get i = some x →
            let held := nodeAt i ∈ s.loops.urgent ∨ x.refreshOwed = true ∨ nodeAt i ∈ posted
            let lost := x.state ≠ .lost ∧ 3 ≤ x.failures ∧ s.items.failLimit ≠ 3
            (¬ held ∨ (lost ∧ x.retiring = true) → u.loops.nodes.get i = none)
            ∧ (held → ¬ (lost ∧ x.retiring = true) →
                ∃ y, u.loops.nodes.get i = some y
                  ∧ y = { x with
                      retiring := true, refreshOwed := y.refreshOwed, state := if lost then .lost else x.state }
                  ∧ (nodeAt i ∈ u.loops.urgent ∨ y.refreshOwed = true)))
      ∧ (∀ i x, u.loops.nodes.get i = some x → x.retiring = true)
      ∧ (∀ x, x ∈ s.framePassed.port.notes → x ∈ u.port.notes)

/-- R164 to R168, R173 to R175, R185: what a received byte, a passing frame, an unknown kind, a frame that finds 4
replies waiting, a request whose length does not suit its kind, a request below its level, the end of a frame on the
line and supervision expiry do, and what the free transmitter sends. The operands that give the stop bit, the gap (log
5) and the levels of the lines at a LOOP-RESET (log 6), the event that carries a frame's command (log 21), unstated
bytes of a note frame (log 12), that SUPERVISION_EXPIRY before its time (log 3) and FRAME_SENT with nothing on the
line (log 25) change nothing, and the order in which the expiry goes to Lighting and Fans (log 2) are the model's. -/
def Obligations.FramesAndSupervisionFollowTheRules : Prop :=
  ∀ (s : State) (lines : PerLoop Bool), s.handed = [] →
    let receiver (x : Receiver) : State := { s with port := { s.port with receiver := x } }
    let line (f : Frame) (p : Port) : State := { s with port := { p with sending := some f } }
    let due : Prop :=
      s.port.link = .supervised ∧ 0 < s.items.supervisionTime
        ∧ s.port.supervisedAt + s.items.supervisionTime ≤ s.now
    let autonomous : State := ({ s with port := { s.port with link := .autonomous } } : State).mark .site
    let r := s.framePassed
    (∀ b gap, exec (.receiveByte b false gap) s = .next (settle (receiver .hunting)))
    ∧ (∀ b gap, s.port.receiver = .hunting ∨ gap = true →
        exec (.receiveByte b true gap) s = .next (settle (receiver (if b = 0xC3 then .inFrame [] else .hunting))))
    ∧ (∀ b, s.port.receiver = .inFrame [] →
        exec (.receiveByte b true false) s
          = .next (settle (receiver (if 240 < b.toNat then .hunting else .inFrame [b]))))
    ∧ (∀ b len rest, s.port.receiver = .inFrame (len :: rest) → len.toNat ≤ 240 → rest.length + 2 < len.toNat + 5 →
        exec (.receiveByte b true false) s = .next (settle (receiver (.inFrame (len :: rest ++ [b])))))
    ∧ r = ({ s with port := { s.port with link := .supervised, supervisedAt := s.now } } : State).markWhen
        (s.port.link == .autonomous) .site
    ∧ (∀ kind tag body,
        (s.port.replies.length < 4 →
          exec (.unknownKind kind tag body) s = .next (r.turnedAway tag .unknownKind))
        ∧ (4 ≤ s.port.replies.length → exec (.unknownKind kind tag body) s = .next (settle r))
        ∧ exec (.frameDropped kind tag body) s = .next (settle r)
        ∧ ∀ c, requestOf kind.toNat tag body lines = some c →
          (4 ≤ s.port.replies.length → exec c s = .next (settle r))
          ∧ (s.port.replies.length < 4 →
              let k := kind.toNat
              let least : Access :=
                if k ∈ [0x01, 0x02, 0x03, 0x04, 0x06, 0x12, 0x1C, 0x28, 0x32, 0x33, 0x39, 0x43, 0x49, 0x53, 0x54,
                    0x55] then .view
                else if k ∈ [0x27, 0x41, 0x42, 0x44] then .operator
                else if k ∈ [0x21, 0x22] ∧ s.items.editPlans = true then .operator
                else if k ∈ [0x31, 0x1A, 0x1B, 0x25, 0x26] ∧ s.items.editService = true then .operator
                else .installer
              let fixed : List (Nat × Nat) :=
                [(0x01, 0), (0x03, 4), (0x04, 0), (0x05, 5), (0x06, 1), (0x07, 0), (0x08, 0), (0x10, 6), (0x11, 15),
                  (0x12, 1), (0x18, 7), (0x19, 10), (0x1A, 1), (0x1B, 1), (0x1C, 1), (0x20, 12), (0x21, 13), (0x22, 1),
                  (0x23, 1), (0x24, 0), (0x25, 1), (0x26, 1), (0x27, 1), (0x28, 1), (0x30, 8), (0x31, 5), (0x32, 3),
                  (0x33, 2), (0x34, 9), (0x39, 1), (0x41, 4), (0x42, 2), (0x43, 1), (0x44, 1), (0x49, 3), (0x4A, 1),
                  (0x51, 1), (0x52, 0), (0x53, 2), (0x54, 0), (0x55, 1)]
              let many (l : List Byte) : List Byte := BitVec.ofNat 8 l.length :: l
              let suits : Prop :=
                (k, body.length) ∈ fixed
                  ∨ (k = 0x02 ∧ body.length ≤ 240)
                  ∨ (k = 0x38 ∧
                      ∃ (head zones : List Byte) (filter threshold : Byte)
                          (ways : List (Byte × List Byte × List Byte)),
                        head.length = 5 ∧ zones.length < 256 ∧ ways.length < 256
                        ∧ (∀ w ∈ ways, w.2.1.length < 256 ∧ w.2.2.length < 256)
                        ∧ body
                          = head ++ many zones ++ [filter, threshold, BitVec.ofNat 8 ways.length]
                            ++ ways.flatMap fun w => w.1 :: many w.2.1 ++ many w.2.2)
                  ∨ (k = 0x40 ∧ body.length = 17 + (body.getD 5 0).toNat)
                  ∨ (k = 0x48 ∧ body.length = 5 + (body.getD 4 0).toNat)
                  ∨ (k = 0x50 ∧ body.length = 2 + 5 * (body.getD 1 0).toNat)
              (¬ suits → exec c s = .next (r.turnedAway tag .badLength))
              ∧ (suits → accessCode s.port.access < accessCode least →
                  exec c s = .next (r.turnedAway tag .notPermitted))))
    ∧ (s.port.sending = none → exec .frameSent s = .next (settle s))
    ∧ (∀ f, s.port.sending = some f →
        exec .frameSent s
          = .next (settle
              { s with
                port :=
                  { s.port with
                    sending := none
                    rate := (match f.newRate with | none => s.port.rate | some n => n)
                    receiver := (match f.newRate with | none => s.port.receiver | some _ => .hunting) } }))
    ∧ (¬ due → exec .supervisionExpiry s = .next (settle s))
    ∧ (due →
        exec .supervisionExpiry s
          = .next (settle
              { autonomous with handed := [.supervisionExpiryLighting, .supervisionExpiryFans] }))
    ∧ ((s.port.sending ≠ none → s.transmit = s)
        ∧ (∀ f rest, s.port.sending = none → s.port.replies = f :: rest →
            s.transmit = line f { s.port with replies := rest })
        ∧ (s.port.sending = none → s.port.replies = [] → s.port.startNote = true →
            s.transmit = line s.startFrame { s.port with startNote := false })
        ∧ (∀ x rest, s.port.sending = none → s.port.replies = [] → s.port.startNote = false →
            s.port.notes = x :: rest → s.transmit = line (s.noteFrame x) { s.port with notes := rest })
        ∧ (s.port.replies = [] → s.port.startNote = false → s.port.notes = [] → s.transmit = s))

/-- R35, R39, R69, R143, R162, R169, R171: what NOTE-SITE, NOTE-LIST, NOTE-ZONE, NOTE-FAN and NOTE-NODE say, built
from the present records after the site clock, field by field as 11.3 lays them out; the fields of an undefined zone
or fan and of an absent node entry are 0. A byte whose value the spec does not state, of a field that is absent, is
free (log 12). -/
def Obligations.NotesTellTheOwnersState : Prop :=
  ∀ s : State,
    let note (kind : Byte) (body : List Byte) : Frame := { kind := kind, tag := 0, body := u32 s.now ++ body, newRate := none }
    let byte (n : Nat) : Byte := BitVec.ofNat 8 n
    let orFF (o : Option Nat) : Byte := match o with | some n => byte n | none => 0xFF
    let flags (l : List Bool) : Byte := byte (l.mapIdx fun i b => if b then 2 ^ i else 0).sum
    (s.noteFrame .site
      = note 0x91
          ([byte (linkCode s.port.link), byte (siteModeCode s.light.mode), byte s.fans.activePlan,
              (match s.fans.source with | .base => 0 | .alarm _ => 1 | .forced => 2),
              (match s.fans.source with | .alarm z => byte z | .base | .forced => 0xFF), orFF s.fans.forcedPlan,
              byte s.fans.basePlan, byte (saveStateCode s.store.saveState)] ++ u32 s.store.saveStamp
            ++ byte s.air.alarmOrder.length :: s.air.alarmOrder.map byte))
    ∧ (let head := [byte (listStateCode s.list.state), byte s.list.cursor]
       (∀ e n, s.list.stopError = some e → e.node = some n →
          s.noteFrame .list
            = note 0x92
                (head ++ [flags [s.list.haltPending, true], byte e.index, byte (listErrorCode e.kind),
                  byte (loopCode n.loop), byte n.addr] ++ u32 e.time ++ u16 s.list.continued))
       ∧ (∀ e, s.list.stopError = some e → e.node = none → ∃ loop : Byte,
          s.noteFrame .list
            = note 0x92
                (head ++ [flags [s.list.haltPending, true], byte e.index, byte (listErrorCode e.kind), loop, 0xFF]
                  ++ u32 e.time ++ u16 s.list.continued))
       ∧ (s.list.stopError = none → ∃ (kind loop : Byte) (time : List Byte), time.length = 4
          ∧ s.noteFrame .list
            = note 0x92
                (head ++ [flags [s.list.haltPending], 0xFF, kind, loop, 0xFF] ++ time ++ u16 s.list.continued)))
    ∧ (∀ i, s.zone i = none → s.noteFrame (.zone i) = note 0x93 (byte i :: List.replicate 42 0))
    ∧ (∀ i z, s.zone i = some z → ∃ co no2 counts : List Byte, ∃ place : Byte,
        co.length = 2 ∧ no2.length = 2 ∧ counts.length = 32
        ∧ (∀ n, z.coFigure = some n → co = u16 n) ∧ (∀ n, z.no2Figure = some n → no2 = u16 n)
        ∧ (i ∉ s.air.alarmOrder → place = 0xFF)
        ∧ (∀ before after, s.air.alarmOrder = before ++ i :: after → i ∉ before → place = byte before.length)
        ∧ (∀ k, k < 4 → ∀ c, classOf k = some c →
            let n := (s.counts i).get c
            (counts.drop (8 * k)).take 8 = u16 n.free ++ u16 n.occupied ++ u16 n.unknown ++ u16 n.outOfService)
        ∧ s.noteFrame (.zone i)
          = note 0x93
              ([byte i,
                  flags [true, z.coFigure.isSome, z.no2Figure.isSome, z.hostClosed, z.unventilated,
                    z.coAlarm || z.no2Alarm, z.hostClosed],
                  byte (zoneKindCode z.defn.kind), byte z.defn.level] ++ co ++ no2
                ++ [flags [z.coAlarm, z.no2Alarm], place, byte z.demand] ++ counts))
    ∧ (∀ i, s.fan i = none → s.noteFrame (.fan i) = note 0x94 (byte i :: List.replicate 10 0))
    ∧ (∀ i f, s.fan i = some f →
        s.noteFrame (.fan i)
          = note 0x94
              ([byte i, flags [true, f.speedupFailed, f.exercise], byte f.defn.zone, byte (fanStateCode f.state),
                  (match f.command with
                    | .stop => 0
                    | .run dir sp => flags [true, dir == .reverse, sp == .high]),
                  byte (fanCauseCode f.cause), byte f.heldLoad,
                  (match f.report with
                    | some r =>
                      byte (driveConditionCode r.condition) + (if r.direction = .reverse then 8 else 0)
                        + (if r.speed = .high then 16 else 0)
                    | none => 0xFF)]
                ++ [byte (f.runMinutes / 65536), byte (f.runMinutes / 256), byte f.runMinutes]))
    ∧ ∀ n : NodeId,
      let ignored := (s.line n.loop).ignoredSince.isSome
      let place := [byte (loopCode n.loop), byte n.addr]
      (s.node n = none →
        s.noteFrame (.node n) = note 0x95 (place ++ flags [false, false, false, ignored] :: List.replicate 8 0))
      ∧ ∀ x, s.node n = some x → ∃ seen : List Byte, ∃ report : List Byte,
        (∀ t, x.lastSeen = some t → seen = u16 (min 65535 (s.now - t)))
        ∧ (x.lastSeen = none → seen.length = 2)
        ∧ (∀ c, x.report = .sign c → ∃ b : Byte, report = [byte (signConditionCode c), b])
        ∧ (∀ k, x.report = .ramp k → ∃ b : Byte, report = [byte k, b])
        ∧ (∀ c0 c1 c2 c3 c4 c5 c6 c7 : LampCondition, x.report = .lamp [c0, c1, c2, c3, c4, c5, c6, c7] →
            let code := lampConditionCode
            report
              = [byte (code c0 * 64 + code c1 * 16 + code c2 * 4 + code c3),
                  byte (code c4 * 64 + code c5 * 16 + code c6 * 4 + code c7)])
        ∧ (x.report = .empty → report.length = 2 ∧ (x.defn.role = .ramp → report.head? = some 0))
        ∧ s.noteFrame (.node n)
          = note 0x95
              (place ++ [flags [true, x.attention, x.lastSeen.isSome, ignored], byte (roleCode x.defn.role),
                byte (nodeStateCode x.state), byte x.failures, byte (failureCode x.lastFailure)] ++ seen ++ report)

/-- R164, R165, R166: the bytes of a frame of any kind, tag and body of at most 240 bytes, received one by one by a
hunting receiver, hand exactly its dispatch after restarting supervision; with any other check they leave the part as
it was. The event that carries a frame's command is the model's (log 21), as is the operand that gives the gap between
bytes (log 5); the levels of the lines that a LOOP-RESET takes are free, whatever they are (log 6). -/
def Obligations.ReceivedFrameIsDispatched : Prop :=
  ∀ (s : State) (kind tag : Byte) (body : List Byte),
    s.handed = [] → settle s = s → s.port.receiver = .hunting → body.length ≤ 240 →
    let level (loop : Nat) : Bool := Config.attentionLevel loop s.clockMs
    let levels : PerLoop Bool := ⟨level 0, level 1, level 2, level 3⟩
    let covered := BitVec.ofNat 8 body.length :: kind :: tag :: body
    let received (check : List Byte) : Host.Outcome State Fault Refusal :=
      (0xC3 :: covered ++ check).foldl
        (fun o b => match o with
          | .next t => exec (.receiveByte b true false) t
          | .fault f => .fault f
          | .refused f => .refused f)
        (.next s)
    let check := u16 (crc16 covered).toNat
    received check
      = .next (settle
          { s.framePassed with
            handed :=
              [if 4 ≤ s.port.replies.length then .frameDropped kind tag body
                else (requestOf kind.toNat tag body levels).getD (.unknownKind kind tag body)] })
    ∧ ∀ a b : Byte, [a, b] ≠ check → received [a, b] = .next s

/-! ## The part as a whole -/

/-- A step takes the command at the front of the queue; every command answers a next state and leaves the queue as it
is. A command that is itself an event one block handed another is taken after what the same block handed the same
neighbour before it (R34, R81, R131), and before any other event; that it is the handed event, and which deliveries
share a lane, is the model's choice (log 2). With no command waiting the part goes on by itself, which is the model's choice (logs 1 and 3): it takes the first
event handed, else the first timer event due, else the clock goes on by 1 ms. -/
def Obligations.StepTakesTheFrontCommand : Prop :=
  (∀ (s : State) (c : Instr) (rest : List Instr), s.pending = c :: rest → step s = exec c { s with pending := rest })
  ∧ (∀ (s : State) (c : Instr), ∃ t, exec c s = .next t ∧ t.pending = s.pending)
  ∧ (∀ (s : State) (c : Instr) (before rest : List Instr), isStart c = false → s.handed = before ++ c :: rest →
      c ∉ before →
      let waited : List Instr := before.filter fun e => decide (lane e = lane c)
      let taken (u : State) (e : Instr) : State := settle (effect e { u with handed := u.handed.erase e })
      exec c s = .next (taken (waited.foldl taken s) c))
  ∧ ∀ s : State, s.pending = [] →
      (∀ e rest, s.handed = e :: rest → step s = .next (settle (effect e { s with handed := rest })))
      ∧ (∀ c rest, s.handed = [] → s.due = c :: rest → step s = exec c s)
      ∧ (s.handed = [] → s.due = [] → step s = .next (settle { s with clockMs := s.clockMs + 1 }))

/-- R183, R184: the state after reset is that of a POWER-ON with a store that was never written and the attention
lines released, and it is sound. That reset is such a POWER-ON, with NOTE-START on the line (log 9), the released
lines (log 6) and that a start drops the transaction in flight and the events handed (log 26) are the model's. -/
def Obligations.ResetIsTheFactoryPowerOn : Prop :=
  Sound State.reset
  ∧ ∀ s : State, s.store.image = .spoiled →
      exec (.powerOn ⟨false, false, false, false⟩) s = .next { State.reset with pending := s.pending }

/-- R24, R42, R53, R56, R82, R97, R99, R110, R127, R137, R146, R166, R169: every step from a sound state goes on, in a
sound state: no fault, no refusal; the queues keep their capacities, the supply account is the sum of the counted
loads and within the limit, one fan at most holds the start slot, the alarm order list holds exactly the zones in gas
alarm, the counts are those of the bays, and every sign agrees with the guidance view. -/
def Obligations.EveryStepKeepsTheStateSound : Prop :=
  ∀ s : State, Sound s → safe (step s)
end

