-- ==== Sys2Proof/Laws/State.lean ====
section
/-! SUPPORT. One lemma for each field under each plain update of the state, true by definition, so that no later proof
unfolds a record update. -/

namespace Sys2Proof.Machine

variable (s : State)

/-! ### State.hand -/

@[simp] theorem State.hand_pending (e : Instr) : (s.hand e).pending = s.pending := rfl
@[simp] theorem State.hand_handed (e : Instr) : (s.hand e).handed = s.handed ++ [e] := rfl
@[simp] theorem State.hand_clockMs (e : Instr) : (s.hand e).clockMs = s.clockMs := rfl
@[simp] theorem State.hand_gas (e : Instr) : (s.hand e).gas = s.gas := rfl
@[simp] theorem State.hand_air (e : Instr) : (s.hand e).air = s.air := rfl
@[simp] theorem State.hand_fans (e : Instr) : (s.hand e).fans = s.fans := rfl
@[simp] theorem State.hand_occ (e : Instr) : (s.hand e).occ = s.occ := rfl
@[simp] theorem State.hand_guide (e : Instr) : (s.hand e).guide = s.guide := rfl
@[simp] theorem State.hand_light (e : Instr) : (s.hand e).light = s.light := rfl
@[simp] theorem State.hand_loops (e : Instr) : (s.hand e).loops = s.loops := rfl
@[simp] theorem State.hand_list (e : Instr) : (s.hand e).list = s.list := rfl
@[simp] theorem State.hand_port (e : Instr) : (s.hand e).port = s.port := rfl
@[simp] theorem State.hand_store (e : Instr) : (s.hand e).store = s.store := rfl

/-! ### State.handAll -/

@[simp] theorem State.handAll_pending (es : List Instr) : (s.handAll es).pending = s.pending := rfl
@[simp] theorem State.handAll_handed (es : List Instr) : (s.handAll es).handed = s.handed ++ es := rfl
@[simp] theorem State.handAll_clockMs (es : List Instr) : (s.handAll es).clockMs = s.clockMs := rfl
@[simp] theorem State.handAll_gas (es : List Instr) : (s.handAll es).gas = s.gas := rfl
@[simp] theorem State.handAll_air (es : List Instr) : (s.handAll es).air = s.air := rfl
@[simp] theorem State.handAll_fans (es : List Instr) : (s.handAll es).fans = s.fans := rfl
@[simp] theorem State.handAll_occ (es : List Instr) : (s.handAll es).occ = s.occ := rfl
@[simp] theorem State.handAll_guide (es : List Instr) : (s.handAll es).guide = s.guide := rfl
@[simp] theorem State.handAll_light (es : List Instr) : (s.handAll es).light = s.light := rfl
@[simp] theorem State.handAll_loops (es : List Instr) : (s.handAll es).loops = s.loops := rfl
@[simp] theorem State.handAll_list (es : List Instr) : (s.handAll es).list = s.list := rfl
@[simp] theorem State.handAll_port (es : List Instr) : (s.handAll es).port = s.port := rfl
@[simp] theorem State.handAll_store (es : List Instr) : (s.handAll es).store = s.store := rfl

/-! ### State.setNode -/

@[simp] theorem State.setNode_pending (n : NodeId) (x : Node) : (s.setNode n x).pending = s.pending := rfl
@[simp] theorem State.setNode_handed (n : NodeId) (x : Node) : (s.setNode n x).handed = s.handed := rfl
@[simp] theorem State.setNode_clockMs (n : NodeId) (x : Node) : (s.setNode n x).clockMs = s.clockMs := rfl
@[simp] theorem State.setNode_gas (n : NodeId) (x : Node) : (s.setNode n x).gas = s.gas := rfl
@[simp] theorem State.setNode_air (n : NodeId) (x : Node) : (s.setNode n x).air = s.air := rfl
@[simp] theorem State.setNode_fans (n : NodeId) (x : Node) : (s.setNode n x).fans = s.fans := rfl
@[simp] theorem State.setNode_occ (n : NodeId) (x : Node) : (s.setNode n x).occ = s.occ := rfl
@[simp] theorem State.setNode_guide (n : NodeId) (x : Node) : (s.setNode n x).guide = s.guide := rfl
@[simp] theorem State.setNode_light (n : NodeId) (x : Node) : (s.setNode n x).light = s.light := rfl
@[simp] theorem State.setNode_loops (n : NodeId) (x : Node) : (s.setNode n x).loops = { s.loops with nodes := if addrOk n.addr then s.loops.nodes.put (nodeIndex n) x else s.loops.nodes } := rfl
@[simp] theorem State.setNode_list (n : NodeId) (x : Node) : (s.setNode n x).list = s.list := rfl
@[simp] theorem State.setNode_port (n : NodeId) (x : Node) : (s.setNode n x).port = s.port := rfl
@[simp] theorem State.setNode_store (n : NodeId) (x : Node) : (s.setNode n x).store = s.store := rfl

/-! ### State.reply -/

@[simp] theorem State.reply_pending (f : Frame) : (s.reply f).pending = s.pending := rfl
@[simp] theorem State.reply_handed (f : Frame) : (s.reply f).handed = s.handed := rfl
@[simp] theorem State.reply_clockMs (f : Frame) : (s.reply f).clockMs = s.clockMs := rfl
@[simp] theorem State.reply_gas (f : Frame) : (s.reply f).gas = s.gas := rfl
@[simp] theorem State.reply_air (f : Frame) : (s.reply f).air = s.air := rfl
@[simp] theorem State.reply_fans (f : Frame) : (s.reply f).fans = s.fans := rfl
@[simp] theorem State.reply_occ (f : Frame) : (s.reply f).occ = s.occ := rfl
@[simp] theorem State.reply_guide (f : Frame) : (s.reply f).guide = s.guide := rfl
@[simp] theorem State.reply_light (f : Frame) : (s.reply f).light = s.light := rfl
@[simp] theorem State.reply_loops (f : Frame) : (s.reply f).loops = s.loops := rfl
@[simp] theorem State.reply_list (f : Frame) : (s.reply f).list = s.list := rfl
@[simp] theorem State.reply_port (f : Frame) : (s.reply f).port = { s.port with replies := s.port.replies ++ [f] } := rfl
@[simp] theorem State.reply_store (f : Frame) : (s.reply f).store = s.store := rfl

/-! ### State.putHead -/

@[simp] theorem State.putHead_pending (i : Nat) (h : Head) : (s.putHead i h).pending = s.pending := rfl
@[simp] theorem State.putHead_handed (i : Nat) (h : Head) : (s.putHead i h).handed = s.handed := rfl
@[simp] theorem State.putHead_clockMs (i : Nat) (h : Head) : (s.putHead i h).clockMs = s.clockMs := rfl
@[simp] theorem State.putHead_gas (i : Nat) (h : Head) : (s.putHead i h).gas = { s.gas with heads := s.gas.heads.put i h } := rfl
@[simp] theorem State.putHead_air (i : Nat) (h : Head) : (s.putHead i h).air = s.air := rfl
@[simp] theorem State.putHead_fans (i : Nat) (h : Head) : (s.putHead i h).fans = s.fans := rfl
@[simp] theorem State.putHead_occ (i : Nat) (h : Head) : (s.putHead i h).occ = s.occ := rfl
@[simp] theorem State.putHead_guide (i : Nat) (h : Head) : (s.putHead i h).guide = s.guide := rfl
@[simp] theorem State.putHead_light (i : Nat) (h : Head) : (s.putHead i h).light = s.light := rfl
@[simp] theorem State.putHead_loops (i : Nat) (h : Head) : (s.putHead i h).loops = s.loops := rfl
@[simp] theorem State.putHead_list (i : Nat) (h : Head) : (s.putHead i h).list = s.list := rfl
@[simp] theorem State.putHead_port (i : Nat) (h : Head) : (s.putHead i h).port = s.port := rfl
@[simp] theorem State.putHead_store (i : Nat) (h : Head) : (s.putHead i h).store = s.store := rfl

/-! ### State.putZone -/

@[simp] theorem State.putZone_pending (i : Nat) (z : Zone) : (s.putZone i z).pending = s.pending := rfl
@[simp] theorem State.putZone_handed (i : Nat) (z : Zone) : (s.putZone i z).handed = s.handed := rfl
@[simp] theorem State.putZone_clockMs (i : Nat) (z : Zone) : (s.putZone i z).clockMs = s.clockMs := rfl
@[simp] theorem State.putZone_gas (i : Nat) (z : Zone) : (s.putZone i z).gas = s.gas := rfl
@[simp] theorem State.putZone_air (i : Nat) (z : Zone) : (s.putZone i z).air = { s.air with zones := s.air.zones.put i z } := rfl
@[simp] theorem State.putZone_fans (i : Nat) (z : Zone) : (s.putZone i z).fans = s.fans := rfl
@[simp] theorem State.putZone_occ (i : Nat) (z : Zone) : (s.putZone i z).occ = s.occ := rfl
@[simp] theorem State.putZone_guide (i : Nat) (z : Zone) : (s.putZone i z).guide = s.guide := rfl
@[simp] theorem State.putZone_light (i : Nat) (z : Zone) : (s.putZone i z).light = s.light := rfl
@[simp] theorem State.putZone_loops (i : Nat) (z : Zone) : (s.putZone i z).loops = s.loops := rfl
@[simp] theorem State.putZone_list (i : Nat) (z : Zone) : (s.putZone i z).list = s.list := rfl
@[simp] theorem State.putZone_port (i : Nat) (z : Zone) : (s.putZone i z).port = s.port := rfl
@[simp] theorem State.putZone_store (i : Nat) (z : Zone) : (s.putZone i z).store = s.store := rfl

/-! ### State.putZoneFans -/

@[simp] theorem State.putZoneFans_pending (z : Nat) (x : ZoneFans) : (s.putZoneFans z x).pending = s.pending := rfl
@[simp] theorem State.putZoneFans_handed (z : Nat) (x : ZoneFans) : (s.putZoneFans z x).handed = s.handed := rfl
@[simp] theorem State.putZoneFans_clockMs (z : Nat) (x : ZoneFans) : (s.putZoneFans z x).clockMs = s.clockMs := rfl
@[simp] theorem State.putZoneFans_gas (z : Nat) (x : ZoneFans) : (s.putZoneFans z x).gas = s.gas := rfl
@[simp] theorem State.putZoneFans_air (z : Nat) (x : ZoneFans) : (s.putZoneFans z x).air = s.air := rfl
@[simp] theorem State.putZoneFans_fans (z : Nat) (x : ZoneFans) : (s.putZoneFans z x).fans = { s.fans with zones := s.fans.zones.put z x } := rfl
@[simp] theorem State.putZoneFans_occ (z : Nat) (x : ZoneFans) : (s.putZoneFans z x).occ = s.occ := rfl
@[simp] theorem State.putZoneFans_guide (z : Nat) (x : ZoneFans) : (s.putZoneFans z x).guide = s.guide := rfl
@[simp] theorem State.putZoneFans_light (z : Nat) (x : ZoneFans) : (s.putZoneFans z x).light = s.light := rfl
@[simp] theorem State.putZoneFans_loops (z : Nat) (x : ZoneFans) : (s.putZoneFans z x).loops = s.loops := rfl
@[simp] theorem State.putZoneFans_list (z : Nat) (x : ZoneFans) : (s.putZoneFans z x).list = s.list := rfl
@[simp] theorem State.putZoneFans_port (z : Nat) (x : ZoneFans) : (s.putZoneFans z x).port = s.port := rfl
@[simp] theorem State.putZoneFans_store (z : Nat) (x : ZoneFans) : (s.putZoneFans z x).store = s.store := rfl

/-! ### State.setQueue -/

@[simp] theorem State.setQueue_pending (q : List QueueEntry) : (s.setQueue q).pending = s.pending := rfl
@[simp] theorem State.setQueue_handed (q : List QueueEntry) : (s.setQueue q).handed = s.handed := rfl
@[simp] theorem State.setQueue_clockMs (q : List QueueEntry) : (s.setQueue q).clockMs = s.clockMs := rfl
@[simp] theorem State.setQueue_gas (q : List QueueEntry) : (s.setQueue q).gas = s.gas := rfl
@[simp] theorem State.setQueue_air (q : List QueueEntry) : (s.setQueue q).air = s.air := rfl
@[simp] theorem State.setQueue_fans (q : List QueueEntry) : (s.setQueue q).fans = { s.fans with queue := q } := rfl
@[simp] theorem State.setQueue_occ (q : List QueueEntry) : (s.setQueue q).occ = s.occ := rfl
@[simp] theorem State.setQueue_guide (q : List QueueEntry) : (s.setQueue q).guide = s.guide := rfl
@[simp] theorem State.setQueue_light (q : List QueueEntry) : (s.setQueue q).light = s.light := rfl
@[simp] theorem State.setQueue_loops (q : List QueueEntry) : (s.setQueue q).loops = s.loops := rfl
@[simp] theorem State.setQueue_list (q : List QueueEntry) : (s.setQueue q).list = s.list := rfl
@[simp] theorem State.setQueue_port (q : List QueueEntry) : (s.setQueue q).port = s.port := rfl
@[simp] theorem State.setQueue_store (q : List QueueEntry) : (s.setQueue q).store = s.store := rfl

/-! ### State.enqueue -/

@[simp] theorem State.enqueue_pending (e : QueueEntry) : (s.enqueue e).pending = s.pending := rfl
@[simp] theorem State.enqueue_handed (e : QueueEntry) : (s.enqueue e).handed = s.handed := rfl
@[simp] theorem State.enqueue_clockMs (e : QueueEntry) : (s.enqueue e).clockMs = s.clockMs := rfl
@[simp] theorem State.enqueue_gas (e : QueueEntry) : (s.enqueue e).gas = s.gas := rfl
@[simp] theorem State.enqueue_air (e : QueueEntry) : (s.enqueue e).air = s.air := rfl
@[simp] theorem State.enqueue_occ (e : QueueEntry) : (s.enqueue e).occ = s.occ := rfl
@[simp] theorem State.enqueue_guide (e : QueueEntry) : (s.enqueue e).guide = s.guide := rfl
@[simp] theorem State.enqueue_light (e : QueueEntry) : (s.enqueue e).light = s.light := rfl
@[simp] theorem State.enqueue_loops (e : QueueEntry) : (s.enqueue e).loops = s.loops := rfl
@[simp] theorem State.enqueue_list (e : QueueEntry) : (s.enqueue e).list = s.list := rfl
@[simp] theorem State.enqueue_port (e : QueueEntry) : (s.enqueue e).port = s.port := rfl
@[simp] theorem State.enqueue_store (e : QueueEntry) : (s.enqueue e).store = s.store := rfl

/-! ### State.dequeue -/

@[simp] theorem State.dequeue_pending (i : Nat) : (s.dequeue i).pending = s.pending := rfl
@[simp] theorem State.dequeue_handed (i : Nat) : (s.dequeue i).handed = s.handed := rfl
@[simp] theorem State.dequeue_clockMs (i : Nat) : (s.dequeue i).clockMs = s.clockMs := rfl
@[simp] theorem State.dequeue_gas (i : Nat) : (s.dequeue i).gas = s.gas := rfl
@[simp] theorem State.dequeue_air (i : Nat) : (s.dequeue i).air = s.air := rfl
@[simp] theorem State.dequeue_occ (i : Nat) : (s.dequeue i).occ = s.occ := rfl
@[simp] theorem State.dequeue_guide (i : Nat) : (s.dequeue i).guide = s.guide := rfl
@[simp] theorem State.dequeue_light (i : Nat) : (s.dequeue i).light = s.light := rfl
@[simp] theorem State.dequeue_loops (i : Nat) : (s.dequeue i).loops = s.loops := rfl
@[simp] theorem State.dequeue_list (i : Nat) : (s.dequeue i).list = s.list := rfl
@[simp] theorem State.dequeue_port (i : Nat) : (s.dequeue i).port = s.port := rfl
@[simp] theorem State.dequeue_store (i : Nat) : (s.dequeue i).store = s.store := rfl

/-! ### State.recordCount -/

@[simp] theorem State.recordCount_pending (z : Nat) (c : BayClass) (st : BayState) (f : Nat → Nat) : (s.recordCount z c st f).pending = s.pending := rfl
@[simp] theorem State.recordCount_handed (z : Nat) (c : BayClass) (st : BayState) (f : Nat → Nat) : (s.recordCount z c st f).handed = s.handed := rfl
@[simp] theorem State.recordCount_clockMs (z : Nat) (c : BayClass) (st : BayState) (f : Nat → Nat) : (s.recordCount z c st f).clockMs = s.clockMs := rfl
@[simp] theorem State.recordCount_gas (z : Nat) (c : BayClass) (st : BayState) (f : Nat → Nat) : (s.recordCount z c st f).gas = s.gas := rfl
@[simp] theorem State.recordCount_air (z : Nat) (c : BayClass) (st : BayState) (f : Nat → Nat) : (s.recordCount z c st f).air = s.air := rfl
@[simp] theorem State.recordCount_fans (z : Nat) (c : BayClass) (st : BayState) (f : Nat → Nat) : (s.recordCount z c st f).fans = s.fans := rfl
@[simp] theorem State.recordCount_guide (z : Nat) (c : BayClass) (st : BayState) (f : Nat → Nat) : (s.recordCount z c st f).guide = s.guide := rfl
@[simp] theorem State.recordCount_light (z : Nat) (c : BayClass) (st : BayState) (f : Nat → Nat) : (s.recordCount z c st f).light = s.light := rfl
@[simp] theorem State.recordCount_loops (z : Nat) (c : BayClass) (st : BayState) (f : Nat → Nat) : (s.recordCount z c st f).loops = s.loops := rfl
@[simp] theorem State.recordCount_list (z : Nat) (c : BayClass) (st : BayState) (f : Nat → Nat) : (s.recordCount z c st f).list = s.list := rfl
@[simp] theorem State.recordCount_port (z : Nat) (c : BayClass) (st : BayState) (f : Nat → Nat) : (s.recordCount z c st f).port = s.port := rfl
@[simp] theorem State.recordCount_store (z : Nat) (c : BayClass) (st : BayState) (f : Nat → Nat) : (s.recordCount z c st f).store = s.store := rfl

/-! ### State.putBay -/

@[simp] theorem State.putBay_pending (i : Nat) (b : Bay) : (s.putBay i b).pending = s.pending := rfl
@[simp] theorem State.putBay_handed (i : Nat) (b : Bay) : (s.putBay i b).handed = s.handed := rfl
@[simp] theorem State.putBay_clockMs (i : Nat) (b : Bay) : (s.putBay i b).clockMs = s.clockMs := rfl
@[simp] theorem State.putBay_gas (i : Nat) (b : Bay) : (s.putBay i b).gas = s.gas := rfl
@[simp] theorem State.putBay_air (i : Nat) (b : Bay) : (s.putBay i b).air = s.air := rfl
@[simp] theorem State.putBay_fans (i : Nat) (b : Bay) : (s.putBay i b).fans = s.fans := rfl
@[simp] theorem State.putBay_occ (i : Nat) (b : Bay) : (s.putBay i b).occ = { s.occ with bays := s.occ.bays.put i b } := rfl
@[simp] theorem State.putBay_guide (i : Nat) (b : Bay) : (s.putBay i b).guide = s.guide := rfl
@[simp] theorem State.putBay_light (i : Nat) (b : Bay) : (s.putBay i b).light = s.light := rfl
@[simp] theorem State.putBay_loops (i : Nat) (b : Bay) : (s.putBay i b).loops = s.loops := rfl
@[simp] theorem State.putBay_list (i : Nat) (b : Bay) : (s.putBay i b).list = s.list := rfl
@[simp] theorem State.putBay_port (i : Nat) (b : Bay) : (s.putBay i b).port = s.port := rfl
@[simp] theorem State.putBay_store (i : Nat) (b : Bay) : (s.putBay i b).store = s.store := rfl

/-! ### State.putRamp -/

@[simp] theorem State.putRamp_pending (i : Nat) (r : Ramp) : (s.putRamp i r).pending = s.pending := rfl
@[simp] theorem State.putRamp_handed (i : Nat) (r : Ramp) : (s.putRamp i r).handed = s.handed := rfl
@[simp] theorem State.putRamp_clockMs (i : Nat) (r : Ramp) : (s.putRamp i r).clockMs = s.clockMs := rfl
@[simp] theorem State.putRamp_gas (i : Nat) (r : Ramp) : (s.putRamp i r).gas = s.gas := rfl
@[simp] theorem State.putRamp_air (i : Nat) (r : Ramp) : (s.putRamp i r).air = s.air := rfl
@[simp] theorem State.putRamp_fans (i : Nat) (r : Ramp) : (s.putRamp i r).fans = s.fans := rfl
@[simp] theorem State.putRamp_occ (i : Nat) (r : Ramp) : (s.putRamp i r).occ = { s.occ with ramps := s.occ.ramps.put i r } := rfl
@[simp] theorem State.putRamp_guide (i : Nat) (r : Ramp) : (s.putRamp i r).guide = s.guide := rfl
@[simp] theorem State.putRamp_light (i : Nat) (r : Ramp) : (s.putRamp i r).light = s.light := rfl
@[simp] theorem State.putRamp_loops (i : Nat) (r : Ramp) : (s.putRamp i r).loops = s.loops := rfl
@[simp] theorem State.putRamp_list (i : Nat) (r : Ramp) : (s.putRamp i r).list = s.list := rfl
@[simp] theorem State.putRamp_port (i : Nat) (r : Ramp) : (s.putRamp i r).port = s.port := rfl
@[simp] theorem State.putRamp_store (i : Nat) (r : Ramp) : (s.putRamp i r).store = s.store := rfl

/-! ### State.setGuideZone -/

@[simp] theorem State.setGuideZone_pending (z : Nat) (g : GuideZone) : (s.setGuideZone z g).pending = s.pending := rfl
@[simp] theorem State.setGuideZone_handed (z : Nat) (g : GuideZone) : (s.setGuideZone z g).handed = s.handed := rfl
@[simp] theorem State.setGuideZone_clockMs (z : Nat) (g : GuideZone) : (s.setGuideZone z g).clockMs = s.clockMs := rfl
@[simp] theorem State.setGuideZone_gas (z : Nat) (g : GuideZone) : (s.setGuideZone z g).gas = s.gas := rfl
@[simp] theorem State.setGuideZone_air (z : Nat) (g : GuideZone) : (s.setGuideZone z g).air = s.air := rfl
@[simp] theorem State.setGuideZone_fans (z : Nat) (g : GuideZone) : (s.setGuideZone z g).fans = s.fans := rfl
@[simp] theorem State.setGuideZone_occ (z : Nat) (g : GuideZone) : (s.setGuideZone z g).occ = s.occ := rfl
@[simp] theorem State.setGuideZone_guide (z : Nat) (g : GuideZone) : (s.setGuideZone z g).guide = { s.guide with view := s.guide.view.set z g } := rfl
@[simp] theorem State.setGuideZone_light (z : Nat) (g : GuideZone) : (s.setGuideZone z g).light = s.light := rfl
@[simp] theorem State.setGuideZone_loops (z : Nat) (g : GuideZone) : (s.setGuideZone z g).loops = s.loops := rfl
@[simp] theorem State.setGuideZone_list (z : Nat) (g : GuideZone) : (s.setGuideZone z g).list = s.list := rfl
@[simp] theorem State.setGuideZone_port (z : Nat) (g : GuideZone) : (s.setGuideZone z g).port = s.port := rfl
@[simp] theorem State.setGuideZone_store (z : Nat) (g : GuideZone) : (s.setGuideZone z g).store = s.store := rfl

/-! ### State.putSign -/

@[simp] theorem State.putSign_pending (i : Nat) (g : Sign) : (s.putSign i g).pending = s.pending := rfl
@[simp] theorem State.putSign_handed (i : Nat) (g : Sign) : (s.putSign i g).handed = s.handed := rfl
@[simp] theorem State.putSign_clockMs (i : Nat) (g : Sign) : (s.putSign i g).clockMs = s.clockMs := rfl
@[simp] theorem State.putSign_gas (i : Nat) (g : Sign) : (s.putSign i g).gas = s.gas := rfl
@[simp] theorem State.putSign_air (i : Nat) (g : Sign) : (s.putSign i g).air = s.air := rfl
@[simp] theorem State.putSign_fans (i : Nat) (g : Sign) : (s.putSign i g).fans = s.fans := rfl
@[simp] theorem State.putSign_occ (i : Nat) (g : Sign) : (s.putSign i g).occ = s.occ := rfl
@[simp] theorem State.putSign_guide (i : Nat) (g : Sign) : (s.putSign i g).guide = { s.guide with signs := s.guide.signs.put i g } := rfl
@[simp] theorem State.putSign_light (i : Nat) (g : Sign) : (s.putSign i g).light = s.light := rfl
@[simp] theorem State.putSign_loops (i : Nat) (g : Sign) : (s.putSign i g).loops = s.loops := rfl
@[simp] theorem State.putSign_list (i : Nat) (g : Sign) : (s.putSign i g).list = s.list := rfl
@[simp] theorem State.putSign_port (i : Nat) (g : Sign) : (s.putSign i g).port = s.port := rfl
@[simp] theorem State.putSign_store (i : Nat) (g : Sign) : (s.putSign i g).store = s.store := rfl

/-! ### State.putGroup -/

@[simp] theorem State.putGroup_pending (i : Nat) (g : Group) : (s.putGroup i g).pending = s.pending := rfl
@[simp] theorem State.putGroup_handed (i : Nat) (g : Group) : (s.putGroup i g).handed = s.handed := rfl
@[simp] theorem State.putGroup_clockMs (i : Nat) (g : Group) : (s.putGroup i g).clockMs = s.clockMs := rfl
@[simp] theorem State.putGroup_gas (i : Nat) (g : Group) : (s.putGroup i g).gas = s.gas := rfl
@[simp] theorem State.putGroup_air (i : Nat) (g : Group) : (s.putGroup i g).air = s.air := rfl
@[simp] theorem State.putGroup_fans (i : Nat) (g : Group) : (s.putGroup i g).fans = s.fans := rfl
@[simp] theorem State.putGroup_occ (i : Nat) (g : Group) : (s.putGroup i g).occ = s.occ := rfl
@[simp] theorem State.putGroup_guide (i : Nat) (g : Group) : (s.putGroup i g).guide = s.guide := rfl
@[simp] theorem State.putGroup_light (i : Nat) (g : Group) : (s.putGroup i g).light = { s.light with groups := s.light.groups.put i g } := rfl
@[simp] theorem State.putGroup_loops (i : Nat) (g : Group) : (s.putGroup i g).loops = s.loops := rfl
@[simp] theorem State.putGroup_list (i : Nat) (g : Group) : (s.putGroup i g).list = s.list := rfl
@[simp] theorem State.putGroup_port (i : Nat) (g : Group) : (s.putGroup i g).port = s.port := rfl
@[simp] theorem State.putGroup_store (i : Nat) (g : Group) : (s.putGroup i g).store = s.store := rfl

/-! ### State.takeInFlight -/

@[simp] theorem State.takeInFlight_pending (n : NodeId) : (s.takeInFlight n).pending = s.pending := rfl
@[simp] theorem State.takeInFlight_handed (n : NodeId) : (s.takeInFlight n).handed = s.handed := rfl
@[simp] theorem State.takeInFlight_clockMs (n : NodeId) : (s.takeInFlight n).clockMs = s.clockMs := rfl
@[simp] theorem State.takeInFlight_gas (n : NodeId) : (s.takeInFlight n).gas = s.gas := rfl
@[simp] theorem State.takeInFlight_air (n : NodeId) : (s.takeInFlight n).air = s.air := rfl
@[simp] theorem State.takeInFlight_fans (n : NodeId) : (s.takeInFlight n).fans = s.fans := rfl
@[simp] theorem State.takeInFlight_occ (n : NodeId) : (s.takeInFlight n).occ = s.occ := rfl
@[simp] theorem State.takeInFlight_guide (n : NodeId) : (s.takeInFlight n).guide = s.guide := rfl
@[simp] theorem State.takeInFlight_loops (n : NodeId) : (s.takeInFlight n).loops = s.loops := rfl
@[simp] theorem State.takeInFlight_list (n : NodeId) : (s.takeInFlight n).list = s.list := rfl
@[simp] theorem State.takeInFlight_port (n : NodeId) : (s.takeInFlight n).port = s.port := rfl
@[simp] theorem State.takeInFlight_store (n : NodeId) : (s.takeInFlight n).store = s.store := rfl

/-! ### State.touchGroups -/

@[simp] theorem State.touchGroups_pending (n : NodeId) (f : Group → Group) : (s.touchGroups n f).pending = s.pending := rfl
@[simp] theorem State.touchGroups_handed (n : NodeId) (f : Group → Group) : (s.touchGroups n f).handed = s.handed := rfl
@[simp] theorem State.touchGroups_clockMs (n : NodeId) (f : Group → Group) : (s.touchGroups n f).clockMs = s.clockMs := rfl
@[simp] theorem State.touchGroups_gas (n : NodeId) (f : Group → Group) : (s.touchGroups n f).gas = s.gas := rfl
@[simp] theorem State.touchGroups_air (n : NodeId) (f : Group → Group) : (s.touchGroups n f).air = s.air := rfl
@[simp] theorem State.touchGroups_fans (n : NodeId) (f : Group → Group) : (s.touchGroups n f).fans = s.fans := rfl
@[simp] theorem State.touchGroups_occ (n : NodeId) (f : Group → Group) : (s.touchGroups n f).occ = s.occ := rfl
@[simp] theorem State.touchGroups_guide (n : NodeId) (f : Group → Group) : (s.touchGroups n f).guide = s.guide := rfl
@[simp] theorem State.touchGroups_loops (n : NodeId) (f : Group → Group) : (s.touchGroups n f).loops = s.loops := rfl
@[simp] theorem State.touchGroups_list (n : NodeId) (f : Group → Group) : (s.touchGroups n f).list = s.list := rfl
@[simp] theorem State.touchGroups_port (n : NodeId) (f : Group → Group) : (s.touchGroups n f).port = s.port := rfl
@[simp] theorem State.touchGroups_store (n : NodeId) (f : Group → Group) : (s.touchGroups n f).store = s.store := rfl

/-! ### State.withList -/

@[simp] theorem State.withList_pending (f : ScanList → ScanList) : (s.withList f).pending = s.pending := rfl
@[simp] theorem State.withList_handed (f : ScanList → ScanList) : (s.withList f).handed = s.handed := rfl
@[simp] theorem State.withList_clockMs (f : ScanList → ScanList) : (s.withList f).clockMs = s.clockMs := rfl
@[simp] theorem State.withList_gas (f : ScanList → ScanList) : (s.withList f).gas = s.gas := rfl
@[simp] theorem State.withList_air (f : ScanList → ScanList) : (s.withList f).air = s.air := rfl
@[simp] theorem State.withList_fans (f : ScanList → ScanList) : (s.withList f).fans = s.fans := rfl
@[simp] theorem State.withList_occ (f : ScanList → ScanList) : (s.withList f).occ = s.occ := rfl
@[simp] theorem State.withList_guide (f : ScanList → ScanList) : (s.withList f).guide = s.guide := rfl
@[simp] theorem State.withList_light (f : ScanList → ScanList) : (s.withList f).light = s.light := rfl
@[simp] theorem State.withList_loops (f : ScanList → ScanList) : (s.withList f).loops = s.loops := rfl
@[simp] theorem State.withList_list (f : ScanList → ScanList) : (s.withList f).list = f s.list := rfl
@[simp] theorem State.withList_port (f : ScanList → ScanList) : (s.withList f).port = s.port := rfl
@[simp] theorem State.withList_store (f : ScanList → ScanList) : (s.withList f).store = s.store := rfl

/-! ### State.withLoops -/

@[simp] theorem State.withLoops_pending (f : LoopMaster → LoopMaster) : (s.withLoops f).pending = s.pending := rfl
@[simp] theorem State.withLoops_handed (f : LoopMaster → LoopMaster) : (s.withLoops f).handed = s.handed := rfl
@[simp] theorem State.withLoops_clockMs (f : LoopMaster → LoopMaster) : (s.withLoops f).clockMs = s.clockMs := rfl
@[simp] theorem State.withLoops_gas (f : LoopMaster → LoopMaster) : (s.withLoops f).gas = s.gas := rfl
@[simp] theorem State.withLoops_air (f : LoopMaster → LoopMaster) : (s.withLoops f).air = s.air := rfl
@[simp] theorem State.withLoops_fans (f : LoopMaster → LoopMaster) : (s.withLoops f).fans = s.fans := rfl
@[simp] theorem State.withLoops_occ (f : LoopMaster → LoopMaster) : (s.withLoops f).occ = s.occ := rfl
@[simp] theorem State.withLoops_guide (f : LoopMaster → LoopMaster) : (s.withLoops f).guide = s.guide := rfl
@[simp] theorem State.withLoops_light (f : LoopMaster → LoopMaster) : (s.withLoops f).light = s.light := rfl
@[simp] theorem State.withLoops_loops (f : LoopMaster → LoopMaster) : (s.withLoops f).loops = f s.loops := rfl
@[simp] theorem State.withLoops_list (f : LoopMaster → LoopMaster) : (s.withLoops f).list = s.list := rfl
@[simp] theorem State.withLoops_port (f : LoopMaster → LoopMaster) : (s.withLoops f).port = s.port := rfl
@[simp] theorem State.withLoops_store (f : LoopMaster → LoopMaster) : (s.withLoops f).store = s.store := rfl

/-! ### State.setLine -/

@[simp] theorem State.setLine_pending (l : LoopId) (x : LoopState) : (s.setLine l x).pending = s.pending := rfl
@[simp] theorem State.setLine_handed (l : LoopId) (x : LoopState) : (s.setLine l x).handed = s.handed := rfl
@[simp] theorem State.setLine_clockMs (l : LoopId) (x : LoopState) : (s.setLine l x).clockMs = s.clockMs := rfl
@[simp] theorem State.setLine_gas (l : LoopId) (x : LoopState) : (s.setLine l x).gas = s.gas := rfl
@[simp] theorem State.setLine_air (l : LoopId) (x : LoopState) : (s.setLine l x).air = s.air := rfl
@[simp] theorem State.setLine_fans (l : LoopId) (x : LoopState) : (s.setLine l x).fans = s.fans := rfl
@[simp] theorem State.setLine_occ (l : LoopId) (x : LoopState) : (s.setLine l x).occ = s.occ := rfl
@[simp] theorem State.setLine_guide (l : LoopId) (x : LoopState) : (s.setLine l x).guide = s.guide := rfl
@[simp] theorem State.setLine_light (l : LoopId) (x : LoopState) : (s.setLine l x).light = s.light := rfl
@[simp] theorem State.setLine_loops (l : LoopId) (x : LoopState) : (s.setLine l x).loops = { s.loops with lines := s.loops.lines.set l x } := rfl
@[simp] theorem State.setLine_list (l : LoopId) (x : LoopState) : (s.setLine l x).list = s.list := rfl
@[simp] theorem State.setLine_port (l : LoopId) (x : LoopState) : (s.setLine l x).port = s.port := rfl
@[simp] theorem State.setLine_store (l : LoopId) (x : LoopState) : (s.setLine l x).store = s.store := rfl

/-! ### State.begin -/

@[simp] theorem State.begin_pending (n : NodeId) (op : LoopOp) (src : TxSource) (r : Option Role) (p : List Byte) (b : Bool) : (s.begin n op src r p b).pending = s.pending := rfl
@[simp] theorem State.begin_handed (n : NodeId) (op : LoopOp) (src : TxSource) (r : Option Role) (p : List Byte) (b : Bool) : (s.begin n op src r p b).handed = s.handed := rfl
@[simp] theorem State.begin_clockMs (n : NodeId) (op : LoopOp) (src : TxSource) (r : Option Role) (p : List Byte) (b : Bool) : (s.begin n op src r p b).clockMs = s.clockMs := rfl
@[simp] theorem State.begin_gas (n : NodeId) (op : LoopOp) (src : TxSource) (r : Option Role) (p : List Byte) (b : Bool) : (s.begin n op src r p b).gas = s.gas := rfl
@[simp] theorem State.begin_air (n : NodeId) (op : LoopOp) (src : TxSource) (r : Option Role) (p : List Byte) (b : Bool) : (s.begin n op src r p b).air = s.air := rfl
@[simp] theorem State.begin_fans (n : NodeId) (op : LoopOp) (src : TxSource) (r : Option Role) (p : List Byte) (b : Bool) : (s.begin n op src r p b).fans = s.fans := rfl
@[simp] theorem State.begin_occ (n : NodeId) (op : LoopOp) (src : TxSource) (r : Option Role) (p : List Byte) (b : Bool) : (s.begin n op src r p b).occ = s.occ := rfl
@[simp] theorem State.begin_guide (n : NodeId) (op : LoopOp) (src : TxSource) (r : Option Role) (p : List Byte) (b : Bool) : (s.begin n op src r p b).guide = s.guide := rfl
@[simp] theorem State.begin_light (n : NodeId) (op : LoopOp) (src : TxSource) (r : Option Role) (p : List Byte) (b : Bool) : (s.begin n op src r p b).light = s.light := rfl
@[simp] theorem State.begin_list (n : NodeId) (op : LoopOp) (src : TxSource) (r : Option Role) (p : List Byte) (b : Bool) : (s.begin n op src r p b).list = s.list := rfl
@[simp] theorem State.begin_port (n : NodeId) (op : LoopOp) (src : TxSource) (r : Option Role) (p : List Byte) (b : Bool) : (s.begin n op src r p b).port = s.port := rfl
@[simp] theorem State.begin_store (n : NodeId) (op : LoopOp) (src : TxSource) (r : Option Role) (p : List Byte) (b : Bool) : (s.begin n op src r p b).store = s.store := rfl

/-! ### State.voidIf -/

@[simp] theorem State.voidIf_pending (p : Transaction → Bool) : (s.voidIf p).pending = s.pending := rfl
@[simp] theorem State.voidIf_handed (p : Transaction → Bool) : (s.voidIf p).handed = s.handed := rfl
@[simp] theorem State.voidIf_clockMs (p : Transaction → Bool) : (s.voidIf p).clockMs = s.clockMs := rfl
@[simp] theorem State.voidIf_gas (p : Transaction → Bool) : (s.voidIf p).gas = s.gas := rfl
@[simp] theorem State.voidIf_air (p : Transaction → Bool) : (s.voidIf p).air = s.air := rfl
@[simp] theorem State.voidIf_fans (p : Transaction → Bool) : (s.voidIf p).fans = s.fans := rfl
@[simp] theorem State.voidIf_occ (p : Transaction → Bool) : (s.voidIf p).occ = s.occ := rfl
@[simp] theorem State.voidIf_guide (p : Transaction → Bool) : (s.voidIf p).guide = s.guide := rfl
@[simp] theorem State.voidIf_light (p : Transaction → Bool) : (s.voidIf p).light = s.light := rfl
@[simp] theorem State.voidIf_list (p : Transaction → Bool) : (s.voidIf p).list = s.list := rfl
@[simp] theorem State.voidIf_port (p : Transaction → Bool) : (s.voidIf p).port = s.port := rfl
@[simp] theorem State.voidIf_store (p : Transaction → Bool) : (s.voidIf p).store = s.store := rfl

/-! ### State.withPort -/

@[simp] theorem State.withPort_pending (f : Port → Port) : (s.withPort f).pending = s.pending := rfl
@[simp] theorem State.withPort_handed (f : Port → Port) : (s.withPort f).handed = s.handed := rfl
@[simp] theorem State.withPort_clockMs (f : Port → Port) : (s.withPort f).clockMs = s.clockMs := rfl
@[simp] theorem State.withPort_gas (f : Port → Port) : (s.withPort f).gas = s.gas := rfl
@[simp] theorem State.withPort_air (f : Port → Port) : (s.withPort f).air = s.air := rfl
@[simp] theorem State.withPort_fans (f : Port → Port) : (s.withPort f).fans = s.fans := rfl
@[simp] theorem State.withPort_occ (f : Port → Port) : (s.withPort f).occ = s.occ := rfl
@[simp] theorem State.withPort_guide (f : Port → Port) : (s.withPort f).guide = s.guide := rfl
@[simp] theorem State.withPort_light (f : Port → Port) : (s.withPort f).light = s.light := rfl
@[simp] theorem State.withPort_loops (f : Port → Port) : (s.withPort f).loops = s.loops := rfl
@[simp] theorem State.withPort_list (f : Port → Port) : (s.withPort f).list = s.list := rfl
@[simp] theorem State.withPort_port (f : Port → Port) : (s.withPort f).port = f s.port := rfl
@[simp] theorem State.withPort_store (f : Port → Port) : (s.withPort f).store = s.store := rfl

/-! ### State.setAccess -/

@[simp] theorem State.setAccess_pending (a : Access) : (s.setAccess a).pending = s.pending := rfl
@[simp] theorem State.setAccess_handed (a : Access) : (s.setAccess a).handed = s.handed := rfl
@[simp] theorem State.setAccess_clockMs (a : Access) : (s.setAccess a).clockMs = s.clockMs := rfl
@[simp] theorem State.setAccess_gas (a : Access) : (s.setAccess a).gas = s.gas := rfl
@[simp] theorem State.setAccess_air (a : Access) : (s.setAccess a).air = s.air := rfl
@[simp] theorem State.setAccess_fans (a : Access) : (s.setAccess a).fans = s.fans := rfl
@[simp] theorem State.setAccess_occ (a : Access) : (s.setAccess a).occ = s.occ := rfl
@[simp] theorem State.setAccess_guide (a : Access) : (s.setAccess a).guide = s.guide := rfl
@[simp] theorem State.setAccess_light (a : Access) : (s.setAccess a).light = s.light := rfl
@[simp] theorem State.setAccess_loops (a : Access) : (s.setAccess a).loops = s.loops := rfl
@[simp] theorem State.setAccess_list (a : Access) : (s.setAccess a).list = s.list := rfl
@[simp] theorem State.setAccess_port (a : Access) : (s.setAccess a).port = { s.port with access := a } := rfl
@[simp] theorem State.setAccess_store (a : Access) : (s.setAccess a).store = s.store := rfl

end Sys2Proof.Machine
end

