-- ==== Sys2Proof/Laws/Frames.lean ====
section
/-! SUPPORT. What each branching operation leaves: one lemma for each field it does not touch. -/

namespace Sys2Proof.Machine

variable (s : State)

/-- A field that one operation of a fold leaves is left by the fold. -/
theorem foldl_field {α β : Type} (g : State → β) (f : State → α → State) (h : ∀ s a, g (f s a) = g s) (l : List α) (s : State) :
    g (l.foldl f s) = g s := by
  induction l generalizing s with
  | nil => rfl
  | cons a l ih => rw [List.foldl_cons, ih, h]

/-! ### State.mark -/

@[simp] theorem State.mark_pending (x : Subject) : (s.mark x).pending = s.pending := by unfold State.mark; split <;> rfl
@[simp] theorem State.mark_handed (x : Subject) : (s.mark x).handed = s.handed := by unfold State.mark; split <;> rfl
@[simp] theorem State.mark_clockMs (x : Subject) : (s.mark x).clockMs = s.clockMs := by unfold State.mark; split <;> rfl
@[simp] theorem State.mark_gas (x : Subject) : (s.mark x).gas = s.gas := by unfold State.mark; split <;> rfl
@[simp] theorem State.mark_air (x : Subject) : (s.mark x).air = s.air := by unfold State.mark; split <;> rfl
@[simp] theorem State.mark_fans (x : Subject) : (s.mark x).fans = s.fans := by unfold State.mark; split <;> rfl
@[simp] theorem State.mark_occ (x : Subject) : (s.mark x).occ = s.occ := by unfold State.mark; split <;> rfl
@[simp] theorem State.mark_guide (x : Subject) : (s.mark x).guide = s.guide := by unfold State.mark; split <;> rfl
@[simp] theorem State.mark_light (x : Subject) : (s.mark x).light = s.light := by unfold State.mark; split <;> rfl
@[simp] theorem State.mark_loops (x : Subject) : (s.mark x).loops = s.loops := by unfold State.mark; split <;> rfl
@[simp] theorem State.mark_list (x : Subject) : (s.mark x).list = s.list := by unfold State.mark; split <;> rfl
@[simp] theorem State.mark_store (x : Subject) : (s.mark x).store = s.store := by unfold State.mark; split <;> rfl

/-! ### State.post -/

@[simp] theorem State.post_pending (n : NodeId) : (s.post n).pending = s.pending := by
  unfold State.post
  repeat' split
  all_goals rfl
@[simp] theorem State.post_handed (n : NodeId) : (s.post n).handed = s.handed := by
  unfold State.post
  repeat' split
  all_goals rfl
@[simp] theorem State.post_clockMs (n : NodeId) : (s.post n).clockMs = s.clockMs := by
  unfold State.post
  repeat' split
  all_goals rfl
@[simp] theorem State.post_gas (n : NodeId) : (s.post n).gas = s.gas := by
  unfold State.post
  repeat' split
  all_goals rfl
@[simp] theorem State.post_air (n : NodeId) : (s.post n).air = s.air := by
  unfold State.post
  repeat' split
  all_goals rfl
@[simp] theorem State.post_fans (n : NodeId) : (s.post n).fans = s.fans := by
  unfold State.post
  repeat' split
  all_goals rfl
@[simp] theorem State.post_occ (n : NodeId) : (s.post n).occ = s.occ := by
  unfold State.post
  repeat' split
  all_goals rfl
@[simp] theorem State.post_guide (n : NodeId) : (s.post n).guide = s.guide := by
  unfold State.post
  repeat' split
  all_goals rfl
@[simp] theorem State.post_light (n : NodeId) : (s.post n).light = s.light := by
  unfold State.post
  repeat' split
  all_goals rfl
@[simp] theorem State.post_list (n : NodeId) : (s.post n).list = s.list := by
  unfold State.post
  repeat' split
  all_goals rfl
@[simp] theorem State.post_port (n : NodeId) : (s.post n).port = s.port := by
  unfold State.post
  repeat' split
  all_goals rfl
@[simp] theorem State.post_store (n : NodeId) : (s.post n).store = s.store := by
  unfold State.post
  repeat' split
  all_goals rfl

/-! ### State.setReport -/

@[simp] theorem State.setReport_pending (n : NodeId) (r : RoleReport) : (s.setReport n r).pending = s.pending := by
  unfold State.setReport
  repeat' split
  all_goals first | rfl | simp
@[simp] theorem State.setReport_handed (n : NodeId) (r : RoleReport) : (s.setReport n r).handed = s.handed := by
  unfold State.setReport
  repeat' split
  all_goals first | rfl | simp
@[simp] theorem State.setReport_clockMs (n : NodeId) (r : RoleReport) : (s.setReport n r).clockMs = s.clockMs := by
  unfold State.setReport
  repeat' split
  all_goals first | rfl | simp
@[simp] theorem State.setReport_gas (n : NodeId) (r : RoleReport) : (s.setReport n r).gas = s.gas := by
  unfold State.setReport
  repeat' split
  all_goals first | rfl | simp
@[simp] theorem State.setReport_air (n : NodeId) (r : RoleReport) : (s.setReport n r).air = s.air := by
  unfold State.setReport
  repeat' split
  all_goals first | rfl | simp
@[simp] theorem State.setReport_fans (n : NodeId) (r : RoleReport) : (s.setReport n r).fans = s.fans := by
  unfold State.setReport
  repeat' split
  all_goals first | rfl | simp
@[simp] theorem State.setReport_occ (n : NodeId) (r : RoleReport) : (s.setReport n r).occ = s.occ := by
  unfold State.setReport
  repeat' split
  all_goals first | rfl | simp
@[simp] theorem State.setReport_guide (n : NodeId) (r : RoleReport) : (s.setReport n r).guide = s.guide := by
  unfold State.setReport
  repeat' split
  all_goals first | rfl | simp
@[simp] theorem State.setReport_light (n : NodeId) (r : RoleReport) : (s.setReport n r).light = s.light := by
  unfold State.setReport
  repeat' split
  all_goals first | rfl | simp
@[simp] theorem State.setReport_list (n : NodeId) (r : RoleReport) : (s.setReport n r).list = s.list := by
  unfold State.setReport
  repeat' split
  all_goals first | rfl | simp
@[simp] theorem State.setReport_store (n : NodeId) (r : RoleReport) : (s.setReport n r).store = s.store := by
  unfold State.setReport
  repeat' split
  all_goals first | rfl | simp

/-! ### State.markAll -/

@[simp] theorem State.markAll_pending (xs : List Subject) : (s.markAll xs).pending = s.pending :=
  foldl_field State.pending _ (fun s a => State.mark_pending s a) _ s
@[simp] theorem State.markAll_handed (xs : List Subject) : (s.markAll xs).handed = s.handed :=
  foldl_field State.handed _ (fun s a => State.mark_handed s a) _ s
@[simp] theorem State.markAll_clockMs (xs : List Subject) : (s.markAll xs).clockMs = s.clockMs :=
  foldl_field State.clockMs _ (fun s a => State.mark_clockMs s a) _ s
@[simp] theorem State.markAll_gas (xs : List Subject) : (s.markAll xs).gas = s.gas :=
  foldl_field State.gas _ (fun s a => State.mark_gas s a) _ s
@[simp] theorem State.markAll_air (xs : List Subject) : (s.markAll xs).air = s.air :=
  foldl_field State.air _ (fun s a => State.mark_air s a) _ s
@[simp] theorem State.markAll_fans (xs : List Subject) : (s.markAll xs).fans = s.fans :=
  foldl_field State.fans _ (fun s a => State.mark_fans s a) _ s
@[simp] theorem State.markAll_occ (xs : List Subject) : (s.markAll xs).occ = s.occ :=
  foldl_field State.occ _ (fun s a => State.mark_occ s a) _ s
@[simp] theorem State.markAll_guide (xs : List Subject) : (s.markAll xs).guide = s.guide :=
  foldl_field State.guide _ (fun s a => State.mark_guide s a) _ s
@[simp] theorem State.markAll_light (xs : List Subject) : (s.markAll xs).light = s.light :=
  foldl_field State.light _ (fun s a => State.mark_light s a) _ s
@[simp] theorem State.markAll_loops (xs : List Subject) : (s.markAll xs).loops = s.loops :=
  foldl_field State.loops _ (fun s a => State.mark_loops s a) _ s
@[simp] theorem State.markAll_list (xs : List Subject) : (s.markAll xs).list = s.list :=
  foldl_field State.list _ (fun s a => State.mark_list s a) _ s
@[simp] theorem State.markAll_store (xs : List Subject) : (s.markAll xs).store = s.store :=
  foldl_field State.store _ (fun s a => State.mark_store s a) _ s

/-! ### State.postAll -/

@[simp] theorem State.postAll_pending (ns : List NodeId) : (s.postAll ns).pending = s.pending :=
  foldl_field State.pending _ (fun s a => State.post_pending s a) _ s
@[simp] theorem State.postAll_handed (ns : List NodeId) : (s.postAll ns).handed = s.handed :=
  foldl_field State.handed _ (fun s a => State.post_handed s a) _ s
@[simp] theorem State.postAll_clockMs (ns : List NodeId) : (s.postAll ns).clockMs = s.clockMs :=
  foldl_field State.clockMs _ (fun s a => State.post_clockMs s a) _ s
@[simp] theorem State.postAll_gas (ns : List NodeId) : (s.postAll ns).gas = s.gas :=
  foldl_field State.gas _ (fun s a => State.post_gas s a) _ s
@[simp] theorem State.postAll_air (ns : List NodeId) : (s.postAll ns).air = s.air :=
  foldl_field State.air _ (fun s a => State.post_air s a) _ s
@[simp] theorem State.postAll_fans (ns : List NodeId) : (s.postAll ns).fans = s.fans :=
  foldl_field State.fans _ (fun s a => State.post_fans s a) _ s
@[simp] theorem State.postAll_occ (ns : List NodeId) : (s.postAll ns).occ = s.occ :=
  foldl_field State.occ _ (fun s a => State.post_occ s a) _ s
@[simp] theorem State.postAll_guide (ns : List NodeId) : (s.postAll ns).guide = s.guide :=
  foldl_field State.guide _ (fun s a => State.post_guide s a) _ s
@[simp] theorem State.postAll_light (ns : List NodeId) : (s.postAll ns).light = s.light :=
  foldl_field State.light _ (fun s a => State.post_light s a) _ s
@[simp] theorem State.postAll_list (ns : List NodeId) : (s.postAll ns).list = s.list :=
  foldl_field State.list _ (fun s a => State.post_list s a) _ s
@[simp] theorem State.postAll_port (ns : List NodeId) : (s.postAll ns).port = s.port :=
  foldl_field State.port _ (fun s a => State.post_port s a) _ s
@[simp] theorem State.postAll_store (ns : List NodeId) : (s.postAll ns).store = s.store :=
  foldl_field State.store _ (fun s a => State.post_store s a) _ s

/-! ### Fields inside the port and the Loop Master -/

/-- Marking touches nothing of the port but the note set. -/
theorem State.mark_port (x : Subject) : (s.mark x).port = { s.port with notes := (s.mark x).port.notes } := by
  unfold State.mark
  split <;> rfl

@[simp] theorem State.mark_port_receiver (x : Subject) : (s.mark x).port.receiver = s.port.receiver := by rw [State.mark_port]
@[simp] theorem State.mark_port_replies (x : Subject) : (s.mark x).port.replies = s.port.replies := by rw [State.mark_port]
@[simp] theorem State.mark_port_sending (x : Subject) : (s.mark x).port.sending = s.port.sending := by rw [State.mark_port]
@[simp] theorem State.mark_port_startNote (x : Subject) : (s.mark x).port.startNote = s.port.startNote := by rw [State.mark_port]
@[simp] theorem State.mark_port_access (x : Subject) : (s.mark x).port.access = s.port.access := by rw [State.mark_port]
@[simp] theorem State.mark_port_link (x : Subject) : (s.mark x).port.link = s.port.link := by rw [State.mark_port]
@[simp] theorem State.mark_port_supervisedAt (x : Subject) : (s.mark x).port.supervisedAt = s.port.supervisedAt := by rw [State.mark_port]
@[simp] theorem State.mark_port_rate (x : Subject) : (s.mark x).port.rate = s.port.rate := by rw [State.mark_port]
@[simp] theorem State.mark_port_startCause (x : Subject) : (s.mark x).port.startCause = s.port.startCause := by rw [State.mark_port]
@[simp] theorem State.mark_port_storeInvalid (x : Subject) : (s.mark x).port.storeInvalid = s.port.storeInvalid := by rw [State.mark_port]

@[simp] theorem State.markAll_replies (xs : List Subject) : (s.markAll xs).port.replies = s.port.replies :=
  foldl_field (fun s => s.port.replies) _ (fun s a => State.mark_port_replies s a) _ s

/-- A posted node waits in the queue, or the queue is as it was. -/
theorem State.post_urgent (n : NodeId) : n ∈ (s.post n).loops.urgent ∨ (s.post n).loops.urgent = s.loops.urgent := by
  unfold State.post
  split
  · exact .inl ‹_›
  · split
    · exact .inl (by simp)
    · split
      · exact .inr rfl
      · exact .inr rfl

/-! ### State.framePassed -/

@[simp] theorem State.framePassed_pending : s.framePassed.pending = s.pending := by
  unfold State.framePassed
  split <;> simp

@[simp] theorem State.framePassed_handed : s.framePassed.handed = s.handed := by
  unfold State.framePassed
  split <;> simp

@[simp] theorem State.framePassed_clockMs : s.framePassed.clockMs = s.clockMs := by
  unfold State.framePassed
  split <;> simp

@[simp] theorem State.framePassed_gas : s.framePassed.gas = s.gas := by
  unfold State.framePassed
  split <;> simp

@[simp] theorem State.framePassed_air : s.framePassed.air = s.air := by
  unfold State.framePassed
  split <;> simp

@[simp] theorem State.framePassed_fans : s.framePassed.fans = s.fans := by
  unfold State.framePassed
  split <;> simp

@[simp] theorem State.framePassed_occ : s.framePassed.occ = s.occ := by
  unfold State.framePassed
  split <;> simp

@[simp] theorem State.framePassed_guide : s.framePassed.guide = s.guide := by
  unfold State.framePassed
  split <;> simp

@[simp] theorem State.framePassed_light : s.framePassed.light = s.light := by
  unfold State.framePassed
  split <;> simp

@[simp] theorem State.framePassed_loops : s.framePassed.loops = s.loops := by
  unfold State.framePassed
  split <;> simp

@[simp] theorem State.framePassed_list : s.framePassed.list = s.list := by
  unfold State.framePassed
  split <;> simp

@[simp] theorem State.framePassed_store : s.framePassed.store = s.store := by
  unfold State.framePassed
  split <;> simp

@[simp] theorem State.framePassed_port_receiver : s.framePassed.port.receiver = s.port.receiver := by
  unfold State.framePassed
  split <;> simp

@[simp] theorem State.framePassed_port_replies : s.framePassed.port.replies = s.port.replies := by
  unfold State.framePassed
  split <;> simp

@[simp] theorem State.framePassed_port_sending : s.framePassed.port.sending = s.port.sending := by
  unfold State.framePassed
  split <;> simp

@[simp] theorem State.framePassed_port_startNote : s.framePassed.port.startNote = s.port.startNote := by
  unfold State.framePassed
  split <;> simp

@[simp] theorem State.framePassed_port_access : s.framePassed.port.access = s.port.access := by
  unfold State.framePassed
  split <;> simp

@[simp] theorem State.framePassed_port_rate : s.framePassed.port.rate = s.port.rate := by
  unfold State.framePassed
  split <;> simp

@[simp] theorem State.framePassed_port_startCause : s.framePassed.port.startCause = s.port.startCause := by
  unfold State.framePassed
  split <;> simp

@[simp] theorem State.framePassed_port_storeInvalid : s.framePassed.port.storeInvalid = s.port.storeInvalid := by
  unfold State.framePassed
  split <;> simp

@[simp] theorem State.framePassed_port_link : s.framePassed.port.link = .supervised := by
  unfold State.framePassed
  split <;> simp

@[simp] theorem State.framePassed_port_supervisedAt : s.framePassed.port.supervisedAt = s.now := by
  unfold State.framePassed
  split <;> simp

end Sys2Proof.Machine
end

