-- ==== Sys2Proof/Laws/Tables.lean ====
section
/-! SUPPORT. The laws of record tables: reading after writing and deleting, and the canonical form. -/

namespace Sys2Proof

variable {α β : Type}

@[simp] theorem Table.get_nil (n : Nat) : Table.get ([] : Table α) n = none := rfl

/-- The first key of a table with the canonical form lies below every other key. -/
theorem Table.wf_cons {k : Nat} {v : α} {t : Table α} :
    Table.wf ((k, v) :: t) = true ↔ (∀ e ∈ t, k < e.1) ∧ Table.wf t = true := by
  induction t generalizing k v with
  | nil => simp [Table.wf]
  | cons e t ih =>
    obtain ⟨k', v'⟩ := e
    simp only [Table.wf, Bool.and_eq_true, decide_eq_true_eq, List.mem_cons, forall_eq_or_imp]
    constructor
    · rintro ⟨h, w⟩
      exact ⟨⟨h, fun e he => Nat.lt_trans h ((ih.mp w).1 e he)⟩, w⟩
    · rintro ⟨⟨h, -⟩, w⟩
      exact ⟨h, w⟩

/-- The numbers of a table in canonical form differ. -/
theorem Table.keys_nodup {t : Table α} (w : Table.wf t = true) : (List.map Prod.fst t).Nodup := by
  induction t with
  | nil => exact List.nodup_nil
  | cons e t ih =>
    obtain ⟨k, v⟩ := e
    rw [Table.wf_cons] at w
    rw [List.map_cons, List.nodup_cons]
    refine ⟨fun h => ?_, ih w.2⟩
    obtain ⟨e, he, q⟩ := List.mem_map.1 h
    have := w.1 e he
    simp only at q
    omega

/-- A key below all of a table's keys is not defined in it. -/
theorem Table.get_of_lt {t : Table α} {n : Nat} (h : ∀ e ∈ t, n < e.1) : t.get n = none := by
  induction t with
  | nil => rfl
  | cons e t ih =>
    have he := h e (by simp)
    simp only [Table.get]
    rw [if_neg (by omega)]
    exact ih fun e he => h e (by simp [he])

/-- Reading a number after it was written gives what was written. -/
@[simp] theorem Table.get_put_same (t : Table α) (n : Nat) (x : α) : (t.put n x).get n = some x := by
  induction t with
  | nil => simp [Table.put, Table.get]
  | cons e t ih =>
    obtain ⟨k, v⟩ := e
    simp only [Table.put]
    split
    · simp [Table.get]
    · split
      · simp [Table.get]
      · rw [Table.get, if_neg (by omega)]; exact ih

/-- A second write to a number replaces the first. -/
@[simp] theorem Table.put_put (t : Table α) (n : Nat) (x y : α) : (t.put n x).put n y = t.put n y := by
  induction t with
  | nil => simp [Table.put]
  | cons e t ih =>
    obtain ⟨k, v⟩ := e
    by_cases h : n < k
    · simp [Table.put, h]
    · by_cases h' : n = k
      · simp [Table.put, h']
      · simp [Table.put, h, h', ih]

/-- Writing a number leaves every other number as it was. -/
theorem Table.get_put_other (t : Table α) {n m : Nat} (x : α) (h : m ≠ n) : (t.put n x).get m = t.get m := by
  induction t with
  | nil => simp only [Table.put, Table.get]; rw [if_neg (Ne.symm h)]
  | cons e t ih =>
    obtain ⟨k, v⟩ := e
    simp only [Table.put]
    split
    · rw [Table.get, if_neg (Ne.symm h)]
    · split
      · rename_i h1 h2; subst h2
        simp only [Table.get]; rw [if_neg (Ne.symm h), if_neg (Ne.symm h)]
      · simp only [Table.get]; rw [ih]

/-- What a write does to every number. -/
theorem Table.get_put (t : Table α) (n m : Nat) (x : α) :
    (t.put n x).get m = if m = n then some x else t.get m := by
  split
  · rename_i h; subst h; exact Table.get_put_same t _ x
  · rename_i h; exact Table.get_put_other t x h

theorem Table.mem_put {t : Table α} {n : Nat} {x : α} {e : Nat × α} (h : e ∈ t.put n x) : e = (n, x) ∨ e ∈ t := by
  induction t with
  | nil => simp only [Table.put, List.mem_singleton] at h; exact .inl h
  | cons a t ih =>
    obtain ⟨k, v⟩ := a
    simp only [Table.put] at h
    split at h
    · rcases List.mem_cons.mp h with h | h
      · exact .inl h
      · exact .inr h
    · split at h
      · rcases List.mem_cons.mp h with h | h
        · exact .inl h
        · exact .inr (by simp [h])
      · rcases List.mem_cons.mp h with h | h
        · exact .inr (by simp [h])
        · rcases ih h with h | h
          · exact .inl h
          · exact .inr (by simp [h])

/-- A write keeps the canonical form. -/
theorem Table.wf_put {t : Table α} (h : Table.wf t = true) (n : Nat) (x : α) : Table.wf (t.put n x) = true := by
  induction t with
  | nil => rfl
  | cons e t ih =>
    obtain ⟨k, v⟩ := e
    have hc := Table.wf_cons.mp h
    simp only [Table.put]
    split
    · rename_i hlt
      refine Table.wf_cons.mpr ⟨?_, h⟩
      rintro e he
      rcases List.mem_cons.mp he with rfl | he
      · exact hlt
      · exact Nat.lt_trans hlt (hc.1 e he)
    · split
      · rename_i h1 h2; subst h2
        exact Table.wf_cons.mpr hc
      · rename_i h1 h2
        refine Table.wf_cons.mpr ⟨fun e he => ?_, ih hc.2⟩
        rcases Table.mem_put he with rfl | he
        · simp only; omega
        · exact hc.1 e he

theorem Table.wf_filter {t : Table α} (h : Table.wf t = true) (p : Nat × α → Bool) :
    Table.wf (List.filter p t) = true := by
  induction t with
  | nil => rfl
  | cons e t ih =>
    obtain ⟨k, v⟩ := e
    have hc := Table.wf_cons.mp h
    rw [List.filter_cons]
    split
    · exact Table.wf_cons.mpr ⟨fun e he => hc.1 e (List.mem_filter.mp he).1, ih hc.2⟩
    · exact ih hc.2

/-- A deletion keeps the canonical form. -/
theorem Table.wf_del {t : Table α} (h : Table.wf t = true) (n : Nat) : Table.wf (t.del n) = true :=
  Table.wf_filter h _

/-- A map keeps the canonical form. -/
theorem Table.wf_map {t : Table α} (h : Table.wf t = true) (f : Nat → α → β) : Table.wf (t.map f) = true := by
  induction t with
  | nil => rfl
  | cons e t ih =>
    obtain ⟨k, v⟩ := e
    have hc := Table.wf_cons.mp h
    refine Table.wf_cons.mpr ⟨fun e he => ?_, ih hc.2⟩
    obtain ⟨a, ha, rfl⟩ := List.mem_map.mp he
    exact hc.1 a ha

/-- A deletion makes its number undefined and leaves the others. -/
theorem Table.get_del (t : Table α) (n m : Nat) : (t.del n).get m = if m = n then none else t.get m := by
  unfold Table.del
  induction t with
  | nil => simp
  | cons e t ih =>
    obtain ⟨k, v⟩ := e
    rw [List.filter_cons]
    split
    · rename_i h
      simp only [ne_eq, decide_not, Bool.not_eq_eq_eq_not, Bool.not_true, decide_eq_false_iff_not] at h
      simp only [Table.get]
      rw [ih]
      split <;> split <;> simp_all
    · rename_i h
      simp only [ne_eq, decide_not, Bool.not_eq_eq_eq_not, Bool.not_true, decide_eq_false_iff_not, Decidable.not_not] at h
      subst h
      rw [ih]
      simp only [Table.get]
      split
      · rfl
      · rename_i h; rw [if_neg (Ne.symm h)]

/-- A map changes each record in its place. -/
theorem Table.get_map (t : Table α) (f : Nat → α → β) (n : Nat) : (t.map f).get n = (t.get n).map (f n) := by
  induction t with
  | nil => rfl
  | cons e t ih =>
    obtain ⟨k, v⟩ := e
    show (if k = n then some (f k v) else Table.get (Table.map t f) n) = _
    simp only [Table.get]
    split
    · rename_i h; subst h; rfl
    · exact ih

/-- A defined record stands in the table. -/
theorem Table.mem_of_get {t : Table α} {n : Nat} {x : α} (h : t.get n = some x) : (n, x) ∈ t := by
  induction t with
  | nil => simp at h
  | cons e t ih =>
    obtain ⟨k, v⟩ := e
    simp only [Table.get] at h
    split at h
    · rename_i hk; subst hk; simp at h; subst h; simp
    · exact List.mem_cons_of_mem _ (ih h)

/-- In the canonical form each entry is the record of its number. -/
theorem Table.get_of_mem {t : Table α} (w : Table.wf t = true) {n : Nat} {x : α} (h : (n, x) ∈ t) : t.get n = some x := by
  induction t with
  | nil => simp at h
  | cons e t ih =>
    obtain ⟨k, v⟩ := e
    have hc := Table.wf_cons.mp w
    rcases List.mem_cons.mp h with h | h
    · cases h; simp [Table.get]
    · have := hc.1 _ h
      simp only [Table.get]
      rw [if_neg (by simp only at this; omega)]
      exact ih hc.2 h

/-- Replacing a defined record splits the table at its place. -/
theorem Table.put_split {t : Table α} (w : Table.wf t = true) {n : Nat} {old : α} (h : t.get n = some old) (x : α) :
    ∃ a b, t = a ++ (n, old) :: b ∧ t.put n x = a ++ (n, x) :: b := by
  induction t with
  | nil => simp at h
  | cons e t ih =>
    obtain ⟨k, v⟩ := e
    have hc := Table.wf_cons.mp w
    simp only [Table.get] at h
    split at h
    · rename_i hk; subst hk; simp at h; subst h
      exact ⟨[], t, rfl, by simp [Table.put]⟩
    · rename_i hk
      obtain ⟨a, b, h1, h2⟩ := ih hc.2 h
      have hm := hc.1 _ (Table.mem_of_get h)
      refine ⟨(k, v) :: a, b, by rw [h1]; rfl, ?_⟩
      simp only [Table.put]
      simp only at hm
      rw [if_neg (by omega), if_neg (by omega), h2]
      rfl

/-- Defining an undefined record inserts it at one place. -/
theorem Table.put_insert {t : Table α} {n : Nat} (h : t.get n = none) (x : α) :
    ∃ a b, t = a ++ b ∧ t.put n x = a ++ (n, x) :: b := by
  induction t with
  | nil => exact ⟨[], [], rfl, rfl⟩
  | cons e t ih =>
    obtain ⟨k, v⟩ := e
    simp only [Table.get] at h
    split at h
    · simp at h
    · rename_i hk
      simp only [Table.put]
      split
      · exact ⟨[], (k, v) :: t, rfl, rfl⟩
      · rw [if_neg (by omega)]
        obtain ⟨a, b, h1, h2⟩ := ih h
        exact ⟨(k, v) :: a, b, by rw [h1]; rfl, by rw [h2]; rfl⟩

/-- Deleting a defined record takes it out of its place. -/
theorem Table.del_split {t : Table α} (w : Table.wf t = true) {n : Nat} {old : α} (h : t.get n = some old) :
    ∃ a b, t = a ++ (n, old) :: b ∧ t.del n = a ++ b := by
  induction t with
  | nil => simp at h
  | cons e t ih =>
    obtain ⟨k, v⟩ := e
    have hc := Table.wf_cons.mp w
    simp only [Table.get] at h
    split at h
    · rename_i hk; subst hk; simp at h; subst h
      refine ⟨[], t, rfl, ?_⟩
      unfold Table.del
      rw [List.filter_cons_of_neg (by simp)]
      rw [List.filter_eq_self.mpr]
      · rfl
      · intro e he; have := hc.1 e he; simp; omega
    · rename_i hk
      obtain ⟨a, b, h1, h2⟩ := ih hc.2 h
      refine ⟨(k, v) :: a, b, by rw [h1]; rfl, ?_⟩
      unfold Table.del at h2 ⊢
      rw [List.filter_cons_of_pos (by simpa using hk), h2]
      rfl

/-- A loop's value after a loop's value was replaced. -/
theorem PerLoop.get_set (p : PerLoop α) (l m : LoopId) (x : α) : (p.set l x).get m = if m = l then x else p.get m := by
  cases l <;> cases m <;> rfl

end Sys2Proof
end

