-- ==== Sys2Proof/Laws/Moves.lean ====
section
/-! SUPPORT. What a command can do, said once: every effect but a start is a sequence of moves, each a small change of one
part of the state under the guard the rules put on it. Invariants are then shown for each move. -/

namespace Sys2Proof.Machine

/-- One small change of the state, with what the rules guarantee of it. -/
inductive Move : State → State → Prop where
  | gas (s : State) (g : GasUnit) : Move s { s with gas := g }
  | air (s : State) (a : ZoneAir) (h : AlarmOrderSound s.air → AlarmOrderSound a) : Move s { s with air := a }
  | occ (s : State) (o : Occupancy) (h : CountsSound s.occ → CountsSound o) : Move s { s with occ := o }
  | guide (s : State) (g : Guidance) (h : GuideSound s.guide → GuideSound g) : Move s { s with guide := g }
  | light (s : State) (l : Lighting) (h : LightSound s.light → LightSound l) : Move s { s with light := l }
  | handed (s : State) (es : List Instr) : Move s { s with handed := es }
  | loops (s : State) (l : LoopMaster) (h : l.urgent = s.loops.urgent) (k : NodesSound s.loops → NodesSound l) :
      Move s { s with loops := l }
  | leave (s : State) (u : List NodeId) (h : u.Sublist s.loops.urgent) :
      Move s { s with loops := { s.loops with urgent := u } }
  | join (s : State) (n : NodeId) (hn : n ∉ s.loops.urgent) (hl : s.loops.urgent.length < Config.urgentCapacity) :
      Move s { s with loops := { s.loops with urgent := s.loops.urgent ++ [n] } }
  | list (s : State) (l : ScanList) (h : s.list.memory.length = Config.listEntries → l.memory.length = Config.listEntries) :
      Move s { s with list := l }
  | mark (s : State) (x : Subject) (h : x ∉ s.port.notes) :
      Move s { s with port := { s.port with notes := s.port.notes ++ [x] } }
  | port (s : State) (p : Port) (hr : p.replies = s.port.replies) (hn : p.notes.Sublist s.port.notes) :
      Move s { s with port := p }
  | fan (s : State) (i : Nat) (old new : Fan) (hg : s.fan i = some old)
      (ho : old.defn.ordered = true → new.defn.ordered = true)
      (hl : old.defn.ordered = true →
        new.load ≤ old.load ∨ s.fans.account + new.load ≤ s.items.supplyLimit + old.load)
      (hs : new.holdsSlot = true → old.holdsSlot = true ∨ s.slotFree = true) :
      Move s
        { s with
          fans := { s.fans with fans := s.fans.fans.put i new, account := s.fans.account + new.load - old.load } }
  | fanNew (s : State) (i : Nat) (new : Fan) (hg : s.fan i = none) (ho : new.defn.ordered = true) (hl : new.load = 0)
      (hs : new.holdsSlot = false) : Move s { s with fans := { s.fans with fans := s.fans.fans.put i new } }
  | fanGone (s : State) (i : Nat) (old : Fan) (hg : s.fan i = some old) (hl : old.load = 0) :
      Move s { s with fans := { s.fans with fans := s.fans.fans.del i } }
  | fansGone (s : State) : Move s { s with fans := { s.fans with fans := [], account := 0 } }
  | fans (s : State) (f : FanController) (hf : f.fans = s.fans.fans) (ha : f.account = s.fans.account) :
      Move s { s with fans := f }
  | store (s : State) (x : Store)
      (hi : s.fans.account ≤ s.items.supplyLimit → s.fans.account ≤ x.items.supplyLimit)
      (hs : SavedSound s.store → SettingsSound s.settings → SavedSound x) : Move s { s with store := x }

/-- A sequence of moves. -/
inductive Moves : State → State → Prop where
  | refl (s : State) : Moves s s
  | snoc {s t u : State} (h : Moves s t) (m : Move t u) : Moves s u


/-- The node table keeps its form and its places when an entry of one of the 124 places is written. -/
theorem NodesSound.setNode {s : State} {n : NodeId} {x : Node} (k : NodesSound s.loops) :
    NodesSound (s.setNode n x).loops := by
  rw [State.setNode_loops]
  split
  · rename_i a
    refine ⟨Table.wf_put k.table _ _, fun i y h => ?_⟩
    dsimp only at h
    rw [Table.get_put] at h
    split at h
    · subst i
      unfold addrOk at a
      simp only [Bool.and_eq_true, decide_eq_true_eq] at a
      have : loopCode n.loop < 4 := by cases n.loop <;> decide
      unfold nodeIndex Config.nodes
      omega
    · exact k.places i y h
  · exact k

/-- Deleting an entry keeps the node table sound. -/
theorem NodesSound.del {m : LoopMaster} (k : NodesSound m) (i : Nat) : NodesSound { m with nodes := m.nodes.del i } := by
  refine ⟨Table.wf_del k.table _, fun j y h => ?_⟩
  dsimp only at h
  rw [Table.get_del] at h
  split at h
  · cases h
  · exact k.places j y h

/-! ### Building sequences

Each lemma extends a sequence by one operation, so that the lemma of an effect follows it from its first operation to its
last. -/

variable {s t u : State}

theorem Moves.trans (h : Moves s t) (k : Moves t u) : Moves s u := by
  induction k with
  | refl => exact h
  | snoc _ m ih => exact .snoc ih m

/-- A fold of operations each of which is a sequence of moves. -/
theorem Moves.foldl {α : Type} {f : State → α → State} {l : List α} (h : Moves s t)
    (hf : ∀ t a, Moves t (f t a)) : Moves s (l.foldl f t) := by
  induction l generalizing t with
  | nil => exact h
  | cons a l ih => exact ih (h.trans (hf t a))

/-- A branch. -/
theorem Moves.ite {c : Prop} [Decidable c] (h : c → Moves s t) (k : ¬c → Moves s u) :
    Moves s (if c then t else u) := by
  split
  · exact h ‹_›
  · exact k ‹_›

theorem Moves.hand {e : Instr} (h : Moves s t) : Moves s (t.hand e) := h.snoc (.handed _ _)

theorem Moves.handAll {es : List Instr} (h : Moves s t) : Moves s (t.handAll es) := h.snoc (.handed _ _)

theorem Moves.mark {x : Subject} (h : Moves s t) : Moves s (t.mark x) := by
  unfold State.mark
  split
  · exact h
  · exact h.snoc (.mark _ _ ‹_›)

theorem Moves.markAll {xs : List Subject} (h : Moves s t) : Moves s (t.markAll xs) := h.foldl fun t _ => (refl t).mark

theorem Moves.setNode {n : NodeId} {x : Node} (h : Moves s t) : Moves s (t.setNode n x) :=
  h.snoc (.loops _ _ rfl NodesSound.setNode)

theorem Moves.post {n : NodeId} (h : Moves s t) : Moves s (t.post n) := by
  unfold State.post
  split
  · exact h
  · split
    · exact h.snoc (.join _ _ ‹_› ‹_›)
    · split
      · exact h.setNode
      · exact h

theorem Moves.postAll {ns : List NodeId} (h : Moves s t) : Moves s (t.postAll ns) := h.foldl fun t _ => (refl t).post

theorem Moves.setReport {n : NodeId} {r : RoleReport} (h : Moves s t) : Moves s (t.setReport n r) := by
  unfold State.setReport
  split
  · exact ite (fun _ => h) fun _ => h.setNode.mark
  · exact h

/-- A change of the port that adds neither a reply nor a note. -/
theorem Moves.withPort {f : Port → Port} (h : Moves s t) (hr : (f t.port).replies = t.port.replies)
    (hn : (f t.port).notes.Sublist t.port.notes) : Moves s (t.withPort f) := h.snoc (.port _ _ hr hn)

theorem Moves.framePassed (h : Moves s t) : Moves s t.framePassed := by
  have k : Moves s { t with port := { t.port with link := .supervised, supervisedAt := t.now } } :=
    h.snoc (.port _ _ rfl (List.Sublist.refl _))
  unfold State.framePassed
  split
  · exact k
  · exact k.mark

/-- A change of the Loop Master that leaves the urgent write queue and keeps the node table sound. -/
theorem Moves.withNodes {f : LoopMaster → LoopMaster} (h : Moves s t) (hu : (f t.loops).urgent = t.loops.urgent)
    (hn : NodesSound t.loops → NodesSound (f t.loops)) : Moves s (t.withLoops f) := h.snoc (.loops _ _ hu hn)

/-- A change of the Loop Master that leaves the urgent write queue and the node table. -/
theorem Moves.withLoops {f : LoopMaster → LoopMaster} (h : Moves s t) (hu : (f t.loops).urgent = t.loops.urgent)
    (hn : (f t.loops).nodes = t.loops.nodes := by rfl) : Moves s (t.withLoops f) :=
  h.withNodes hu fun k => ⟨hn ▸ k.table, hn ▸ k.places⟩

/-! ### What an owner may make of a request -/

/-- An owner refuses, or its new state is reached by moves. -/
def OwnedMoves (s : State) (o : Owned) : Prop := ∀ t a, o = .ok (t, a) → Moves s t

theorem OwnedMoves.refuse {c : RefusalCode} : OwnedMoves s (.error c) := by simp [OwnedMoves]

theorem OwnedMoves.take {a : Answer} (h : Moves s t) : OwnedMoves s (.ok (t, a)) := by
  intro t' a' e
  cases e
  exact h

theorem OwnedMoves.done {b : Bool} (h : Moves s t) : OwnedMoves s (accept b t) := OwnedMoves.take h

theorem OwnedMoves.check {b : Bool} {c : RefusalCode} {o : Owned} (h : b = false → OwnedMoves s o) :
    OwnedMoves s (refuseIf b c o) := by
  unfold refuseIf
  split
  · exact .refuse
  · rename_i hb
    exact h (by simpa using hb)

/-! ### Gas Conversion Unit -/

theorem Moves.putHead {i : Nat} {x : Head} (h : Moves s t) : Moves s (t.putHead i x) := h.snoc (.gas _ _)

theorem Moves.changeHead {i : Nat} {old new : Head} (h : Moves s t) : Moves s (t.changeHead i old new) := by
  unfold State.changeHead State.markValidity
  split
  · exact h.putHead.hand
  · exact h.putHead.mark.hand

theorem Moves.changeHeadOf {n : NodeId} {f : Head → Head} (h : Moves s t) : Moves s (t.changeHeadOf n f) := by
  unfold State.changeHeadOf
  repeat' split
  all_goals first | exact h | exact h.changeHead

theorem Moves.gasReading {n : NodeId} {r : Bool} {p : List Byte} (h : Moves s t) : Moves s (effGasReading n r p t) := by
  unfold effGasReading
  repeat' split
  all_goals first | exact h | exact h.changeHeadOf

theorem Moves.staleExpiry {i : Nat} {g : Gas} (h : Moves s t) : Moves s (effStaleExpiry i g t) := by
  unfold effStaleExpiry
  repeat' split
  all_goals first | exact h | exact h.changeHead

/-- An event of several heads hands each zone concerned exactly one update, with all its affected heads (R13). -/
theorem mem_updatesByZone {us : List (Nat × HeadUpdate)} {e : Instr} :
    e ∈ updatesByZone us ↔
      ∃ z u more, z < Config.zones ∧ (us.filter fun x => x.1 == z).map Prod.snd = u :: more ∧ e = .gasUpdate z u more := by
  unfold updatesByZone
  simp only [List.mem_flatMap, List.mem_range]
  constructor
  · rintro ⟨z, hz, he⟩
    split at he
    · cases he
    · rename_i u more hu
      exact ⟨z, u, more, hz, hu, by simpa using he⟩
  · rintro ⟨z, u, more, hz, hu, rfl⟩
    exact ⟨z, hz, by simp [hu]⟩

theorem Moves.staleRechecked (h : Moves s t) : Moves s (recheckStale t) :=
  (h.snoc (.gas _ _)).markAll.handAll

theorem Moves.gasDefaults (h : Moves s t) : Moves s (defaultsGas t) := by
  unfold defaultsGas
  exact (h.snoc (.gas _ _)).handAll

theorem OwnedMoves.headDef {r : HeadDefReq} : OwnedMoves s (ownHeadDef r s) := by
  unfold ownHeadDef
  have h : Moves s s := .refl s
  repeat' (first | split | refine .check fun _ => ?_)
  all_goals first
    | exact .refuse
    | exact .done h.putHead
    | exact .done h.putHead.hand
    | exact .done (h.snoc (.gas _ _)).hand
    | exact .done h.changeHead
    | exact .done h.hand.changeHead

theorem OwnedMoves.headCal {r : HeadCalReq} : OwnedMoves s (ownHeadCal r s) := by
  unfold ownHeadCal
  have h : Moves s s := .refl s
  repeat' (first | split | refine .check fun _ => ?_)
  all_goals first | exact .refuse | exact .done h.changeHead

end Sys2Proof.Machine
end

