-- ==== Sys2Proof/Laws/MovesZones.lean ====
section
/-! SUPPORT. The Zone Air Unit's operations as sequences of moves: the alarm order list follows each zone's record (R24). -/

namespace Sys2Proof.Machine

variable {s t : State}

/-- The alarm order list after an event moved a zone in it (R24). -/
def orderAfter (i : Nat) (m : ListMove) (l : List Nat) : List Nat :=
  match m with
  | .stayed => l
  | .entered => l ++ [i]
  | .left => l.filter (· ≠ i)

/-- Whether a zone of a table is in gas alarm. -/
def alarmIn (zones : Table Zone) (i : Nat) : Bool :=
  match zones.get i with
  | some r => r.inAlarm
  | none => false

theorem State.zoneInAlarm_eq (s : State) (i : Nat) : s.zoneInAlarm i = alarmIn s.air.zones i := rfl

theorem AlarmOrderSound.mem {a : ZoneAir} (h : AlarmOrderSound a) (i : Nat) :
    i ∈ a.alarmOrder ↔ alarmIn a.zones i = true := by
  rw [h.exact]
  unfold alarmIn
  cases a.zones.get i <;> simp

/-- What makes the zone air sound, in terms of `alarmIn`. -/
theorem AlarmOrderSound.intro {a : ZoneAir} (w : Table.wf a.zones = true) (o : a.alarmOrder.Nodup)
    (e : ∀ i, i ∈ a.alarmOrder ↔ alarmIn a.zones i = true) : AlarmOrderSound a := by
  refine ⟨w, o, fun i => ?_⟩
  rw [e]
  unfold alarmIn
  cases a.zones.get i <;> simp

/-- The alarm order list follows a change of one zone's alarm, whatever else the table's change is. -/
theorem AlarmOrderSound.move {a : ZoneAir} {i : Nat} {now : Bool} {zones : Table Zone} (h : AlarmOrderSound a)
    (w : Table.wf zones = true) (hi : alarmIn zones i = now) (ho : ∀ j, j ≠ i → alarmIn zones j = alarmIn a.zones j) :
    AlarmOrderSound
      { a with zones := zones, alarmOrder := orderAfter i (listMove (alarmIn a.zones i) now) a.alarmOrder } := by
  have key : ∀ j, j ∈ a.alarmOrder ↔ alarmIn a.zones j = true := h.mem
  cases hb : alarmIn a.zones i <;> cases now <;> simp only [listMove, orderAfter]
  · refine .intro w h.once fun j => ?_
    by_cases e : j = i
    · subst e; rw [key, hb, hi]
    · rw [key, ho j e]
  · refine .intro w ?_ fun j => ?_
    · refine List.nodup_append.2 ⟨h.once, by simp, ?_⟩
      intro x hx y hy e
      simp only [List.mem_singleton] at hy
      subst hy e
      rw [key, hb] at hx
      exact Bool.noConfusion hx
    · by_cases e : j = i
      · subst e; simp [hi]
      · simp [e, key, ho j e]
  · refine .intro w (h.once.filter _) fun j => ?_
    by_cases e : j = i
    · subst e; simp [hi]
    · simp [e, key, ho j e]
  · refine .intro w h.once fun j => ?_
    by_cases e : j = i
    · subst e; rw [key, hb, hi]
    · rw [key, ho j e]

theorem alarmIn_put (zones : Table Zone) (i j : Nat) (z : Zone) :
    alarmIn (zones.put i z) j = if j = i then z.inAlarm else alarmIn zones j := by
  unfold alarmIn
  rw [Table.get_put]
  by_cases e : j = i <;> simp [e]

theorem alarmIn_del (zones : Table Zone) (i j : Nat) :
    alarmIn (zones.del i) j = if j = i then false else alarmIn zones j := by
  unfold alarmIn
  rw [Table.get_del]
  by_cases e : j = i <;> simp [e]

/-- Settling a zone is a sequence of moves, where `old` tells the zone's alarm as the table holds it. -/
theorem Moves.settleZone {i : Nat} {old new : Zone} (h : Moves s t) (hz : t.zoneInAlarm i = old.inAlarm) :
    Moves s (t.settleZone i old new) := by
  rw [State.zoneInAlarm_eq] at hz
  have step : ∀ z : Zone, Moves s ((t.putZone i z).moveInAlarmOrder i (listMove old.inAlarm z.inAlarm)) := by
    intro z
    have k : ∀ a : ZoneAir,
        a = { t.air with
              zones := t.air.zones.put i z
              alarmOrder := orderAfter i (listMove (alarmIn t.air.zones i) z.inAlarm) t.air.alarmOrder } →
        Moves s { t with air := a } := by
      intro a e
      subst e
      refine h.snoc (.air _ _ fun q => q.move (Table.wf_put q.table i z) ?_ ?_)
      · simp [alarmIn_put]
      · intro j hj
        simp [alarmIn_put, hj]
    unfold State.moveInAlarmOrder
    split
    · rename_i e
      exact k _ (by rw [hz, e]; rfl)
    · rename_i e
      exact (k _ (by rw [hz, e]; rfl)).mark
    · rename_i e
      exact (k _ (by rw [hz, e]; rfl)).mark
  unfold State.settleZone
  dsimp only
  split
  · exact (step _).mark.handAll
  · exact (step _).handAll

theorem Moves.changeZone {i : Nat} {f : Zone → Zone} (h : Moves s t) : Moves s (t.changeZone i f) := by
  unfold State.changeZone
  split
  · exact h
  · rename_i e
    exact h.settleZone (by unfold State.zoneInAlarm; rw [e])

theorem Moves.changeZones {f : Zone → Zone} (h : Moves s t) : Moves s (t.changeZones f) :=
  h.foldl fun t _ => (refl t).changeZone

theorem Moves.gasUpdate {z : Nat} {u : HeadUpdate} {us : List HeadUpdate} (h : Moves s t) : Moves s (effGasUpdate z u us t) :=
  h.changeZone

theorem Moves.trafficEvent {z : Nat} (h : Moves s t) : Moves s (effTrafficEvent z t) := h.changeZone

theorem Moves.standingChange {z r : Nat} {b : Bool} (h : Moves s t) : Moves s (effStandingChange z r b t) :=
  h.changeZone

theorem Moves.unventilated {z : Nat} {b : Bool} (h : Moves s t) : Moves s (effUnventilated z b t) := h.changeZone

theorem Moves.siteModeFloor {m : SiteMode} (h : Moves s t) : Moves s (effSiteModeFloor m t) := h.changeZones

/-- Restarting the sub-window timer leaves the zones. -/
theorem Moves.restartWindow {n : Nat} (h : Moves s t) : Moves s { t with air := { t.air with subWindowStart := n } } :=
  h.snoc (.air _ _ fun q => ⟨q.table, q.once, q.exact⟩)

theorem Moves.subWindowExpiry (h : Moves s t) : Moves s (effSubWindowExpiry t) := by
  unfold effSubWindowExpiry
  split
  · exact h.restartWindow.changeZones
  · exact h

theorem Moves.trafficRestarted (h : Moves s t) : Moves s (restartTraffic t) := h.restartWindow.changeZones

theorem Moves.zonesRechecked (h : Moves s t) : Moves s (recheckZones t) := h.changeZones

theorem Moves.putZoneFans {z : Nat} {x : ZoneFans} (h : Moves s t) : Moves s (t.putZoneFans z x) :=
  h.snoc (.fans _ _ rfl rfl)

/-- A zone without bays may be removed. -/
theorem Moves.removeZone {i : Nat} {z : Zone} (h : Moves s t) (hz : t.zone i = some z)
    (hb : ∀ c st, bayTally t.occ.bays i c st = 0) : Moves s (t.removeZone i z) := by
  have k : ∀ a : ZoneAir,
      a = { t.air with
            zones := t.air.zones.del i
            alarmOrder := orderAfter i (listMove (alarmIn t.air.zones i) false) t.air.alarmOrder } →
      Moves s
        { t with
          air := a
          fans := { t.fans with zones := t.fans.zones.del i }
          occ := { t.occ with counts := t.occ.counts.del i } } := by
    intro a e
    subst e
    have k1 := h.snoc (.air t
      { t.air with
        zones := t.air.zones.del i
        alarmOrder := orderAfter i (listMove (alarmIn t.air.zones i) false) t.air.alarmOrder }
      fun q => q.move (Table.wf_del q.table i) (by simp [alarmIn_del]) fun j hj => by simp [alarmIn_del, hj])
    have k2 := k1.snoc (.occ _ { t.occ with counts := t.occ.counts.del i } fun q => ⟨q.table, fun z c st => by
      rw [Table.get_del]
      by_cases e : z = i
      · subst e
        rw [if_pos rfl]
        have := hb c st
        simp only at this ⊢
        rw [this]
        cases c <;> cases st <;> rfl
      · rw [if_neg e]
        exact q.exact z c st⟩)
    exact k2.snoc (.fans _ { t.fans with zones := t.fans.zones.del i } rfl rfl)
  have hi : alarmIn t.air.zones i = z.inAlarm := by
    unfold State.zone at hz
    unfold alarmIn
    rw [hz]
  unfold State.removeZone
  refine (Moves.handAll ?_).mark
  unfold State.moveInAlarmOrder
  dsimp only
  split
  · rename_i e
    exact k _ (by rw [hi, e]; rfl)
  · rename_i e
    exact (k _ (by rw [hi, e]; rfl)).mark
  · rename_i e
    exact (k _ (by rw [hi, e]; rfl)).mark

/-- A zone that no record names has no bays. -/
theorem bayTally_of_not_named {i : Nat} (h : s.zoneNamed i = false) (c : BayClass) (st : BayState) :
    bayTally s.occ.bays i c st = 0 := by
  unfold State.zoneNamed at h
  simp only [Bool.or_eq_false_iff] at h
  have hb := h.1.1.1.1.2
  unfold Table.any at hb
  unfold bayTally
  rw [List.length_eq_zero_iff, List.filter_eq_nil_iff]
  intro e he
  have := List.any_eq_false.1 hb e he
  simp only [beq_iff_eq] at this
  simp [this]

theorem OwnedMoves.zoneDef {r : ZoneDefReq} : OwnedMoves s (ownZoneDef r s) := by
  unfold ownZoneDef
  have h : Moves s s := .refl s
  refine .check fun _ => ?_
  split
  · split
    · exact .refuse
    · rename_i z e
      refine .check fun q => .done (h.removeZone e (bayTally_of_not_named q))
  · split
    · exact .refuse
    · refine .check fun _ => ?_
      dsimp only
      split
      · rename_i e
        refine .done (h.putZoneFans.settleZone ?_).mark
        unfold State.zoneInAlarm State.zone at *
        simp only [State.putZoneFans_air]
        rw [e]
        rfl
      · rename_i e
        refine .done (h.settleZone ?_).mark
        unfold State.zoneInAlarm
        rw [e]

theorem OwnedMoves.zoneLimits {r : ZoneLimitsReq} : OwnedMoves s (ownZoneLimits r s) := by
  unfold ownZoneLimits
  refine .check fun _ => ?_
  split
  · exact .refuse
  · split
    · exact .refuse
    · rename_i e
      refine .done (Moves.settleZone (.refl s) ?_).mark
      unfold State.zoneInAlarm
      rw [e]

theorem OwnedMoves.zoneClosure {b : Bool} {i : Nat} : OwnedMoves s (ownZoneClosure b i s) := by
  unfold ownZoneClosure
  refine .check fun _ => ?_
  split
  · exact .refuse
  · rename_i e
    split
    · exact .done (.refl s)
    · refine .done (Moves.settleZone (.refl s) ?_)
      unfold State.zoneInAlarm
      rw [e]

theorem State.removeZone_bays (i : Nat) (z : Zone) (s : State) : (s.removeZone i z).occ.bays = s.occ.bays := by
  unfold State.removeZone State.moveInAlarmOrder
  dsimp only
  split <;> simp

/-- DEFAULTS removes every zone once no bay is defined. -/
theorem Moves.zonesDefaults (h : Moves s t) (hb : t.occ.bays = []) : Moves s (defaultsZones t) := by
  unfold defaultsZones
  generalize t.air.zones.keys = l
  induction l generalizing t with
  | nil => exact h
  | cons i l ih =>
    rw [List.foldl_cons]
    split
    · exact ih h hb
    · rename_i z e
      refine ih (h.removeZone e fun c st => ?_) (by rw [State.removeZone_bays, hb])
      rw [hb]
      rfl

end Sys2Proof.Machine
end

