-- ==== Sys2Proof/Laws/MovesFans.lean ====
section
/-! SUPPORT. The Fan Controller's operations as sequences of moves: each change of a fan's record keeps the supply account
within the limit and the start slot with one fan (R42, R53). -/

namespace Sys2Proof.Machine

variable {s t : State}

/-! ### Reading a fan after an operation -/

@[simp] theorem State.hand_fan (s : State) (e : Instr) (i : Nat) : (s.hand e).fan i = s.fan i := rfl
@[simp] theorem State.handAll_fan (s : State) (es : List Instr) (i : Nat) : (s.handAll es).fan i = s.fan i := rfl
@[simp] theorem State.setQueue_fan (s : State) (q : List QueueEntry) (i : Nat) : (s.setQueue q).fan i = s.fan i := rfl
@[simp] theorem State.enqueue_fan (s : State) (e : QueueEntry) (i : Nat) : (s.enqueue e).fan i = s.fan i := rfl
@[simp] theorem State.dequeue_fan (s : State) (j i : Nat) : (s.dequeue j).fan i = s.fan i := rfl
@[simp] theorem State.putZoneFans_fan (s : State) (z : Nat) (x : ZoneFans) (i : Nat) :
    (s.putZoneFans z x).fan i = s.fan i := rfl

@[simp] theorem State.mark_fan (s : State) (x : Subject) (i : Nat) : (s.mark x).fan i = s.fan i := by
  unfold State.fan
  rw [State.mark_fans]

@[simp] theorem State.post_fan (s : State) (n : NodeId) (i : Nat) : (s.post n).fan i = s.fan i := by
  unfold State.fan
  rw [State.post_fans]

/-- After a change of a fan's record that fan reads as the new record, and every other as before. -/
theorem State.changeFan_fan (s : State) (i j : Nat) (old new : Fan) :
    (s.changeFan i old new).fan j = if j = i then some new else s.fan j := by
  unfold State.changeFan
  dsimp only
  repeat' split
  all_goals simp_all [State.fan, Table.get_put]

@[simp] theorem State.changeFan_fan_same (s : State) (i : Nat) (old new : Fan) :
    (s.changeFan i old new).fan i = some new := by
  rw [State.changeFan_fan, if_pos rfl]

/-! ### Loads and the start slot -/

/-- A change of a fan's record that needs no room: the definition stays, the counted load does not rise while the loads
are ordered, and the start slot is not newly held. -/
structure Fan.Eases (old new : Fan) : Prop where
  defn : new.defn = old.defn
  load : old.defn.ordered = true → new.load ≤ old.load
  slot : new.holdsSlot = true → old.holdsSlot = true

theorem Moves.changeFan {i : Nat} {old new : Fan} (h : Moves s t) (hg : t.fan i = some old)
    (ho : old.defn.ordered = true → new.defn.ordered = true)
    (hl : old.defn.ordered = true → new.load ≤ old.load ∨ t.fans.account + new.load ≤ t.items.supplyLimit + old.load)
    (hs : new.holdsSlot = true → old.holdsSlot = true ∨ t.slotFree = true) : Moves s (t.changeFan i old new) := by
  have k := h.snoc (.fan t i old new hg ho hl hs)
  unfold State.changeFan
  dsimp only
  repeat' split
  all_goals first | exact k | exact k.mark | exact k.post | exact k.post.mark

theorem Moves.easeFan {i : Nat} {old new : Fan} (h : Moves s t) (hg : t.fan i = some old) (e : old.Eases new) :
    Moves s (t.changeFan i old new) :=
  h.changeFan hg (fun o => e.defn ▸ o) (fun o => .inl (e.load o)) fun q => .inl (e.slot q)

/-- With ordered loads a low load is at most each other load. -/
theorem FanDefn.ordered_low {d : FanDefn} (h : d.ordered = true) :
    d.lowLoad ≤ d.startLoad ∧ d.lowLoad ≤ d.highLoad := by
  simpa [FanDefn.ordered] using h

/-- The load and the slot depend on the state, the speed, the loads, the held load and the speed-up alone. -/
theorem Fan.Eases.same {old new : Fan} (d : new.defn = old.defn) (st : new.state = old.state)
    (sp : new.speed = old.speed) (hl : new.heldLoad = old.heldLoad) (su : new.speedup = true → old.speedup = true) :
    old.Eases new := by
  refine ⟨d, fun _ => ?_, ?_⟩
  · have e : new.load = old.load := by
      unfold Fan.load
      rw [d, st, sp, hl]
    exact Nat.le_of_eq e
  · unfold Fan.holdsSlot
    rw [st]
    simp only [Bool.or_eq_true]
    exact Or.imp id su

/-- A fan that goes to a state without load, its start slot given up or as before. -/
theorem Fan.Eases.unloaded {old new : Fan} (d : new.defn = old.defn)
    (st : new.state = .off ∨ new.state = .queued ∨ new.state = .rundown ∨ new.state = .held)
    (su : new.speedup = true → old.speedup = true) : old.Eases new := by
  refine ⟨d, fun _ => ?_, ?_⟩
  · unfold Fan.load
    rcases st with e | e | e | e <;> rw [e] <;> exact Nat.zero_le _
  · unfold Fan.holdsSlot
    rcases st with e | e | e | e <;> rw [e] <;> simpa using fun q => Or.inr (su q)

/-- A RUNNING or STARTING fan that runs at LOW. -/
theorem Fan.Eases.slowed {old new : Fan} (d : new.defn = old.defn) (st : new.state = .running) (sp : new.speed = .low)
    (os : old.state = .running ∨ old.state = .starting) (su : new.speedup = true → old.holdsSlot = true) :
    old.Eases new := by
  refine ⟨d, fun o => ?_, ?_⟩
  · have h := FanDefn.ordered_low o
    unfold Fan.load
    rw [st, sp, d]
    rcases os with e | e <;> rw [e] <;> dsimp only
    · split <;> omega
    · omega
  · unfold Fan.holdsSlot at *
    rw [st]
    simpa using su

/-! ### Moves -/

/-- A change of the Fan Controller that leaves the fans and the account. -/
theorem Moves.withFans {f : FanController} (h : Moves s t) (hf : f.fans = t.fans.fans)
    (ha : f.account = t.fans.account) : Moves s { t with fans := f } := h.snoc (.fans _ _ hf ha)

theorem Moves.setQueue {q : List QueueEntry} (h : Moves s t) : Moves s (t.setQueue q) := h.snoc (.fans _ _ rfl rfl)

theorem Moves.enqueue {e : QueueEntry} (h : Moves s t) : Moves s (t.enqueue e) := h.setQueue

theorem Moves.dequeue {i : Nat} (h : Moves s t) : Moves s (t.dequeue i) := h.setQueue

theorem Fan.Eases.stopped {f : Fan} {now held : Nat} {st : FanState} {cause : Option FanCause}
    (hst : st = .rundown ∨ st = .held ∨ st = .faulted) (hh : held ≤ f.load) :
    f.Eases (f.stopped now st cause held) := by
  refine ⟨rfl, fun _ => ?_, ?_⟩
  · rcases hst with rfl | rfl | rfl
    · exact Nat.zero_le _
    · exact Nat.zero_le _
    · exact hh
  · rcases hst with rfl | rfl | rfl <;> simp [Fan.stopped, Fan.holdsSlot]

theorem Moves.stopFan {i held : Nat} {st : FanState} {cause : Option FanCause} (h : Moves s t)
    (hst : st = .rundown ∨ st = .held ∨ st = .faulted) (hh : ∀ f, t.fan i = some f → held ≤ f.load) :
    Moves s (t.stopFan i st cause held) := by
  unfold State.stopFan State.modifyFan
  refine Moves.dequeue ?_
  split
  · exact h
  · rename_i f e
    exact h.easeFan e (.stopped hst (hh f e))

/-- A stop into RUNDOWN needs no room. -/
theorem Moves.restFan {i : Nat} (h : Moves s t) : Moves s (t.stopFan i .rundown none 0) :=
  h.stopFan (.inl rfl) fun _ _ => Nat.zero_le _

theorem Moves.evaluate (h : Moves s t) : Moves s t.evaluate := by
  unfold State.evaluate
  split
  · exact h
  · split
    · exact h
    · rename_i e rest _ _ f hf
      split
      · rename_i c
        simp only [Bool.and_eq_true, decide_eq_true_eq] at c
        obtain ⟨⟨c1, -⟩, c3⟩ := c
        have k := h.snoc (.fans t { t.fans with queue := rest, lastGrant := some t.now, spacing := true } rfl rfl)
        refine k.changeFan hf ?_ ?_ ?_
        · intro o
          unfold Fan.granted
          split <;> exact o
        · intro _
          refine .inr ?_
          have c4 : t.fans.account + addedLoad f e.kind ≤ t.items.supplyLimit := c3
          change t.fans.account + _ ≤ t.items.supplyLimit + _
          unfold Fan.granted
          unfold addedLoad at c4
          cases hk : e.kind <;> rw [hk] at c4 <;> dsimp only at c4 ⊢
          · unfold Fan.load
            dsimp only
            omega
          · unfold Fan.load
            dsimp only
            split
            · omega
            · split <;> omega
            · omega
            all_goals omega
        · intro _
          exact .inr c1
      · exact h

theorem Moves.followPolicy {i : Nat} (h : Moves s t) (hr : ∀ f, t.fan i = some f → f.state = .running) :
    Moves s (t.followPolicy i) := by
  unfold State.followPolicy
  split
  · exact h
  · rename_i f e
    split
    · exact h.restFan
    · exact Moves.dequeue (Moves.easeFan h e (.slowed rfl (hr f e) rfl (.inl (hr f e)) (by simp)))

theorem Moves.askSpeedup {i : Nat} (h : Moves s t) : Moves s (t.askSpeedup i) := by
  unfold State.askSpeedup
  repeat' split
  all_goals first | exact h | exact h.enqueue

theorem Moves.runningWant {i : Nat} {f : Fan} {w : Want} (h : Moves s t) (hf : t.fan i = some f)
    (hr : f.state = .running) : Moves s (t.runningWant i f w) := by
  unfold State.runningWant
  split
  · split
    · exact h.easeFan hf (.same rfl rfl rfl rfl id)
    · have k := (h.easeFan hf (new := { f with want := .off, speedup := false, speedupFailed := false })
        (.same rfl rfl rfl rfl (by simp))).dequeue (i := i)
      dsimp only
      split
      · refine k.followPolicy fun g e => ?_
        simp only [State.dequeue_fan, State.changeFan_fan_same, Option.some.injEq] at e
        subst e
        exact hr
      · exact k
  · exact Moves.dequeue (Moves.easeFan h hf (.slowed rfl hr rfl (.inl hr) (by simp)))
  · exact Moves.askSpeedup (Moves.easeFan h hf (.same rfl rfl rfl rfl id))

theorem Moves.takeWant {i : Nat} {w : Want} (h : Moves s t) : Moves s (t.takeWant i w) := by
  unfold State.takeWant
  split
  · exact h
  · rename_i f hf
    split
    · split
      · exact h.easeFan hf (.same rfl rfl rfl rfl id)
      · exact Moves.enqueue (Moves.easeFan h hf (.unloaded rfl (.inr (.inl rfl)) id))
    · split
      · split
        · exact h.easeFan hf (.same rfl rfl rfl rfl id)
        · exact Moves.enqueue (Moves.dequeue (Moves.easeFan h hf (.same rfl rfl rfl rfl id)))
      · split
        · exact Moves.dequeue (Moves.easeFan h hf (.unloaded rfl (.inl rfl) id))
        · exact h.easeFan hf (.same rfl rfl rfl rfl id)
    · exact h.easeFan hf (.same rfl rfl rfl rfl id)
    · exact h.runningWant hf ‹_›
    all_goals exact h.easeFan hf (.same rfl rfl rfl rfl id)

theorem Moves.recount {z : Nat} (h : Moves s t) : Moves s (t.recount z) := by
  unfold State.recount
  split
  · exact h
  · dsimp only
    split
    · exact h.putZoneFans
    · exact h.putZoneFans.hand

theorem Moves.mapZone {z d : Nat} (h : Moves s t) : Moves s (t.mapZone z d) := by
  unfold State.mapZone
  split
  · exact h
  · exact h.putZoneFans.foldl fun t _ => (refl t).takeWant

theorem Moves.remap {z : Nat} (h : Moves s t) : Moves s (t.remap z) := by
  unfold State.remap
  dsimp only
  split
  · exact h.recount
  · exact h.recount.mapZone

theorem Moves.remapEvaluate {z : Nat} (h : Moves s t) : Moves s (t.remapEvaluate z) := h.remap.evaluate

theorem Moves.planChange (h : Moves s t) : Moves s t.planChange := by
  unfold State.planChange
  refine (Moves.foldl (h.foldl fun t i => ?_) fun t _ => (refl t).remap).evaluate
  split
  · exact .refl t
  · split
    · exact (refl t).restFan
    · exact .refl t

theorem Moves.evaluatePlan (h : Moves s t) : Moves s t.evaluatePlan := by
  unfold State.evaluatePlan
  dsimp only
  split
  · split
    · exact h
    · exact Moves.mark (Moves.withFans h rfl rfl)
  · exact Moves.planChange (Moves.mark (Moves.withFans h rfl rfl))

theorem Moves.zoneChangeFan {c : ZoneChange} (h : Moves s t) : Moves s (effZoneChangeFan c t) := by
  have a : Moves s (if c.move = .entered then t.raiseClass c.zone else t) := by
    split
    · exact h.setQueue
    · exact h
  have b : Moves s
      (if c.move ≠ .stayed ∨ c.planChanged = true then
        (if c.move = .entered then t.raiseClass c.zone else t).evaluatePlan
      else if c.move = .entered then t.raiseClass c.zone else t) := by
    by_cases e : c.move ≠ .stayed ∨ c.planChanged = true
    · rw [if_pos e]
      exact a.evaluatePlan
    · rw [if_neg e]
      exact a
  unfold effZoneChangeFan
  dsimp only
  split
  · exact b.mapZone.evaluate
  · exact b.evaluate

theorem Moves.faultFan {i z held : Nat} {c : FanCause} (h : Moves s t) (hh : ∀ f, t.fan i = some f → held ≤ f.load) :
    Moves s (t.faultFan i z c held) := (h.stopFan (.inr (.inr rfl)) hh).remapEvaluate

theorem Moves.startComplete {i : Nat} {f : Fan} (h : Moves s t) (hf : t.fan i = some f) (hs : f.state = .starting) :
    Moves s (t.startComplete i f) :=
  Moves.evaluate (Moves.askSpeedup (Moves.easeFan h hf (.slowed rfl rfl rfl (.inr hs) (by simp [Fan.holdsSlot, hs]))))

theorem Moves.actOnReport {i : Nat} {f : Fan} {r : DriveReport} (h : Moves s t) (hf : t.fan i = some f) :
    Moves s (t.actOnReport i f r) := by
  unfold State.actOnReport
  split
  · split
    · exact h
    · exact h.faultFan fun _ _ => Nat.zero_le _
  · split
    · split
      · exact h.startComplete hf ‹_›
      · split
        · exact Moves.evaluate (Moves.easeFan h hf (.same rfl rfl rfl rfl (by simp)))
        · exact h
      all_goals exact h
    · exact h
  all_goals exact h

theorem Moves.driveReport {n : NodeId} {r : Bool} {p : List Byte} (h : Moves s t) : Moves s (effDriveReport n r p t) := by
  unfold effDriveReport
  split
  · split
    · split
      · exact h
      · rename_i f hf
        exact Moves.actOnReport (Moves.easeFan h hf (.same rfl rfl rfl rfl id)) (State.changeFan_fan_same _ _ _ _)
    · exact h
  · exact h

theorem Moves.startSpacingExpiry (h : Moves s t) : Moves s (effStartSpacingExpiry t) := by
  unfold effStartSpacingExpiry
  split
  · exact Moves.evaluate (Moves.withFans h rfl rfl)
  · exact h

theorem Moves.whenDue {i : Nat} {due : Fan → Bool} {act : Fan → State → State} (h : Moves s t)
    (ha : ∀ f, t.fan i = some f → due f = true → Moves s (act f t)) : Moves s (t.whenDue i due act) := by
  unfold State.whenDue
  split
  · exact h
  · rename_i f e
    split
    · exact ha f e ‹_›
    · exact h

theorem Moves.startTimeout {i : Nat} (h : Moves s t) : Moves s (effStartTimeout i t) :=
  h.whenDue fun _ _ _ => h.faultFan fun _ _ => Nat.zero_le _

theorem Moves.speedupTimeout {i : Nat} (h : Moves s t) : Moves s (effSpeedupTimeout i t) :=
  h.whenDue fun f e d => by
    have st : f.state = .running := by
      simp only [Fan.speedupTimeoutDue, Bool.and_eq_true, beq_iff_eq] at d
      exact d.1.1
    exact Moves.evaluate (Moves.easeFan h e (.slowed rfl st rfl (.inl st) (by simp)))

theorem Moves.minimumRunTimeMet {i : Nat} (h : Moves s t) : Moves s (effMinimumRunTimeMet i t) :=
  h.whenDue fun f e d => by
    have st : f.state = .running := by
      simp only [Fan.minimumRunDue, Bool.and_eq_true, beq_iff_eq] at d
      exact d.1.1.1.1
    refine (h.followPolicy fun g k => ?_).evaluate
    rw [e] at k
    cases k
    exact st

theorem Moves.holdTimeExpiry {i : Nat} (h : Moves s t) : Moves s (effHoldTimeExpiry i t) :=
  h.whenDue fun _ _ _ => h.restFan.evaluate

theorem Moves.rundownEnd {i : Nat} (h : Moves s t) : Moves s (effRundownEnd i t) :=
  h.whenDue fun f e _ => by
    split
    · exact h.easeFan e (.unloaded rfl (.inl rfl) id)
    · exact Moves.evaluate (Moves.enqueue (Moves.easeFan h e (.unloaded rfl (.inr (.inl rfl)) id)))

theorem Moves.exerciseDue {i : Nat} (h : Moves s t) : Moves s (effExerciseDue i t) :=
  h.whenDue fun _ e _ => Moves.evaluate (Moves.enqueue (Moves.easeFan h e (.unloaded rfl (.inr (.inl rfl)) id)))

theorem Moves.exerciseRunEnd {i : Nat} (h : Moves s t) : Moves s (effExerciseRunEnd i t) :=
  h.whenDue fun _ _ _ => h.restFan.evaluate

theorem Moves.runMinute {i : Nat} (h : Moves s t) : Moves s (effRunMinute i t) :=
  h.whenDue fun _ e _ => h.easeFan e (.same rfl rfl rfl rfl id)

theorem Moves.onFanOf {n : NodeId} {act : Nat → Fan → State → State} (h : Moves s t)
    (ha : ∀ i f, t.fan i = some f → Moves s (act i f t)) : Moves s (t.onFanOf n act) := by
  unfold State.onFanOf
  split
  · exact h
  · split
    · exact h
    · exact ha _ _ ‹_›

theorem Moves.fanNodeLost {n : NodeId} (h : Moves s t) : Moves s (effFanNodeLost n t) :=
  h.onFanOf fun i f e => by
    split
    · exact h
    · refine h.faultFan fun g k => ?_
      rw [e] at k
      cases k
      exact Nat.le_refl _

theorem Moves.fanNodeRestart {n : NodeId} (h : Moves s t) : Moves s (effFanNodeRestart n t) :=
  h.onFanOf fun i f _ => by
    split
    · exact h.restFan.post.evaluate
    · exact h

theorem Moves.fanNodeReset {n : NodeId} (h : Moves s t) : Moves s (effFanNodeReset n t) :=
  h.onFanOf fun _ _ _ => h.post

theorem Moves.supervisionFans (h : Moves s t) : Moves s (effSupervisionFans t) := by
  have k := h.snoc (.fans t { t.fans with forcedPlan := none } rfl rfl)
  unfold effSupervisionFans
  dsimp only
  split
  · exact k.mark.evaluatePlan
  · exact k.evaluatePlan

/-! ### Requests -/

theorem OwnedMoves.fanHold {i : Nat} : OwnedMoves s (ownFanHold i s) := by
  unfold ownFanHold
  refine .check fun _ => ?_
  split
  · exact .refuse
  · refine .check fun _ => ?_
    split
    · exact .done (.refl s)
    · exact .done (((Moves.refl s).stopFan (.inr (.inl rfl)) fun _ _ => Nat.zero_le _).remapEvaluate)

theorem OwnedMoves.fanFree {i : Nat} : OwnedMoves s (ownFanFree i s) := by
  unfold ownFanFree
  refine .check fun _ => ?_
  split
  · exact .refuse
  · rename_i f e
    split
    · exact .done (.refl s)
    · rename_i st
      refine .done (Moves.remapEvaluate ?_)
      split
      · refine (Moves.refl s).easeFan e ⟨rfl, fun _ => Nat.zero_le _, ?_⟩
        simpa [Fan.holdsSlot] using fun q => Or.inr q
      · split
        · exact (Moves.refl s).easeFan e (.unloaded rfl (.inl rfl) id)
        · exact (Moves.refl s).easeFan e (.unloaded rfl (.inr (.inr (.inl rfl))) id)

theorem OwnedMoves.fanClear {i : Nat} : OwnedMoves s (ownFanClear i s) := by
  unfold ownFanClear
  refine .check fun _ => ?_
  split
  · exact .refuse
  · split
    · exact .done (.refl s)
    · exact .check fun _ => .done (Moves.refl s).restFan.remapEvaluate

theorem Moves.leaveDuty {i z : Nat} (h : Moves s t) : Moves s (t.leaveDuty i z) := by
  unfold State.leaveDuty
  split
  · exact h
  · exact h.putZoneFans

theorem Moves.joinDuty {i z : Nat} (h : Moves s t) : Moves s (t.joinDuty i z) := by
  unfold State.joinDuty
  split
  · exact h
  · exact h.putZoneFans

theorem Moves.afterFanDef {i : Nat} {zones : List Nat} (h : Moves s t) : Moves s (t.afterFanDef i zones) :=
  (h.evaluatePlan.foldl fun t _ => (refl t).remap).evaluate.mark

/-- The loads of a clamped definition are ordered (R71). -/
theorem FanDefReq.clamped_ordered (r : FanDefReq) (n : NodeId) (home : FanDir) (p : Policy) :
    (r.clamped n home p).1.ordered = true := by
  simp only [FanDefReq.clamped, FanDefn.ordered, Bool.and_eq_true]
  constructor <;> (apply decide_eq_true; omega)

/-- A redefined fan keeps its holding of the start slot, and its load unless it turns. -/
theorem Fan.redefined_slot (now : Nat) (d : FanDefn) (f : Fan) (h : (f.redefined now d).holdsSlot = true) :
    f.holdsSlot = true := by
  unfold Fan.redefined at h
  revert h
  repeat' split
  all_goals simp_all [Fan.holdsSlot]

theorem Fan.redefined_load (now : Nat) (d : FanDefn) (f : Fan) (h : f.turning = false) :
    (f.redefined now d).load ≤ f.load := by
  unfold Fan.redefined
  repeat' split
  all_goals simp_all [Fan.load, Fan.turning]

theorem Fan.redefined_defn (now : Nat) (d : FanDefn) (f : Fan) : (f.redefined now d).defn = d := by
  unfold Fan.redefined
  repeat' split
  all_goals rfl

theorem OwnedMoves.fanDef {r : FanDefReq} : OwnedMoves s (ownFanDef r s) := by
  unfold ownFanDef
  refine .check fun _ => ?_
  split
  · split
    · exact .refuse
    · rename_i f e
      refine .check fun c => ?_
      refine .done (Moves.afterFanDef (Moves.leaveDuty ((Moves.refl s).snoc (.fanGone s r.fan f e ?_))))
      simp only [Bool.and_eq_false_iff, bne_eq_false_iff_eq] at c
      unfold Fan.load
      rcases c with c | c <;> rw [c]
  · split
    · rename_i n home p _ _ _
      refine .check fun _ => ?_
      split
      · exact .refuse
      · refine .check fun _ => .check fun _ => ?_
        dsimp only
        split
        · rename_i e
          refine .done (Moves.afterFanDef (Moves.joinDuty (Moves.post ((Moves.refl s).snoc (.fanNew s r.fan _ e ?_ ?_ ?_)))))
          · exact FanDefReq.clamped_ordered r n home p
          · rfl
          · rfl
        · rename_i f e
          refine .check fun _ => .check fun c => ?_
          have k : Moves s (s.changeFan r.fan f (f.redefined s.now (r.clamped n home p).1)) := by
            refine (Moves.refl s).changeFan e ?_ ?_ fun q => .inl (Fan.redefined_slot _ _ _ q)
            · intro _
              rw [Fan.redefined_defn]
              exact FanDefReq.clamped_ordered r n home p
            · intro _
              by_cases q : f.turning = true
              · refine .inr ?_
                simp only [q, Bool.true_and, decide_eq_false_iff_not, Nat.not_lt] at c
                omega
              · exact .inl (Fan.redefined_load _ _ _ (by simpa using q))
          have u : Moves s
              (if (f.redefined s.now (r.clamped n home p).1).state = f.state then
                s.changeFan r.fan f (f.redefined s.now (r.clamped n home p).1)
              else (s.changeFan r.fan f (f.redefined s.now (r.clamped n home p).1)).dequeue r.fan) := by
            split
            · exact k
            · exact k.dequeue
          split
          · exact .done u.afterFanDef
          · exact .done u.leaveDuty.joinDuty.afterFanDef
    · exact .refuse

theorem OwnedMoves.planDef {r : Nat × List Nat} : OwnedMoves s (ownPlanDef r s) := by
  unfold ownPlanDef
  refine .check fun _ => ?_
  split
  · exact .refuse
  · exact .check fun _ => .done (Moves.withFans (.refl s) rfl rfl)

theorem OwnedMoves.planBase {p : Nat} : OwnedMoves s (ownPlanBase p s) := by
  unfold ownPlanBase
  refine .check fun _ => ?_
  split
  · exact .done (.refl s)
  · exact .done (Moves.evaluatePlan (Moves.mark (Moves.withFans (.refl s) rfl rfl)))

theorem OwnedMoves.planForce {p : Nat} : OwnedMoves s (ownPlanForce p s) := by
  unfold ownPlanForce
  refine .check fun _ => .done (Moves.evaluatePlan ?_)
  have k := (Moves.refl s).snoc (.fans s { s.fans with forcedPlan := some p } rfl rfl)
  split
  · exact k
  · exact k.mark

theorem OwnedMoves.planUnforce {x : Unit} : OwnedMoves s (ownPlanUnforce x s) := by
  unfold ownPlanUnforce
  split
  · exact .done (Moves.evaluatePlan (Moves.mark (Moves.withFans (.refl s) rfl rfl)))
  · exact .done (.refl s)

/-! ### DEFAULTS -/

theorem Moves.eachFan {act : Nat → State → State} (h : Moves s t) (ha : ∀ i t, Moves t (act i t)) :
    Moves s (t.eachFan act) := h.foldl fun t i => ha i t

theorem Moves.fansStopped (h : Moves s t) : Moves s (defaultsStopFans t) :=
  h.eachFan fun i t => by
    split
    · exact .refl t
    · split
      · exact .refl t
      · exact (refl t).restFan.post

theorem Moves.fansDefaults (h : Moves s t) : Moves s (defaultsFans t) := by
  have k := h.snoc (.fansGone t)
  have k2 := k.snoc (.fans _
    { t.fans with
      fans := [], plans := factoryPlans, basePlan := 0, forcedPlan := none, queue := [], account := 0
      zones := t.fans.zones.map fun _ x => { x with duty := [] } } rfl rfl)
  unfold defaultsFans
  dsimp only
  refine Moves.foldl (Moves.evaluatePlan ?_) fun t _ => (refl t).remap
  split
  · exact k2.markAll
  · exact k2.markAll.mark

/-- No fan is defined and the supply account is 0. -/
def State.NoFans (s : State) : Prop := s.fans.fans = [] ∧ s.fans.account = 0

theorem State.NoFans.fan (h : s.NoFans) (i : Nat) : s.fan i = none := by
  unfold State.fan
  rw [h.1]
  rfl

theorem State.NoFans.foldl {α : Type} {f : State → α → State} {l : List α} (h : s.NoFans)
    (hf : ∀ t a, t.NoFans → (f t a).NoFans) : (l.foldl f s).NoFans := by
  induction l generalizing s with
  | nil => exact h
  | cons a l ih => exact ih (hf s a h)

theorem State.NoFans.mark (h : s.NoFans) (x : Subject) : (s.mark x).NoFans := by
  unfold State.NoFans
  rw [State.mark_fans]
  exact h

theorem State.NoFans.remap (h : s.NoFans) (z : Nat) : (s.remap z).NoFans := by
  have r : (s.recount z).NoFans := by
    unfold State.recount
    split
    · exact h
    · dsimp only
      split <;> exact h
  unfold State.remap
  dsimp only
  split
  · exact r
  · unfold State.mapZone
    split
    · exact r
    · refine State.NoFans.foldl (s := State.putZoneFans _ _ _) r fun t a ht => ?_
      unfold State.takeWant
      rw [ht.fan]
      exact ht

theorem State.NoFans.evaluate (h : s.NoFans) : s.evaluate.NoFans := by
  unfold State.evaluate
  split
  · exact h
  · rw [h.fan]
    exact h

theorem State.NoFans.evaluatePlan (h : s.NoFans) : s.evaluatePlan.NoFans := by
  unfold State.evaluatePlan
  dsimp only
  repeat' split
  · exact h
  · refine State.NoFans.mark ?_ _
    exact h
  · unfold State.planChange
    refine State.NoFans.evaluate (State.NoFans.foldl (State.NoFans.foldl (State.NoFans.mark ?_ _) fun t i ht => ?_)
      fun t z ht => ht.remap z)
    · exact h
    · rw [ht.fan]
      exact ht

/-- After the Fan Controller's stage of DEFAULTS no fan is defined. -/
theorem defaultsFans_noFans (s : State) : (defaultsFans s).NoFans := by
  unfold defaultsFans
  dsimp only
  refine State.NoFans.foldl (State.NoFans.evaluatePlan ?_) fun t z ht => ht.remap z
  split
  · exact State.NoFans.foldl ⟨rfl, rfl⟩ fun t a ht => ht.mark a
  · exact (State.NoFans.foldl ⟨rfl, rfl⟩ fun t a ht => ht.mark a).mark _

end Sys2Proof.Machine
end

