-- ==== Sys2Proof/Laws/MovesBays.lean ====
section
/-! SUPPORT. The Occupancy Unit's operations as sequences of moves: each change of a bay moves the counts with it (R82). -/

namespace Sys2Proof.Machine

variable {s t : State}

/-! ### Counts and tallies -/

/-- A zone's count of a class and a state. -/
def Occupancy.count (o : Occupancy) (z : Nat) (c : BayClass) (st : BayState) : Nat :=
  (((o.counts.get z).getD noCounts).get c).get st

/-- One where a bay counts for a zone, a class and a state, else 0. -/
def Bay.tally (b : Bay) (z : Nat) (c : BayClass) (st : BayState) : Nat :=
  if b.defn.zone = z ∧ b.defn.cls = c ∧ b.state = st then 1 else 0

@[simp] theorem Counts.get_set (n : Counts) (st st' : BayState) (k : Nat) :
    (n.set st k).get st' = if st' = st then k else n.get st' := by
  cases st <;> cases st' <;> rfl

@[simp] theorem PerClass.get_set {α : Type} (p : PerClass α) (c c' : BayClass) (x : α) :
    (p.set c x).get c' = if c' = c then x else p.get c' := by
  cases c <;> cases c' <;> rfl

/-- Recording one count changes that count alone. -/
theorem State.recordCount_count (s : State) (z z' : Nat) (c c' : BayClass) (st st' : BayState) (f : Nat → Nat) :
    (s.recordCount z c st f).occ.count z' c' st'
      = if z = z' ∧ c = c' ∧ st = st' then f (s.occ.count z c st) else s.occ.count z' c' st' := by
  unfold State.recordCount Occupancy.count State.counts
  dsimp only
  rw [Table.get_put]
  by_cases hz : z' = z
  · subst hz
    simp only [if_pos, Option.getD_some, PerClass.get_set, true_and]
    by_cases hc : c' = c
    · subst hc
      simp only [if_pos, Counts.get_set, true_and]
      by_cases hs : st' = st
      · subst hs; simp
      · rw [if_neg hs, if_neg (Ne.symm hs)]
    · rw [if_neg hc, if_neg (by rintro ⟨rfl, -⟩; exact hc rfl)]
  · rw [if_neg hz, if_neg (by rintro ⟨rfl, -⟩; exact hz rfl)]

theorem State.recordCount_bays (s : State) (z : Nat) (c : BayClass) (st : BayState) (f : Nat → Nat) :
    (s.recordCount z c st f).occ.bays = s.occ.bays := rfl

/-- Marking and recording a count act on different parts. -/
theorem State.mark_recordCount (s : State) (x : Subject) (z : Nat) (c : BayClass) (st : BayState) (f : Nat → Nat) :
    (s.mark x).recordCount z c st f = (s.recordCount z c st f).mark x := by
  unfold State.mark
  split <;> rename_i h
  · rw [if_pos (show x ∈ (s.recordCount z c st f).port.notes from h)]
  · rw [if_neg (show ¬x ∈ (s.recordCount z c st f).port.notes from h)]
    rfl

theorem bayTally_cons (e : Nat × Bay) (t : Table Bay) (z : Nat) (c : BayClass) (st : BayState) :
    bayTally (e :: t) z c st = e.2.tally z c st + bayTally t z c st := by
  unfold bayTally Bay.tally
  rw [List.filter_cons]
  by_cases h : e.2.defn.zone = z ∧ e.2.defn.cls = c ∧ e.2.state = st
  · simp [h, Nat.add_comm]
  · rw [if_neg (by simpa [and_assoc] using h), if_neg h, Nat.zero_add]

theorem bayTally_append (a b : Table Bay) (z : Nat) (c : BayClass) (st : BayState) :
    bayTally (a ++ b) z c st = bayTally a z c st + bayTally b z c st := by
  unfold bayTally
  rw [List.filter_append, List.length_append]

theorem bayTally_put {bays : Table Bay} (w : Table.wf bays = true) {i : Nat} {old : Bay} (h : bays.get i = some old)
    (new : Bay) (z : Nat) (c : BayClass) (st : BayState) :
    bayTally (bays.put i new) z c st + old.tally z c st = bayTally bays z c st + new.tally z c st := by
  obtain ⟨a, b, e1, e2⟩ := Table.put_split w h new
  rw [e2]
  conv => rhs; rw [e1]
  simp only [bayTally_append, bayTally_cons]
  omega

theorem bayTally_insert {bays : Table Bay} {i : Nat} (h : bays.get i = none) (new : Bay) (z : Nat) (c : BayClass)
    (st : BayState) : bayTally (bays.put i new) z c st = bayTally bays z c st + new.tally z c st := by
  obtain ⟨a, b, e1, e2⟩ := Table.put_insert h new
  rw [e2]
  conv => rhs; rw [e1]
  simp only [bayTally_append, bayTally_cons]
  omega

theorem bayTally_del {bays : Table Bay} (w : Table.wf bays = true) {i : Nat} {old : Bay} (h : bays.get i = some old)
    (z : Nat) (c : BayClass) (st : BayState) :
    bayTally (bays.del i) z c st + old.tally z c st = bayTally bays z c st := by
  obtain ⟨a, b, e1, e2⟩ := Table.del_split w h
  rw [e2]
  conv => rhs; rw [e1]
  simp only [bayTally_append, bayTally_cons]
  omega

/-- The counts of a state after a bay left them. -/
theorem State.countOut_count (s : State) (b : Bay) (z : Nat) (c : BayClass) (st : BayState) :
    (s.recordCount b.defn.zone b.defn.cls b.state (· - 1)).occ.count z c st = s.occ.count z c st - b.tally z c st := by
  rw [State.recordCount_count]
  unfold Bay.tally
  by_cases h : b.defn.zone = z ∧ b.defn.cls = c ∧ b.state = st
  · obtain ⟨rfl, rfl, rfl⟩ := h
    simp
  · rw [if_neg h, if_neg h, Nat.sub_zero]

/-- The counts of a state after a bay entered them. -/
theorem State.countIn_count (s : State) (b : Bay) (z : Nat) (c : BayClass) (st : BayState) :
    (s.recordCount b.defn.zone b.defn.cls b.state (· + 1)).occ.count z c st = s.occ.count z c st + b.tally z c st := by
  rw [State.recordCount_count]
  unfold Bay.tally
  by_cases h : b.defn.zone = z ∧ b.defn.cls = c ∧ b.state = st
  · obtain ⟨rfl, rfl, rfl⟩ := h
    simp
  · rw [if_neg h, if_neg h, Nat.add_zero]

/-- A change of the occupancy records through a state. -/
theorem Moves.withOcc {o : Occupancy} (h : Moves s t) (k : CountsSound t.occ → CountsSound o) :
    Moves s { t with occ := o } := h.snoc (.occ _ _ k)

/-- A state that differs in the occupancy records alone. -/
theorem Moves.occOf {u : State} (h : Moves s t) (e : u = { t with occ := u.occ })
    (k : CountsSound t.occ → CountsSound u.occ) : Moves s u := by
  rw [e]
  exact h.withOcc k

/-! ### Bays -/

theorem Moves.changeBay {i : Nat} {old new : Bay} (h : Moves s t) (hg : t.occ.bays.get i = some old) :
    Moves s (t.changeBay i old new) := by
  unfold State.changeBay
  dsimp only
  split
  · rename_i q
    refine Moves.occOf h rfl fun k => ⟨Table.wf_put k.table i new, fun z c st => ?_⟩
    have a := k.exact z c st
    have b := bayTally_put k.table hg new z c st
    have d : old.tally z c st = new.tally z c st := by
      unfold Bay.tally
      rw [q.1, q.2.1, q.2.2]
    change (((t.occ.counts.get z).getD noCounts).get c).get st = bayTally (t.occ.bays.put i new) z c st
    omega
  · unfold State.countIn State.countOut
    rw [State.mark_recordCount]
    refine Moves.mark (Moves.mark ?_)
    refine Moves.occOf h rfl fun k => ⟨Table.wf_put k.table i new, fun z c st => ?_⟩
    have a : t.occ.count z c st = _ := k.exact z c st
    have b := bayTally_put k.table hg new z c st
    change Occupancy.count (State.recordCount _ _ _ _ (State.recordCount _ _ _ _ _)).occ z c st = bayTally _ z c st
    rw [State.countIn_count, State.countOut_count]
    change t.occ.count z c st - _ + _ = _
    have le : old.tally z c st ≤ bayTally t.occ.bays z c st := by
      obtain ⟨x, y, e1, -⟩ := Table.put_split k.table hg new
      rw [e1, bayTally_append, bayTally_cons]
      dsimp only
      omega
    change _ = bayTally (t.occ.bays.put i new) z c st
    omega

theorem Moves.handCounts {u : State} (h : Moves s t) : Moves s (t.handCounts u) := h.handAll

theorem Moves.takeReading {rs : List BayReading} {i : Nat} (h : Moves s t) : Moves s (t.takeReading rs i) := by
  unfold State.takeReading
  split
  · exact h
  · dsimp only
    split
    · exact (h.changeBay ‹_›).handAll
    · exact h.changeBay ‹_›

theorem Moves.bayStripReading {n : NodeId} {r : Bool} {p : List Byte} (h : Moves s t) :
    Moves s (effBayStripReading n r p t) := by
  unfold effBayStripReading
  split
  · split
    · exact h
    · exact (h.foldl fun t _ => (refl t).takeReading).handCounts
  · exact h

/-- One bay of a list is changed where it is defined. -/
theorem Moves.changeEachBay {f : Bay → Bay} {l : List Nat} (h : Moves s t) :
    Moves s (l.foldl
      (fun t i =>
        match t.occ.bays.get i with
        | none => t
        | some b => t.changeBay i b (f b)) t) := by
  refine h.foldl fun t i => ?_
  split
  · exact .refl t
  · exact (refl t).changeBay ‹_›

theorem Moves.changeBaysOf {n : NodeId} {f : Bay → Bay} (h : Moves s t) : Moves s (t.changeBaysOf n f) :=
  h.changeEachBay.handCounts

theorem Moves.bayNodeLost {n : NodeId} (h : Moves s t) : Moves s (effBayNodeLost n t) := h.changeBaysOf

theorem Moves.bayNodeReset {n : NodeId} (h : Moves s t) : Moves s (effBayNodeReset n t) := h.changeBaysOf

theorem Moves.bayNodeRestart {n : NodeId} (h : Moves s t) : Moves s (effBayNodeRestart n t) := h.changeBaysOf

/-- A new bay enters the table and the counts. -/
theorem Moves.newBay {i : Nat} {b : Bay} (h : Moves s t) (hg : t.occ.bays.get i = none) :
    Moves s ((t.putBay i b).countIn b) := by
  unfold State.countIn
  refine Moves.mark (Moves.occOf h rfl fun k => ⟨Table.wf_put k.table i b, fun z c st => ?_⟩)
  have a : t.occ.count z c st = _ := k.exact z c st
  have e := bayTally_insert hg b z c st
  change Occupancy.count (State.recordCount _ _ _ _ _).occ z c st = bayTally (t.occ.bays.put i b) z c st
  rw [State.countIn_count]
  change t.occ.count z c st + _ = _
  omega

/-- A bay leaves the table and the counts. -/
theorem Moves.oldBay {i : Nat} {b : Bay} (h : Moves s t) (hg : t.occ.bays.get i = some b) :
    Moves s (State.countOut b { t with occ := { t.occ with bays := t.occ.bays.del i } }) := by
  unfold State.countOut
  refine Moves.mark (Moves.occOf h rfl fun k => ⟨Table.wf_del k.table i, fun z c st => ?_⟩)
  have a : t.occ.count z c st = _ := k.exact z c st
  have e := bayTally_del k.table hg z c st
  change Occupancy.count (State.recordCount _ _ _ _ _).occ z c st = bayTally (t.occ.bays.del i) z c st
  rw [State.countOut_count]
  change t.occ.count z c st - _ = _
  omega

theorem OwnedMoves.bayDef {r : BayDefReq} : OwnedMoves s (ownBayDef r s) := by
  unfold ownBayDef
  have h : Moves s s := .refl s
  refine .check fun _ => ?_
  split
  · split
    · exact .refuse
    · exact .done (h.oldBay ‹_›).handCounts
  · split
    · refine .check fun _ => ?_
      split
      · exact .refuse
      · refine .check fun _ => .check fun _ => .check fun _ => ?_
        dsimp only
        split
        · exact .done (h.newBay ‹_›).handCounts
        · split
          · exact .done h
          · split
            · exact .done (h.changeBay ‹_›).handCounts
            · exact .done (h.changeBay ‹_›).handCounts
    · exact .refuse

theorem OwnedMoves.bayService {r : Nat × Nat × Nat} : OwnedMoves s (ownBayService r s) := by
  unfold ownBayService
  exact .check fun _ => .check fun _ => .done (Moves.refl s).changeEachBay.handCounts

/-! ### Ramps -/

theorem Moves.withRamps {r : Table Ramp} (h : Moves s t) : Moves s { t with occ := { t.occ with ramps := r } } :=
  h.withOcc fun k => ⟨k.table, k.exact⟩

theorem Moves.putRamp {i : Nat} {r : Ramp} (h : Moves s t) : Moves s (t.putRamp i r) := h.withRamps

theorem Moves.setStanding {i : Nat} {r : Ramp} {b : Bool} (h : Moves s t) : Moves s (t.setStanding i r b) := by
  unfold State.setStanding
  split
  · exact h
  · exact h.putRamp.hand

theorem Moves.countOverflow {n : NodeId} (h : Moves s t) : Moves s (t.countOverflow n) := by
  unfold State.countOverflow
  split
  · exact h
  · exact h.setNode.mark

theorem Moves.rampReading {n : NodeId} {r : Bool} {p : List Byte} (h : Moves s t) :
    Moves s (effRampReading n r p t) := by
  unfold effRampReading
  split
  · split
    · exact h
    · dsimp only
      split <;> split
      · exact h.setStanding.countOverflow.putRamp.handAll
      · exact h.setStanding.putRamp.handAll
      · exact h.setStanding.countOverflow
      · exact h.setStanding
  · exact h

theorem Moves.rampNodeLost {n : NodeId} (h : Moves s t) : Moves s (effRampNodeLost n t) := h

theorem Moves.rampNodeReset {n : NodeId} (h : Moves s t) : Moves s (effRampNodeReset n t) := by
  unfold effRampNodeReset
  repeat' split
  all_goals first | exact h | exact h.setStanding

theorem OwnedMoves.rampDef {r : RampDefReq} : OwnedMoves s (ownRampDef r s) := by
  unfold ownRampDef
  have h : Moves s s := .refl s
  repeat' (first | split | refine .check fun _ => ?_ | dsimp only)
  all_goals first
    | exact .refuse
    | exact .done h.withRamps
    | exact .done (Moves.hand h.withRamps)
    | exact .done (Moves.handAll h.withRamps)

/-! ### DEFAULTS -/

theorem Moves.occupancyDefaults (h : Moves s t) : Moves s (defaultsOccupancy t) := by
  have k : Moves s { t with occ := { bays := [], counts := [], ramps := [] } } :=
    h.withOcc fun _ => ⟨rfl, fun z c st => by cases c <;> cases st <;> rfl⟩
  exact k.markAll.handCounts.handAll

theorem defaultsOccupancy_bays (s : State) : (defaultsOccupancy s).occ.bays = [] := by
  unfold defaultsOccupancy State.handCounts
  simp

end Sys2Proof.Machine
end

