-- ==== Sys2Proof/Laws/SignsAgree.lean ====
section
/-! SUPPORT. The display records agree with the guidance view: what the view's changes leave alone, what a recomputation
gives, and the recomputation of several signs said once. -/

namespace Sys2Proof.Machine

variable {s : State}

/-! ### What a display record depends on -/

/-- A zone is offered alike by two views: the same closure, and the same filtered free count while open. -/
def Alike (v w : List GuideZone) (f : PerClass Bool) (z : Nat) : Prop :=
  (v.getD z .initial).closed = (w.getD z .initial).closed ∧ openFree v f z = openFree w f z

theorem offeredSum_congr {v w : List GuideZone} {f : PerClass Bool} {zs : List Nat} (h : ∀ z ∈ zs, Alike v w f z) :
    offeredSum v f zs = offeredSum w f zs := by
  unfold offeredSum
  rw [List.map_congr_left fun z hz => (h z hz).2]

theorem findIdx?_congr {α : Type} {p q : α → Bool} {l : List α} (h : ∀ x ∈ l, p x = q x) :
    l.findIdx? p = l.findIdx? q := by
  induction l with
  | nil => rfl
  | cons a l ih =>
    rw [List.findIdx?_cons, List.findIdx?_cons, h a (List.mem_cons_self ..),
      ih fun x hx => h x (List.mem_cons_of_mem _ hx)]

/-- A display record depends on the zones its definition names, and on nothing else of the view (R100). -/
theorem displayOf_congr {v w : List GuideZone} {d : SignDefn} {n : Nat}
    (h : ∀ z, d.names z = true → Alike v w d.filter z) : displayOf v d n = displayOf w d n := by
  have hs : ∀ z ∈ d.sources, Alike v w d.filter z := fun z hz => h z (by
    unfold SignDefn.names
    rw [Bool.or_eq_true]
    exact .inl (List.contains_iff_mem.2 hz))
  have hd : ∀ r ∈ d.directions, ∀ z ∈ r.zones, Alike v w d.filter z := fun r hr z hz => h z (by
    unfold SignDefn.names
    rw [Bool.or_eq_true]
    exact .inr (List.any_eq_true.2 ⟨r, hr, List.contains_iff_mem.2 hz⟩))
  have a : offeredFigure v d = offeredFigure w d := by
    unfold offeredFigure
    rw [offeredSum_congr hs]
  have b : allClosed v d = allClosed w d := by
    unfold allClosed
    rw [Bool.eq_iff_iff, List.all_eq_true, List.all_eq_true]
    exact ⟨fun q z hz => (hs z hz).1 ▸ q z hz, fun q z hz => (hs z hz).1 ▸ q z hz⟩
  have c : chosenDirection v d = chosenDirection w d := by
    unfold chosenDirection
    exact findIdx?_congr fun r hr => by rw [offeredSum_congr (hd r hr)]
  unfold displayOf signText
  rw [a, b, c]

/-- A new closure of a zone leaves every other zone. -/
theorem alike_closure {v : List GuideZone} {f : PerClass Bool} {z y : Nat} {g : GuideZone} (h : y ≠ z) :
    Alike v (v.set z g) f y := by
  unfold Alike openFree
  rw [List.getD_eq_getElem?_getD, List.getD_eq_getElem?_getD, List.getElem?_set_ne (Ne.symm h)]
  exact ⟨rfl, rfl⟩

theorem filteredFree_set {f : PerClass Bool} {p : PerClass Nat} {c : BayClass} {n : Nat} (h : f.get c = false) :
    filteredFree f (p.set c n) = filteredFree f p := by
  unfold filteredFree
  congr 1
  refine List.map_congr_left fun k hk => ?_
  have : k ≠ c := by
    rintro rfl
    rw [List.mem_filter] at hk
    rw [hk.2] at h
    cases h
  cases k <;> cases c <;> first | rfl | exact absurd rfl this

/-- A new count of a class the filter does not hold leaves every zone. -/
theorem alike_count {v : List GuideZone} {f : PerClass Bool} {z y n : Nat} {c : BayClass} (h : f.get c = false) :
    Alike v (v.set z { v.getD z .initial with free := (v.getD z .initial).free.set c n }) f y := by
  by_cases e : y = z
  · subst e
    unfold Alike openFree
    by_cases l : y < v.length
    · simp only [List.getD_eq_getElem?_getD, List.getElem?_set_self l, Option.getD_some, filteredFree_set h, and_self]
    · rw [List.set_eq_of_length_le (by omega)]
      exact ⟨rfl, rfl⟩
  · exact alike_closure e

/-! ### A recomputation -/

/-- The record after a recomputation is the one the view gives, with some last change time. -/
theorem Display.update_agrees (old : Display) (v : List GuideZone) (d : SignDefn) (n : Nat) :
    old.update (displayOf v d n) = displayOf v d (old.update (displayOf v d n)).lastChange := by
  unfold Display.update
  split <;> rfl

/-- A sign with its display record recomputed from a view. -/
def Sign.refreshed (v : List GuideZone) (now : Nat) (g : Sign) : Sign :=
  { g with display := g.display.update (displayOf v g.defn now) }

/-- Guidance with one record written stays sound when the record agrees with the view. -/
theorem GuideSound.put {g : Guidance} (k : GuideSound g) {i : Nat} {x : Sign}
    (h : x.display = displayOf g.view x.defn x.display.lastChange) : GuideSound { g with signs := g.signs.put i x } := by
  refine ⟨Table.wf_put k.table _ _, k.view, fun j y q => ?_⟩
  dsimp only at q
  rw [Table.get_put] at q
  split at q
  · cases q
    exact h
  · exact k.agree j y q

theorem GuideSound.del {g : Guidance} (k : GuideSound g) (i : Nat) : GuideSound { g with signs := g.signs.del i } := by
  refine ⟨Table.wf_del k.table _, k.view, fun j y q => ?_⟩
  dsimp only at q
  rw [Table.get_del] at q
  split at q
  · cases q
  · exact k.agree j y q

theorem State.post_withGuide (s : State) (g : Guidance) (n : NodeId) :
    ({ s with guide := g } : State).post n = { s.post n with guide := g } := by
  unfold State.post
  split
  · rfl
  · split
    · rfl
    · change (match s.node n with | some x => _ | none => _) = _
      cases s.node n <;> rfl

theorem State.postAll_withGuide (s : State) (g : Guidance) (ns : List NodeId) :
    ({ s with guide := g } : State).postAll ns = { s.postAll ns with guide := g } := by
  induction ns generalizing s with
  | nil => rfl
  | cons n ns ih =>
    change (State.post n { s with guide := g }).postAll ns = _
    rw [State.post_withGuide, ih]
    rfl

/-- One recomputation: the record is refreshed, and its node is posted when the shown content differs. -/
theorem State.recomputeSign_eq {i : Nat} {g : Sign} (h : s.guide.signs.get i = some g) :
    s.recomputeSign i
      = { s.postAll (if g.content = (g.refreshed s.guide.view s.now).content then [] else [g.defn.node]) with
          guide := { s.guide with signs := s.guide.signs.put i (g.refreshed s.guide.view s.now) } } := by
  unfold State.recomputeSign
  rw [h]
  change State.changeSign i g (g.refreshed s.guide.view s.now) s = _
  unfold State.changeSign
  dsimp only
  split
  · rfl
  · exact State.post_withGuide s _ _

/-- The recomputation of several signs: nodes are posted, and exactly the named records are refreshed from the view. -/
theorem State.recompute_all (ids : List Nat) (s : State) (h : ids.Nodup) :
    ∃ ns g, ids.foldl (fun s i => s.recomputeSign i) s = { s.postAll ns with guide := g } ∧ g.view = s.guide.view
      ∧ (Table.wf s.guide.signs = true → Table.wf g.signs = true)
      ∧ ∀ j, g.signs.get j
          = (s.guide.signs.get j).map fun x => if j ∈ ids then x.refreshed s.guide.view s.now else x := by
  induction ids generalizing s with
  | nil => exact ⟨[], s.guide, rfl, rfl, id, fun j => by simp⟩
  | cons i ids ih =>
    rw [List.nodup_cons] at h
    rw [List.foldl_cons]
    cases e : s.guide.signs.get i with
    | none =>
      have : s.recomputeSign i = s := by
        unfold State.recomputeSign
        rw [e]
      rw [this]
      obtain ⟨ns, g, h1, h2, h3, h4⟩ := ih s h.2
      refine ⟨ns, g, h1, h2, h3, fun j => ?_⟩
      rw [h4]
      by_cases q : j = i
      · subst q
        rw [e]
        rfl
      · simp only [List.mem_cons, q, false_or]
    | some x =>
      rw [State.recomputeSign_eq e]
      generalize (if x.content = (x.refreshed s.guide.view s.now).content then [] else [x.defn.node]) = ms
      obtain ⟨ns, g, h1, h2, h3, h4⟩ := ih
        { s.postAll ms with
          guide := { s.guide with signs := s.guide.signs.put i (x.refreshed s.guide.view s.now) } } h.2
      refine ⟨ms ++ ns, g, ?_, h2, fun w => h3 (Table.wf_put w _ _), fun j => ?_⟩
      · rw [h1, State.postAll_withGuide]
        unfold State.postAll
        rw [List.foldl_append]
      · rw [h4]
        dsimp only
        rw [Table.get_put]
        by_cases q : j = i
        · subst q
          rw [if_pos rfl, e]
          simp only [Option.map_some, h.1, if_false, List.mem_cons, true_or, if_true]
        · rw [if_neg q]
          simp only [List.mem_cons, q, false_or]
          change _ = (s.guide.signs.get j).map fun y => _
          have : ({ s.postAll ms with
              guide := { s.guide with signs := s.guide.signs.put i (x.refreshed s.guide.view s.now) } } : State).now
                = s.now := by
            change (s.postAll ms).clockMs / 1000 = s.clockMs / 1000
            rw [State.postAll_clockMs]
          rw [this]

/-- Recomputing signs changes the guidance and posts nodes, and nothing else. -/
theorem State.recompute_some (ids : List Nat) (s : State) (g : Guidance) :
    ∃ ns h, ids.foldl (fun s i => s.recomputeSign i) ({ s with guide := g } : State) = { s.postAll ns with guide := h } := by
  induction ids generalizing s g with
  | nil => exact ⟨[], g, rfl⟩
  | cons i ids ih =>
    rw [List.foldl_cons]
    cases e : g.signs.get i with
    | none =>
      have : State.recomputeSign i { s with guide := g } = { s with guide := g } := by
        unfold State.recomputeSign
        dsimp only
        rw [e]
      rw [this]
      exact ih s g
    | some x =>
      rw [State.recomputeSign_eq (s := { s with guide := g }) e, State.postAll_withGuide]
      generalize (if x.content = _ then [] else [x.defn.node]) = ms
      obtain ⟨ns, h, q⟩ := ih (s.postAll ms) _
      refine ⟨ms ++ ns, h, ?_⟩
      rw [q]
      unfold State.postAll
      rw [List.foldl_append]

end Sys2Proof.Machine
end

