-- ==== Sys2Proof/Laws/MovesOutputs.lean ====
section
/-! SUPPORT. The operations of the Guidance Unit, the Lighting Controller and the Scan List Unit as sequences of moves. -/

namespace Sys2Proof.Machine

variable {s t : State}

/-! ### Guidance Unit -/

theorem Moves.withGuide {g : Guidance} (h : Moves s t) (k : GuideSound t.guide → GuideSound g) :
    Moves s { t with guide := g } := h.snoc (.guide _ _ k)

/-- A record that agrees with the view is written. -/
theorem Moves.putSign {i : Nat} {x : Sign} (h : Moves s t)
    (k : GuideSound t.guide → x.display = displayOf t.guide.view x.defn x.display.lastChange) : Moves s (t.putSign i x) :=
  h.withGuide fun q => q.put (k q)

/-- A record keeps its definition and its display. -/
theorem Moves.keepSign {i : Nat} {g : Sign} {c : SignCondition} {o : Option SignContent} (h : Moves s t)
    (e : t.guide.signs.get i = some g) : Moves s (t.putSign i { g with condition := c, echo := o }) :=
  h.putSign fun q => q.agree i g e

theorem Moves.changeSign {i : Nat} {old new : Sign} (h : Moves s t)
    (k : new.display = displayOf t.guide.view new.defn new.display.lastChange) : Moves s (t.changeSign i old new) := by
  unfold State.changeSign
  dsimp only
  split
  · exact h.putSign fun _ => k
  · exact (h.putSign fun _ => k).post

/-- The view changes, and every sign that could show it is recomputed. -/
theorem Moves.viewChange {v : List GuideZone} {p : SignDefn → Bool} (h : Moves s t)
    (hv : v.length = t.guide.view.length)
    (hp : ∀ d, p d = false → ∀ z, d.names z = true → Alike t.guide.view v d.filter z) :
    Moves s (({ t with guide := { t.guide with view := v } } : State).recomputeSigns p) := by
  unfold State.recomputeSigns
  dsimp only
  by_cases w : Table.wf t.guide.signs = true
  · obtain ⟨ns, g, h1, h2, h3, h4⟩ := State.recompute_all
      (List.map Prod.fst (t.guide.signs.select fun x => p x.defn))
      { t with guide := { t.guide with view := v } }
      (((Table.keys_nodup w).sublist ((List.filter_sublist ..).map Prod.fst)))
    rw [h1, State.postAll_withGuide]
    refine Moves.snoc (Moves.postAll h) (.guide _ _ fun q => ?_)
    rw [State.postAll_guide] at q
    refine ⟨h3 q.table, by rw [h2]; exact hv.trans q.view, fun j x e => ?_⟩
    rw [h4] at e
    dsimp only at e h2
    cases a : t.guide.signs.get j with
    | none => rw [a] at e; cases e
    | some y =>
      rw [a, Option.map_some] at e
      rw [h2]
      split at e
      · cases e
        exact Display.update_agrees _ _ _ _
      · rename_i hn
        cases e
        have b := q.agree j x a
        rw [b]
        refine displayOf_congr (hp _ ?_)
        cases c : p x.defn with
        | false => rfl
        | true =>
          exact absurd (List.mem_map.2 ⟨(j, x), List.mem_filter.2 ⟨Table.mem_of_get a, c⟩, rfl⟩) hn
  · obtain ⟨ns, g, h1⟩ : ∃ ns g,
        (List.map Prod.fst (t.guide.signs.select fun x => p x.defn)).foldl (fun s i => s.recomputeSign i)
          ({ t with guide := { t.guide with view := v } } : State) = { t.postAll ns with guide := g } :=
      State.recompute_some _ t _
    rw [h1]
    refine Moves.snoc (Moves.postAll h) (.guide _ _ fun q => ?_)
    rw [State.postAll_guide] at q
    exact absurd q.table w

theorem Moves.countDelivery {z n : Nat} {c : BayClass} (h : Moves s t) : Moves s (effCountDelivery z c n t) := by
  unfold effCountDelivery State.setGuideZone
  refine Moves.viewChange h (List.length_set ..) fun d hd y hy => ?_
  cases hf : d.filter.get c with
  | false => exact alike_count hf
  | true =>
    rw [hf, Bool.true_and] at hd
    refine alike_closure ?_
    rintro rfl
    rw [hd] at hy
    cases hy

theorem Moves.zoneChangeGuidance {z : Nat} {c : Bool} (h : Moves s t) : Moves s (effZoneChangeGuidance z c t) := by
  unfold effZoneChangeGuidance State.setGuideZone
  refine Moves.viewChange h (List.length_set ..) fun d hd y hy => alike_closure ?_
  rintro rfl
  rw [hd] at hy
  cases hy

theorem Moves.signReport {n : NodeId} {r : Bool} {p : List Byte} (h : Moves s t) : Moves s (effSignReport n r p t) := by
  unfold effSignReport
  split
  · split
    · split
      · exact h
      · rename_i e
        dsimp only
        split <;> split
        · exact (h.keepSign e).post
        · exact (h.keepSign e).setReport.post
        · exact h.keepSign e
        · exact (h.keepSign e).setReport
    · exact h
  · exact h

theorem Moves.forgetSign {n : NodeId} (h : Moves s t) : Moves s (t.forgetSign n) := by
  unfold State.forgetSign
  split
  · exact h
  · split
    · exact h
    · exact h.keepSign ‹_›

theorem Moves.signNodeLost {n : NodeId} (h : Moves s t) : Moves s (effSignNodeLost n t) := h.forgetSign

theorem Moves.signNodeReset {n : NodeId} (h : Moves s t) : Moves s (effSignNodeReset n t) := h.forgetSign

theorem OwnedMoves.signDef {r : SignDefReq} : OwnedMoves s (ownSignDef r s) := by
  unfold ownSignDef
  have h : Moves s s := .refl s
  repeat' (first | split | refine .check fun _ => ?_ | dsimp only)
  all_goals first
    | exact .refuse
    | exact .done (h.changeSign (Display.update_agrees _ _ _ _))
    | exact .done (Moves.post (h.withGuide fun q => q.del _))
    | exact .done (Moves.post (h.putSign fun _ => rfl))
    | exact .done (Moves.postAll (h.putSign fun _ => Display.update_agrees _ _ _ _))

theorem Moves.signsDefaults (h : Moves s t) : Moves s (defaultsSigns t) :=
  Moves.postAll (h.withGuide fun q => ⟨rfl, q.view, fun _ _ e => (nomatch e)⟩)

/-! ### Lighting Controller -/

theorem Moves.withLight {l : Lighting} (h : Moves s t) (k : LightSound t.light → LightSound l) :
    Moves s { t with light := l } := h.snoc (.light _ _ k)

theorem Moves.putGroup {i : Nat} {g : Group} (h : Moves s t) : Moves s (t.putGroup i g) :=
  h.withLight fun q => ⟨Table.wf_put q.table _ _, q.view⟩

/-- Every group's record may change; the numbers stay. -/
theorem Moves.mapGroups {f : Nat → Group → Group} (h : Moves s t) :
    Moves s { t with light := { t.light with groups := t.light.groups.map f } } :=
  h.withLight fun q => ⟨Table.wf_map q.table _, q.view⟩

theorem Moves.changeGroup {i : Nat} {old new : Group} (h : Moves s t) : Moves s (t.changeGroup i old new) := by
  unfold State.changeGroup
  dsimp only
  split
  · exact h.putGroup
  · exact h.putGroup.post

theorem Moves.modifyGroup {i : Nat} {f : Group → Group} (h : Moves s t) : Moves s (t.modifyGroup i f) := by
  unfold State.modifyGroup
  split
  · exact h
  · exact h.changeGroup

theorem Moves.modifyGroups {p : Nat → Group → Bool} {f : Group → Group} (h : Moves s t) :
    Moves s (t.modifyGroups p f) := h.foldl fun t _ => (refl t).modifyGroup

theorem Moves.takeInFlight {n : NodeId} (h : Moves s t) : Moves s (t.takeInFlight n) := h.mapGroups

theorem Moves.presenceTrigger {p : PresenceSource} (h : Moves s t) : Moves s (effPresenceTrigger p t) := h.modifyGroups

theorem Moves.escort {g : Nat} (h : Moves s t) : Moves s (effEscort g t) := h.foldl fun t _ => (refl t).modifyGroup

theorem Moves.presenceExpiry {i : Nat} (h : Moves s t) : Moves s (effPresenceExpiry i t) := by
  unfold effPresenceExpiry
  repeat' split
  all_goals first | exact h | exact h.changeGroup

theorem Moves.zoneChangeLighting {z : Nat} {b : Bool} (h : Moves s t) : Moves s (effZoneChangeLighting z b t) :=
  Moves.modifyGroups (h.withLight fun q => ⟨q.table, (List.length_set ..).trans q.view⟩)

theorem Moves.lampWriteOutcome {n : NodeId} {b : Bool} (h : Moves s t) : Moves s (effLampWriteOutcome n b t) :=
  h.mapGroups

theorem Moves.lampReport {n : NodeId} {r : Bool} {p : List Byte} (h : Moves s t) : Moves s (effLampReport n r p t) := by
  unfold effLampReport
  split
  · split
    · exact h
    · dsimp only
      split
      · exact h.mapGroups
      · exact Moves.setReport h.mapGroups
  · exact h

theorem Moves.touchGroups {n : NodeId} {f : Group → Group} (h : Moves s t) : Moves s (t.touchGroups n f) :=
  h.mapGroups

theorem Moves.lampNodeLost {n : NodeId} (h : Moves s t) : Moves s (effLampNodeLost n t) := h.touchGroups

theorem Moves.lampNodeReset {n : NodeId} (h : Moves s t) : Moves s (effLampNodeReset n t) := h.touchGroups

theorem Moves.lampNodeReturn {n : NodeId} (h : Moves s t) : Moves s (effLampNodeReturn n t) := h.touchGroups

theorem Moves.supervisionLighting (h : Moves s t) : Moves s (effSupervisionLighting t) := h.modifyGroups

theorem Moves.retargeted (h : Moves s t) : Moves s (retargetAll t) := h.modifyGroups

theorem OwnedMoves.siteMode {c : Nat} : OwnedMoves s (ownSiteMode c s) := by
  unfold ownSiteMode
  split
  · exact .refuse
  · split
    · exact .done (.refl s)
    · exact .done (Moves.mark (Moves.hand (Moves.modifyGroups (Moves.withLight (.refl s) fun q => ⟨q.table, q.view⟩))))

theorem OwnedMoves.groupRange {a b : Nat} {c : Bool} {f : Group → Group} : OwnedMoves s (ownGroupRange a b c f s) := by
  unfold ownGroupRange
  exact .check fun _ => .check fun _ => .done (Moves.modifyGroups (.refl s))

theorem OwnedMoves.groupOverride {r : Nat × Nat × Nat} : OwnedMoves s (ownGroupOverride r s) := .groupRange

theorem OwnedMoves.groupRelease {r : Nat × Nat} : OwnedMoves s (ownGroupRelease r s) := .groupRange

theorem OwnedMoves.groupDef {r : GroupDefReq} : OwnedMoves s (ownGroupDef r s) := by
  unfold ownGroupDef
  have h : Moves s s := .refl s
  repeat' (first | split | refine .check fun _ => ?_ | dsimp only)
  all_goals first
    | exact .refuse
    | exact .done h
    | exact .done h.putGroup
    | exact .done (Moves.post h.putGroup)
    | exact .done (Moves.post (h.withLight fun q => ⟨Table.wf_del q.table _, q.view⟩))
    | exact .done (Moves.postAll h.putGroup)

theorem Moves.lightsDefaults (h : Moves s t) : Moves s (defaultsLights t) :=
  Moves.postAll (h.withLight fun q => ⟨rfl, q.view⟩)

/-! ### Scan List Unit -/

/-- A change of the Scan List Unit that leaves list memory. -/
theorem Moves.withList {f : ScanList → ScanList} (h : Moves s t) (hm : (f t.list).memory = t.list.memory) :
    Moves s (t.withList f) := h.snoc (.list _ _ fun k => by rw [hm, k])

theorem Moves.setListState {x : ListState} (h : Moves s t) : Moves s (t.setListState x) := by
  unfold State.setListState
  dsimp only
  split
  · exact Moves.mark (h.withList rfl)
  · exact h.withList rfl

theorem Moves.faultList {k : ListErrorKind} {n : Option NodeId} (h : Moves s t) : Moves s (t.faultList k n) :=
  Moves.setListState (h.withList rfl)

theorem Moves.reach {fuel : Nat} (h : Moves s t) : Moves s (t.reach fuel) := by
  induction fuel generalizing t with
  | zero => exact h
  | succ fuel ih =>
    unfold State.reach
    split
    · exact h.withList rfl
    · exact h.withList rfl
    · exact Moves.setListState (h.withList rfl)
    · dsimp only
      split
      · exact Moves.faultList (h.withList rfl)
      · exact ih (Moves.withList (h.withList rfl) rfl)
    · exact Moves.setListState (h.withList rfl)

theorem Moves.reachAt {i : Nat} (h : Moves s t) : Moves s (t.reachAt i) := Moves.reach (h.withList rfl)

theorem Moves.advance (h : Moves s t) : Moves s t.advance := h.reachAt

theorem Moves.continueError (h : Moves s t) : Moves s t.continueError := h.withList rfl

theorem Moves.endSpent (h : Moves s t) : Moves s t.endSpent := by
  unfold State.endSpent
  split
  · exact h.advance
  · exact h

theorem Moves.nextSwept (h : Moves s t) : Moves s t.nextSwept := Moves.endSpent (h.withList rfl)

theorem Moves.listError {k : ListErrorKind} (h : Moves s t) : Moves s (t.listError k) := by
  unfold State.listError
  repeat' split
  all_goals first
    | exact h
    | exact h.continueError.advance
    | exact Moves.advance (Moves.withList h.continueError rfl)
    | exact h.continueError.endSpent
    | exact h.continueError.nextSwept
    | exact h.faultList

theorem Moves.entryOutcome {o : ListOutcome} (h : Moves s t) : Moves s (t.entryOutcome o) := by
  have k1 : Moves s (t.withList ScanList.lower) := h.withList rfl
  have k2 : Moves s (t.withList fun l => l.newItem.lower) := h.withList rfl
  unfold State.entryOutcome
  split
  · unfold State.pollOutcome
    repeat' split
    all_goals first | exact h.advance | exact h.listError
  · unfold State.stopOutcome
    split
    · exact h.listError
    · dsimp only
      split
      · exact k1.advance
      · exact k1.endSpent
  · unfold State.ignoreOutcome
    dsimp only
    split
    · exact k1.listError
    · exact k1.endSpent
  · unfold State.repeatOutcome
    split
    · exact h.listError
    · split
      · exact k2.endSpent
      · split
        · exact h.listError
        · exact h
  · unfold State.sweepOutcome
    split
    · exact h.listError
    all_goals exact h.nextSwept
  all_goals exact h

theorem Moves.listOutcome {o : ListOutcome} (h : Moves s t) : Moves s (effListOutcome o t) := by
  unfold effListOutcome
  have k : Moves s (t.withList fun l => { l with inFlight := none }) := h.withList rfl
  split
  · exact h
  · dsimp only
    split
    · exact k.withList rfl
    · split
      · exact Moves.setListState (k.withList rfl)
      · exact k.entryOutcome

theorem Moves.pauseExpiry (h : Moves s t) : Moves s (effPauseExpiry t) := by
  unfold effPauseExpiry
  split
  · exact Moves.advance (Moves.setListState (h.withList rfl))
  · exact h

theorem Moves.repeatLimitExpiry (h : Moves s t) : Moves s (effRepeatLimitExpiry t) := by
  unfold effRepeatLimitExpiry
  split
  · split
    · exact h.withList rfl
    · exact h.listError
  · exact h

theorem OwnedMoves.listLoad {r : Nat × List (List Byte)} : OwnedMoves s (ownListLoad r s) := by
  unfold ownListLoad
  split
  · exact .refuse
  · rename_i es c _
    refine .check fun q => .check fun _ => .done ((Moves.refl s).snoc (.list _ _ fun k => ?_))
    simp only [Bool.or_eq_false_iff, decide_eq_false_iff_not, Nat.not_lt] at q
    have q2 := q.2
    unfold writeEntries
    simp only [List.length_append, List.length_take, List.length_drop, k]
    omega

theorem OwnedMoves.listGo {i : Nat} : OwnedMoves s (ownListGo i s) := by
  unfold ownListGo
  exact .check fun _ => .done (Moves.mark (Moves.reachAt (Moves.setListState (Moves.withList (.refl s) rfl))))

theorem Moves.idleList (h : Moves s t) : Moves s t.idleList := Moves.setListState (h.withList rfl)

theorem OwnedMoves.listHalt {x : Unit} : OwnedMoves s (ownListHalt x s) := by
  unfold ownListHalt
  have h : Moves s s := .refl s
  repeat' split
  all_goals first | exact .done h | exact .done h.idleList | exact .done (Moves.mark (h.withList rfl))

theorem Moves.listIdled (h : Moves s t) : Moves s (defaultsIdleList t) := Moves.idleList (h.withList rfl)

theorem Moves.listMemoryDefaults (h : Moves s t) : Moves s (defaultsListMemory t) :=
  h.snoc (.list _ _ fun _ => List.length_replicate)

theorem Moves.autoStart (h : Moves s t) : Moves s t.autoStart := by
  unfold State.autoStart
  split
  · exact h.setListState.reachAt
  · exact h

end Sys2Proof.Machine
end

