-- ==== Sys2Proof/Laws/MovesLoops.lean ====
section
/-! SUPPORT. The operations of the Loop Master, the Supervisor Port and the Settings Store as sequences of moves, and with
them the effect of every command but a start. -/

namespace Sys2Proof.Machine

variable {s t : State}

/-! ### Urgent write queue -/

/-- Entries leave the urgent write queue. -/
theorem Moves.leaveUrgent {u : List NodeId} (h : Moves s t) (k : u.Sublist t.loops.urgent) :
    Moves s (t.withLoops fun m => { m with urgent := u }) := h.snoc (.leave _ _ k)

theorem Moves.refill {fuel : Nat} (h : Moves s t) : Moves s (t.refill fuel) := by
  induction fuel generalizing t with
  | zero => exact h
  | succ fuel ih =>
    unfold State.refill
    split
    · split
      · exact h
      · split
        · exact h
        · exact ih h.setNode.post
    · exact h

theorem Moves.removeUrgent {p : NodeId → Bool} (h : Moves s t) : Moves s (t.removeUrgent p) :=
  Moves.refill (h.leaveUrgent (List.filter_sublist ..))

theorem Moves.deleteNode {n : NodeId} (h : Moves s t) : Moves s (t.deleteNode n) :=
  Moves.removeUrgent (h.withNodes rfl fun k => k.del _)

/-! ### Outcomes -/

theorem Moves.afterLoss {n : NodeId} {a b : Node} (h : Moves s t) : Moves s (t.afterLoss n a b) := by
  unfold State.afterLoss
  dsimp only
  split
  · split
    · exact h.hand.deleteNode
    · exact h.hand
  · exact h

theorem Moves.nodeFailed {n : NodeId} {x : Node} {k : FailureKind} (h : Moves s t) : Moves s (t.nodeFailed n x k) := by
  unfold State.nodeFailed
  dsimp only
  refine Moves.afterLoss ?_
  split
  · exact h.setNode.mark
  · exact h.setNode

theorem Moves.nodeRefused {n : NodeId} {x : Node} {r : Reply} (h : Moves s t) : Moves s (t.nodeRefused n x r) := by
  unfold State.nodeRefused
  dsimp only
  split
  · split
    · exact h.nodeFailed
    · exact Moves.handAll (Moves.post (Moves.setNode h.nodeFailed))
  · exact h.nodeFailed

/-- A step taken where a condition holds. -/
theorem Moves.iteLeft {c : Prop} [Decidable c] {u : State} (h : Moves s t) (k : Moves t u) :
    Moves s (if c then u else t) := Moves.ite (fun _ => h.trans k) fun _ => h

theorem Moves.nodeGood {n : NodeId} {x : Node} {op : LoopOp} {r : Reply} (h : Moves s t) :
    Moves s (t.nodeGood n x op r) := by
  have f : ∀ {a : State} {c : Prop} [Decidable c], Moves s a → Moves s (if c then a.post n else a) :=
    fun h => h.iteLeft (refl _).post
  have g : ∀ {a : State} {es : List Instr} {c : Prop} [Decidable c], Moves s a → Moves s (if c then a.handAll es else a) :=
    fun h => h.iteLeft (refl _).handAll
  unfold State.nodeGood
  dsimp only
  split
  · refine Moves.hand (g (g (f (f ?_))))
    split
    · exact h.setNode
    · exact h.setNode.mark.post
  · refine g (g (f (f ?_)))
    split
    · exact h.setNode
    · exact h.setNode.mark.post

theorem Moves.nodeTakes {tx : Transaction} {x : Node} {c : TxClass} {r : Option Reply} (h : Moves s t) :
    Moves s (t.nodeTakes tx x c r) := by
  unfold State.nodeTakes
  repeat' split
  all_goals first | exact h | exact h.nodeGood | exact h.nodeRefused | exact h.nodeFailed

theorem Moves.nodeOutcome {tx : Transaction} {c : TxClass} {r : Option Reply} (h : Moves s t) :
    Moves s (t.nodeOutcome tx c r) := by
  unfold State.nodeOutcome
  split
  · exact h.nodeTakes
  all_goals exact h

/-- A transaction sent to an address without an entry reaches none, whatever its outcome (R128). -/
theorem State.nodeOutcome_of_no_entry {tx : Transaction} {c : TxClass} {r : Option Reply} (h : tx.role = none) :
    s.nodeOutcome tx c r = s := by
  unfold State.nodeOutcome
  rw [h]

theorem Moves.lampOutcome {tx : Transaction} {b : Bool} (h : Moves s t) : Moves s (t.lampOutcome tx b) := by
  unfold State.lampOutcome
  split
  · exact h.hand
  · exact h

theorem Moves.afterUrgent {tx : Transaction} {b : Bool} {x : Option Node} (h : Moves s t) :
    Moves s (t.afterUrgent tx b x) := by
  unfold State.afterUrgent
  repeat' split
  all_goals first | exact h | exact h.deleteNode | exact h.post

theorem Moves.found {tx : Transaction} {r : Option Reply} (h : Moves s t) : Moves s (t.found tx r) := by
  unfold State.found
  split
  · exact h.withLoops rfl
  · exact h

theorem Moves.setLine {l : LoopId} {x : LoopState} (h : Moves s t) : Moves s (t.setLine l x) := h.withLoops rfl

theorem Moves.sample {l : LoopId} (h : Moves s t) : Moves s (t.sample l) := by
  unfold State.sample
  dsimp only
  split
  · exact h.setLine
  · exact h

theorem Moves.setLevels {lines : PerLoop Bool} (h : Moves s t) : Moves s (t.setLevels lines) :=
  h.foldl fun t _ => (refl t).setLine

theorem Moves.afterService {tx : Transaction} (h : Moves s t) : Moves s (t.afterService tx) := by
  unfold State.afterService
  split
  · exact h.sample
  · exact h

theorem Moves.handList {tx : Transaction} {c : TxClass} {r : Option Reply} (h : Moves s t) :
    Moves s (t.handList tx c r) := by
  unfold State.handList
  split
  · exact h.hand
  · exact h

theorem Moves.takeOutcome {tx : Transaction} {c : TxClass} {r : Option Reply} (h : Moves s t) :
    Moves s (t.takeOutcome tx c r) := by
  have k : Moves s (t.withLoops fun m => { m with tx := none }) := h.withLoops rfl
  unfold State.takeOutcome
  dsimp only
  refine Moves.handList (Moves.afterService (Moves.found ?_))
  have u : Moves s
      (if tx.voided then (t.withLoops fun m => { m with tx := none }).lampOutcome tx false
        else ((t.withLoops fun m => { m with tx := none }).nodeOutcome tx c r).lampOutcome tx (c == .good)) := by
    split
    · exact k.lampOutcome
    · exact k.nodeOutcome.lampOutcome
  by_cases d : tx.dropped = true
  · rw [if_pos d]
    exact u
  · rw [if_neg d]
    exact u.afterUrgent

theorem Moves.replyReceived {r : List Byte} {lines : PerLoop Bool} (h : Moves s t) :
    Moves s (effReplyReceived r lines t) := by
  unfold effReplyReceived
  split
  · exact h
  · exact h.setLevels.takeOutcome

theorem Moves.replyTimeout {lines : PerLoop Bool} (h : Moves s t) : Moves s (effReplyTimeout lines t) := by
  unfold effReplyTimeout
  split
  · exact h
  · exact h.setLevels.takeOutcome

/-! ### Attention -/

theorem Moves.markLoop {l : LoopId} (h : Moves s t) : Moves s (t.markLoop l) := h.markAll

theorem Moves.attentionAsserted {l : LoopId} (h : Moves s t) : Moves s (effAttentionAsserted l t) :=
  Moves.sample h.setLine

theorem Moves.rollcallEnd {m : BitVec 32} {lines : PerLoop Bool} (h : Moves s t) :
    Moves s (effRollcallEnd m lines t) := by
  unfold effRollcallEnd
  split
  · exact h
  · split
    · have k : Moves s ((t.setLevels lines).withLoops fun m => { m with tx := none }) := h.setLevels.withLoops rfl
      dsimp only
      split
      · exact k
      · split
        · split
          · exact Moves.sample k.setLine
          · exact Moves.markLoop k.setLine
        · exact k.setLine
    · exact h

theorem Moves.attentionIgnoreExpiry {x : LineSample} (h : Moves s t) :
    Moves s (effAttentionIgnoreExpiry x t) := by
  unfold effAttentionIgnoreExpiry
  split
  · exact Moves.markLoop (Moves.sample h.setLine)
  · exact h

/-! ### The engine -/

theorem Moves.begin {n : NodeId} {op : LoopOp} {src : TxSource} {role : Option Role} {p : List Byte} {last : Bool}
    (h : Moves s t) : Moves s (t.begin n op src role p last) := h.withLoops rfl

theorem Moves.beginOutput {n : NodeId} {x : Node} {src : TxSource} (h : Moves s t) :
    Moves s (t.beginOutput n x src) := by
  unfold State.beginOutput State.beginWrite
  dsimp only
  split
  · exact h.begin
  · split
    · exact Moves.takeInFlight h.begin
    · exact h.begin

theorem Moves.takeUrgent {n : NodeId} (h : Moves s t) : Moves s (t.takeUrgent n) := by
  have k : Moves s t.popUrgent := Moves.refill (h.leaveUrgent (List.drop_sublist ..))
  unfold State.takeUrgent
  dsimp only
  repeat' split
  all_goals first | exact k | exact k.deleteNode | exact k.beginOutput

theorem Moves.beginSweep {l : LoopId} (h : Moves s t) : Moves s (t.beginSweep l) := by
  unfold State.beginSweep
  split
  · exact h
  · exact Moves.withList (h.withLoops rfl) rfl

theorem Moves.stampItem (h : Moves s t) : Moves s t.stampItem := by
  unfold State.stampItem
  split
  · exact h
  · exact h.withList rfl

theorem Moves.beginList {n : NodeId} {op : LoopOp} (h : Moves s t) : Moves s (t.beginList n op) :=
  Moves.withList h.begin rfl

theorem Moves.takeList (h : Moves s t) : Moves s t.takeList := by
  unfold State.takeList
  repeat' split
  all_goals first
    | exact h
    | exact h.beginList
    | exact h.listError
    | exact Moves.withList h.beginOutput rfl
    | exact h.beginSweep.beginList
    | exact h.stampItem.beginList

theorem Moves.beginService {n : NodeId} (h : Moves s t) : Moves s (t.beginService n) := by
  unfold State.beginService State.noteEmptied
  exact Moves.withLoops (Moves.begin h.setLine) rfl

theorem Moves.chooseOnce (h : Moves s t) : Moves s t.chooseOnce := by
  unfold State.chooseOnce
  repeat' split
  all_goals first
    | exact h
    | exact h.takeList
    | exact h.beginService
    | exact Moves.begin h.setLine
    | exact Moves.begin (Moves.withLoops h.setLine rfl)
    | exact h.takeUrgent

theorem Moves.choose {fuel : Nat} (h : Moves s t) : Moves s (t.choose fuel) := by
  induction fuel generalizing t with
  | zero => exact h
  | succ fuel ih =>
    unfold State.choose
    split
    · exact ih h.chooseOnce
    · exact h

/-! ### Requests of the Loop Master -/

theorem Moves.voidIf {p : Transaction → Bool} (h : Moves s t) : Moves s (t.voidIf p) := h.withLoops rfl

theorem Moves.resetNodes {l : LoopId} (h : Moves s t) : Moves s (t.resetNodes l) := by
  refine h.foldl fun t n => ?_
  split
  · exact .refl t
  · dsimp only
    split
    · exact Moves.withNodes (refl t).setNode.hand rfl fun k => k.del _
    · exact (refl t).setNode.hand

theorem Moves.voidLoop {l : LoopId} (h : Moves s t) : Moves s (t.voidLoop l) := h.withLoops rfl

theorem OwnedMoves.loopReset {lines : PerLoop Bool} {c : Nat} : OwnedMoves s (ownLoopReset lines c s) := by
  unfold ownLoopReset
  split
  · exact .refuse
  · exact .done (Moves.sample (Moves.setLevels
      (Moves.removeUrgent (Moves.withLoops (Moves.setLine (Moves.refl s).voidLoop.markLoop.resetNodes) rfl))))

theorem Moves.resetup {n : NodeId} {x : Node} {v : List Byte} (h : Moves s t) : Moves s (t.resetup n x v) := by
  unfold State.resetup
  dsimp only
  split
  · exact h.setNode.post
  · exact h.setNode

theorem OwnedMoves.nodeDef {r : NodeDefReq} : OwnedMoves s (ownNodeDef r s) := by
  unfold ownNodeDef
  have h : Moves s s := .refl s
  repeat' (first | split | refine .check fun _ => ?_)
  all_goals first
    | exact .refuse
    | exact .done h.voidIf.deleteNode.mark
    | exact .done h.setNode.mark
    | exact .done h.resetup.mark
    | exact .done (Moves.mark (Moves.removeUrgent (Moves.setNode h.voidIf)))

theorem Moves.nodesDefaults (h : Moves s t) : Moves s (defaultsNodes t) := by
  unfold defaultsNodes
  refine h.withNodes rfl fun k => ?_
  dsimp only
  generalize hp : (fun e : Nat × Node => t.loops.urgent.contains (nodeAt e.1) || e.2.refreshOwed) = p
  have w : Table.wf (Table.map (List.filter p t.loops.nodes) fun _ x => ({ x with retiring := true } : Node)) = true :=
    Table.wf_map (Table.wf_filter k.table p) _
  refine ⟨w, fun i x e => ?_⟩
  obtain ⟨⟨j, y⟩, hm, q⟩ := List.mem_map.1 (Table.mem_of_get e)
  cases q
  exact k.places _ _ (Table.get_of_mem k.table (List.mem_filter.1 hm).1)

theorem Moves.failLimitRechecked (h : Moves s t) : Moves s (recheckFailLimit t) := by
  refine h.foldl fun t i => ?_
  dsimp only
  split
  · exact .refl t
  · split
    · exact (refl t).setNode.mark.afterLoss
    · exact .refl t

/-! ### Supervisor Port -/

theorem Moves.receiveByte {b : Byte} {stop gap : Bool} (h : Moves s t) :
    Moves s (effReceiveByte b stop gap t) := by
  have k : ∀ {r : Receiver}, Moves s (t.withPort fun p => { p with receiver := r }) :=
    h.withPort rfl (List.Sublist.refl _)
  unfold effReceiveByte
  dsimp only
  split
  · split
    · exact Moves.hand (Moves.framePassed k)
    · exact k
  · exact k

theorem Moves.frameSent (h : Moves s t) : Moves s (effFrameSent t) := by
  unfold effFrameSent
  repeat' split
  all_goals first | exact h | exact h.withPort rfl (List.Sublist.refl _)

theorem Moves.setAccess {a : Access} (h : Moves s t) : Moves s (t.setAccess a) :=
  h.withPort rfl (List.Sublist.refl _)

theorem OwnedMoves.login {c : Nat} : OwnedMoves s (ownLogin c s) := by
  unfold ownLogin
  repeat' split
  all_goals first | exact .refuse | exact .done (Moves.refl s).setAccess

theorem OwnedMoves.logout {x : Unit} : OwnedMoves s (ownLogout x s) := .done (Moves.refl s).setAccess

theorem Moves.supervisionExpiry (h : Moves s t) : Moves s (effSupervisionExpiry t) := by
  unfold effSupervisionExpiry
  split
  · exact Moves.handAll (Moves.mark (h.withPort rfl (List.Sublist.refl _)))
  · exact h

/-! ### Settings Store -/

/-- The supply limit after an item write. -/
theorem Items.write_supplyLimit (it : Items) (n v : Nat) :
    (it.write n v).supplyLimit = if n = 0 then v else it.supplyLimit := by
  unfold Items.write
  split <;> simp_all

theorem Moves.spacingRechecked (h : Moves s t) : Moves s (recheckSpacing t) :=
  Moves.startSpacingExpiry (Moves.withFans h rfl rfl)

theorem Moves.itemChanged {n : Nat} {old : Items} (h : Moves s t) : Moves s (itemChanged n old t) := by
  unfold Machine.itemChanged
  split
  · split
    · exact h.evaluate
    · exact h
  · exact h.spacingRechecked
  · exact Moves.eachFan (h.eachFan fun i t => (refl t).startTimeout) fun i t => (refl t).speedupTimeout
  · exact h.eachFan fun i t => (refl t).minimumRunTimeMet
  · exact h.eachFan fun i t => (refl t).holdTimeExpiry
  · exact Moves.evaluate (h.foldl fun t _ => (refl t).remap)
  · exact h.eachFan fun i t => (refl t).exerciseDue
  · exact h.zonesRechecked
  · exact h.iteLeft (refl _).siteModeFloor
  · exact h.iteLeft (refl _).siteModeFloor
  · exact h.trafficRestarted
  · exact h.staleRechecked
  · exact h.iteLeft (refl _).retargeted
  · exact h.iteLeft (refl _).retargeted
  · exact h.failLimitRechecked
  · exact h.repeatLimitExpiry
  · exact h.setAccess
  · exact h.setAccess
  · exact h

/-- An item's change is a sequence of moves; a new supply limit must not lie below the account. -/
theorem Moves.applyItem {n v : Nat} (h : Moves s t) (k : n = 0 → t.fans.account ≤ v) : Moves s (t.applyItem n v) := by
  unfold State.applyItem
  split
  · exact h
  · refine Moves.itemChanged (h.snoc (.store t { t.store with items := t.store.items.write n v } ?_ ?_))
    · intro q
      change _ ≤ (t.store.items.write n v).supplyLimit
      rw [Items.write_supplyLimit]
      split
      · exact k ‹_›
      · exact q
    · exact fun q _ => ⟨q.snapshot, q.image⟩

theorem OwnedMoves.setItem {r : Nat × Nat} : OwnedMoves s (ownSetItem r s) := by
  unfold ownSetItem
  refine .check fun _ => .check fun _ => ?_
  refine .check fun q => .take ((Moves.refl s).applyItem fun e => ?_)
  rw [e] at q ⊢
  simpa using q

theorem OwnedMoves.save {x : Unit} : OwnedMoves s (ownSave x s) := by
  unfold ownSave
  refine .check fun _ => .done ((Moves.refl s).snoc (.store _ _ id fun _ k => ⟨?_, ?_⟩))
  · intro c e
    cases e
    exact k
  · intro c e
    cases e

theorem Moves.saveCompletion {b : Bool} (h : Moves s t) : Moves s (effSaveCompletion b t) := by
  unfold effSaveCompletion
  split
  · rename_i c _ e
    refine Moves.mark (h.snoc (.store _ _ id fun q _ => ⟨fun _ k => (nomatch k), fun d k => ?_⟩))
    have sc := q.snapshot c e
    dsimp only at k
    split at k
    · unfold imageOf StoredImage.contents at k
      dsimp only at k
      rw [if_pos rfl] at k
      cases k
      exact sc
    · cases k
  · exact h

theorem Moves.itemsDefaults (h : Moves s t) (k : t.fans.account = 0) : Moves s (defaultsItems t) := by
  unfold defaultsItems
  rw [show List.range 25 = 0 :: (List.range 24).map (· + 1) from rfl, List.foldl_cons]
  refine Moves.trans (h.applyItem (n := 0) (v := Items.factory.value 0) fun _ => by rw [k]; exact Nat.zero_le _) ?_
  rw [List.foldl_map]
  exact (Moves.refl _).foldl fun t n => (Moves.refl t).applyItem fun e => absurd e (Nat.succ_ne_zero n)

theorem defaultsLights_occ (s : State) : (defaultsLights s).occ = s.occ := State.postAll_occ _ _

theorem defaultsLights_fans (s : State) : (defaultsLights s).fans = s.fans := State.postAll_fans _ _

theorem defaultsSigns_fans (s : State) : (defaultsSigns s).fans = s.fans := State.postAll_fans _ _

theorem defaultsOccupancy_fans (s : State) : (defaultsOccupancy s).fans = s.fans := State.markAll_fans _ _

theorem State.removeZone_account (i : Nat) (z : Zone) (s : State) :
    (s.removeZone i z).fans.account = s.fans.account := by
  unfold State.removeZone State.moveInAlarmOrder
  dsimp only
  split <;> simp

theorem defaultsZones_account (s : State) : (defaultsZones s).fans.account = s.fans.account :=
  foldl_field (fun s => s.fans.account) _
    (fun s i => by
      split
      · rfl
      · exact State.removeZone_account _ _ _) _ _

theorem Moves.ownersDefaults (h : Moves s t) : Moves s (defaultsOwners t) := by
  unfold defaultsOwners
  refine Moves.listMemoryDefaults (Moves.zonesDefaults ?_ ?_)
  · exact Moves.lightsDefaults (Moves.occupancyDefaults (Moves.signsDefaults (Moves.fansDefaults h.gasDefaults)))
  · rw [defaultsLights_occ]
    exact defaultsOccupancy_bays _

theorem defaultsOwners_account (s : State) : (defaultsOwners s).fans.account = 0 := by
  unfold defaultsOwners defaultsListMemory State.withList
  dsimp only
  rw [defaultsZones_account, defaultsLights_fans, defaultsOccupancy_fans, defaultsSigns_fans]
  exact (defaultsFans_noFans _).2

theorem OwnedMoves.defaults {x : Unit} : OwnedMoves s (ownDefaults x s) := by
  have h := (Moves.refl s).listIdled.fansStopped
  unfold ownDefaults
  generalize hu : defaultsStopFans (defaultsIdleList s) = u at h ⊢
  have k := (h.ownersDefaults.itemsDefaults (defaultsOwners_account u)).nodesDefaults
  generalize defaultsNodes (defaultsItems (defaultsOwners u)) = v at k ⊢
  exact .take k

end Sys2Proof.Machine
end

