-- ==== Sys2Proof/Laws/Course.lean ====
section
/-! SUPPORT. The course of a command: its effect is a sequence of moves, after which a request adds at most one reply where
fewer than 4 wait (R166). -/

namespace Sys2Proof.Machine

variable {s t u : State}

/-- Moves that may end in one reply. -/
inductive Course : State → State → Prop where
  | moves {s t : State} (h : Moves s t) : Course s t
  | reply {s t : State} (f : Frame) (h : Moves s t) (k : t.port.replies.length < Config.replyCapacity) :
      Course s (t.reply f)

/-! ### What moves leave -/

theorem Move.pending (m : Move s t) : t.pending = s.pending := by cases m <;> rfl

theorem Move.clockMs (m : Move s t) : t.clockMs = s.clockMs := by cases m <;> rfl

theorem Move.replies (m : Move s t) : t.port.replies = s.port.replies := by
  cases m
  case port p hr hn => exact hr
  all_goals rfl

theorem Moves.pending (h : Moves s t) : t.pending = s.pending := by
  induction h with
  | refl => rfl
  | snoc _ m ih => rw [m.pending, ih]

theorem Moves.clockMs (h : Moves s t) : t.clockMs = s.clockMs := by
  induction h with
  | refl => rfl
  | snoc _ m ih => rw [m.clockMs, ih]

theorem Moves.replies (h : Moves s t) : t.port.replies = s.port.replies := by
  induction h with
  | refl => rfl
  | snoc _ m ih => rw [m.replies, ih]

theorem Course.pending (h : Course s t) : t.pending = s.pending := by
  cases h with
  | moves h => exact h.pending
  | reply f h _ => exact h.pending

theorem Course.clockMs (h : Course s t) : t.clockMs = s.clockMs := by
  cases h with
  | moves h => exact h.clockMs
  | reply f h _ => exact h.clockMs

/-! ### Requests -/

/-- A request is a course when its owner's part is a sequence of moves. -/
theorem Course.request {α : Type} {tag : Byte} {m : State → Access} {o : Option α} {owner : α → State → Owned}
    (h : ∀ x s, OwnedMoves s (owner x s)) : Course s (State.request tag m o owner s) := by
  have p : Moves s s.framePassed := (Moves.refl s).framePassed
  unfold State.request
  dsimp only
  split
  · exact .moves p
  · rename_i q
    have q' : s.framePassed.port.replies.length < Config.replyCapacity := by omega
    split
    · exact .reply _ p q'
    · split
      · split
        · exact .reply _ p q'
        · rename_i t a e
          have k := h _ _ t a e
          exact .reply _ (p.trans k) (k.replies ▸ q')
      · exact .reply _ p q'

/-- An owner that only answers. -/
theorem OwnedMoves.answer {c : RefusalCode} {b : Bool} {d : List Byte} :
    OwnedMoves s (refuseIf b c (.ok (s, .data d))) := .check fun _ => .take (.refl s)

theorem OwnedMoves.gasQuery {i : Nat} : OwnedMoves s (ownGasQuery i s) := by
  unfold ownGasQuery
  refine .check fun _ => ?_
  split
  · exact .refuse
  · exact .take (.refl s)

theorem OwnedMoves.zoneQuery {i : Nat} : OwnedMoves s (ownZoneQuery i s) := by
  unfold ownZoneQuery
  refine .check fun _ => ?_
  split
  · exact .refuse
  · exact .take (.refl s)

theorem OwnedMoves.fanQuery {i : Nat} : OwnedMoves s (ownFanQuery i s) := by
  unfold ownFanQuery
  split
  · exact .take (.refl s)
  · refine .check fun _ => ?_
    split
    · exact .refuse
    · exact .take (.refl s)

theorem OwnedMoves.countQuery {r : Nat × Nat} : OwnedMoves s (ownCountQuery r s) := by
  unfold ownCountQuery
  repeat' (first | split | refine .check fun _ => ?_ | dsimp only)
  all_goals first | exact .refuse | exact .take (.refl s)

theorem OwnedMoves.signQuery {i : Nat} : OwnedMoves s (ownSignQuery i s) := by
  unfold ownSignQuery
  refine .check fun _ => ?_
  split
  · exact .refuse
  · exact .take (.refl s)

theorem OwnedMoves.groupQuery {i : Nat} : OwnedMoves s (ownGroupQuery i s) := by
  unfold ownGroupQuery
  refine .check fun _ => ?_
  split
  · exact .refuse
  · exact .take (.refl s)

theorem OwnedMoves.nodeQuery {r : Nat × Nat × Nat} : OwnedMoves s (ownNodeQuery r s) := by
  unfold ownNodeQuery
  repeat' split
  all_goals first | exact .refuse | exact .take (.refl s)

/-! ### Every effect but a start -/

theorem Course.unknownKind {tag : Byte} : Course s (effUnknownKind tag s) := by
  have p : Moves s s.framePassed := (Moves.refl s).framePassed
  unfold effUnknownKind
  dsimp only
  split
  · exact .moves p
  · exact .reply _ p (by omega)

/-- The effect of every command but a start is a course. -/
theorem effect_course {c : Instr} (hc : isStart c = false) : Course s (effect c s) := by
  have r : Moves s s := .refl s
  cases c
  case ident => exact .request fun _ s => .take (.refl s)
  case ping => exact .request fun _ s => .take (.refl s)
  case login => exact .request fun _ _ => .login
  case logout => exact .request (owner := ownLogout) fun x _ => OwnedMoves.logout (x := x)
  case setItem => exact .request fun _ _ => .setItem
  case getItem => exact .request fun _ _ => .answer
  case save => exact .request (owner := ownSave) fun x _ => OwnedMoves.save (x := x)
  case defaults => exact .request (owner := ownDefaults) fun x _ => OwnedMoves.defaults (x := x)
  case headDef => exact .request fun _ _ => .headDef
  case headCal => exact .request fun _ _ => .headCal
  case gasQuery => exact .request fun _ _ => .gasQuery
  case zoneDef => exact .request fun _ _ => .zoneDef
  case zoneLimits => exact .request fun _ _ => .zoneLimits
  case zoneClose => exact .request fun _ _ => .zoneClosure
  case zoneOpen => exact .request fun _ _ => .zoneClosure
  case zoneQuery => exact .request fun _ _ => .zoneQuery
  case fanDef => exact .request fun _ _ => .fanDef
  case planDef => exact .request fun _ _ => .planDef
  case planBase => exact .request fun _ _ => .planBase
  case planForce => exact .request fun _ _ => .planForce
  case planUnforce => exact .request (owner := ownPlanUnforce) fun x _ => OwnedMoves.planUnforce (x := x)
  case fanHold => exact .request fun _ _ => .fanHold
  case fanFree => exact .request fun _ _ => .fanFree
  case fanClear => exact .request fun _ _ => .fanClear
  case fanQuery => exact .request fun _ _ => .fanQuery
  case bayDef => exact .request fun _ _ => .bayDef
  case bayService => exact .request fun _ _ => .bayService
  case bayQuery => exact .request fun _ _ => .answer
  case countQuery => exact .request fun _ _ => .countQuery
  case rampDef => exact .request fun _ _ => .rampDef
  case signDef => exact .request fun _ _ => .signDef
  case signQuery => exact .request fun _ _ => .signQuery
  case groupDef => exact .request fun _ _ => .groupDef
  case groupOverride => exact .request fun _ _ => .groupOverride
  case groupRelease => exact .request fun _ _ => .groupRelease
  case groupQuery => exact .request fun _ _ => .groupQuery
  case siteMode => exact .request fun _ _ => .siteMode
  case nodeDef => exact .request fun _ _ => .nodeDef
  case nodeQuery => exact .request fun _ _ => .nodeQuery
  case loopReset => exact .request fun _ _ => .loopReset
  case listLoad => exact .request fun _ _ => .listLoad
  case listGo => exact .request fun _ _ => .listGo
  case listHalt => exact .request (owner := ownListHalt) fun x _ => OwnedMoves.listHalt (x := x)
  case listRead => exact .request fun _ _ => .answer
  case listQuery => exact .request fun _ s => .take (.refl s)
  case foundRead => exact .request fun _ _ => .answer
  case unknownKind => exact .unknownKind
  case frameDropped => exact .moves r.framePassed
  case receiveByte => exact .moves r.receiveByte
  case frameSent => exact .moves r.frameSent
  case supervisionExpiry => exact .moves r.supervisionExpiry
  case supervisionExpiryLighting => exact .moves r.supervisionLighting
  case supervisionExpiryFans => exact .moves r.supervisionFans
  case powerOn => cases hc
  case restart => cases hc
  case saveCompletion => exact .moves r.saveCompletion
  case attentionAsserted => exact .moves r.attentionAsserted
  case attentionIgnoreExpiry => exact .moves r.attentionIgnoreExpiry
  case replyReceived => exact .moves r.replyReceived
  case replyTimeout => exact .moves r.replyTimeout
  case rollcallEnd => exact .moves r.rollcallEnd
  case gasReading => exact .moves r.gasReading
  case staleExpiry => exact .moves r.staleExpiry
  case gasNodeLost => exact .moves r.changeHeadOf
  case gasNodeReset => exact .moves r.changeHeadOf
  case gasUpdate => exact .moves r.gasUpdate
  case trafficEvent => exact .moves r.trafficEvent
  case subWindowExpiry => exact .moves r.subWindowExpiry
  case standingChange => exact .moves r.standingChange
  case unventilatedFlagChange => exact .moves r.unventilated
  case siteModeFloorChange => exact .moves r.siteModeFloor
  case zoneChangeFan => exact .moves r.zoneChangeFan
  case zoneChangeGuidance => exact .moves r.zoneChangeGuidance
  case zoneChangeLighting => exact .moves r.zoneChangeLighting
  case driveReport => exact .moves r.driveReport
  case startSpacingExpiry => exact .moves r.startSpacingExpiry
  case startTimeout => exact .moves r.startTimeout
  case speedupTimeout => exact .moves r.speedupTimeout
  case minimumRunTimeMet => exact .moves r.minimumRunTimeMet
  case holdTimeExpiry => exact .moves r.holdTimeExpiry
  case rundownEnd => exact .moves r.rundownEnd
  case exerciseDue => exact .moves r.exerciseDue
  case exerciseRunEnd => exact .moves r.exerciseRunEnd
  case runMinute => exact .moves r.runMinute
  case fanNodeLost => exact .moves r.fanNodeLost
  case fanNodeRestart => exact .moves r.fanNodeRestart
  case fanNodeReset => exact .moves r.fanNodeReset
  case bayStripReading => exact .moves r.bayStripReading
  case bayNodeLost => exact .moves r.bayNodeLost
  case bayNodeReset => exact .moves r.bayNodeReset
  case bayNodeRestart => exact .moves r.bayNodeRestart
  case rampReading => exact .moves r.rampReading
  case rampNodeLost => exact .moves r
  case rampNodeReset => exact .moves r.rampNodeReset
  case countDelivery => exact .moves r.countDelivery
  case signReport => exact .moves r.signReport
  case signNodeLost => exact .moves r.signNodeLost
  case signNodeReset => exact .moves r.signNodeReset
  case presenceTrigger => exact .moves r.presenceTrigger
  case escort => exact .moves r.escort
  case presenceExpiry => exact .moves r.presenceExpiry
  case lampWriteOutcome => exact .moves r.lampWriteOutcome
  case lampReport => exact .moves r.lampReport
  case lampNodeLost => exact .moves r.lampNodeLost
  case lampNodeReset => exact .moves r.lampNodeReset
  case lampNodeReturn => exact .moves r.lampNodeReturn
  case listOutcome => exact .moves r.listOutcome
  case pauseExpiry => exact .moves r.pauseExpiry
  case repeatLimitExpiry => exact .moves r.repeatLimitExpiry

/-! ### What surrounds an effect -/

/-- The meaning of each command: its effect, with what surrounds it. -/
theorem exec_eq (c : Instr) (s : State) : exec c s = .next (perform c (effect c) s) := by cases c <;> rfl

/-- With nothing handed a command is taken as the state stands. -/
theorem prepare_of_nil {c : Instr} (h : s.handed = []) : prepare c s = s := by
  unfold prepare
  split
  · rfl
  · rw [h, if_neg (by simp)]
    unfold catchUpLimit catchUp
    rw [if_pos (by rw [h]; rfl)]

/-- A handed event that is given as a command waits for what its lane holds before it, and for nothing else (R34). -/
theorem exec_of_handed {c : Instr} {s : State} (hc : isStart c = false) (h : c ∈ s.handed) :
    exec c s = .next (takeOne ((earlier c s).foldl takeOne s) c) := by
  rw [exec_eq]
  unfold perform prepare
  rw [if_neg (by rw [hc]; decide), if_pos h]
  rfl

/-- What a handed event waits for, where it first stands in the list. -/
theorem earlier_of_split {c : Instr} {s : State} {x y : List Instr} (h : s.handed = x ++ c :: y) (hx : c ∉ x) :
    earlier c s = x.filter fun e => decide (lane e = lane c) := by
  have p : ∀ e ∈ x, decide (e ≠ c) = true := fun e he => decide_eq_true fun k => hx (k ▸ he)
  unfold earlier
  rw [h, List.takeWhile_append_of_pos p, List.takeWhile_cons_of_neg (by simp), List.append_nil]

/-- No event of its lane before it: the event is taken as the state stands. -/
theorem earlier_of_alone {c : Instr} {s : State} (h : ∀ e ∈ s.handed, lane e = lane c → e = c) : earlier c s = [] :=
  List.filter_eq_nil_iff.mpr fun e he hl =>
    of_decide_eq_true (List.all_eq_true.mp List.all_takeWhile e he)
      (h e ((List.takeWhile_sublist _).subset he) (of_decide_eq_true hl))

/-- The transmitter touches nothing but the port. -/
theorem State.transmit_port (s : State) : ∃ p, s.transmit = { s with port := p } := by
  unfold State.transmit
  repeat' split
  all_goals exact ⟨_, rfl⟩

end Sys2Proof.Machine
end

