-- ==== Sys2Proof/Laws/Sound.lean ====
section
/-! SUPPORT. Each move keeps a sound state sound, and so does the reply of a request. -/

namespace Sys2Proof.Machine

variable {s t u : State}

/-! ### The supply -/

/-- The sum of the counted loads after one fan's record is replaced. -/
theorem countedLoads_put {fans : Table Fan} (w : Table.wf fans = true) {i : Nat} {old : Fan}
    (h : fans.get i = some old) (new : Fan) :
    countedLoads (fans.put i new) + old.load = countedLoads fans + new.load := by
  obtain ⟨a, b, e1, e2⟩ := Table.put_split w h new
  rw [e2]
  conv => rhs; rw [e1]
  simp only [countedLoads, List.map_append, List.map_cons, List.sum_append, List.sum_cons]
  omega

theorem countedLoads_insert {fans : Table Fan} {i : Nat} (h : fans.get i = none) (new : Fan) :
    countedLoads (fans.put i new) = countedLoads fans + new.load := by
  obtain ⟨a, b, e1, e2⟩ := Table.put_insert h new
  rw [e2]
  conv => rhs; rw [e1]
  simp only [countedLoads, List.map_append, List.map_cons, List.sum_append, List.sum_cons]
  omega

theorem countedLoads_del {fans : Table Fan} (w : Table.wf fans = true) {i : Nat} {old : Fan}
    (h : fans.get i = some old) : countedLoads (fans.del i) + old.load = countedLoads fans := by
  obtain ⟨a, b, e1, e2⟩ := Table.del_split w h
  rw [e2]
  conv => rhs; rw [e1]
  simp only [countedLoads, List.map_append, List.map_cons, List.sum_append, List.sum_cons]
  omega

theorem slotHolders_cons (e : Nat × Fan) (t : Table Fan) :
    slotHolders (e :: t) = e.2.holdsSlot.toNat + slotHolders t := by
  unfold slotHolders
  rw [List.filter_cons]
  cases e.2.holdsSlot <;> simp [Nat.add_comm]

theorem slotHolders_append (a b : Table Fan) : slotHolders (a ++ b) = slotHolders a + slotHolders b := by
  unfold slotHolders
  rw [List.filter_append, List.length_append]

theorem slotHolders_put {fans : Table Fan} (w : Table.wf fans = true) {i : Nat} {old : Fan}
    (h : fans.get i = some old) (new : Fan) :
    slotHolders (fans.put i new) + old.holdsSlot.toNat = slotHolders fans + new.holdsSlot.toNat := by
  obtain ⟨a, b, e1, e2⟩ := Table.put_split w h new
  rw [e2]
  conv => rhs; rw [e1]
  simp only [slotHolders_append, slotHolders_cons]
  omega

theorem slotHolders_insert {fans : Table Fan} {i : Nat} (h : fans.get i = none) (new : Fan) :
    slotHolders (fans.put i new) = slotHolders fans + new.holdsSlot.toNat := by
  obtain ⟨a, b, e1, e2⟩ := Table.put_insert h new
  rw [e2]
  conv => rhs; rw [e1]
  simp only [slotHolders_append, slotHolders_cons]
  omega

theorem slotHolders_del {fans : Table Fan} (w : Table.wf fans = true) {i : Nat} {old : Fan}
    (h : fans.get i = some old) : slotHolders (fans.del i) ≤ slotHolders fans := by
  obtain ⟨a, b, e1, e2⟩ := Table.del_split w h
  rw [e2]
  conv => rhs; rw [e1]
  simp only [slotHolders_append, slotHolders_cons]
  omega

/-- A free start slot: no fan holds it. -/
theorem slotHolders_of_free (h : s.slotFree = true) : slotHolders s.fans.fans = 0 := by
  unfold State.slotFree Table.any at h
  unfold slotHolders
  rw [List.length_eq_zero_iff, List.filter_eq_nil_iff]
  intro e he
  have q := List.any_eq_false.1 (Bool.not_eq_true' _ ▸ h) e he
  simpa [Fan.holdsSlot] using q

/-- The supply stays sound when one fan's record is replaced under the guard of a move. -/
theorem SupplySound.put (k : SupplySound s) {i : Nat} {old new : Fan} (hg : s.fan i = some old)
    (ho : old.defn.ordered = true → new.defn.ordered = true)
    (hl : old.defn.ordered = true → new.load ≤ old.load ∨ s.fans.account + new.load ≤ s.items.supplyLimit + old.load)
    (hs : new.holdsSlot = true → old.holdsSlot = true ∨ s.slotFree = true) :
    SupplySound
      { s with fans := { s.fans with fans := s.fans.fans.put i new, account := s.fans.account + new.load - old.load } } := by
  have o := k.ordered i old hg
  have c := countedLoads_put k.table hg new
  have h := slotHolders_put k.table hg new
  have e := k.account
  have m := k.limit
  refine ⟨Table.wf_put k.table i new, ?_, ?_, ?_, ?_⟩
  · intro j f q
    change (s.fans.fans.put i new).get j = some f at q
    rw [Table.get_put] at q
    split at q
    · cases q
      exact ho o
    · exact k.ordered j f q
  · change s.fans.account + new.load - old.load = countedLoads (s.fans.fans.put i new)
    omega
  · change s.fans.account + new.load - old.load ≤ s.items.supplyLimit
    rcases hl o with q | q <;> omega
  · change slotHolders (s.fans.fans.put i new) ≤ 1
    have one := k.slot
    by_cases q : new.holdsSlot = true
    · rcases hs q with r | r
      · rw [q, r] at h
        omega
      · rw [slotHolders_of_free r, q] at h
        simp only [Bool.toNat_true] at h
        omega
    · simp only [Bool.not_eq_true] at q
      rw [q] at h
      simp only [Bool.toNat_false] at h
      omega

/-! ### Every move -/

/-- The settings a SAVE takes from a sound state are sound. -/
theorem Sound.settings (k : Sound s) : SettingsSound s.settings := by
  unfold State.settings
  refine ⟨Table.wf_map k.supply.table fun _ f => SavedFan.mk f.defn f.runMinutes, ?_,
    Table.wf_map k.alarmOrder.table fun _ z => z.defn, Table.wf_map k.counts.table fun _ b => b.defn,
    Table.wf_map k.guide.table fun _ g => g.defn, Table.wf_map k.light.table fun _ g => g.defn,
    Table.wf_map k.nodes.table fun _ n => n.defn, ?_, k.capacities.memory⟩
  case refine_2 =>
    intro i x q
    dsimp only at q
    rw [Table.get_map] at q
    cases e : s.loops.nodes.get i with
    | none => rw [e] at q; cases q
    | some n => exact k.nodes.places i n e
  intro i x q
  dsimp only at q
  rw [Table.get_map] at q
  cases e : s.fans.fans.get i with
  | none => rw [e] at q; cases q
  | some f =>
    rw [e] at q
    cases q
    exact k.supply.ordered i f e

/-- A move keeps a sound state sound. -/
theorem Move.sound (m : Move s t) (k : Sound s) : Sound t := by
  obtain ⟨c, p, a, o, g, l, n, d⟩ := k
  have k : Sound s := ⟨c, p, a, o, g, l, n, d⟩
  have c' : Capacities s := c
  obtain ⟨c1, c2, c3, c4, c5⟩ := c
  have p' : SupplySound s := p
  obtain ⟨p1, p2, p3, p4, p5⟩ := p
  cases m
  case gas => exact ⟨⟨c1, c2, c3, c4, c5⟩, ⟨p1, p2, p3, p4, p5⟩, a, o, g, l, n, d⟩
  case air h => exact ⟨⟨c1, c2, c3, c4, c5⟩, ⟨p1, p2, p3, p4, p5⟩, h a, o, g, l, n, d⟩
  case occ h => exact ⟨⟨c1, c2, c3, c4, c5⟩, ⟨p1, p2, p3, p4, p5⟩, a, h o, g, l, n, d⟩
  case guide h => exact ⟨⟨c1, c2, c3, c4, c5⟩, ⟨p1, p2, p3, p4, p5⟩, a, o, h g, l, n, d⟩
  case light h => exact ⟨⟨c1, c2, c3, c4, c5⟩, ⟨p1, p2, p3, p4, p5⟩, a, o, g, h l, n, d⟩
  case handed => exact ⟨⟨c1, c2, c3, c4, c5⟩, ⟨p1, p2, p3, p4, p5⟩, a, o, g, l, n, d⟩
  case loops m h q =>
    exact ⟨⟨c1, by change m.urgent.length ≤ _; rw [h]; exact c2, by change m.urgent.Nodup; rw [h]; exact c3, c4, c5⟩,
      ⟨p1, p2, p3, p4, p5⟩, a, o, g, l, q n, d⟩
  case leave v h =>
    exact ⟨⟨c1, Nat.le_trans h.length_le c2, h.nodup c3, c4, c5⟩, ⟨p1, p2, p3, p4, p5⟩, a, o, g, l, ⟨n.table, n.places⟩, d⟩
  case join x hn hl =>
    refine ⟨⟨c1, ?_, ?_, c4, c5⟩, ⟨p1, p2, p3, p4, p5⟩, a, o, g, l, ⟨n.table, n.places⟩, d⟩
    · change (s.loops.urgent ++ [x]).length ≤ _
      rw [List.length_append, List.length_singleton]
      omega
    · refine List.nodup_append.2 ⟨c3, by simp, ?_⟩
      intro y hy z hz e
      simp only [List.mem_singleton] at hz
      subst hz e
      exact hn hy
  case list m h => exact ⟨⟨c1, c2, c3, c4, h c5⟩, ⟨p1, p2, p3, p4, p5⟩, a, o, g, l, n, d⟩
  case mark x h =>
    refine ⟨⟨c1, c2, c3, ?_, c5⟩, ⟨p1, p2, p3, p4, p5⟩, a, o, g, l, n, d⟩
    refine List.nodup_append.2 ⟨c4, by simp, ?_⟩
    intro y hy z hz e
    simp only [List.mem_singleton] at hz
    subst hz e
    exact h hy
  case port q hr hn =>
    exact ⟨⟨by change q.replies.length ≤ _; rw [hr]; exact c1, c2, c3, hn.nodup c4, c5⟩, ⟨p1, p2, p3, p4, p5⟩, a, o, g, l, n, d⟩
  case fan i old new hg ho hl hs => exact ⟨⟨c1, c2, c3, c4, c5⟩, p'.put hg ho hl hs, a, o, g, l, n, d⟩
  case fanNew i new hg ho hl hs =>
    refine ⟨⟨c1, c2, c3, c4, c5⟩, ⟨Table.wf_put p1 i new, ?_, ?_, p4, ?_⟩, a, o, g, l, n, d⟩
    · intro j f q
      change (s.fans.fans.put i new).get j = some f at q
      rw [Table.get_put] at q
      split at q
      · cases q
        exact ho
      · exact p2 j f q
    · change s.fans.account = countedLoads (s.fans.fans.put i new)
      rw [countedLoads_insert hg, hl]
      exact p3
    · change slotHolders (s.fans.fans.put i new) ≤ 1
      rw [slotHolders_insert hg, hs]
      exact p5
  case fanGone i old hg hl =>
    refine ⟨⟨c1, c2, c3, c4, c5⟩, ⟨Table.wf_del p1 i, ?_, ?_, p4, Nat.le_trans (slotHolders_del p1 hg) p5⟩, a, o, g, l, n, d⟩
    · intro j f q
      change (s.fans.fans.del i).get j = some f at q
      rw [Table.get_del] at q
      split at q
      · cases q
      · exact p2 j f q
    · change s.fans.account = countedLoads (s.fans.fans.del i)
      have := countedLoads_del p1 hg
      omega
  case fansGone =>
    exact ⟨⟨c1, c2, c3, c4, c5⟩, ⟨rfl, fun _ _ q => (nomatch q), rfl, Nat.zero_le _, Nat.zero_le _⟩, a, o, g, l, n, d⟩
  case fans f hf ha =>
    refine ⟨⟨c1, c2, c3, c4, c5⟩, ⟨?_, ?_, ?_, ?_, ?_⟩, a, o, g, l, n, d⟩
    · change Table.wf f.fans = true
      rw [hf]
      exact p1
    · intro j x q
      change f.fans.get j = some x at q
      rw [hf] at q
      exact p2 j x q
    · change f.account = countedLoads f.fans
      rw [hf, ha]
      exact p3
    · change f.account ≤ _
      rw [ha]
      exact p4
    · change slotHolders f.fans ≤ 1
      rw [hf]
      exact p5
  case store x hi hs => exact ⟨⟨c1, c2, c3, c4, c5⟩, ⟨p1, p2, p3, hi p4, p5⟩, a, o, g, l, n, hs d k.settings⟩

theorem Moves.sound (h : Moves s t) (k : Sound s) : Sound t := by
  induction h with
  | refl => exact k
  | snoc _ m ih => exact m.sound ih

theorem Course.sound (h : Course s t) (k : Sound s) : Sound t := by
  cases h with
  | moves h => exact h.sound k
  | reply f h q =>
    have r := h.sound k
    refine ⟨⟨?_, r.capacities.urgent, r.capacities.urgentOnce, r.capacities.notesOnce, r.capacities.memory⟩,
      ⟨r.supply.table, r.supply.ordered, r.supply.account, r.supply.limit, r.supply.slot⟩, r.alarmOrder, r.counts,
      r.guide, r.light, r.nodes, r.saved⟩
    rw [State.reply_port, List.length_append, List.length_singleton]
    omega

/-- A change of the port that adds neither a reply nor a note. -/
theorem Sound.port (k : Sound s) {p : Port} (hr : p.replies.Sublist s.port.replies) (hn : p.notes.Sublist s.port.notes) :
    Sound { s with port := p } :=
  ⟨⟨Nat.le_trans hr.length_le k.capacities.replies, k.capacities.urgent, k.capacities.urgentOnce,
      hn.nodup k.capacities.notesOnce, k.capacities.memory⟩,
    ⟨k.supply.table, k.supply.ordered, k.supply.account, k.supply.limit, k.supply.slot⟩, k.alarmOrder, k.counts,
    k.guide, k.light, k.nodes, k.saved⟩

/-- The transmitter keeps a sound state sound. -/
theorem Sound.transmit (k : Sound s) : Sound s.transmit := by
  unfold State.transmit
  split
  · exact k
  · split
    · rename_i e
      exact k.port (by rw [e]; exact List.sublist_cons_self ..) (List.Sublist.refl _)
    · split
      · exact k.port (List.Sublist.refl _) (List.Sublist.refl _)
      · split
        · split
          · rename_i e _
            exact k.port (List.Sublist.refl _) (by rw [e]; exact List.sublist_cons_self ..)
          · exact k
        · exact k

end Sys2Proof.Machine
end

