-- ==== Sys2Proof/Laws/Start.lean ====
section
/-! SUPPORT. A start loads sound settings into a sound state (R183, R184), and reaches its last state by moves. -/

namespace Sys2Proof.Machine

variable {s t : State}

/-! ### The counts of a start -/

/-- What a bay of a start adds to the counts: one UNKNOWN bay of its zone and class. -/
def Bay.fresh (b : Bay) (z : Nat) (c : BayClass) (st : BayState) : Nat :=
  if b.defn.zone = z ∧ b.defn.cls = c ∧ BayState.unknown = st then 1 else 0

/-- A zone's count of a class and a state, read from a count table. -/
def countIn (t : Table (PerClass Counts)) (z : Nat) (c : BayClass) (st : BayState) : Nat :=
  (((t.get z).getD noCounts).get c).get st

theorem countIn_put (t : Table (PerClass Counts)) (b : Bay) (z : Nat) (c : BayClass) (st : BayState) :
    countIn
        (t.put b.defn.zone
          (((t.get b.defn.zone).getD noCounts).set b.defn.cls
            { ((t.get b.defn.zone).getD noCounts).get b.defn.cls with
              unknown := (((t.get b.defn.zone).getD noCounts).get b.defn.cls).unknown + 1 })) z c st
      = countIn t z c st + b.fresh z c st := by
  unfold countIn Bay.fresh
  rw [Table.get_put]
  by_cases hz : z = b.defn.zone
  · subst hz
    simp only [if_pos, Option.getD_some, PerClass.get_set, true_and]
    by_cases hc : c = b.defn.cls
    · subst hc
      simp only [if_pos, true_and]
      cases st <;> simp [Counts.get]
    · rw [if_neg hc, if_neg (by rintro ⟨e, -⟩; exact hc e.symm), Nat.add_zero]
  · rw [if_neg hz, if_neg (by rintro ⟨e, -⟩; exact hz e.symm), Nat.add_zero]

theorem countIn_foldl (l : List (Nat × Bay)) (t : Table (PerClass Counts)) (z : Nat) (c : BayClass) (st : BayState) :
    countIn
        (List.foldl
          (fun (t : Table (PerClass Counts)) (e : Nat × Bay) =>
            let p := (t.get e.2.defn.zone).getD noCounts
            let n := p.get e.2.defn.cls
            t.put e.2.defn.zone (p.set e.2.defn.cls { n with unknown := n.unknown + 1 })) t l) z c st
      = countIn t z c st + (l.map fun e => e.2.fresh z c st).sum := by
  induction l generalizing t with
  | nil => rfl
  | cons e l ih =>
    rw [List.foldl_cons, ih]
    dsimp only
    rw [countIn_put, List.map_cons, List.sum_cons]
    omega

theorem bayTally_eq_sum (l : Table Bay) (z : Nat) (c : BayClass) (st : BayState) :
    bayTally l z c st = (List.map (fun e : Nat × Bay => e.2.tally z c st) l).sum := by
  induction l with
  | nil => rfl
  | cons e l ih => rw [bayTally_cons, ih, List.map_cons, List.sum_cons]

/-- The counts of a start are those of its bays (R94). -/
theorem startCounts_exact (bays : Table BayDefn) (z : Nat) (c : BayClass) (st : BayState) :
    countIn (startCounts (startBays bays)) z c st = bayTally (startBays bays) z c st := by
  unfold startCounts
  rw [countIn_foldl, bayTally_eq_sum]
  have e : countIn [] z c st = 0 := by cases c <;> cases st <;> rfl
  rw [e, Nat.zero_add]
  congr 1
  refine List.map_congr_left fun x hx => ?_
  unfold startBays Table.map at hx
  obtain ⟨y, -, rfl⟩ := List.mem_map.1 hx
  rfl

/-! ### The blocks of a start -/

/-- At a start no fan counts a load or holds the start slot (R75). -/
theorem startFans_unloaded (fans : Table SavedFan) :
    countedLoads (startFans fans) = 0 ∧ slotHolders (startFans fans) = 0 := by
  unfold startFans Table.map countedLoads slotHolders
  constructor
  · rw [List.map_map, List.sum_eq_zero_iff_forall_eq_nat]
    intro x hx
    obtain ⟨y, -, rfl⟩ := List.mem_map.1 hx
    rfl
  · rw [List.length_eq_zero_iff, List.filter_eq_nil_iff]
    intro x hx
    obtain ⟨y, -, rfl⟩ := List.mem_map.1 hx
    simp [Fan.new, Fan.holdsSlot]

theorem startZones_wf {zones : Table ZoneDefn} (w : Table.wf zones = true) (it : Items) (u : Nat → Bool) :
    Table.wf (startZones zones it u) = true := Table.wf_map w _

/-- At a start no zone is in gas alarm (R40). -/
theorem startZones_calm {zones : Table ZoneDefn} {it : Items} {u : Nat → Bool} {i : Nat} {z : Zone}
    (q : (startZones zones it u).get i = some z) : z.inAlarm = false := by
  unfold startZones at q
  rw [Table.get_map] at q
  cases e : zones.get i with
  | none => rw [e] at q; cases q
  | some d =>
    rw [e] at q
    cases q
    rfl

theorem startBays_wf {bays : Table BayDefn} (w : Table.wf bays = true) : Table.wf (startBays bays) = true :=
  Table.wf_map w _

theorem startSigns_wf {signs : Table SignDefn} (w : Table.wf signs = true) : Table.wf (startSigns signs) = true :=
  Table.wf_map w _

theorem startGroups_wf {groups : Table GroupDefn} (w : Table.wf groups = true) (it : Items) :
    Table.wf (startGroups groups it) = true := Table.wf_map w _

theorem startNodes_wf {nodes : Table NodeDefn} (w : Table.wf nodes = true) : Table.wf (startNodes nodes) = true :=
  Table.wf_map w _

theorem startBlocks_zones (c : Settings) (cause : StartCause) (inv : Bool) (lines : PerLoop Bool) (image : StoredImage)
    (pending : List Instr) :
    ∃ u, (startBlocks c cause inv lines image pending).air.zones = startZones c.zones c.items u := by
  unfold startBlocks
  dsimp only
  exact ⟨_, rfl⟩

/-- The blocks of a start from sound settings are sound. -/
theorem startBlocks_sound {c : Settings} (k : SettingsSound c) {cause : StartCause} {inv : Bool} {lines : PerLoop Bool}
    {image : StoredImage} {pending : List Instr} (hi : ∀ d, image.contents = some d → SettingsSound d) :
    Sound (startBlocks c cause inv lines image pending) := by
  obtain ⟨u, hu⟩ := startBlocks_zones c cause inv lines image pending
  refine ⟨⟨Nat.zero_le _, Nat.zero_le _, List.nodup_nil, List.nodup_nil, k.memory⟩,
    ⟨Table.wf_map k.fans fun _ x => Fan.new 0 x.defn x.runMinutes, ?_, (startFans_unloaded _).1.symm, Nat.zero_le _, ?_⟩,
    ⟨hu ▸ startZones_wf k.zones _ _, List.nodup_nil, ?_⟩,
    ⟨startBays_wf k.bays, fun z cl st => startCounts_exact c.bays z cl st⟩,
    ⟨startSigns_wf k.signs, List.length_replicate, ?_⟩, ⟨startGroups_wf k.groups _, List.length_replicate⟩,
    ⟨startNodes_wf k.nodes, ?_⟩, ⟨fun d e => (nomatch e), hi⟩⟩
  · intro i f q
    change (startFans c.fans).get i = some f at q
    unfold startFans at q
    rw [Table.get_map] at q
    cases e : c.fans.get i with
    | none => rw [e] at q; cases q
    | some x =>
      rw [e] at q
      cases q
      exact k.ordered i x e
  · change slotHolders (startFans c.fans) ≤ 1
    rw [(startFans_unloaded _).2]
    exact Nat.zero_le _
  · intro i
    refine ⟨fun q => (nomatch q), ?_⟩
    rintro ⟨z, q, r⟩
    rw [hu] at q
    rw [startZones_calm q] at r
    cases r
  · intro i x q
    change (startSigns c.signs).get i = some x at q
    unfold startSigns at q
    rw [Table.get_map] at q
    cases e : c.signs.get i with
    | none => rw [e] at q; cases q
    | some d =>
      rw [e] at q
      cases q
      rfl
  · intro i x q
    change (startNodes c.nodes).get i = some x at q
    unfold startNodes at q
    rw [Table.get_map] at q
    cases e : c.nodes.get i with
    | none => rw [e] at q; cases q
    | some d => exact k.places i d e

theorem SettingsSound.factory : SettingsSound Settings.factory :=
  ⟨rfl, fun _ _ q => (nomatch q), rfl, rfl, rfl, rfl, rfl, fun _ _ q => (nomatch q), List.length_replicate⟩

/-- The settings a start loads from a sound store are sound. -/
theorem State.loaded_sound (h : SavedSound s.store) : SettingsSound s.loaded.1 := by
  unfold State.loaded
  split
  · exact h.image _ ‹_›
  · exact .factory

/-- Run minutes have no part in the soundness of settings. -/
theorem SettingsSound.minutes {c : Settings} (k : SettingsSound c) (f : Nat → SavedFan → SavedFan)
    (hf : ∀ i x, (f i x).defn = x.defn) : SettingsSound { c with fans := c.fans.map f } := by
  refine ⟨Table.wf_map k.fans f, ?_, k.zones, k.bays, k.signs, k.groups, k.nodes, k.places, k.memory⟩
  intro i x q
  dsimp only at q
  rw [Table.get_map] at q
  cases e : c.fans.get i with
  | none => rw [e] at q; cases q
  | some y =>
    rw [e] at q
    cases q
    rw [hf]
    exact k.ordered i y e

theorem State.startMinutes_defn (cause : StartCause) (i : Nat) (x : SavedFan) :
    (s.startMinutes cause i x).defn = x.defn := by
  unfold State.startMinutes
  repeat' split
  all_goals rfl

theorem Moves.sampleAll (h : Moves s t) : Moves s t.sampleAll := h.foldl fun t _ => (refl t).sample

/-- A start reaches its last state from the blocks it loads by moves. -/
theorem State.start_moves (cause : StartCause) (lines : PerLoop Bool) :
    Moves
      (startBlocks { s.loaded.1 with fans := s.loaded.1.fans.map fun i x => s.startMinutes cause i x } cause s.loaded.2 lines
        s.store.image s.pending) (s.start cause lines) := by
  unfold State.start
  dsimp only
  exact Moves.handAll (Moves.withPort (Moves.autoStart (Moves.sampleAll (Moves.postAll (.refl _)))) rfl
    (List.nil_sublist _))

/-- A start from a sound store gives a sound state. -/
theorem State.start_sound (h : SavedSound s.store) (cause : StartCause) (lines : PerLoop Bool) :
    Sound (s.start cause lines) :=
  (State.start_moves cause lines).sound
    (startBlocks_sound ((State.loaded_sound h).minutes _ fun i x => State.startMinutes_defn cause i x) h.image)

theorem State.start_pending (cause : StartCause) (lines : PerLoop Bool) : (s.start cause lines).pending = s.pending :=
  (State.start_moves cause lines).pending

end Sys2Proof.Machine
end

