-- ==== Sys2Proof/Laws/Settle.lean ====
section
/-! SUPPORT. What the engine leaves when it chooses: everything but the Loop Master, the Scan List Unit, the in-flight
levels of the lighting groups and the note set. -/

namespace Sys2Proof.Machine

variable {s t : State}

/-- The parts of the state the engine never touches. -/
structure Calm (s t : State) : Prop where
  pending : t.pending = s.pending
  handed : t.handed = s.handed
  clockMs : t.clockMs = s.clockMs
  gas : t.gas = s.gas
  air : t.air = s.air
  fans : t.fans = s.fans
  occ : t.occ = s.occ
  guide : t.guide = s.guide
  store : t.store = s.store

theorem Calm.refl (s : State) : Calm s s := ⟨rfl, rfl, rfl, rfl, rfl, rfl, rfl, rfl, rfl⟩

theorem Calm.withLoops {f : LoopMaster → LoopMaster} (h : Calm s t) : Calm s (t.withLoops f) := { h with }

theorem Calm.withList {f : ScanList → ScanList} (h : Calm s t) : Calm s (t.withList f) := { h with }

theorem Calm.setNode {n : NodeId} {x : Node} (h : Calm s t) : Calm s (t.setNode n x) := { h with }

theorem Calm.setLine {l : LoopId} {x : LoopState} (h : Calm s t) : Calm s (t.setLine l x) := { h with }

theorem Calm.takeInFlight {n : NodeId} (h : Calm s t) : Calm s (t.takeInFlight n) := { h with }

theorem Calm.begin {n : NodeId} {op : LoopOp} {src : TxSource} {role : Option Role} {p : List Byte} {last : Bool}
    (h : Calm s t) : Calm s (t.begin n op src role p last) := { h with }

theorem Calm.mark {x : Subject} (h : Calm s t) : Calm s (t.mark x) :=
  ⟨by simp [h.pending], by simp [h.handed], by simp [h.clockMs], by simp [h.gas], by simp [h.air], by simp [h.fans],
    by simp [h.occ], by simp [h.guide], by simp [h.store]⟩

theorem Calm.post {n : NodeId} (h : Calm s t) : Calm s (t.post n) :=
  ⟨by simp [h.pending], by simp [h.handed], by simp [h.clockMs], by simp [h.gas], by simp [h.air], by simp [h.fans],
    by simp [h.occ], by simp [h.guide], by simp [h.store]⟩

theorem Calm.refill {fuel : Nat} (h : Calm s t) : Calm s (t.refill fuel) := by
  induction fuel generalizing t with
  | zero => exact h
  | succ fuel ih =>
    unfold State.refill
    repeat' split
    all_goals first | exact h | exact ih h.setNode.post

theorem Calm.removeUrgent {p : NodeId → Bool} (h : Calm s t) : Calm s (t.removeUrgent p) := Calm.refill h.withLoops

theorem Calm.deleteNode {n : NodeId} (h : Calm s t) : Calm s (t.deleteNode n) := Calm.removeUrgent h.withLoops

theorem Calm.beginOutput {n : NodeId} {x : Node} {src : TxSource} (h : Calm s t) : Calm s (t.beginOutput n x src) := by
  unfold State.beginOutput State.beginWrite
  dsimp only
  split
  · exact h.begin
  · split
    · exact Calm.takeInFlight h.begin
    · exact h.begin

theorem Calm.takeUrgent {n : NodeId} (h : Calm s t) : Calm s (t.takeUrgent n) := by
  have k : Calm s t.popUrgent := Calm.refill h.withLoops
  unfold State.takeUrgent
  dsimp only
  repeat' split
  all_goals first | exact k | exact k.deleteNode | exact k.beginOutput

theorem Calm.setListState {x : ListState} (h : Calm s t) : Calm s (t.setListState x) := by
  unfold State.setListState
  dsimp only
  split
  · exact Calm.mark h.withList
  · exact h.withList

theorem Calm.faultList {k : ListErrorKind} {n : Option NodeId} (h : Calm s t) : Calm s (t.faultList k n) :=
  Calm.setListState h.withList

theorem Calm.reach {fuel : Nat} (h : Calm s t) : Calm s (t.reach fuel) := by
  induction fuel generalizing t with
  | zero => exact h
  | succ fuel ih =>
    unfold State.reach
    split
    · exact h.withList
    · exact h.withList
    · exact Calm.setListState h.withList
    · dsimp only
      split
      · exact Calm.faultList h.withList
      · exact ih (Calm.withList h.withList)
    · exact Calm.setListState h.withList

theorem Calm.advance (h : Calm s t) : Calm s t.advance := Calm.reach h.withList

theorem Calm.endSpent (h : Calm s t) : Calm s t.endSpent := by
  unfold State.endSpent
  split
  · exact h.advance
  · exact h

theorem Calm.nextSwept (h : Calm s t) : Calm s t.nextSwept := Calm.endSpent h.withList

theorem Calm.listError {k : ListErrorKind} (h : Calm s t) : Calm s (t.listError k) := by
  unfold State.listError
  repeat' split
  all_goals first
    | exact h
    | exact Calm.advance (Calm.withList (Calm.withList h))
    | exact Calm.advance (Calm.withList h)
    | exact Calm.endSpent (Calm.withList h)
    | exact Calm.nextSwept (Calm.withList h)
    | exact h.faultList

theorem Calm.beginList {n : NodeId} {op : LoopOp} (h : Calm s t) : Calm s (t.beginList n op) := Calm.withList h.begin

theorem Calm.beginSweep {l : LoopId} (h : Calm s t) : Calm s (t.beginSweep l) := by
  unfold State.beginSweep
  split
  · exact h
  · exact Calm.withList h.withLoops

theorem Calm.stampItem (h : Calm s t) : Calm s t.stampItem := by
  unfold State.stampItem
  split
  · exact h
  · exact h.withList

theorem Calm.takeList (h : Calm s t) : Calm s t.takeList := by
  unfold State.takeList
  repeat' split
  all_goals first
    | exact h
    | exact h.beginList
    | exact h.listError
    | exact Calm.withList h.beginOutput
    | exact h.beginSweep.beginList
    | exact h.stampItem.beginList

theorem Calm.beginService {n : NodeId} (h : Calm s t) : Calm s (t.beginService n) := by
  unfold State.beginService State.noteEmptied
  exact Calm.withLoops (Calm.begin h.setLine)

theorem Calm.chooseOnce (h : Calm s t) : Calm s t.chooseOnce := by
  unfold State.chooseOnce
  repeat' split
  all_goals first
    | exact h
    | exact h.takeList
    | exact h.beginService
    | exact Calm.begin h.setLine
    | exact Calm.begin (Calm.withLoops h.setLine)
    | exact h.takeUrgent

theorem Calm.choose {fuel : Nat} (h : Calm s t) : Calm s (t.choose fuel) := by
  induction fuel generalizing t with
  | zero => exact h
  | succ fuel ih =>
    unfold State.choose
    split
    · exact ih h.chooseOnce
    · exact h

end Sys2Proof.Machine
end

