-- ==== Sys2Proof/Laws/Requests.lean ====
section
/-! SUPPORT. What a command answers when nothing handed waits, and what a request answers when the port admits it. -/

namespace Sys2Proof.Machine

variable {s t : State}

/-- With nothing handed, a command is its effect with the engine and the transmitter. -/
theorem exec_of_calm {c : Instr} (h : s.handed = []) : exec c s = .next (settle (effect c s)) := by
  rw [exec_eq, perform, prepare_of_nil h]

/-- A request the port admits is what its owner makes of it. -/
theorem State.request_admitted {α : Type} {tag : Byte} {least : State → Access} {o : Option α}
    {owner : α → State → Owned} {a : Access} {x : α} (k : Admits a s) (hl : least s.framePassed = a) (ho : o = some x) :
    State.request tag least o owner s
      = match owner x s.framePassed with
        | .error c => s.framePassed.reply (refusedFrame tag c)
        | .ok (t, b) => t.reply (b.frame tag) := by
  subst ho
  unfold State.request
  dsimp only
  have h1 : ¬ Config.replyCapacity ≤ s.framePassed.port.replies.length := by
    rw [State.framePassed_port_replies]
    have := k.room
    unfold Config.replyCapacity
    omega
  have h2 : s.framePassed.port.access.reaches (least s.framePassed) = true := by
    rw [hl, State.framePassed_port_access]
    exact decide_eq_true k.level
  exact (if_neg h1).trans ((if_pos h2).trans rfl)

/-- A request whose owner accepts it with DONE. -/
theorem exec_done {α : Type} {c : Instr} {tag : Byte} {least : State → Access} {o : Option α} {owner : α → State → Owned}
    {a : Access} {x : α} {b : Bool} (hc : effect c = State.request tag least o owner) (k : Admits a s)
    (hl : least s.framePassed = a) (ho : o = some x) (h : owner x s.framePassed = accept b t) :
    exec c s = .next (t.done tag b) := by
  rw [exec_of_calm k.handed, hc, State.request_admitted k hl ho, h]
  cases b <;> rfl

/-- A request whose owner answers it with DATA. -/
theorem exec_told {α : Type} {c : Instr} {tag : Byte} {least : State → Access} {o : Option α} {owner : α → State → Owned}
    {a : Access} {x : α} {d : List Byte} (hc : effect c = State.request tag least o owner) (k : Admits a s)
    (hl : least s.framePassed = a) (ho : o = some x) (h : owner x s.framePassed = .ok (t, .data d)) :
    exec c s = .next (t.told tag d) := by
  rw [exec_of_calm k.handed, hc, State.request_admitted k hl ho, h]
  rfl

/-- A request whose owner refuses it. -/
theorem exec_turnedAway {α : Type} {c : Instr} {tag : Byte} {least : State → Access} {o : Option α}
    {owner : α → State → Owned} {a : Access} {x : α} {r : RefusalCode} (hc : effect c = State.request tag least o owner)
    (k : Admits a s) (hl : least s.framePassed = a) (ho : o = some x) (h : owner x s.framePassed = .error r) :
    exec c s = .next (s.framePassed.turnedAway tag r) := by
  rw [exec_of_calm k.handed, hc, State.request_admitted k hl ho, h]
  rfl

end Sys2Proof.Machine
end

