-- ==== Sys2Proof/Tests/Slice0.lean ====
section
/-! SUPPORT. Tests of the model: an ill-formed command for each check, the spec's worked examples, single steps on a small
car park, and for each statement with hypotheses a state and operands that meet them. -/

namespace Sys2Proof.Tests

open Sys2Proof Sys2Proof.Machine

/-! ### Ill-formed commands -/

/-- A body of 241 bytes. -/
def longBody : List Byte := List.replicate 241 0

theorem test_illFormed_bodyLength : illFormed (.ping 0 longBody) = some .bodyLength := by decide +kernel
theorem test_illFormed_kindKnown : illFormed (.unknownKind 0x02 0 []) = some .kindKnown := by decide
theorem test_illFormed_address : illFormed (.fanNodeLost ⟨.a, 32⟩) = some .address := by decide
theorem test_illFormed_head : illFormed (.staleExpiry 48 .co) = some .head := by decide
theorem test_illFormed_zone : illFormed (.trafficEvent 24) = some .zone := by decide
theorem test_illFormed_fan : illFormed (.startTimeout 48) = some .fan := by decide
theorem test_illFormed_bay : illFormed (.presenceTrigger (.bay 2048)) = some .bay := by decide
theorem test_illFormed_ramp : illFormed (.standingChange 0 32 true) = some .ramp := by decide
theorem test_illFormed_sign : illFormed (.escort 64) = some .sign := by decide
theorem test_illFormed_group : illFormed (.presenceExpiry 192) = some .group := by decide
theorem test_illFormed_replyEmpty : illFormed (.replyReceived [] ⟨false, false, false, false⟩) = some .replyEmpty := by decide
theorem test_illFormed_mask : illFormed (.rollcallEnd 1 ⟨false, false, false, false⟩) = some .mask := by decide
theorem test_illFormed_payload : illFormed (.lampReport ⟨.a, 1⟩ true [0]) = some .payload := by decide
theorem test_illFormed_value : illFormed (.gasUpdate 0 ⟨0, some ⟨.valid, 65536, .valid, 0⟩⟩ []) = some .value := by decide
theorem test_illFormed_demand : illFormed (.zoneChangeFan ⟨0, some 101, .none, .stayed, false⟩) = some .demand := by decide
theorem test_illFormed_count : illFormed (.countDelivery 0 .wide 2049) = some .count := by decide
theorem test_illFormed_roleCode :
    illFormed (.listOutcome { cls := .good, hasEntry := true, ready := true, role := some 8 }) = some .roleCode := by decide
theorem test_wellFormed_ping : wellFormed (.ping 0 (List.replicate 240 0)) = true := by decide +kernel
theorem test_wellFormed_frameSent : wellFormed .frameSent = true := by decide

/-! ### The spec's worked examples -/

/-- The CO channel of head 12 (1.3). -/
def head12 : Calibration := ⟨9000, -120, 36000, -200, 2, 2000, 100⟩

/-- 1.3, worked conversions at ordinary values. -/
theorem test_conversions :
    head12.fine 1860 = 991 ∧ head12.coarse 990 = 2125 ∧ convert 600 2500 (-60) 0 = 306 := by decide

/-- 1.3, worked conversions at the limits. -/
theorem test_conversions_at_the_limits :
    convert 4095 65535 32767 0 = 65535 ∧ convert 4095 65535 32767 7 = 511 ∧ convert 77 0 (-500) 2 = 0
      ∧ convert 77 0 1200 3 = 150 ∧ convert 100 9000 (-400) 2 = 0 ∧ convert 0 9000 (-120) 2 = 0 := by decide

/-- 1.4, worked range switching: the five readings of head 12. -/
theorem test_range_switching :
    selectRange head12 .fine 1860 470 = (.fine, 991) ∧ selectRange head12 .fine 3900 990 = (.coarse, 2125)
      ∧ selectRange head12 .coarse 3400 800 = (.fine, 1837) ∧ selectRange head12 .fine 4095 500 = (.coarse, 1048)
      ∧ selectRange head12 .coarse 4095 500 = (.coarse, 1048) := by decide

/-- 1.5, worked smoothing: a rising run, and the gap at which a falling run rests. -/
theorem test_smoothing :
    smooth false 2 900 991 = 922 ∧ smooth false 2 922 991 = 939 ∧ smooth false 2 968 991 = 973
      ∧ smooth false 2 988 991 = 988 ∧ smooth false 2 1003 1000 = 1003 ∧ smooth true 2 996 991 = 991 := by decide

/-- 2.3, the figures of zone 9. -/
def view9 : Table ViewEntry :=
  [(20, ⟨.valid, 412, .valid, 88⟩), (21, ⟨.valid, 655, .warming, 140⟩), (22, ⟨.stale, 1210, .stale, 95⟩)]

/-- 2.3 and 2.8: figures, gas terms, and the alarm that sets at 1500 and clears below 1000. -/
theorem test_figures_terms_and_alarm :
    figureOf view9 .co = some 655 ∧ figureOf view9 .no2 = some 88
      ∧ gasTerm 50 ⟨300, 1000, 1500, 1000⟩ (some 655) = 50 ∧ gasTerm 50 ⟨100, 300, 500, 300⟩ (some 88) = 0
      ∧ gasTerm 50 ⟨300, 1000, 1500, 1000⟩ (some 950) = 92
      ∧ alarmAfter ⟨300, 1000, 1500, 1000⟩ (some 1230) false = false
      ∧ alarmAfter ⟨300, 1000, 1500, 1000⟩ (some 1540) false = true
      ∧ alarmAfter ⟨300, 1000, 1500, 1000⟩ (some 1200) true = true
      ∧ alarmAfter ⟨300, 1000, 1500, 1000⟩ (some 950) true = false := by decide

/-- 2.4, the traffic terms of zone 14. -/
theorem test_traffic_terms :
    trafficTermOf 4 8 = 8 ∧ trafficTermOf 13 8 = 26 ∧ trafficTermOf 43 8 = 86 ∧ trafficTermOf 2 255 = 100 := by decide

/-- 2.8, the steps of zone 14 with three fans and H = 10. -/
theorem test_steps :
    stepsAfter 0 3 17 10 = 2 ∧ stepsAfter 2 3 60 10 = 4 ∧ stepsAfter 4 3 74 10 = 5 ∧ stepsAfter 5 3 100 10 = 6
      ∧ stepsAfter 6 3 92 10 = 6 ∧ stepsAfter 6 3 57 10 = 5 ∧ stepsAfter 5 3 28 10 = 3 := by decide

/-- 4.3, the bay of the worked debounce: K is 3. -/
def bay412 (st : BayState) (c : Option BayReading) (k : Nat) : Bay :=
  { defn := { zone := 9, node := ⟨.b, 7⟩, channel := 5, cls := .standard }, state := st, candidate := c, counter := k
    lastChange := 0 }

/-- 4.3, worked debounce, steps 3, 5, 6, 7, 8 and 12. -/
theorem test_debounce :
    (bay412 .free (some .present) 2).debounce 0 3 .vacant = bay412 .free (some .present) 0
      ∧ (bay412 .free (some .present) 1).debounce 0 3 .present = bay412 .free (some .present) 2
      ∧ (bay412 .free (some .present) 2).debounce 0 3 .present = bay412 .occupied (some .present) 0
      ∧ (bay412 .occupied (some .present) 0).debounce 0 3 .fault = bay412 .occupied (some .fault) 1
      ∧ (bay412 .occupied (some .fault) 1).debounce 0 3 .present = bay412 .occupied (some .fault) 0
      ∧ (bay412 .unknown (some .vacant) 2).debounce 0 3 .vacant = bay412 .free (some .vacant) 0 := by decide

/-- 4.3, worked debounce, step 14: the counter of a withdrawn bay stops at K. -/
theorem test_debounce_out_of_service :
    (bay412 .outOfService (some .vacant) 0).debounce 0 3 .present = bay412 .outOfService (some .present) 1
      ∧ (bay412 .outOfService (some .present) 3).debounce 0 3 .present = bay412 .outOfService (some .present) 3 := by decide

/-- 5.8, sign 12. -/
def sign12 : SignDefn :=
  { node := ⟨.a, 1⟩, kind := .countArrow, sources := [13, 15, 16], filter := ⟨true, true, false, false⟩, threshold := 5
    directions := [⟨.left, [13], [150, 151]⟩, ⟨.right, [15], [152, 153]⟩, ⟨.down, [16], [160]⟩] }

/-- 5.8, a guidance view: the closures of zones 13 and 16, and the STANDARD count of zone 15. -/
def view12 (closed13 closed16 : Bool) (n15 : Nat) : List GuideZone :=
  List.replicate 13 .initial
    ++ [⟨⟨18, 2, 0, 1⟩, closed13⟩, .initial, ⟨⟨n15, 0, 0, 2⟩, false⟩, ⟨⟨31, 4, 0, 0⟩, closed16⟩]
    ++ List.replicate 7 .initial

/-- 5.8, steps 0, 1, 4, 5, 6 and 7. -/
theorem test_sign_through_a_zone_alarm :
    displayOf (view12 false false 9) sign12 0 = ⟨64, .number 64, some 0, .left, 0⟩
      ∧ displayOf (view12 true false 9) sign12 0 = ⟨44, .number 44, some 1, .right, 0⟩
      ∧ displayOf (view12 true true 8) sign12 0 = ⟨8, .number 8, some 1, .right, 0⟩
      ∧ displayOf (view12 true true 5) sign12 0 = ⟨5, .full, some 1, .right, 0⟩
      ∧ displayOf (view12 true true 0) sign12 0 = ⟨0, .full, none, .none, 0⟩
      ∧ displayOf (view12 false true 0) sign12 0 = ⟨20, .number 20, some 0, .left, 0⟩ := by decide

/-- 6.4, the codes of the worked levels under both polarities. -/
theorem test_output_codes :
    outputCode .normal 50 = 51 ∧ outputCode .normal 300 = 306 ∧ outputCode .normal 600 = 613
      ∧ outputCode .inverted 600 = 410 ∧ outputCode .inverted 800 = 205 ∧ outputCode .normal 1000 = 1023
      ∧ outputCode .inverted 0 = 1023 := by decide

/-- The check value that the catalogue of CRCs gives for polynomial 1021h, initial value FFFFh (R164): 29B1h over the nine
bytes 31h to 39h. -/
theorem test_crc16_check_value : crc16 [0x31, 0x32, 0x33, 0x34, 0x35, 0x36, 0x37, 0x38, 0x39] = 0x29B1#16 := by decide +kernel

/-- The check value that the catalogue of CRCs gives for polynomial 31h, initial value 00h (R186): A2h over the same bytes. -/
theorem test_crc8_check_value : crc8 [0x31, 0x32, 0x33, 0x34, 0x35, 0x36, 0x37, 0x38, 0x39] = 0xA2#8 := by decide +kernel

/-- No row of the table has bits. -/
theorem test_decodeTableWord : decodeTableWord 8 0x02 = none := by decide

/-! ### A small car park -/

/-- The nodes of the car park, all on loop A: a gas head at 1, a fan at 2, a strip at 3, a ramp detector at 4, a sign at 5 and a
luminaire driver at 6. -/
def nodeA (a : Nat) : NodeId := ⟨.a, a⟩

/-- A node ONLINE. -/
def online (role : Role) : Node :=
  { defn := { role := role, setup := [] }, state := .online, failures := 0, lastFailure := .none, lastSeen := some 0
    attention := false, setupDue := false, refreshOwed := false, retiring := false, report := .empty }

/-- A channel that was never read. -/
def freshRun : ChannelRun :=
  { range := .fine, validity := .noData, cause := none, seedPending := true, rawFine := 0, rawCoarse := 0, value := 0
    smoothed := 0, lastFresh := none }

/-- Head 0 of zone 0. -/
def head0 : Head :=
  { defn := { zone := 0, node := nodeA 1, exponent := 2, co := head12, no2 := ⟨2500, -60, 4096, 0, 0, 65535, 0⟩ }
    lastStatus := none, co := freshRun, no2 := freshRun }

/-- Zone 0: its one head has given no reading. -/
def zone0 : Zone :=
  { defn :=
      { kind := .parking, level := 1, co := ⟨300, 1000, 1500, 1000⟩, no2 := ⟨100, 300, 500, 300⟩, alarmPlan := none
        weight := 8, queueDemand := 60 }
    view := [(0, ⟨.noData, 0, .noData, 0⟩)], coFigure := none, no2Figure := none, coAlarm := false, no2Alarm := false
    ring := [0, 1, 0, 2, 0, 1], standing := [], coTerm := 50, no2Term := 50, trafficTerm := 8, queueTerm := 0
    floorTerm := 10, demand := 50, hostClosed := false, unventilated := false }

/-- Fan 0 of zone 0 in a state. -/
def fanIn (st : FanState) : Fan :=
  { defn :=
      { zone := 0, node := nodeA 2, home := .forward, startLoad := 12, lowLoad := 4, highLoad := 8, rundown := 60
        policy := .hold }
    state := st, want := .off, exercise := false, direction := .forward, speed := .low, speedup := false
    speedupFailed := false, lastStop := 0, lastGrant := none, runningSince := none, holdStart := none, cause := none
    heldLoad := 0, report := none, runMinutes := 0, rest := 60, leftover := 0, minuteStart := none }

/-- Bay 0 of zone 0, on the strip's first channel. -/
def bay0 : Bay :=
  { defn := { zone := 0, node := nodeA 3, channel := 0, cls := .standard }, state := .free, candidate := none, counter := 0
    lastChange := 0 }

/-- Ramp 0. -/
def ramp0 : Ramp :=
  { defn := { node := nodeA 4, zone := 0, upper := 0, lower := 1, lowerSign := some 0, upperSign := none }, standing := false
    upTally := 0, downTally := 0, last := none }

/-- Sign 0: one free STANDARD bay to the left. -/
def sign0 : Sign :=
  { defn :=
      { node := nodeA 5, kind := .countArrow, sources := [0], filter := ⟨true, false, false, false⟩, threshold := 0
        directions := [⟨.left, [0], [0]⟩] }
    display := ⟨1, .number 1, some 0, .left, 0⟩, condition := .unknown, echo := none }

/-- Group 0. -/
def group0 : Machine.Group :=
  { defn :=
      { zone := 0, node := nodeA 6, outputs := [0, 1], polarity := .normal, bayRange := some (0, 9), ramp := some 0
        presenceLevel := 800, holdTime := 120, fadeTime := 10 }
    override := none, presence := none, target := 300, cause := .base, inFlight := none, applied := none
    conditions := [.unknown, .unknown] }

/-- The car park: one record of each kind, at a moment of the site clock, with fan 0 as given and `account` its counted
load. -/
def parkWith (now : Nat) (f : Fan) : State :=
  { State.reset with
    clockMs := now * 1000
    gas := { heads := [(0, head0)] }
    air := { zones := [(0, zone0)], alarmOrder := [], subWindowStart := now }
    fans :=
      { State.reset.fans with
        fans := [(0, f)], account := f.load
        zones := [(0, { steps := 1, duty := [0], available := 1, unventilated := false })] }
    occ :=
      { bays := [(0, bay0)]
        counts := [(0, ⟨⟨1, 0, 0, 0⟩, .zero, .zero, .zero⟩)], ramps := [(0, ramp0)] }
    guide := { signs := [(0, sign0)], view := ⟨⟨1, 0, 0, 0⟩, false⟩ :: List.replicate 23 .initial }
    light := { State.reset.light with groups := [(0, group0)] }
    loops :=
      { State.reset.loops with
        nodes :=
          [(0, online .gas), (1, online .fan), (2, online .bay), (3, online .ramp), (4, online .sign), (5, online .lamp)] }
    port := { State.reset.port with sending := none, supervisedAt := now } }

/-- The car park at site clock 100 with fan 0 OFF. -/
def park : State := parkWith 100 (fanIn .off)

/-- The state an outcome goes on in. -/
def Outcome.state (o : Host.Outcome State Fault Refusal) (s : State) : State :=
  match o with
  | .next t => t
  | .fault _ => s
  | .refused _ => s

/-- The state after a command. -/
def after (c : Instr) (s : State) : State := Outcome.state (exec c s) s

/-! ### Single steps -/

/-- 1.6: the first READY reading seeds the smoothed value with the worked 991. -/
theorem test_gasReading :
    ((after (.gasReading (nodeA 1) true [1, 0x07, 0x44, 0x01, 0xD6, 0x02, 0x58, 0, 0]) park).gas.heads.get 0).map
        (fun h => (h.co.validity, h.co.smoothed, h.no2.smoothed, h.co.seedPending))
      = some (.valid, 991, 306, false) := by decide +kernel

/-- R13, R22: one update carries every affected head of the zone, and the figure is that of the VALID channel. -/
theorem test_gasUpdate :
    ((after (.gasUpdate 0 ⟨0, some ⟨.stale, 900, .stale, 40⟩⟩ [⟨1, some ⟨.valid, 400, .stale, 50⟩⟩]) park).zone 0).map
      (fun z => (z.coFigure, z.no2Figure, z.view.length)) = some (some 400, none, 2) := by decide +kernel

/-- R26 and R28: one event on the ring of 2.4 makes T 5 and the term 10. -/
theorem test_trafficEvent :
    ((after (.trafficEvent 0) park).zone 0).map (fun z => (z.ring, z.trafficTerm)) = some ([0, 1, 0, 2, 0, 2], 10) := by
  decide +kernel

/-- R27: the expiry drops the oldest sub-count and opens a new one. -/
theorem test_subWindowExpiry :
    ((after .subWindowExpiry { park with air := { park.air with subWindowStart := 90 } }).zone 0).map (fun z => z.ring)
      = some [1, 0, 2, 0, 1, 0] := by decide +kernel

/-- R34 and R38: ZONE-CLOSE sets the closure and hands it to the Guidance Unit. -/
theorem test_zoneClose :
    ((after (.zoneClose 7 [0]) park).zone 0).map (fun z => z.hostClosed) = some true
      ∧ (after (.zoneClose 7 [0]) park).handed = [.zoneChangeGuidance 0 true] := by decide +kernel

/-- R57: a drive at speed in the commanded direction makes a STARTING fan RUNNING. -/
theorem test_driveReport :
    ((after (.driveReport (nodeA 2) true [2])
        (parkWith 100 { fanIn .starting with lastGrant := some 95 })).fan 0).map (fun f => (f.state, f.runningSince))
      = some (.running, some 100) := by decide +kernel

/-- R57: a start that has not ended after the start timeout of 30 s is FAULTED with cause DRIVE. -/
theorem test_startTimeout :
    ((after (.startTimeout 0) (parkWith 100 { fanIn .starting with lastGrant := some 70 })).fan 0).map
        (fun f => (f.state, f.cause, f.lastStop))
      = some (.faulted, some .drive, 100) := by decide +kernel

/-- R81: a departure is a bay event; the third PRESENT reading of a FREE bay is an arrival. -/
theorem test_bayStripReading :
    (after (.bayStripReading (nodeA 3) true [0x55, 0x55, 0x55, 0x55, 0x55, 0x55])
        { park with
          occ := { park.occ with bays := [(0, { bay0 with candidate := some .present, counter := 2 })] } }).handed
      = [.trafficEvent 0, .presenceTrigger (.bay 0), .countDelivery 0 .standard 0] := by decide +kernel

/-- R91: a DOWN passage hands traffic, a presence trigger and the escort of the lower entry sign. -/
theorem test_rampReading :
    (after (.rampReading (nodeA 4) true [4]) park).handed
      = [.trafficEvent 0, .presenceTrigger (.ramp 0), .escort 0] := by decide +kernel

/-- R98: the last free bay is taken, and the number falls to FULL at threshold 0. -/
theorem test_countDelivery :
    ((after (.countDelivery 0 .standard 0) park).guide.signs.get 0).map (fun g => (g.display.text, g.display.arrow))
      = some (.full, .none) := by decide +kernel

/-- R111 and R115: an escort lights the lane of the chosen direction for its hold time. -/
theorem test_escort :
    ((after (.escort 0) park).light.groups.get 0).map (fun g => (g.target, g.cause, g.presence))
      = some (800, .presence, some 220) := by decide +kernel

/-- R166 and R167: an unknown kind is refused with UNKNOWN_KIND under its tag. -/
theorem test_unknownKind :
    ((after (.unknownKind 0x7F 9 []) park).port.sending).map (fun f => (f.kind, f.tag)) = some (0x82, 9) := by
  decide +kernel

/-- 9.7: PING is answered with its body. -/
theorem test_ping :
    (after (.ping 3 [1, 2, 3]) park).port.sending = some { kind := 0x81, tag := 3, body := [1, 2, 3], newRate := none } := by
  decide +kernel

/-- R128 and R129: the third failure in a row with the factory limit makes a node LOST. -/
theorem test_replyTimeout :
    ((after (.replyTimeout ⟨false, false, false, false⟩)
        { park with
          loops :=
            { park.loops with
              nodes := park.loops.nodes.put 1 { online .fan with failures := 2 }
              tx := some
                { node := nodeA 2, op := .read, source := .list, role := some .fan, request := [], voided := false
                  lastWrite := false, emptied := false } } }).node (nodeA 2)).map (fun x => (x.state, x.failures))
      = some (.lost, 3) := by decide +kernel

/-- A step takes the front of the queue and leaves the rest. -/
theorem test_step :
    (Outcome.state (step { park with pending := [.ping 3 [], .frameSent] }) park).pending = [.frameSent] := by
  decide +kernel

/-- R34: the earlier zone change reaches the Guidance Unit first, though the later one is given. -/
theorem test_zoneChangesInOrder :
    let t := after (.zoneChangeGuidance 0 false)
      { park with handed := [.zoneChangeGuidance 0 true, .zoneChangeGuidance 0 false] }
    (t.guideZone 0).closed = false ∧ t.handed = [] := by decide +kernel

/-- R102: a closure may be taken before a count delivery that waits. -/
theorem test_closureBeforeCount :
    let t := after (.zoneChangeGuidance 0 true)
      { park with handed := [.countDelivery 0 .standard 5, .zoneChangeGuidance 0 true] }
    (t.guideZone 0).closed = true ∧ t.handed = [.countDelivery 0 .standard 5] := by decide +kernel

/-! ### States and operands that meet the statements' hypotheses -/

/-- The released attention lines. -/
def released : PerLoop Bool := ⟨false, false, false, false⟩

/-- The car park takes a request of any level. -/
theorem park_admits (least : Access) : Admits least park := ⟨rfl, by decide, by cases least <;> decide⟩

/-- The car park with fan 0 in any state takes a request of any level. -/
theorem parkWith_admits (now : Nat) (f : Fan) (least : Access) : Admits least (parkWith now f) :=
  ⟨rfl, by simp [parkWith, State.reset], by cases least <;> simp [parkWith, State.reset, accessCode]⟩

/-- Both ends of each range of R5, and an offset sum below 0 and above 65535. -/
theorem witness_GasConversionFollowsTheFiveSteps :
    (4095 ≤ 4095 ∧ 65535 ≤ 65535 ∧ (-32768 : Int) ≤ 32767 ∧ (7 : Nat) ≤ 7)
      ∧ (0 * 0 / 4096 : Nat) + (-32768 : Int) < 0 ∧ (0 : Int) ≤ (0 * 0 / 4096 : Nat) + 0
      ∧ (4095 * 0 / 4096 : Nat) + (0 : Int) ≤ 65535 ∧ (65535 : Int) < (4095 * 65535 / 4096 : Nat) + 32767 := by decide

theorem witness_GasRangeSelectionAndSmoothing :
    (4095 : Nat) ≤ 4095 ∧ ({ head12 with crossover := 0 } : Calibration).crossover = 0
      ∧ ({ head12 with hysteresis := 2000 } : Calibration).crossover ≤ 2000 ∧ (900 : Nat) ≤ 900 ∧ (900 : Nat) < 901 := by
  decide

theorem witness_GasReadingReadyTakesBothChannels :
    park.handed = [] ∧ park.headOf (nodeA 1) = some 0 ∧ park.gas.heads.get 0 = some head0 := by decide +kernel

/-- The head's channels VALID since site clock 40: the stale time of 60 s has just passed. -/
def validHead : Head :=
  { head0 with co := { freshRun with validity := .valid, lastFresh := some 40 }
               no2 := { freshRun with validity := .warming, lastFresh := some 40 } }

theorem witness_GasValidityFollowsTheEvents :
    park.handed = [] ∧ (List.replicate 8 (0 : Byte)).length = 8 ∧ park.headOf (nodeA 2) = none
      ∧ park.headOf (nodeA 1) = some 0 ∧ park.gas.heads.get 0 = some head0 ∧ 2 ≤ (2 : Byte).toNat
      ∧ ({ park with gas := { heads := [(0, validHead)] } } : State).gas.heads.get 0 = some validHead
      ∧ validHead.co.validity = .valid ∧ validHead.co.lastFresh = some 40 ∧ validHead.no2.validity = .warming
      ∧ 40 + park.items.staleTime ≤ park.now ∧ ¬ 41 + park.items.staleTime ≤ park.now := by decide +kernel

/-- A car park with a second GAS node at address 7 that no head names, to which head 0 may move. -/
def parkWithSpare (role : Role) : State :=
  { park with loops := { park.loops with nodes := park.loops.nodes ++ [(6, online role)] } }

theorem witness_HeadDefFollowsItsRules :
    Admits .installer park ∧ 48 ≤ (48 : Byte).toNat ∧ (47 : Byte).toNat < 48 ∧ park.gas.heads.get 47 = none
      ∧ (1 : Byte).getLsbD 0 = true ∧ (0 : Byte).getLsbD 0 = false ∧ park.gas.heads.get 0 = some head0
      ∧ 24 ≤ (24 : Byte).toNat ∧ nodeOf 0 32 = none ∧ nodeOf 0 1 = some (nodeA 1) ∧ park.zone 23 = none
      ∧ park.zone 0 = some zone0 ∧ park.node (nodeA 1) = some (online .gas) ∧ park.node (nodeA 2) = some (online .fan)
      ∧ (∃ o ∈ park.gas.heads, o.1 ≠ 47 ∧ o.2.defn.node = nodeA 1)
      ∧ (∀ o ∈ park.gas.heads, o.2.defn.node = nodeA 1 → o.1 = 0)
      ∧ (parkWithSpare .gas).node (nodeA 7) = some (online .gas)
      ∧ (∀ o ∈ (parkWithSpare .gas).gas.heads, o.2.defn.node = nodeA 7 → o.1 = 47)
      ∧ head0.defn.node ≠ nodeA 7 := by
  refine ⟨park_admits _, ?_⟩; decide +kernel

theorem witness_HeadCalAndGasQueryFollowTheirRules :
    Admits .installer park ∧ Admits .view park ∧ park.gas.heads.get (0 : Byte).toNat = some head0
      ∧ 2 ≤ (2 : Byte).toNat ∧ (1 : Byte).toNat < 2 ∧ 48 ≤ (48 : Byte).toNat ∧ (47 : Byte).toNat < 48
      ∧ park.gas.heads.get (47 : Byte).toNat = none := by
  refine ⟨park_admits _, park_admits _, ?_⟩; decide +kernel

theorem witness_ZoneFigureAlarmAndTerms :
    (figureOf view9 .co = some 655 ∧ figureOf [] .no2 = none)
      ∧ (1500 : Nat) ≤ 1500 ∧ (1499 : Nat) < 1500 ∧ (1000 : Nat) ≤ 1500 ∧ (300 : Nat) < 1000 ∧ (300 : Nat) < 301
      ∧ (300 : Nat) ≤ 300 ∧ (299 : Nat) < 300 := by decide

theorem witness_ZoneEventsSettleTheZone :
    park.handed = [] ∧ park.zone 0 = some zone0 ∧ zone0.ring = [0, 1, 0, 2, 0] ++ [1] ∧ 0 ∉ zone0.standing
      ∧ 0 ∈ ({ zone0 with standing := [0] } : Zone).standing ∧ park.zone 23 = none := by decide +kernel

theorem witness_ZoneSweepsReachEveryZone :
    park.handed = [] ∧ Table.wf park.air.zones = true
      ∧ park.now < park.air.subWindowStart + park.items.trafficWindow / 6
      ∧ 90 + park.items.trafficWindow / 6 ≤ park.now := by decide +kernel

/-- The car park with zone 23 beside zone 0: nothing names zone 23. -/
def parkTwoZones : State :=
  { park with air := { park.air with zones := park.air.zones ++ [(23, { zone0 with view := [] })] } }

theorem witness_ZoneDefFollowsItsRules :
    Admits .installer park ∧ Admits .installer parkTwoZones ∧ 24 ≤ (24 : Byte).toNat ∧ (23 : Byte).toNat < 24
      ∧ park.zone 23 = none ∧ park.zone 0 = some zone0 ∧ (∃ e ∈ park.gas.heads, e.2.defn.zone = 0)
      ∧ (∀ e ∈ parkTwoZones.gas.heads, e.2.defn.zone ≠ 23) ∧ (∀ e ∈ parkTwoZones.occ.bays, e.2.defn.zone ≠ 23)
      ∧ (∀ e ∈ parkTwoZones.occ.ramps, e.2.defn.zone ≠ 23) ∧ (∀ e ∈ parkTwoZones.fans.fans, e.2.defn.zone ≠ 23)
      ∧ (∀ e ∈ parkTwoZones.light.groups, e.2.defn.zone ≠ 23)
      ∧ (∀ e ∈ parkTwoZones.guide.signs, 23 ∉ e.2.defn.sources ∧ ∀ d ∈ e.2.defn.directions, 23 ∉ d.zones)
      ∧ parkTwoZones.zone 23 = some { zone0 with view := [] } ∧ 2 ≤ (2 : Byte).toNat ∧ 8 ≤ (8 : Byte).toNat
      ∧ zoneKindOf 1 = some .ramp ∧ (7 : Byte).toNat < 8 := by
  refine ⟨park_admits _, ⟨rfl, by decide, by decide⟩, ?_⟩; decide +kernel

theorem witness_ZoneRequestsFollowTheirRules :
    Admits .installer park ∧ Admits .view park ∧ (0 : Byte).toNat < 24 ∧ park.zone 0 = some zone0
      ∧ zone0.hostClosed = false ∧ ({ zone0 with hostClosed := true } : Zone).hostClosed = true
      ∧ 24 ≤ (24 : Byte).toNat ∧ (23 : Byte).toNat < 24 ∧ park.zone 23 = none ∧ 2 ≤ (2 : Byte).toNat
      ∧ (1 : Byte).toNat < 2 := by
  refine ⟨park_admits _, park_admits _, ?_⟩; decide +kernel

theorem witness_FanChangesAndStops :
    (parkWith 100 (fanIn .running)).fan 0 = some (fanIn .running) ∧ (fanIn .off).state = .off ∧ (fanIn .starting).state = .starting ∧ (fanIn .running).speed = .low
      ∧ ({ fanIn .running with speed := .high } : Fan).speed = .high ∧ (fanIn .faulted).state = .faulted := by
  decide +kernel

/-- Fan 0 QUEUED at the head of the start queue, the supply limit as given. -/
def parkQueued (limit : Nat) (kind : EntryKind) (f : Fan) : State :=
  { parkWith 100 f with
    fans := { (parkWith 100 f).fans with queue := [⟨0, kind, .normal⟩], lastGrant := some 95 }
    store := { park.store with items := { Items.factory with supplyLimit := limit } } }

/-- At the boundaries: the spacing of 5 s has just passed, and the raised account equals the limit, or exceeds it by 1. -/
theorem witness_QueueJoinsAndGrants :
    let s := parkQueued 12 .start (fanIn .queued)
    let t := parkQueued 8 .speedup (fanIn .running)
    ([⟨0, .start, .alarm⟩, ⟨1, .start, .normal⟩, ⟨2, .start, .exercise⟩] : List QueueEntry).Pairwise
        (fun a b => a.cls.rank ≤ b.cls.rank)
      ∧ s.fans.queue = [⟨0, .start, .normal⟩] ∧ s.fan 0 = some (fanIn .queued)
      ∧ (∀ x ∈ s.fans.fans, x.2.state ≠ .starting ∧ x.2.speedup = false) ∧ 95 + s.items.startSpacing ≤ s.now
      ∧ s.fans.account + (fanIn .queued).defn.startLoad ≤ s.items.supplyLimit
      ∧ ¬ (parkQueued 11 .start (fanIn .queued)).fans.account + (fanIn .queued).defn.startLoad ≤ 11
      ∧ t.fans.queue = [⟨0, .speedup, .normal⟩] ∧ t.fan 0 = some (fanIn .running)
      ∧ (∀ x ∈ t.fans.fans, x.2.state ≠ .starting ∧ x.2.speedup = false)
      ∧ t.fans.account + ((fanIn .running).defn.highLoad - (fanIn .running).defn.lowLoad) ≤ t.items.supplyLimit := by
  decide +kernel

theorem witness_StepsAndMapping :
    (100 : Nat) ≤ 100 ∧ (0 : Nat) ≤ 100 ∧ (6 : Nat) ≤ 2 * 3 ∧ (2 : Nat) < 3 ∧ ([0, 1, 2] : List Nat).Nodup ∧ park.handed = []
      ∧ park.zoneFans 0 = some { steps := 1, duty := [0], available := 1, unventilated := false } := by decide +kernel

/-- A fan in each state and with each flag; RUNNING with the minimum run time of 120 s just met and 1 s short, under both
policies, at LOW with and without an entry in the start queue. -/
theorem witness_FanTakesItsWant :
    (∀ f : Fan, (parkWith 220 f).fan 0 = some f) ∧ (fanIn .queued).exercise = false
      ∧ ({ fanIn .queued with exercise := true } : Fan).exercise = true ∧ (fanIn .running).speed = .low
      ∧ (fanIn .running).speedupFailed = false ∧ (∀ e ∈ (parkWith 220 (fanIn .running)).fans.queue, e.fan ≠ 0)
      ∧ (∃ e ∈ (parkQueued 12 .speedup (fanIn .running)).fans.queue, e.fan = 0)
      ∧ ({ fanIn .running with want := .high } : Fan).want ≠ .off
      ∧ 100 + park.items.minimumRun ≤ (parkWith 220 (fanIn .running)).now
      ∧ ¬ 101 + park.items.minimumRun ≤ (parkWith 220 (fanIn .running)).now
      ∧ (fanIn .running).defn.policy = .hold ∧ park.items.holdTime ≠ 0
      ∧ ({ (fanIn .running).defn with policy := .release } : FanDefn).policy = .release := by
  refine ⟨fun f => by simp [parkWith, State.fan, Table.get], ?_⟩; decide +kernel

/-- Zone 0 in gas alarm with alarm plan 3. -/
def parkInAlarm : State :=
  { park with
    air :=
      { park.air with
        zones := [(0, { zone0 with coAlarm := true, defn := { zone0.defn with alarmPlan := some 3 } })]
        alarmOrder := [0] } }

theorem witness_ZoneChangeReachesTheFans :
    park.handed = [] ∧ park.fans.forcedPlan = none ∧ parkInAlarm.air.alarmOrder = [] ++ 0 :: []
      ∧ (parkInAlarm.zone 0).map (fun z => z.defn.alarmPlan) = some (some 3)
      ∧ (∀ y ∈ park.air.alarmOrder, ∀ r, park.zone y = some r → r.defn.alarmPlan = none)
      ∧ ({ park with fans := { park.fans with forcedPlan := some 7 } } : State).fans.forcedPlan = some 7
      ∧ (parkQueued 12 .start (fanIn .queued)).fans.queue.Pairwise (fun a b => a.cls.rank ≤ b.cls.rank)
      ∧ (parkQueued 12 .start (fanIn .queued)).fan 0 = some (fanIn .queued)
      ∧ park.choosePlan = (park.fans.activePlan, park.fans.source)
      ∧ (let s : State := { park with fans := { park.fans with forcedPlan := some 0 } }
         s.choosePlan.1 = s.fans.activePlan ∧ s.choosePlan.2 ≠ s.fans.source)
      ∧ parkInAlarm.choosePlan.1 ≠ parkInAlarm.fans.activePlan := by
  refine ⟨rfl, rfl, rfl, by decide +kernel, fun y hy => ?_, rfl, by decide +kernel, by decide +kernel, by decide +kernel,
    by decide +kernel, by decide +kernel⟩
  cases hy

/-- Fan 0 turning FORWARD while plan 1, in force, requires REVERSE. -/
def parkReversed : State :=
  let s := parkWith 100 (fanIn .running)
  { s with fans := { s.fans with plans := s.fans.plans.set 1 (List.replicate 48 .reverse), activePlan := 1, basePlan := 1 } }

/-- A fan turning against the plan, and one turning as the plan requires. -/
theorem witness_PlanChangeRestsTurningFans :
    Table.wf parkReversed.fans.fans = true ∧ parkReversed.fan 0 = some (fanIn .running)
      ∧ parkReversed.required 0 (fanIn .running) ≠ some .forward
      ∧ Table.wf (parkWith 100 (fanIn .running)).fans.fans = true
      ∧ (parkWith 100 (fanIn .running)).fan 0 = some (fanIn .running)
      ∧ (parkWith 100 (fanIn .running)).required 0 (fanIn .running) = some .forward := by decide +kernel

theorem witness_PlanRequestsFollowTheirRules :
    Admits .installer park ∧ (List.replicate 12 (0 : Byte)).length = 12 ∧ 8 ≤ (8 : Byte).toNat ∧ (7 : Byte).toNat < 8
      ∧ planEntries (List.replicate 12 (0xFF : Byte) |>.flatMap quads) = none
      ∧ planEntries (List.replicate 12 (0x55 : Byte) |>.flatMap quads) = some (List.replicate 48 .reverse)
      ∧ (0 : Byte).toNat = park.fans.activePlan ∧ (7 : Byte).toNat ≠ park.fans.activePlan
      ∧ (0 : Byte).toNat = park.fans.basePlan ∧ park.fans.forcedPlan = none
      ∧ ({ park with fans := { park.fans with forcedPlan := some 1 } } : State).fans.forcedPlan ≠ none
      ∧ park.handed = [] := by
  refine ⟨park_admits _, ?_⟩; decide +kernel

/-- Each timer of R53 to R65 at the moment it has just run out, or is 1 s short. -/
theorem witness_FanTimersActAtTheirTime :
    (∀ f : Fan, (parkWith 100 f).handed = [] ∧ (parkWith 100 f).fan 0 = some f)
      ∧ 70 + park.items.startTimeout ≤ park.now ∧ ¬ 71 + park.items.startTimeout ≤ park.now
      ∧ 120 + park.items.minimumRun ≤ 240 ∧ 100 + park.items.holdTime ≤ 400
      ∧ (fanIn .rundown).lastStop + (fanIn .rundown).rest ≤ park.now
      ∧ 0 < park.items.exerciseInterval ∧ 0 + park.items.exerciseInterval * 3600 ≤ 604800
      ∧ 60 ≤ (fanIn .running).leftover + (park.now - 40) ∧ ¬ 60 ≤ (fanIn .running).leftover + (park.now - 41)
      ∧ 95 + park.items.startSpacing ≤ park.now := by
  refine ⟨fun f => ⟨rfl, by simp [parkWith, State.fan, Table.get]⟩, ?_⟩; decide +kernel

theorem witness_DriveReportMovesTheFan :
    park.handed = [] ∧ park.fanOf (nodeA 1) = none ∧ park.fanOf (nodeA 2) = some 0 ∧ park.fan 0 = some (fanIn .off)
      ∧ (parkWith 100 (fanIn .held)).fanOf (nodeA 2) = some 0 ∧ 4 ≤ (4 : Byte).toNat % 8
      ∧ (2 : Byte).toNat % 8 = 2 ∧ (2 : Byte).getLsbD 3 = false ∧ (fanIn .starting).direction = .forward
      ∧ (0x12 : Byte).toNat % 8 = 2 ∧ (0x12 : Byte).getLsbD 4 = true ∧ (3 : Byte).toNat % 8 < 4
      ∧ (10 : Byte).toNat % 8 = 2 ∧ (10 : Byte).getLsbD 3 = true := by decide +kernel

theorem witness_FanNodeEventsFollowTheState :
    ∀ st, (parkWith 100 (fanIn st)).handed = [] ∧ (parkWith 100 (fanIn st)).fanOf (nodeA 2) = some 0
      ∧ (parkWith 100 (fanIn st)).fan 0 = some (fanIn st) := by
  intro st; cases st <;> decide +kernel

/-- A FAULTED fan with its node ONLINE and with its node LOST, and HELD fans whose rest has and has not passed. -/
theorem witness_FanRequestsFollowTheState :
    (∀ st least, Admits least (parkWith 100 (fanIn st)) ∧ (parkWith 100 (fanIn st)).fan 0 = some (fanIn st))
      ∧ 48 ≤ (48 : Byte).toNat ∧ 48 ≤ (254 : Byte).toNat ∧ (254 : Byte) ≠ 0xFF ∧ (47 : Byte).toNat < 48
      ∧ park.fan 47 = none
      ∧ ({ fanIn .faulted with cause := some .link } : Fan).cause = some .link ∧ (fanIn .faulted).cause ≠ some .link
      ∧ park.node (nodeA 2) = some (online .fan)
      ∧ ({ park with
            loops := { park.loops with nodes := park.loops.nodes.put 1 { online .fan with state := .lost } } } : State).nodeLost
          (nodeA 2) = true
      ∧ (fanIn .held).lastStop + (fanIn .held).defn.rundown ≤ 60
      ∧ ¬ (fanIn .held).lastStop + (fanIn .held).defn.rundown ≤ 59 := by
  refine ⟨fun st least => ⟨parkWith_admits _ _ _, by simp [parkWith, State.fan, Table.get]⟩, ?_⟩; decide +kernel

theorem witness_FanDefFollowsItsRules :
    (∀ st, Admits .installer (parkWith 100 (fanIn st)) ∧ (parkWith 100 (fanIn st)).fan 0 = some (fanIn st))
      ∧ 48 ≤ (48 : Byte).toNat ∧ (47 : Byte).toNat < 48 ∧ park.fan 47 = none ∧ (1 : Byte).getLsbD 0 = true
      ∧ 24 ≤ (24 : Byte).toNat ∧ nodeOf 0 0 = none ∧ fanDirOf 2 = none ∧ policyOf 2 = none
      ∧ nodeOf 0 2 = some (nodeA 2) ∧ fanDirOf 1 = some .reverse ∧ policyOf 1 = some .release
      ∧ park.zone 23 = none ∧ park.node (nodeA 8) = none ∧ park.zone 0 = some zone0
      ∧ park.node (nodeA 2) = some (online .fan) ∧ park.node (nodeA 1) = some (online .gas)
      ∧ (∃ o ∈ park.fans.fans, o.1 ≠ 47 ∧ o.2.defn.node = nodeA 2)
      ∧ (∀ o ∈ park.fans.fans, o.2.defn.node = nodeA 2 → o.1 = 0)
      ∧ (parkWithSpare .fan).node (nodeA 7) = some (online .fan)
      ∧ (∀ o ∈ (parkWithSpare .fan).fans.fans, o.2.defn.node = nodeA 7 → o.1 = 47)
      ∧ parkTwoZones.zone 23 = some { zone0 with view := [] }
      ∧ (parkWith 100 (fanIn .starting)).items.supplyLimit
          < (parkWith 100 (fanIn .starting)).fans.account + 41 - (fanIn .starting).load
      ∧ (parkWith 100 (fanIn .starting)).fans.account + 40 - (fanIn .starting).load
          ≤ (parkWith 100 (fanIn .starting)).items.supplyLimit
      ∧ (parkWith 100 (fanIn .off)).now < (fanIn .off).lastStop + 101 := by
  refine ⟨fun st => ⟨parkWith_admits _ _ _, by simp [parkWith, State.fan, Table.get]⟩, ?_⟩; decide +kernel

/-- K of 1 and of 3: confirmation at the first reading and at the third. -/
theorem witness_BayDebounceAndCounts :
    1 ≤ 1 ∧ bay0.state ≠ .outOfService ∧ bay0.state = .free ∧ bay0.candidate ≠ some .present ∧ 1 < 3
      ∧ (bay412 .free (some .present) 2).counter + 1 = 3
      ∧ (bay412 .outOfService (some .present) 3).candidate = some .present
      ∧ ¬ (bay0.state = .occupied ∧ bay0.defn.zone = 0 ∧ bay0.defn.cls = .standard)
      ∧ 1 ≤ ((park.counts 0).get bay0.defn.cls).get bay0.state := by decide +kernel

theorem witness_StripReadingDebouncesEveryBay :
    park.handed = [] ∧ (List.replicate 6 (0x55 : Byte)).length = 6 ∧ Table.wf park.occ.bays = true := by decide

theorem witness_BayNodeEventsAndServiceSetTheBays :
    park.handed = [] ∧ Table.wf park.occ.bays = true ∧ Admits .installer park ∧ 2048 ≤ nat16 8 0 ∧ nat16 7 255 < 2048
      ∧ nat16 0 0 ≤ nat16 7 255 ∧ 2 ≤ (2 : Byte).toNat ∧ (1 : Byte).toNat < 2
      ∧ (∃ j, nat16 0 0 ≤ j ∧ j ≤ nat16 0 0 ∧ park.occ.bays.get j ≠ none)
      ∧ ∀ j, nat16 0 1 ≤ j → j ≤ nat16 7 255 → park.occ.bays.get j = none := by
  refine ⟨rfl, rfl, park_admits _, by decide, by decide, by decide, by decide, by decide, ⟨0, by decide +kernel⟩, ?_⟩
  intro j h _
  have h : 1 ≤ j := h
  have h0 : ¬ 0 = j := by omega
  simp [park, parkWith, Table.get, h0]

theorem witness_BayDefFollowsItsRules :
    Admits .installer park ∧ 2048 ≤ nat16 8 0 ∧ nat16 7 255 < 2048 ∧ park.occ.bays.get 2047 = none
      ∧ park.occ.bays.get 0 = some bay0 ∧ 24 ≤ (24 : Byte).toNat ∧ (23 : Byte).toNat < 24 ∧ 4 ≤ (4 : Byte).toNat
      ∧ classOf 3 = some .accessible ∧ nodeOf 0 3 = some (nodeA 3) ∧ park.zone 23 = none ∧ park.zone 0 = some zone0
      ∧ park.node (nodeA 3) = some (online .bay) ∧ park.node (nodeA 4) = some (online .ramp)
      ∧ (∃ o ∈ park.occ.bays, o.1 ≠ 2047 ∧ o.2.defn.node = nodeA 3 ∧ o.2.defn.channel = 0)
      ∧ (∀ o ∈ park.occ.bays, o.2.defn.node = nodeA 3 → o.2.defn.channel = 23 → o.1 = 0)
      ∧ (∀ o ∈ park.occ.bays, o.2.defn.node = nodeA 3 → o.2.defn.channel = 23 → o.1 = 2047)
      ∧ bay0.defn = { zone := 0, node := nodeA 3, channel := 0, cls := .standard }
      ∧ bay0.defn ≠ { zone := 0, node := nodeA 3, channel := 23, cls := .accessible } := by
  refine ⟨park_admits _, ?_⟩; decide +kernel

theorem witness_BayAndCountQueriesTell :
    Admits .view park ∧ 2048 ≤ nat16 8 0 ∧ nat16 7 255 < 2048 ∧ 16 < (17 : Byte).toNat ∧ 1 ≤ (1 : Byte).toNat
      ∧ (16 : Byte).toNat ≤ 16 ∧ 24 ≤ (24 : Byte).toNat ∧ park.zone 23 = none ∧ park.zone 0 = some zone0
      ∧ 8 ≤ (8 : Byte).toNat ∧ (7 : Byte).toNat < 8 ∧ 32 ≤ (32 : Byte).toNat ∧ park.occ.ramps.get 31 = none
      ∧ park.occ.ramps.get 0 = some ramp0 ∧ 4 ≤ (4 : Byte).toNat := by
  refine ⟨park_admits _, ?_⟩; decide +kernel

theorem witness_RampReplyIsTakenInOrder :
    park.handed = [] ∧ park.rampOf (nodeA 3) = none ∧ park.rampOf (nodeA 4) = some 0
      ∧ park.occ.ramps.get 0 = some ramp0 ∧ ramp0.standing = false ∧ ({ ramp0 with standing := true } : Ramp).standing = true
      ∧ (0 : Byte).getLsbD 1 = false ∧ (0 : Byte).getLsbD 0 = ramp0.standing ∧ (1 : Byte).getLsbD 0 ≠ ramp0.standing
      ∧ (3 : Byte).getLsbD 1 = true ∧ (3 : Byte).getLsbD 0 ≠ ramp0.standing ∧ park.node (nodeA 4) = some (online .ramp)
      ∧ (3 : Byte).toNat / 4 % 4 = 0 ∧ (4 : Byte).toNat / 4 % 4 = 1 ∧ 2 ≤ (8 : Byte).toNat / 4 % 4 := by decide +kernel

theorem witness_RampDefFollowsItsRules :
    Admits .installer park ∧ 32 ≤ (32 : Byte).toNat ∧ (31 : Byte).toNat < 32 ∧ park.occ.ramps.get 31 = none
      ∧ park.occ.ramps.get 0 = some ramp0 ∧ 8 ≤ (8 : Byte).toNat ∧ (0 : Byte).toNat < (1 : Byte).toNat
      ∧ (0xFE : Byte) ≠ 0xFF ∧ 64 ≤ (64 : Byte).toNat ∧ (63 : Byte).toNat < 64 ∧ nodeOf 0 4 = some (nodeA 4)
      ∧ (7 : Byte).toNat ≤ (7 : Byte).toNat ∧ (7 : Byte).toNat < 8 ∧ park.zone 23 = none ∧ park.zone 0 = some zone0
      ∧ park.node (nodeA 4) = some (online .ramp) ∧ park.node (nodeA 3) = some (online .bay)
      ∧ (∃ o ∈ park.occ.ramps, o.1 ≠ 31 ∧ o.2.defn.node = nodeA 4)
      ∧ (∀ o ∈ park.occ.ramps, o.2.defn.node = nodeA 4 → o.1 = 0)
      ∧ (∀ o ∈ (parkWithSpare .ramp).occ.ramps, o.2.defn.node = nodeA 7 → o.1 = 0)
      ∧ (parkWithSpare .ramp).node (nodeA 7) = some (online .ramp) ∧ ramp0.defn.node ≠ nodeA 7 := by
  refine ⟨park_admits _, ?_⟩; decide +kernel

theorem witness_SignEventsRecomputeTheSigns :
    park.handed = [] ∧ Table.wf park.guide.signs = true ∧ park.guide.view.length = 24 ∧ 23 < 24 := by decide +kernel

theorem witness_SignReportsAndNodeEventsAreTaken :
    park.handed = [] ∧ (∀ e ∈ park.guide.signs, e.2.defn.node ≠ nodeA 4) ∧ park.guide.signs.get 0 = some sign0
      ∧ sign0.defn.node = nodeA 5 ∧ ∀ e ∈ park.guide.signs, e.2.defn.node = nodeA 5 → e.1 = 0 := by decide +kernel

theorem witness_SignRequestsFollowTheirRules :
    Admits .installer park ∧ Admits .view park ∧ 64 ≤ (64 : Byte).toNat ∧ (63 : Byte).toNat < 64
      ∧ park.guide.signs.get 63 = none ∧ park.guide.signs.get 0 = some sign0
      ∧ ([0] : List Byte).length < 256 ∧ ([] : List (Byte × List Byte × List Byte)).length < 256
      ∧ nodeOf 0 5 = some (nodeA 5) ∧ (2 : Byte).toNat < 3 ∧ 1 ≤ ([0] : List Byte).length
      ∧ (∀ z ∈ ([0] : List Byte), z.toNat < 24) ∧ 1 ≤ (15 : Byte).toNat ∧ (15 : Byte).toNat < 16 ∧ ¬ (16 : Byte).toNat < 16
      ∧ (∃ z ∈ ([23] : List Byte), park.zone z.toNat = none)
      ∧ (∀ z ∈ ([0] : List Byte), park.zone z.toNat ≠ none)
      ∧ park.node (nodeA 5) = some (online .sign) ∧ park.node (nodeA 4) = some (online .ramp)
      ∧ (∃ e ∈ park.guide.signs, e.1 ≠ 63 ∧ e.2.defn.node = nodeA 5)
      ∧ (∀ e ∈ park.guide.signs, e.2.defn.node = nodeA 5 → e.1 = 0) ∧ ¬ ([0, 0] : List Byte).Nodup
      ∧ ([0] : List Byte).Nodup ∧ (parkWithSpare .sign).node (nodeA 7) = some (online .sign)
      ∧ (∀ e ∈ (parkWithSpare .sign).guide.signs, e.2.defn.node = nodeA 7 → e.1 = 63) := by
  refine ⟨park_admits _, park_admits _, ?_⟩; decide +kernel

theorem witness_LampTargetsAndContentFollowTheRules :
    group0.override = none ∧ park.light.zoneAlarm.getD group0.defn.zone false = false
      ∧ (¬ ∃ t, group0.presence = some t ∧ park.now < t) ∧ 1000 ≤ 1000
      ∧ (∀ e ∈ park.light.groups, e.2.defn.node = nodeA 6 → 7 ∉ e.2.defn.outputs)
      ∧ (0, group0) ∈ park.light.groups ∧ 1 ∈ group0.defn.outputs
      ∧ (∀ e ∈ park.light.groups, e.2.defn.node = nodeA 6 → 1 ∈ e.2.defn.outputs → e = (0, group0)) := by
  refine ⟨rfl, rfl, (fun ⟨t, h, _⟩ => nomatch h), ?_⟩; decide +kernel

/-- A presence that ends at this second, and one that ends at the next. -/
theorem witness_LightingEventsRetargetTheGroups :
    park.handed = [] ∧ Table.wf park.light.groups = true ∧ park.light.zoneAlarm.length = 24 ∧ 23 < 24
      ∧ park.light.groups.get 0 = some group0 ∧ park.light.groups.get 191 = none
      ∧ ({ group0 with presence := some 100 } : Machine.Group).presence = some 100 ∧ 100 ≤ park.now ∧ park.now < 101
      ∧ park.guide.signs.get 63 = none ∧ park.guide.signs.get 0 = some sign0 ∧ sign0.display.chosen = some 0
      ∧ sign0.defn.directions[0]? = some ⟨.left, [0], [0]⟩ ∧ ([0] : List Nat).Nodup := by decide +kernel

theorem witness_LampOutcomesReportsAndNodeEventsAreTaken :
    park.handed = [] ∧ group0.defn.node = nodeA 6 ∧ (0, group0) ∈ park.light.groups := by decide +kernel

theorem witness_LightingRequestsFollowTheirRules :
    Admits .operator park ∧ Admits .view park ∧ Table.wf park.light.groups = true ∧ 2 ≤ (2 : Byte).toNat
      ∧ park.light.mode = .opened ∧ park.light.mode ≠ .quiet ∧ 192 ≤ (192 : Byte).toNat ∧ (191 : Byte).toNat < 192
      ∧ (∃ j, (0 : Byte).toNat ≤ j ∧ j ≤ (191 : Byte).toNat ∧ park.light.groups.get j ≠ none)
      ∧ park.light.groups.get 191 = none ∧ park.light.groups.get 0 = some group0
      ∧ ∀ j, (1 : Byte).toNat ≤ j → j ≤ (191 : Byte).toNat → park.light.groups.get j = none := by
  refine ⟨park_admits _, park_admits _, rfl, by decide, rfl, by decide +kernel, by decide, by decide,
    ⟨0, by decide +kernel⟩, rfl, rfl, ?_⟩
  intro j h _
  have h : 1 ≤ j := h
  have h0 : ¬ 0 = j := by omega
  simp [park, parkWith, Table.get, h0]

theorem witness_GroupDefFollowsItsRules :
    Admits .installer park ∧ ([0, 1] : List Byte).length < 256 ∧ 192 ≤ (192 : Byte).toNat ∧ (191 : Byte).toNat < 192
      ∧ park.light.groups.get 191 = none ∧ park.light.groups.get 0 = some group0 ∧ nodeOf 0 6 = some (nodeA 6)
      ∧ (∀ o ∈ ([0, 7] : List Byte), o.toNat < 8) ∧ ¬ (8 : Byte).toNat < 8 ∧ nat16 0 0 ≤ nat16 7 255 ∧ nat16 7 255 < 2048
      ∧ (31 : Byte).toNat < 32 ∧ park.zone 23 = none ∧ park.zone 0 = some zone0
      ∧ park.node (nodeA 6) = some (online .lamp) ∧ park.node (nodeA 5) = some (online .sign)
      ∧ (∃ e ∈ park.light.groups, e.1 ≠ 191 ∧ e.2.defn.node = nodeA 6
          ∧ ∃ o ∈ e.2.defn.outputs, o ∈ ([1] : List Byte).map BitVec.toNat)
      ∧ (∀ e ∈ park.light.groups, e.2.defn.node = nodeA 6 →
          (∃ o ∈ e.2.defn.outputs, o ∈ ([7] : List Byte).map BitVec.toNat) → e.1 = 191)
      ∧ (parkWithSpare .lamp).node (nodeA 7) = some (online .lamp) ∧ group0.defn.node ≠ nodeA 7 := by
  refine ⟨park_admits _, ?_⟩; decide +kernel

theorem witness_NodeRequestsFollowTheirRules :
    Admits .view park ∧ Admits .installer park ∧ 3 ≤ (3 : Byte).toNat ∧ nodeOf 4 1 = none ∧ nodeOf 0 32 = none
      ∧ nodeOf 3 31 = some ⟨.d, 31⟩ ∧ park.node ⟨.d, 31⟩ = none ∧ park.node (nodeA 1) = some (online .gas)
      ∧ (online .gas).report = .empty ∧ ({ online .sign with report := .sign .ok } : Node).report = .sign .ok
      ∧ ({ online .ramp with report := .ramp 255 } : Node).report = .ramp 255
      ∧ ({ online .lamp with report := .lamp (List.replicate 8 .failed) } : Node).report
        = .lamp [.failed, .failed, .failed, .failed, .failed, .failed, .failed, .failed]
      ∧ 4 ≤ (4 : Byte).toNat ∧ loopOf 3 = some .d ∧ (List.replicate 8 (0 : Byte)).length ≤ 8
      ∧ 8 < (List.replicate 9 (0 : Byte)).length ∧ 6 ≤ (6 : Byte).toNat ∧ roleOf 5 = some .ramp
      ∧ (∃ e ∈ park.gas.heads, e.2.defn.node = nodeA 1)
      ∧ (parkWithSpare .gas).node (nodeA 7) = some (online .gas)
      ∧ ¬ (∃ e ∈ (parkWithSpare .gas).gas.heads, e.2.defn.node = nodeA 7)
      ∧ ¬ (∃ e ∈ (parkWithSpare .gas).occ.bays, e.2.defn.node = nodeA 7)
      ∧ ¬ (∃ e ∈ (parkWithSpare .gas).occ.ramps, e.2.defn.node = nodeA 7)
      ∧ ¬ (∃ e ∈ (parkWithSpare .gas).fans.fans, e.2.defn.node = nodeA 7)
      ∧ ¬ (∃ e ∈ (parkWithSpare .gas).light.groups, e.2.defn.node = nodeA 7)
      ∧ ¬ (∃ e ∈ (parkWithSpare .gas).guide.signs, e.2.defn.node = nodeA 7) := by
  refine ⟨park_admits _, park_admits _, ?_⟩; decide +kernel

/-- The car park's node numbers are below 124. -/
theorem park_places : ∀ i x, park.loops.nodes.get i = some x → i < 124 := by
  intro i x h
  simp only [park, parkWith, Table.get] at h
  repeat' split at h
  all_goals first | omega | simp at h

theorem witness_LoopResetActsOnItsLoop :
    Admits .installer park ∧ 4 ≤ (4 : Byte).toNat ∧ loopOf (3 : Byte).toNat = some .d
      ∧ Table.wf park.loops.nodes = true ∧ ∀ i x, park.loops.nodes.get i = some x → i < 124 :=
  ⟨park_admits _, by decide, by decide, by decide +kernel, park_places⟩

/-- A transaction of the car park in flight. -/
def txAt (n : NodeId) (op : LoopOp) (src : TxSource) (role : Option Role) : Transaction :=
  { node := n, op := op, source := src, role := role, request := [], voided := false, lastWrite := false
    emptied := false }

/-- The car park with a transaction in flight, and loop A as given. -/
def parkBusy (tx : Transaction) (a : LoopState) : State :=
  { park with loops := { park.loops with tx := some tx, lines := { park.loops.lines with a := a } } }

/-- A roll-call of loop A in flight, after one and after two empty ones; and an IGNORED condition at its end. -/
theorem witness_AttentionAndRollcallsFollowTheRules :
    let s := parkBusy (txAt ⟨.a, 0⟩ .rollcall .rollcall none) { LoopState.initial true with empties := 2 }
    s.handed = [] ∧ (s.line .a).ignoredSince = none
      ∧ (parkBusy (txAt ⟨.a, 0⟩ .rollcall .rollcall none)
            { LoopState.initial true with ignoredSince := some 90 }).loops.lines.a.ignoredSince = some 90
      ∧ 90 + 10 ≤ s.now ∧ s.now < 91 + 10
      ∧ s.loops.tx = some (txAt ⟨.a, 0⟩ .rollcall .rollcall none)
      ∧ 2 ≤ (s.line .a).empties ∧ ({ LoopState.initial true with empties := 1 } : LoopState).empties < 2
      ∧ ((List.range 32).filter fun a =>
          (2 : BitVec 32).getLsbD a = true ∧ ∃ y ∈ (s.node ⟨.a, a⟩).toList, y.retiring = false) ≠ []
      ∧ ((List.range 32).filter fun a =>
          (0 : BitVec 32).getLsbD a = true ∧ ∃ y ∈ (s.node ⟨.a, a⟩).toList, y.retiring = false) = [] := by
  decide +kernel

/-- Also a voided transaction, an address without an entry, a retiring entry after its last write, and an entry one failure
short of LOST. -/
theorem witness_OutcomesReachTheNodeEntry :
    let s := parkBusy (txAt (nodeA 2) .read .service (some .fan)) (LoopState.initial false)
    s.handed = [] ∧ s.loops.tx = some (txAt (nodeA 2) .read .service (some .fan)) ∧ s.node (nodeA 2) = some (online .fan)
      ∧ (online .fan).retiring = false ∧ Table.wf s.loops.nodes = true
      ∧ ([] : List Byte).length ≤ replyLength .read 2 ∧ ([0x55] : List Byte).length = replyLength .read 2
      ∧ (0 : Byte) ≠ crc8 [0x82, 0x55] ∧ (0x82 : Byte).toNat % 8 = roleCode .fan ∧ (0x81 : Byte).toNat % 8 ≠ roleCode .fan
      ∧ (0x82 : Byte).getLsbD 7 = true ∧ (0x42 : Byte).getLsbD 6 = true
      ∧ (txAt (nodeA 2) .identify .list (some .fan)).op = .identify
      ∧ (txAt (nodeA 2) .write .urgent (some .fan)).op = .write
      ∧ ({ txAt (nodeA 2) .write .urgent (some .fan) with voided := true } : Transaction).voided = true
      ∧ s.node (nodeA 31) = none ∧ (txAt (nodeA 2) .read .service (some .fan)).role ≠ none
      ∧ (txAt (nodeA 2) .read .list none).role = none
      ∧ ({ txAt (nodeA 2) .setup .urgent (some .fan) with voided := true } : Transaction).op ≠ .write
      ∧ (let x : Node := { online .fan with retiring := true, failures := 2 }
         let tx : Transaction := { txAt (nodeA 2) .write .urgent (some .fan) with lastWrite := true }
         let u : State := { parkBusy tx (LoopState.initial false) with
           loops :=
             { (parkBusy tx (LoopState.initial false)).loops with nodes := park.loops.nodes.put 1 x } }
         u.node (nodeA 2) = some x ∧ x.retiring = true ∧ tx.source = .urgent ∧ tx.lastWrite = true ∧ tx.voided = false
           ∧ u.items.failLimit ≤ min 15 (x.failures + 1)) := by decide +kernel

/-- R128: NODE-DEF made the entry of A-2 while a READ sent to the empty address was in flight. -/
theorem test_outcomeWithoutEntry :
    (after (.replyTimeout ⟨false, false, false, false⟩)
        (parkBusy (txAt (nodeA 2) .read .list none) (LoopState.initial false))).node (nodeA 2)
      = park.node (nodeA 2) := by decide +kernel

/-- R138 and R142: a SETUP that LOOP-RESET ended is re-posted when it fails, and a WRITE is not. -/
theorem test_voidedSetupIsReposted :
    let failed (op : LoopOp) : State :=
      effect (.replyTimeout ⟨false, false, false, false⟩)
        (parkBusy { txAt (nodeA 2) op .urgent (some .fan) with voided := true } (LoopState.initial false))
    (failed .setup).loops.urgent = [nodeA 2] ∧ (failed .write).loops.urgent = []
      ∧ (failed .setup).node (nodeA 2) = park.node (nodeA 2) := by decide +kernel

/-- 32 different nodes, which fill the urgent write queue. -/
def fullQueue : List NodeId := (List.range 31).map (fun a => ⟨.b, a + 1⟩) ++ [⟨.c, 1⟩]

theorem witness_UrgentQueueKeepsItsOrder :
    (∀ i x, park.loops.nodes.get i = some x → i < 124) ∧ nodeA 2 ∉ park.loops.urgent ∧ park.loops.urgent.length < 32
      ∧ ⟨.b, 31⟩ ∈ fullQueue ∧ nodeA 2 ∉ fullQueue
      ∧ 32 ≤ fullQueue.length ∧ fullQueue.length ≤ 32 ∧ park.node (nodeA 2) = some (online .fan)
      ∧ Table.wf park.loops.nodes = true ∧ fullQueue = ⟨.b, 1⟩ :: fullQueue.drop 1 ∧ addrOk (nodeA 31).addr = true :=
  ⟨park_places, by decide +kernel⟩

/-- Each source of R136: a service set, a pending roll-call, an urgent entry, and a list that is RUNNING with a POLL. -/
theorem witness_EngineChoosesInOrder :
    park.handed = [] ∧ park.loops.tx = none ∧ ¬ (8 ≤ park.loops.sinceList ∧ park.list.ready = true)
      ∧ (∀ m, (park.line m).service = []) ∧ (∀ m, (park.line m).latch = false) ∧ park.loops.urgent = []
      ∧ ({ LoopState.initial true with service := [1, 2] } : LoopState).service = 1 :: [2]
      ∧ ({ LoopState.initial true with latch := true } : LoopState).latch = true
      ∧ ({ park.list with state := .running, memory := [.poll (nodeA 1) false false] } : ScanList).ready = true
      ∧ ({ park.list with state := .running, memory := [.poll (nodeA 1) false false] } : ScanList).entry 0
          = .poll (nodeA 1) false false
      ∧ park.list.ready = false
      ∧ ({ park with loops := { park.loops with urgent := [nodeA 2] } } : State).popUrgent.node (nodeA 2)
          = some (online .fan)
      ∧ ({ park with loops := { park.loops with urgent := [nodeA 31] } } : State).popUrgent.node (nodeA 31) = none
      ∧ (∀ e ∈ park.fans.fans, e.2.defn.node = nodeA 2 → e.1 = 0)
      ∧ (∀ e ∈ park.guide.signs, e.2.defn.node = nodeA 5 → e.1 = 0) := by
  refine ⟨rfl, rfl, by decide +kernel, fun m => by cases m <;> rfl, fun m => by cases m <;> rfl, ?_⟩; decide +kernel

/-- The list RUNNING at entry 0, which is the one given, at its turn. -/
def parkReady (e : ListEntry) : State :=
  { park with
    list :=
      { park.list with
        memory := e :: List.replicate 255 .halt, state := .running, progress := { Progress.absent with nextAddr := some 31 } } }

/-- A RUN in each mode and a POLL WRITE of a node that takes output, of one that does not and of none. -/
theorem witness_EngineTakesTheListsTurn :
    let s := parkReady (.run (nodeA 1) 255 .sweep false)
    s.handed = [] ∧ s.loops.tx = none ∧ s.list.state = .running ∧ s.list.inFlight = none ∧ s.list.haltPending = false
      ∧ ((∀ m, (s.line m).service = []) ∧ (∀ m, (s.line m).latch = false) ∧ s.loops.urgent = [])
      ∧ 8 ≤ ({ s.loops with sinceList := 8 } : LoopMaster).sinceList
      ∧ s.list.memory.getD s.list.cursor .halt = .run (nodeA 1) 255 .sweep false ∧ s.list.progress.nextAddr = some 31
      ∧ (parkReady (.run (nodeA 1) 1 .repeat true)).list.memory.getD 0 .halt = .run (nodeA 1) 1 .repeat true
      ∧ (parkReady (.run (nodeA 1) 1 .stop true)).list.memory.getD 0 .halt = .run (nodeA 1) 1 .stop true
      ∧ (parkReady (.poll (nodeA 2) true false)).list.memory.getD 0 .halt = .poll (nodeA 2) true false
      ∧ s.node (nodeA 2) = some (online .fan) ∧ (online .fan).setupDue = false
      ∧ ({ online .fan with setupDue := true } : Node).setupDue = true
      ∧ (∀ x, s.node (nodeA 1) = some x → x.defn.role = .bay ∨ x.defn.role = .gas ∨ x.defn.role = .ramp)
      ∧ ∀ x, s.node (nodeA 31) = some x → x.defn.role = .bay ∨ x.defn.role = .gas ∨ x.defn.role = .ramp := by
  refine ⟨rfl, rfl, rfl, rfl, rfl, ⟨fun m => by cases m <;> rfl, fun m => by cases m <;> rfl, rfl⟩, by decide,
    by decide +kernel, rfl, rfl, rfl, rfl, by decide +kernel, rfl, rfl, fun x h => ?_, fun x h => ?_⟩
  · cases h; exact .inr (.inl rfl)
  · cases h

theorem witness_ListRequestsFollowTheirRules :
    Admits .view park ∧ Admits .installer park ∧ 32 < (33 : Byte).toNat ∧ (32 : Byte).toNat ≤ 32 ∧ 124 ≤ (124 : Byte).toNat
      ∧ (123 : Byte).toNat < 124 ∧ 256 < (255 : Byte).toNat + 2 ∧ (255 : Byte).toNat + 1 ≤ 256
      ∧ park.list.state = .idle ∧ park.list.inFlight = none
      ∧ ({ park.list with state := .running, cursor := 3 } : ScanList).cursor = 3
      ∧ ({ park.list with inFlight := some (nodeA 1, .read) } : ScanList).inFlight ≠ none := by
  refine ⟨park_admits _, park_admits _, ?_⟩; decide +kernel

/-- The list RUNNING at entry 0, which is the one given, with its transaction in flight. -/
def parkListed (e : ListEntry) (m : Option Nat) (p : Progress) : State :=
  { park with
    list :=
      { park.list with
        memory := e :: List.replicate 255 .halt, state := .running, remaining := m, progress := p
        inFlight := some (nodeA 1, .read) } }

theorem witness_ListStepsByTheEntryAtItsCursor :
    park.list.memory.length = 256 ∧ (parkListed (.poll (nodeA 1) false true) none .absent).list.memory.length = 256
      ∧ (parkListed (.poll (nodeA 1) false true) none .absent).list.memory.getD 0 .halt = .poll (nodeA 1) false true
      ∧ (parkListed (.jump 0) none .absent).list.memory.getD 0 .halt = .jump 0
      ∧ (parkListed (.jump 0) none .absent).list.jumpRun < 255
      ∧ (parkListed (.pause 65535) none .absent).list.memory.getD 0 .halt = .pause 65535
      ∧ (parkListed .halt none .absent).list.state = .running
      ∧ (parkListed (.run (nodeA 1) 1 .stop false) (some (0 + 1)) .absent).list.remaining = some (0 + 1)
      ∧ (parkListed (.run (nodeA 1) 2 .sweep false) (some (1 + 1))
            { Progress.absent with nextAddr := some 1 }).list.progress.nextAddr = some 1
      ∧ (parkListed (.run (nodeA 1) 2 .repeat false) (some (1 + 1))
            { Progress.absent with itemStart := some 99950, limitRunning := true }).list.progress.limitRunning = true
      ∧ 99950 + park.items.repeatLimit ≤ park.clockMs ∧ park.clockMs < 99951 + park.items.repeatLimit
      ∧ park.handed = [] ∧ park.list.inFlight = none ∧ park.list.progress.limitRunning = false
      ∧ park.list.state ≠ .paused
      ∧ ({ park.list with jumpRun := 255 } : ScanList).jumpRun = 255 := by decide +kernel

theorem witness_PortRequestsFollowTheirRules :
    Admits .view park ∧ Admits .installer park ∧ (List.replicate 240 (0 : Byte)).length ≤ 240
      ∧ 240 < longBody.length ∧ nat32 255 255 255 255 = park.items.installerCode
      ∧ nat32 0 0 0 1 ≠ park.items.installerCode ∧ nat32 0 0 0 1 ≠ park.items.operatorCode
      ∧ 25 ≤ (25 : Byte).toNat ∧ (24 : Byte).toNat < 25
      ∧ (0 : Nat) < (parkWith 100 (fanIn .running)).fans.account ∧ park.items.value 24 = 0 ∧ park.items.value 24 ≠ 1 := by
  refine ⟨park_admits _, park_admits _, ?_⟩; decide +kernel

/-- The tables of the car park in their form, each site mode, and a spacing that has passed and one that has not. -/
theorem witness_ItemChangesReachTheirOwners :
    Table.wf park.fans.fans = true ∧ Table.wf park.air.zones = true ∧ Table.wf park.gas.heads = true ∧ Table.wf park.light.groups = true
      ∧ park.light.mode = .opened ∧ ({ park.light with mode := .quiet } : Lighting).mode = .quiet ∧ park.handed = [] := by
  decide +kernel

/-- The settings of the car park as an image, with auto-start clear and set. -/
theorem witness_StartsBeginTheLoopsAndTheList :
    Table.wf park.settings.nodes = true ∧ (∀ e ∈ park.settings.nodes, e.1 < 124)
      ∧ park.settings.items.autoStart = false ∧ ({ Items.factory with autoStart := true } : Items).autoStart = true := by
  decide +kernel

/-- A stop error with and without a node, records and entries that exist and that do not, and each role report. -/
theorem witness_NotesTellTheOwnersState :
    ({ park.list with stopError := some ⟨255, .limit, some (nodeA 31), 99⟩ } : ScanList).stopError
        = some ⟨255, .limit, some (nodeA 31), 99⟩
      ∧ ({ park.list with stopError := some ⟨0, .jumpLoop, none, 99⟩ } : ScanList).stopError
        = some ⟨0, .jumpLoop, none, 99⟩
      ∧ park.list.stopError = none ∧ park.zone 23 = none ∧ park.zone 0 = some zone0 ∧ 0 ∉ park.air.alarmOrder
      ∧ parkInAlarm.air.alarmOrder = [] ++ 0 :: [] ∧ park.fan 47 = none ∧ park.fan 0 = some (fanIn .off)
      ∧ park.node (nodeA 31) = none ∧ park.node (nodeA 2) = some (online .fan)
      ∧ ({ online .ramp with report := .ramp 255 } : Node).report = .ramp 255
      ∧ ({ online .lamp with report := .lamp (List.replicate 8 .unknown) } : Node).report
        = .lamp [.unknown, .unknown, .unknown, .unknown, .unknown, .unknown, .unknown, .unknown] := by decide +kernel

theorem witness_SavedSettingsComeBack :
    Admits .installer park ∧ park.store.saveState ≠ .inProgress ∧ park.handed = []
      ∧ ({ park.store with saveState := .inProgress, snapshot := some Settings.factory } : Store).snapshot
          = some Settings.factory
      ∧ (match park.store.image with | .spoiled => true | .written _ _ => false) = true := by
  refine ⟨park_admits _, by decide, rfl, rfl, rfl⟩

/-- The store with an image that passes its check. -/
def storeWritten (c : Settings) : Store :=
  { State.reset.store with image := .written c (crc32 (Config.imageBytes c)) }

/-- A store whose image is of records: a zone, a fan, a sign and a group. -/
theorem witness_SavedSettingsComeBack_start : SavedSound (storeWritten park.settings) ∧ sign0.defn.sources ≠ [] := by
  refine ⟨⟨fun _ h => (nomatch h), fun c h => ?_⟩, by decide⟩
  have e : c = park.settings := by simpa [storeWritten, StoredImage.contents] using h.symm
  subst e
  exact
    { fans := by decide
      ordered := by
        intro i x h
        have e : park.settings.fans = [(0, ⟨(fanIn .off).defn, 0⟩)] := rfl
        rw [e] at h
        simp only [Table.get] at h
        split at h
        · cases h; rfl
        · cases h
      zones := by decide
      bays := by decide
      signs := by decide
      groups := by decide
      nodes := by decide +kernel
      places := by
        intro i x h
        have e : park.settings.nodes = [0, 1, 2, 3, 4, 5].zip (List.map (⟨·, []⟩) [.gas, .fan, .bay, .ramp, .sign, .lamp]) := rfl
        rw [e] at h
        simp only [Table.get, List.zip, List.zipWith, List.map] at h
        repeat' split at h
        all_goals first | (simp at h; done) | (simp only [Config.nodes]; omega)
      memory := by decide +kernel }

/-- A stored image that passes its check. -/
theorem witness_SavedSettingsComeBack_image :
    (match StoredImage.written Settings.factory (crc32 (Config.imageBytes Settings.factory)) with
      | .spoiled => none
      | .written c crc => if crc32 (Config.imageBytes c) = crc then some c else none) = some Settings.factory := by simp

theorem witness_DefaultsGivesTheFactorySettings :
    Admits .installer park ∧ ∀ i ∈ parkInAlarm.air.alarmOrder, ∃ z, parkInAlarm.zone i = some z ∧ z.inAlarm = true := by
  refine ⟨park_admits _, fun i hi => ?_⟩
  cases hi with
  | head => exact ⟨_, rfl, rfl⟩
  | tail _ h => cases h

/-- Supervision that ends at this second, four and three waiting replies, and a request below its level. -/
theorem witness_FramesAndSupervisionFollowTheRules :
    park.handed = [] ∧ park.port.receiver = .hunting ∧ ({ park.port with receiver := .inFrame [] } : Port).receiver = .inFrame []
      ∧ 240 < (241 : Byte).toNat ∧ (240 : Byte).toNat ≤ 240 ∧ (List.replicate 242 (0 : Byte)).length + 2 < 240 + 5
      ∧ park.port.replies.length < 4 ∧ requestOf 0x02 7 [] released = some (.ping 7 [])
      ∧ requestOf 0x4A 7 [3] released = some (.loopReset 7 ⟨[3], released⟩) ∧ longBody.length = 241
      ∧ (List.replicate 25 (8 : Byte)).length = 17 + ((List.replicate 25 (8 : Byte)).getD 5 0).toNat
      ∧ ([0, 31, 0, 0, 0] : List Byte).length = 5 + (([0, 31, 0, 0, 0] : List Byte).getD 4 0).toNat
      ∧ ([255, 1, 4, 0, 0, 0, 0] : List Byte).length = 2 + 5 * (([255, 1, 4, 0, 0, 0, 0] : List Byte).getD 1 0).toNat
      ∧ accessCode .view < accessCode .operator ∧ park.port.sending = none
      ∧ park.port.link = .supervised ∧ 0 < park.items.supervisionTime
      ∧ 70 + park.items.supervisionTime ≤ park.now ∧ ¬ 71 + park.items.supervisionTime ≤ park.now
      ∧ park.port.replies = [] ∧ park.port.startNote = false ∧ park.port.notes = [] := by decide +kernel

theorem witness_ReceivedFrameIsDispatched :
    State.reset.handed = [] ∧ settle State.reset = State.reset ∧ State.reset.port.receiver = .hunting
      ∧ (List.replicate 240 (0 : Byte)).length ≤ 240 ∧ ([0, 0] : List Byte) ≠ u16 (crc16 [0, 2, 7]).toNat := by
  decide +kernel

theorem witness_StepTakesTheFrontCommand :
    ({ park with pending := [.frameSent] } : State).pending = .frameSent :: [] ∧ park.pending = [] ∧ park.handed = []
      ∧ park.due = []
      ∧ ({ park with handed := [.trafficEvent 0] } : State).handed = .trafficEvent 0 :: []
      ∧ (parkWith 100 { fanIn .starting with lastGrant := some 70 }).due = .startTimeout 0 :: [] := by decide +kernel

/-- Two closures of zone 0 wait at the Guidance Unit, the later of which is given as a command. -/
theorem witness_StepTakesTheFrontCommand_handed :
    isStart (.zoneChangeGuidance 0 false) = false
      ∧ ({ park with handed := [.zoneChangeGuidance 0 true, .zoneChangeGuidance 0 false] } : State).handed
          = [.zoneChangeGuidance 0 true] ++ .zoneChangeGuidance 0 false :: []
      ∧ Instr.zoneChangeGuidance 0 false ∉ [Instr.zoneChangeGuidance 0 true] := by decide

theorem witness_ResetIsTheFactoryPowerOn : park.store.image = .spoiled := rfl

/-- The car park is sound, with its fan RUNNING. -/
theorem witness_EveryStepKeepsTheStateSound : Sound (parkWith 100 (fanIn .running)) where
  capacities :=
    { replies := by decide, urgent := by decide, urgentOnce := by decide, notesOnce := by decide, memory := by decide +kernel }
  supply :=
    { table := by decide
      ordered := by
        intro i f h
        simp only [parkWith, State.fan, Table.get] at h
        split at h
        · cases h; rfl
        · cases h
      account := by decide +kernel
      limit := by decide +kernel
      slot := by decide +kernel }
  alarmOrder :=
    { table := by decide
      once := by decide
      exact := by
        intro i
        simp only [parkWith, Table.get, List.not_mem_nil, false_iff]
        rintro ⟨z, h, a⟩
        split at h
        · cases h; cases a
        · cases h }
  counts :=
    { table := by decide
      exact := by
        intro z c st
        by_cases h : 0 = z
        · subst h; cases c <;> cases st <;> rfl
        · have e : (parkWith 100 (fanIn .running)).occ.counts.get z = none := by simp [parkWith, Table.get, h]
          rw [e]
          cases c <;> cases st <;> simp [parkWith, bayTally, bay0, h, noCounts, PerClass.get, Counts.zero, Counts.get] }
  guide :=
    { table := by decide
      view := by decide +kernel
      agree := by
        intro i x h
        simp only [parkWith, Table.get] at h
        split at h
        · cases h; rfl
        · cases h }
  light := { table := by decide, view := by decide +kernel }
  nodes := { table := by decide +kernel, places := park_places }
  saved :=
    { snapshot := fun c h => by simp [parkWith, State.reset] at h
      image := fun c h => by simp [parkWith, State.reset, StoredImage.contents] at h }

/-- Counts that are the numbers of the bays, and a sound node table, with a node in the urgent write queue and one not. -/
theorem witness_StripReadingDebouncesEveryBay_counts :
    CountsSound (parkWith 100 (fanIn .running)).occ ∧ (parkWith 100 (fanIn .running)).occ.bays.get 0 = some bay0 :=
  ⟨witness_EveryStepKeepsTheStateSound.counts, rfl⟩

theorem witness_DefaultsGivesTheFactorySettings_nodes :
    NodesSound (parkWith 100 (fanIn .running)).loops
      ∧ (parkWith 100 (fanIn .running)).fan 0 = some (fanIn .running)
      ∧ (parkWith 100 (fanIn .running)).loops.nodes.get 1 = some (online .fan) ∧ nodeAt 1 = nodeA 2
      ∧ (parkWith 100 (fanIn .running)).loops.nodes.get 2 = some (online .bay) :=
  ⟨witness_EveryStepKeepsTheStateSound.nodes, rfl, rfl, rfl, rfl⟩

/-- A sound state that takes a SAVE, with its records to come back. -/
theorem witness_SavedSettingsComeBack_sound :
    Admits .installer (parkWith 100 (fanIn .running)) ∧ (parkWith 100 (fanIn .running)).store.saveState ≠ .inProgress
      ∧ Sound (parkWith 100 (fanIn .running)) ∧ SavedSound (parkWith 100 (fanIn .running)).store
      ∧ (parkWith 100 (fanIn .running)).settings.fans ≠ [] :=
  ⟨parkWith_admits _ _ _, by decide, witness_EveryStepKeepsTheStateSound, witness_EveryStepKeepsTheStateSound.saved,
    by decide +kernel⟩

end Sys2Proof.Tests
end

