-- ==== Sys2Proof/Proofs/Rules.lean ====
section
/-! SUPPORT. Rules of the operations every request shares: marks, what a passed frame leaves, and the checks. -/

namespace Sys2Proof.Machine

/-! ### Marks touch the port alone -/

/-- The port after a subject is marked (R169). -/
def Port.mark (x : Subject) (p : Port) : Port := if x ∈ p.notes then p else { p with notes := p.notes ++ [x] }

theorem State.mark_eq_port (s : State) (x : Subject) : s.mark x = { s with port := s.port.mark x } := by
  unfold State.mark Port.mark
  split <;> rfl

theorem State.markWhen_eq_port (s : State) (b : Bool) (x : Subject) :
    s.markWhen b x = { s with port := if b then s.port.mark x else s.port } := by
  cases b with
  | false => rfl
  | true => exact s.mark_eq_port x

theorem State.markAll_eq_port (s : State) (xs : List Subject) :
    s.markAll xs = { s with port := xs.foldl (fun p x => p.mark x) s.port } := by
  unfold State.markAll
  induction xs generalizing s with
  | nil => rfl
  | cons x xs ih => rw [List.foldl_cons, List.foldl_cons, ih, State.mark_eq_port]

/-! ### What a passed frame leaves to the owners -/

section
variable (s : State)

@[simp] theorem State.framePassed_node (n : NodeId) : s.framePassed.node n = s.node n := by
  unfold State.node
  rw [State.framePassed_loops]

@[simp] theorem State.framePassed_nodeLost (n : NodeId) : s.framePassed.nodeLost n = s.nodeLost n := by
  unfold State.nodeLost
  rw [State.framePassed_node]

@[simp] theorem State.framePassed_zone (z : Nat) : s.framePassed.zone z = s.zone z := by
  unfold State.zone
  rw [State.framePassed_air]

@[simp] theorem State.framePassed_now : s.framePassed.now = s.now := by
  unfold State.now
  rw [State.framePassed_clockMs]

end

theorem State.nodeLost_of_node {s : State} {n : NodeId} {x : Node} (hx : s.node n = some x) :
    s.nodeLost n = (x.state == .lost) := by
  unfold State.nodeLost
  rw [hx]

theorem State.zoneDefined_of_some {s : State} {z : Nat} {r : Zone} (hz : s.zone z = some r) : s.zoneDefined z = true := by
  unfold State.zoneDefined
  rw [hz]
  rfl

theorem State.zoneDefined_of_none {s : State} {z : Nat} (hz : s.zone z = none) : s.zoneDefined z = false := by
  unfold State.zoneDefined
  rw [hz]
  rfl

/-! ### The checks of a request -/

theorem refuseIf_of_true {b : Bool} {c : RefusalCode} {rest : Owned} (h : b = true) : refuseIf b c rest = .error c :=
  if_pos h

theorem refuseIf_of_false {b : Bool} {c : RefusalCode} {rest : Owned} (h : b = false) : refuseIf b c rest = rest :=
  if_neg (by simp [h])

end Sys2Proof.Machine
end

