-- ==== Sys2Proof/Proofs/GasConversion.lean ====
section
/-! SUPPORT. The conversion of a raw count, range selection and smoothing (R5 to R9). -/

namespace Sys2Proof.Machine

/-! ### Conversion (R5) -/

/-- The product of R5 is at most the greatest count times the greatest gain. -/
theorem gainProduct_le {raw gain : Nat} (hr : raw ≤ 4095) (hg : gain ≤ 65535) : raw * gain ≤ 268365825 :=
  Nat.mul_le_mul hr hg

/-- Below the range the sum is clamped to 0. -/
theorem convert_of_neg {raw gain : Nat} {offset : Int} (shift : Nat)
    (h : ((raw * gain / 4096 : Nat) : Int) + offset < 0) : convert raw gain offset shift = 0 := by
  have hsum : (((raw * gain / 4096 : Nat) : Int) + offset).toNat = 0 := Int.toNat_of_nonpos (Int.le_of_lt h)
  unfold convert
  dsimp only
  rw [hsum, Nat.zero_min, Nat.zero_div]

/-- Inside the range the sum itself is shifted. -/
theorem convert_of_inRange {raw gain : Nat} {offset : Int} (shift : Nat)
    (h0 : 0 ≤ ((raw * gain / 4096 : Nat) : Int) + offset)
    (h1 : ((raw * gain / 4096 : Nat) : Int) + offset ≤ 65535) :
    (convert raw gain offset shift : Int) = (((raw * gain / 4096 : Nat) : Int) + offset) / 2 ^ shift := by
  have hclamp : min (((raw * gain / 4096 : Nat) : Int) + offset).toNat 65535
      = (((raw * gain / 4096 : Nat) : Int) + offset).toNat := by omega
  have hcast := Int.toNat_of_nonneg h0
  unfold convert
  dsimp only
  rw [hclamp, Int.natCast_ediv, hcast, Int.natCast_pow]
  rfl

/-- Above the range the sum is clamped to 65535. -/
theorem convert_of_above {raw gain : Nat} {offset : Int} (shift : Nat)
    (h : 65535 < ((raw * gain / 4096 : Nat) : Int) + offset) : convert raw gain offset shift = 65535 / 2 ^ shift := by
  have hclamp : min (((raw * gain / 4096 : Nat) : Int) + offset).toNat 65535 = 65535 := by omega
  unfold convert
  dsimp only
  rw [hclamp]

/-- The value of a conversion fits the bits that the shift leaves of 16. -/
theorem convert_le (raw gain : Nat) (offset : Int) (shift : Nat) : convert raw gain offset shift ≤ 65535 / 2 ^ shift :=
  Nat.div_le_div_right (Nat.min_le_right _ _)

/-- Settles O1: each range of the table from the greatest product, and the value by the place of the sum. -/
theorem gasConversionFollowsTheFiveSteps : Obligations.GasConversionFollowsTheFiveSteps := by
  intro c raw gain offset shift hraw hgain hlow hhigh _
  have hprod : raw * gain ≤ 268365825 := gainProduct_le hraw hgain
  have hquot : raw * gain / 4096 ≤ 65519 := by omega
  exact ⟨rfl, rfl, hprod, hquot, by omega, by omega, convert_of_neg shift, convert_of_inRange shift,
    convert_of_above shift, convert_le raw gain offset shift⟩

/-! ### Range selection (R6, R7) -/

/-- R7 on natural numbers is the signed comparison with X − Y that the spec states. -/
theorem belowCrossover_iff (crossover hysteresis v : Nat) :
    (hysteresis < crossover ∧ v < crossover - hysteresis)
      ↔ (0 < (crossover : Int) - hysteresis ∧ (v : Int) < (crossover : Int) - hysteresis) := by
  omega

theorem selectRange_coarse_signed (c : Calibration) (fine coarse : Nat) :
    selectRange c .coarse fine coarse
      = if 0 < (c.crossover : Int) - c.hysteresis ∧ (c.coarse coarse : Int) < (c.crossover : Int) - c.hysteresis
            ∧ fine < 4095 then
          (.fine, c.fine fine)
        else (.coarse, c.coarse coarse) := by
  unfold selectRange
  simp only [← and_assoc, belowCrossover_iff]

/-- With crossover 0 a channel in FINE leaves it at every reading. -/
theorem selectRange_fine_of_noCrossover {c : Calibration} (h : c.crossover = 0) (fine coarse : Nat) :
    (selectRange c .fine fine coarse).1 = .coarse := by
  simp [selectRange, h]

/-- With X − Y at most 0 a channel in COARSE stays there. -/
theorem selectRange_coarse_of_le {c : Calibration} (h : c.crossover ≤ c.hysteresis) (fine coarse : Nat) :
    (selectRange c .coarse fine coarse).1 = .coarse := by
  simp [selectRange, Nat.not_lt.mpr h]

/-! ### Smoothing (R9) -/

theorem smooth_seed (a m v : Nat) : smooth true a m v = v := rfl

theorem smooth_up {m v : Nat} (a : Nat) (h : m ≤ v) : smooth false a m v = m + (v - m) / 2 ^ a := by simp [smooth, h]

theorem smooth_down {m v : Nat} (a : Nat) (h : v < m) : smooth false a m v = m - (m - v) / 2 ^ a := by
  simp [smooth, Nat.not_le.mpr h]

/-- The new smoothed value lies between the old one and the reading. -/
theorem smooth_between (a m v : Nat) : min m v ≤ smooth false a m v ∧ smooth false a m v ≤ max m v := by
  rcases Nat.lt_or_ge v m with h | h
  · have hstep := Nat.div_le_self (m - v) (2 ^ a)
    rw [smooth_down a h, Nat.min_eq_right (Nat.le_of_lt h), Nat.max_eq_left (Nat.le_of_lt h)]
    generalize (m - v) / 2 ^ a = step at hstep ⊢
    omega
  · have hstep := Nat.div_le_self (v - m) (2 ^ a)
    rw [smooth_up a h, Nat.min_eq_left h, Nat.max_eq_right h]
    generalize (v - m) / 2 ^ a = step at hstep ⊢
    omega

/-- At exponent 0 the smoothed value is the reading. -/
theorem smooth_exponent_zero (m v : Nat) : smooth false 0 m v = v := by
  rcases Nat.lt_or_ge v m with h | h
  · rw [smooth_down 0 h, Nat.pow_zero, Nat.div_one]
    omega
  · rw [smooth_up 0 h, Nat.pow_zero, Nat.div_one]
    omega

/-- The smoothed value rests exactly within 2^a − 1 of the reading. -/
theorem smooth_rests_iff (a m v : Nat) : smooth false a m v = m ↔ m < v + 2 ^ a ∧ v < m + 2 ^ a := by
  have hpos : 0 < 2 ^ a := Nat.two_pow_pos a
  rcases Nat.lt_or_ge v m with h | h
  · have hle := Nat.div_le_self (m - v) (2 ^ a)
    have hzero : (m - v) / 2 ^ a = 0 ↔ m - v < 2 ^ a := by rw [Nat.div_eq_zero_iff]; omega
    rw [smooth_down a h]
    omega
  · have hzero : (v - m) / 2 ^ a = 0 ↔ v - m < 2 ^ a := by rw [Nat.div_eq_zero_iff]; omega
    rw [smooth_up a h]
    omega

/-- Settles O2: range selection with the signed comparison, and smoothing by the side on which the reading lies. -/
theorem gasRangeSelectionAndSmoothing : Obligations.GasRangeSelectionAndSmoothing :=
  ⟨fun c fine coarse _ _ =>
    ⟨rfl, selectRange_coarse_signed c fine coarse, fun h => selectRange_fine_of_noCrossover h fine coarse,
      fun h => selectRange_coarse_of_le h fine coarse⟩,
    fun a m v =>
      ⟨smooth_seed a m v, smooth_up a, smooth_down a, (smooth_between a m v).1, (smooth_between a m v).2,
        smooth_exponent_zero m v, smooth_rests_iff a m v⟩⟩

end Sys2Proof.Machine
end

