-- ==== Sys2Proof/Proofs/GasEvents.lean ====
section
/-! SUPPORT. What a reading, the stale time and a node event change of a gas head (R3, R8, R10 to R14). -/

namespace Sys2Proof.Machine

/-! ### What a change of a head does -/

section
variable (s : State) (i : Nat) (old new : Head)

theorem State.markValidity_eq_markWhen :
    s.markValidity old new
      = s.markWhen (old.co.validity != new.co.validity || old.no2.validity != new.no2.validity)
          (.zone new.defn.zone) := by
  unfold State.markValidity State.markWhen
  by_cases hco : old.co.validity = new.co.validity <;> by_cases hno2 : old.no2.validity = new.no2.validity <;>
    simp [hco, hno2]

/-- A change of a head stores its record, marks its zone when a validity changed and hands one update (R13). -/
theorem State.changeHead_eq :
    s.changeHead i old new
      = { s.markWhen (old.co.validity != new.co.validity || old.no2.validity != new.no2.validity)
            (.zone new.defn.zone) with
          gas := { heads := s.gas.heads.put i new }
          handed := s.handed ++ [.gasUpdate new.defn.zone ⟨i, some new.viewEntry⟩ []] } := by
  unfold State.changeHead
  rw [State.markValidity_eq_markWhen, State.markWhen_eq_port, State.markWhen_eq_port]
  rfl

variable {s i old new}

theorem State.changeHeadOf_of_none {n : NodeId} (f : Head → Head) (hn : s.headOf n = none) : s.changeHeadOf n f = s := by
  unfold State.changeHeadOf
  rw [hn]

theorem State.changeHeadOf_of_some {n : NodeId} (f : Head → Head) (hn : s.headOf n = some i)
    (hh : s.gas.heads.get i = some old) : s.changeHeadOf n f = s.changeHead i old (f old) := by
  unfold State.changeHeadOf
  rw [hn]
  dsimp only
  rw [hh]

end

/-- Settles O3: the reading changes the head that names the node, both channels taking it as READY. -/
theorem gasReadingReadyTakesBothChannels : Obligations.GasReadingReadyTakesBothChannels := by
  intro s n i h a1 a0 b1 b0 c1 c0 d1 d0 hcalm hn hh
  have heff : effect (.gasReading n true [1, a1, a0, b1, b0, c1, c0, d1, d0]) s
      = s.changeHead i h
          (h.take s.now ⟨.ready, nat16 a1 a0, nat16 b1 b0, nat16 c1 c0, nat16 d1 d0⟩) :=
    State.changeHeadOf_of_some _ hn hh
  rw [exec_of_calm hcalm, heff, State.changeHead_eq, hcalm]
  rfl

/-! ### Readings and events of a gas head -/

section
variable {s : State} {n : NodeId} {i : Nat} {h : Head} {payload : List Byte}

/-- The counts of a GAS payload of 8 bytes after the status byte. -/
theorem parseGasPayload_of_length (hp : payload.length = 8) (status : Byte) :
    ∃ a b c d, parseGasPayload (status :: payload) = some ⟨headStatusOf status.toNat, a, b, c, d⟩ := by
  match payload, hp with
  | [_, _, _, _, _, _, _, _], _ => exact ⟨_, _, _, _, rfl⟩

theorem effGasReading_of_noHead (hn : s.headOf n = none) : effGasReading n true payload s = s := by
  unfold effGasReading
  rw [if_pos rfl]
  split
  · rfl
  · exact State.changeHeadOf_of_none _ hn

/-- A fresh reading changes the head that names the node. -/
theorem effGasReading_of_head {status : Byte} (hp : payload.length = 8) (hn : s.headOf n = some i)
    (hh : s.gas.heads.get i = some h) :
    ∃ a b c d, effGasReading n true (status :: payload) s
      = s.changeHead i h (h.take s.now ⟨headStatusOf status.toNat, a, b, c, d⟩) := by
  obtain ⟨a, b, c, d, hparse⟩ := parseGasPayload_of_length hp status
  refine ⟨a, b, c, d, ?_⟩
  unfold effGasReading
  rw [if_pos rfl, hparse]
  exact State.changeHeadOf_of_some _ hn hh

/-- A WARMING reading changes both channels alike, whatever its counts (R11). -/
theorem effGasReading_warming (hp : payload.length = 8) (hn : s.headOf n = some i) (hh : s.gas.heads.get i = some h) :
    effGasReading n true (0 :: payload) s
      = s.changeHead i h { h.mapRuns (ChannelRun.takeWarming s.now) with lastStatus := some .warming } := by
  obtain ⟨a, b, c, d, heff⟩ := effGasReading_of_head (status := 0) hp hn hh
  have hstatus : headStatusOf (0 : Byte).toNat = .warming := by decide
  rw [heff, hstatus]
  rfl

theorem headStatusOf_of_two_le {code : Nat} (h : 2 ≤ code) : headStatusOf code = .fault := by
  match code, h with
  | _ + 2, _ => rfl

/-- A FAULT reading, and one with an unknown status, changes both channels alike, whatever its counts (R11). -/
theorem effGasReading_fault {code : Byte} (hcode : 2 ≤ code.toNat) (hp : payload.length = 8) (hn : s.headOf n = some i)
    (hh : s.gas.heads.get i = some h) :
    effGasReading n true (code :: payload) s
      = s.changeHead i h { h.mapRuns (ChannelRun.takeFault s.now) with lastStatus := some .fault } := by
  obtain ⟨a, b, c, d, heff⟩ := effGasReading_of_head (status := code) hp hn hh
  rw [heff, headStatusOf_of_two_le hcode]
  rfl

end

/-! ### The stale time of a channel -/

/-- A channel has a stale time while VALID or WARMING (R12). -/
theorem ChannelRun.staleDue_of_fresh {c : ChannelRun} {t : Nat} (hv : c.validity = .valid ∨ c.validity = .warming)
    (ht : c.lastFresh = some t) (now staleTime : Nat) : c.staleDue now staleTime = decide (t + staleTime ≤ now) := by
  unfold ChannelRun.staleDue
  rcases hv with hv | hv <;> rw [hv, ht]

theorem effStaleExpiry_of_head {s : State} {i : Nat} {h : Head} {g : Gas} {t : Nat} (hh : s.gas.heads.get i = some h)
    (hv : (h.run g).validity = .valid ∨ (h.run g).validity = .warming) (ht : (h.run g).lastFresh = some t) :
    effStaleExpiry i g s
      = if t + s.items.staleTime ≤ s.now then s.changeHead i h (h.setRun g (h.run g).goStale) else s := by
  unfold effStaleExpiry
  rw [hh]
  dsimp only
  rw [ChannelRun.staleDue_of_fresh hv ht]
  simp only [decide_eq_true_eq]

/-- A channel that becomes STALE changes its validity. -/
theorem validity_ne_stale {c : ChannelRun} (hv : c.validity = .valid ∨ c.validity = .warming) :
    (c.validity != .stale) = true := by
  rcases hv with hv | hv <;> rw [hv] <;> rfl

/-- A validity that changes marks the head's zone. -/
theorem State.changeHead_of_validityChanged {s : State} {i : Nat} {old new : Head}
    (hv : (old.co.validity != new.co.validity || old.no2.validity != new.no2.validity) = true) :
    s.changeHead i old new
      = { s.mark (.zone new.defn.zone) with
          gas := { heads := s.gas.heads.put i new }
          handed := s.handed ++ [.gasUpdate new.defn.zone ⟨i, some new.viewEntry⟩ []] } := by
  rw [State.changeHead_eq, hv]
  rfl

/-- Settles O4: each event changes the head's two channels by its rule, or nothing. -/
theorem gasValidityFollowsTheEvents : Obligations.GasValidityFollowsTheEvents := by
  intro s n i h payload hcalm hp
  have taken {c : Instr} {t : State} (hc : effect c s = t) : exec c s = .next (settle t) := by
    rw [exec_of_calm hcalm, hc]
  refine ⟨taken rfl, fun hn => taken (effGasReading_of_noHead hn), fun hn hh => ?_, fun t hh hv ht => ?_,
    fun t hh hv ht => ?_⟩
  · intro after
    have changed (co no2 : ChannelRun) (status : Option HeadStatus) :
        s.changeHead i h { h with lastStatus := status, co := co, no2 := no2 } = after co no2 status := by
      rw [State.changeHead_eq, hcalm]
      rfl
    refine ⟨taken ?_, fun code hcode => taken ?_, taken ?_, taken ?_⟩
    · exact (effGasReading_warming hp hn hh).trans (changed _ _ _)
    · exact (effGasReading_fault hcode hp hn hh).trans (changed _ _ _)
    · exact (State.changeHeadOf_of_some _ hn hh).trans (changed _ _ _)
    · exact (State.changeHeadOf_of_some _ hn hh).trans (changed _ _ _)
  · refine taken ((effStaleExpiry_of_head (g := .co) hh hv ht).trans ?_)
    rw [State.changeHead_of_validityChanged (by simp [Head.run, Head.setRun, ChannelRun.goStale, validity_ne_stale hv]),
      hcalm]
    rfl
  · refine taken ((effStaleExpiry_of_head (g := .no2) hh hv ht).trans ?_)
    rw [State.changeHead_of_validityChanged (by simp [Head.run, Head.setRun, ChannelRun.goStale, validity_ne_stale hv]),
      hcalm]
    rfl

end Sys2Proof.Machine
end

