-- ==== Sys2Proof/Proofs/GasRequests.lean ====
section
/-! SUPPORT. HEAD-DEF, HEAD-CAL and GAS-QUERY (R15 to R17, R19). -/

namespace Sys2Proof.Machine

/-! ### HEAD-DEF (R15, R16) -/

/-- A created head hands its zone one update and marks nothing (log 33). -/
theorem State.putHead_handHead (s : State) (i : Nat) (h : Head) :
    (s.putHead i h).handHead i h
      = { s with
          gas := { heads := s.gas.heads.put i h }
          handed := s.handed ++ [.gasUpdate h.defn.zone ⟨i, some h.viewEntry⟩ []] } := rfl

section
variable {r : HeadDefReq} {s : State} {n : NodeId} {x : Node} {h : Head}

theorem ownHeadDef_of_noHead (hi : 48 ≤ r.head) : ownHeadDef r s = .error .outOfRange :=
  refuseIf_of_true (decide_eq_true hi)

/-- A head within the range goes on to the remove flag. -/
theorem refuseIf_heads {rest : Owned} (hi : r.head < 48) :
    refuseIf (decide (Config.heads ≤ r.head)) .outOfRange rest = rest :=
  refuseIf_of_false (decide_eq_false (Nat.not_le.mpr hi))

theorem ownHeadDef_remove_of_none (hi : r.head < 48) (hr : r.remove = true) (hh : s.gas.heads.get r.head = none) :
    ownHeadDef r s = .error .notDefined := by
  unfold ownHeadDef
  rw [refuseIf_heads hi, if_pos hr, hh]

/-- The removal of a head deletes its record and hands its zone one update. -/
theorem ownHeadDef_remove_of_some (hi : r.head < 48) (hr : r.remove = true) (hh : s.gas.heads.get r.head = some h) :
    ownHeadDef r s
      = accept false
          { s with
            gas := { heads := s.gas.heads.del r.head }
            handed := s.handed ++ [.gasUpdate h.defn.zone ⟨r.head, none⟩ []] } := by
  unfold ownHeadDef
  rw [refuseIf_heads hi, if_pos hr, hh]
  rfl

/-- The ranges of zone and node are checked before what they name. -/
theorem ownHeadDef_of_badPlace (hi : r.head < 48) (hr : r.remove = false)
    (hbad : 24 ≤ r.zone ∨ nodeOf r.loop r.addr = none) : ownHeadDef r s = .error .outOfRange := by
  unfold ownHeadDef
  rw [refuseIf_heads hi, if_neg (by simp [hr])]
  cases hn : nodeOf r.loop r.addr with
  | none => rfl
  | some n => exact refuseIf_of_true (decide_eq_true (hbad.resolve_right (by simp [hn])))

/-- The request defines a head at a place within its ranges. -/
structure HeadDefReq.Places (r : HeadDefReq) (n : NodeId) : Prop where
  head : r.head < 48
  define : r.remove = false
  zone : r.zone < 24
  node : nodeOf r.loop r.addr = some n

/-- With zone and node in their ranges HEAD-DEF goes on to what they name. -/
theorem ownHeadDef_undefined (hp : r.Places n) (hu : s.zone r.zone = none ∨ s.node n = none) :
    ownHeadDef r s = .error .notDefined := by
  have hz : ¬ Config.zones ≤ r.zone := Nat.not_le.mpr hp.zone
  unfold ownHeadDef
  rw [refuseIf_heads hp.head, if_neg (by simp [hp.define]), hp.node]
  dsimp only
  rw [refuseIf_of_false (decide_eq_false hz)]
  cases hx : s.node n with
  | none => rfl
  | some x =>
    have hzone : s.zoneDefined r.zone = false := State.zoneDefined_of_none (hu.resolve_right (by simp [hx]))
    exact refuseIf_of_true (by rw [hzone]; rfl)

/-- The request's place names a defined zone and a node with an entry. -/
structure HeadDefReq.Named (r : HeadDefReq) (s : State) (n : NodeId) (x : Node) : Prop extends r.Places n where
  zoneDefined : s.zoneDefined r.zone = true
  entry : s.node n = some x

/-- A node of another role, or one that another head names, is refused. -/
theorem ownHeadDef_conflict (hp : r.Named s n x)
    (hc : x.defn.role ≠ .gas ∨ s.gas.heads.anyOther r.head (fun h => h.defn.node == n) = true) :
    ownHeadDef r s = .error .conflict := by
  have hz : ¬ Config.zones ≤ r.zone := Nat.not_le.mpr hp.zone
  unfold ownHeadDef
  rw [refuseIf_heads hp.head, if_neg (by simp [hp.define]), hp.node]
  dsimp only
  rw [refuseIf_of_false (decide_eq_false hz), hp.entry]
  dsimp only
  rw [refuseIf_of_false (by simp [hp.zoneDefined])]
  by_cases hrole : x.defn.role = .gas
  · rw [refuseIf_of_false (by simp [hrole]), refuseIf_of_true (hc.resolve_left (not_not_intro hrole))]
  · exact refuseIf_of_true (by simpa using hrole)

/-- The request passes every check of R15. -/
structure HeadDefReq.Free (r : HeadDefReq) (s : State) (n : NodeId) (x : Node) : Prop extends r.Named s n x where
  role : x.defn.role = .gas
  only : s.gas.heads.anyOther r.head (fun h => h.defn.node == n) = false

/-- The head that HEAD-DEF creates: the neutral calibration and fresh channels (R2, R16). -/
def HeadDefReq.created (r : HeadDefReq) (n : NodeId) (lost : Bool) : Head :=
  { defn := { zone := r.zone, node := n, exponent := min 7 r.exponent, co := .neutral, no2 := .neutral }
    lastStatus := none, co := .fresh lost, no2 := .fresh lost }

/-- A head's definition part after HEAD-DEF: its calibrations stay (R16). -/
def HeadDefReq.redefined (r : HeadDefReq) (n : NodeId) (h : Head) : HeadDefn :=
  { h.defn with zone := r.zone, node := n, exponent := min 7 r.exponent }

/-- A head that keeps its place takes the exponent alone (R16). -/
theorem HeadDefReq.redefined_of_unmoved (hz : h.defn.zone = r.zone) (hn : h.defn.node = n) :
    r.redefined n h = { h.defn with exponent := min 7 r.exponent } := by
  unfold HeadDefReq.redefined
  rw [← hz, ← hn]

/-- What HEAD-DEF does when every check has passed. -/
theorem ownHeadDef_of_free (hp : r.Free s n x) :
    (s.gas.heads.get r.head = none →
      ownHeadDef r s
        = accept (decide (7 < r.exponent))
            ((s.putHead r.head (r.created n (x.state == .lost))).handHead r.head (r.created n (x.state == .lost))))
    ∧ ∀ h, s.gas.heads.get r.head = some h →
      (h.defn.zone = r.zone → h.defn.node = n →
        ownHeadDef r s
          = accept (decide (7 < r.exponent)) (s.putHead r.head { h with defn := r.redefined n h }))
      ∧ (h.defn.zone ≠ r.zone ∨ h.defn.node ≠ n →
        ownHeadDef r s
          = accept (decide (7 < r.exponent))
              (State.changeHead r.head h
                { defn := r.redefined n h, lastStatus := none, co := .fresh (x.state == .lost)
                  no2 := .fresh (x.state == .lost) }
                (if h.defn.zone = r.zone then s else s.hand (.gasUpdate h.defn.zone ⟨r.head, none⟩ [])))) := by
  have hz : ¬ Config.zones ≤ r.zone := Nat.not_le.mpr hp.zone
  have hlost := State.nodeLost_of_node hp.entry
  unfold ownHeadDef
  rw [refuseIf_heads hp.head, if_neg (by simp [hp.define]), hp.node]
  dsimp only
  rw [refuseIf_of_false (decide_eq_false hz), hp.entry]
  dsimp only
  rw [refuseIf_of_false (by simp [hp.zoneDefined]), refuseIf_of_false (by simp [hp.role]), refuseIf_of_false hp.only,
    hlost]
  refine ⟨fun hh => ?_, fun h hh => ⟨fun hzone hnode => ?_, fun hmoved => ?_⟩⟩
  · rw [hh]
    rfl
  · rw [hh]
    exact if_pos ⟨hzone, hnode⟩
  · rw [hh]
    exact if_neg fun unmoved => hmoved.elim (fun hz => hz unmoved.1) fun hn => hn unmoved.2

end

/-- Settles O5: each check of R15 in its order, then the case of the head in the table. -/
theorem headDefFollowsItsRules : Obligations.HeadDefFollowsItsRules := by
  intro s tag i f z l a e hs p fresh c
  let r : HeadDefReq := ⟨i.toNat, f.getLsbD 0, z.toNat, l.toNat, a.toNat, e.toNat⟩
  have refused {k : RefusalCode} (ho : ownHeadDef r p = .error k) : exec c s = .next (p.turnedAway tag k) :=
    exec_turnedAway (owner := ownHeadDef) (x := r) rfl hs rfl rfl ho
  have done {b : Bool} {t u : State} (ho : ownHeadDef r p = accept b t) (ht : t = u) :
      exec c s = .next (u.done tag b) :=
    ht ▸ exec_done (owner := ownHeadDef) (x := r) rfl hs rfl rfl ho
  have hgas : p.gas = s.gas := s.framePassed_gas
  have hhanded : p.handed = [] := s.framePassed_handed.trans hs.handed
  have hget : p.gas.heads.get i.toNat = s.gas.heads.get i.toNat := by rw [hgas]
  refine ⟨fun hi => refused (ownHeadDef_of_noHead hi), fun hi hf => ⟨fun hh => ?_, fun h hh => ?_⟩,
    fun hi hf => ⟨fun hbad => refused (ownHeadDef_of_badPlace hi hf hbad), fun n hz hn => ?_⟩⟩
  · exact refused (ownHeadDef_remove_of_none hi hf (hget.trans hh))
  · refine done (ownHeadDef_remove_of_some hi hf (hget.trans hh)) ?_
    rw [hgas, hhanded]
    rfl
  · have placed : r.Places n := ⟨hi, hf, hz, hn⟩
    refine ⟨fun hu => refused (ownHeadDef_undefined placed ?_), fun zr x hzr hx => ?_⟩
    · rwa [State.framePassed_zone, State.framePassed_node]
    have named : r.Named p n x :=
      ⟨placed, State.zoneDefined_of_some ((s.framePassed_zone _).trans hzr), (s.framePassed_node n).trans hx⟩
    refine ⟨fun hc => refused (ownHeadDef_conflict named (hc.imp_right fun ho => ?_)), fun hrole hone => ?_⟩
    · rw [hgas]
      simpa [Table.anyOther] using ho
    have free : r.Free p n x :=
      ⟨named, hrole, by
        rw [hgas]
        simpa [Table.anyOther, r, imp_not_comm] using hone⟩
    obtain ⟨create, change⟩ := ownHeadDef_of_free free
    have hlost : (ChannelRun.fresh (x.state == .lost)).validity = if x.state = .lost then .fault else .noData := by
      simp [ChannelRun.fresh]
    rw [← hlost, ← hgas]
    refine ⟨fun hh => done (create hh) ?_, fun h hh => ⟨fun hzone hnode => ?_, fun hmoved => ?_⟩⟩
    · rw [State.putHead_handHead, hhanded]
      rfl
    · refine done ((change h hh).1 hzone hnode) ?_
      rw [HeadDefReq.redefined_of_unmoved hzone hnode]
      rfl
    · refine done ((change h hh).2 hmoved) ?_
      by_cases hzone : h.defn.zone = z.toNat
      · rw [if_pos hzone, if_pos hzone, State.changeHead_eq, hhanded]
        rfl
      · rw [if_neg hzone, if_neg hzone, State.changeHead_eq, State.hand_handed, hhanded, State.markWhen_eq_port,
          State.markWhen_eq_port]
        rfl

/-! ### HEAD-CAL (R17) -/

section
variable {r : HeadCalReq} {s : State} {g : Gas} {h : Head}

theorem gasOf_of_two_le {n : Nat} (h : 2 ≤ n) : gasOf n = none := by
  match n, h with
  | _ + 2, _ => rfl

theorem gasOf_of_lt_two {n : Nat} (h : n < 2) : ∃ g, gasOf n = some g := by
  match n, h with
  | 0, _ => exact ⟨.co, rfl⟩
  | 1, _ => exact ⟨.no2, rfl⟩

/-- The head and the gas code are checked before what the head number names (log 35). -/
theorem ownHeadCal_outOfRange (hbad : 48 ≤ r.head ∨ 2 ≤ r.gas) : ownHeadCal r s = .error .outOfRange := by
  unfold ownHeadCal
  by_cases hi : Config.heads ≤ r.head
  · exact refuseIf_of_true (decide_eq_true hi)
  · rw [refuseIf_of_false (decide_eq_false hi), gasOf_of_two_le (hbad.resolve_left hi)]

theorem ownHeadCal_undefined (hi : r.head < 48) (hg : gasOf r.gas = some g) (hh : s.gas.heads.get r.head = none) :
    ownHeadCal r s = .error .notDefined := by
  have hi' : ¬ Config.heads ≤ r.head := Nat.not_le.mpr hi
  unfold ownHeadCal
  rw [refuseIf_of_false (decide_eq_false hi'), hg]
  dsimp only
  rw [hh]

/-- The calibration of one channel is replaced, with its shift clamped, and that channel starts afresh. -/
theorem ownHeadCal_of_head (hi : r.head < 48) (hg : gasOf r.gas = some g) (hh : s.gas.heads.get r.head = some h) :
    ownHeadCal r s
      = accept (decide (7 < r.cal.shift))
          (s.changeHead r.head h
            ({ h with defn := h.defn.setCal g { r.cal with shift := min 7 r.cal.shift } }.setRun g
              (.fresh (s.nodeLost h.defn.node)))) := by
  have hi' : ¬ Config.heads ≤ r.head := Nat.not_le.mpr hi
  unfold ownHeadCal
  rw [refuseIf_of_false (decide_eq_false hi'), hg]
  dsimp only
  rw [hh]

end

/-! ### GAS-QUERY (R19) -/

section
variable {i : Nat} {s : State} {h : Head}

theorem ownGasQuery_outOfRange (hi : 48 ≤ i) : ownGasQuery i s = .error .outOfRange :=
  refuseIf_of_true (decide_eq_true hi)

theorem ownGasQuery_undefined (hi : i < 48) (hh : s.gas.heads.get i = none) : ownGasQuery i s = .error .notDefined := by
  have hi' : ¬ Config.heads ≤ i := Nat.not_le.mpr hi
  unfold ownGasQuery
  rw [refuseIf_of_false (decide_eq_false hi'), hh]

theorem ownGasQuery_of_head (hi : i < 48) (hh : s.gas.heads.get i = some h) :
    ownGasQuery i s = .ok (s, .data (headData s.now i h)) := by
  have hi' : ¬ Config.heads ≤ i := Nat.not_le.mpr hi
  unfold ownGasQuery
  rw [refuseIf_of_false (decide_eq_false hi'), hh]

/-- One optional field: its presence flags byte, and the field when it is there (log 10). -/
theorem optionals_singleton (field : Option (List Byte)) :
    optionals [field] = match field with | some bytes => 1 :: bytes | none => [0] := by
  cases field with
  | none => rfl
  | some bytes => simp [optionals, flagsByte, flagsNat, u8]

end

/-- Settles O6: the checks and the channel of HEAD-CAL, and the record of GAS-QUERY field by field. -/
theorem headCalAndGasQueryFollowTheirRules : Obligations.HeadCalAndGasQueryFollowTheirRules := by
  intro s tag i p byte channel
  have hgas : p.gas = s.gas := s.framePassed_gas
  have hget : p.gas.heads.get i.toNat = s.gas.heads.get i.toNat := by rw [hgas]
  refine ⟨fun hs => ?_, ?_⟩
  · have refused {r : RefusalCode} (ho : ownGasQuery i.toNat p = .error r) :
        exec (.gasQuery tag [i]) s = .next (p.turnedAway tag r) :=
      exec_turnedAway (owner := ownGasQuery) (x := i.toNat) rfl hs rfl rfl ho
    refine ⟨fun hi => refused (ownGasQuery_outOfRange hi),
      fun hi hh => refused (ownGasQuery_undefined hi (hget.trans hh)), fun h hi hh => ?_⟩
    have hbytes (run : ChannelRun) (cal : Calibration) : channelBytes p.now run cal = channel run cal := by
      rw [State.framePassed_now]
      unfold channelBytes
      rw [optionals_singleton]
      cases hfresh : run.lastFresh <;> simp [channel, byte, u8, flag, calBytes, age, hfresh]
    have hdata : headData p.now i.toNat h
        = [i, byte h.defn.zone, byte (loopCode h.defn.node.loop), byte h.defn.node.addr, byte h.defn.exponent,
            byte (headStatusCode h.lastStatus)] ++ channel h.co h.defn.co ++ channel h.no2 h.defn.no2 := by
      unfold headData
      rw [hbytes, hbytes]
      simp [byte, u8, placeBytes]
    rw [← hdata]
    exact exec_told (owner := ownGasQuery) (x := i.toNat) rfl hs rfl rfl (ownGasQuery_of_head hi (hget.trans hh))
  · intro g gf1 gf0 of1 of0 gc1 gc0 oc1 oc0 k x1 x0 y1 y0 hs c cal
    let r : HeadCalReq :=
      ⟨i.toNat, g.toNat, ⟨nat16 gf1 gf0, int16 of1 of0, nat16 gc1 gc0, int16 oc1 oc0, k.toNat, nat16 x1 x0, nat16 y1 y0⟩⟩
    have hhanded : p.handed = [] := s.framePassed_handed.trans hs.handed
    have refused {e : RefusalCode} (ho : ownHeadCal r p = .error e) : exec c s = .next (p.turnedAway tag e) :=
      exec_turnedAway (owner := ownHeadCal) (x := r) rfl hs rfl rfl ho
    refine ⟨fun hbad => refused (ownHeadCal_outOfRange hbad), fun hi hg hh => ?_, ?_⟩
    · obtain ⟨gas, hgas⟩ := gasOf_of_lt_two hg
      exact refused (ownHeadCal_undefined hi hgas (hget.trans hh))
    intro h hi hh lost fresh
    have hlost : p.nodeLost h.defn.node = lost := s.framePassed_nodeLost _
    have done {gas : Gas} {t : State} (hg : gasOf g.toNat = some gas)
        (ht : p.changeHead i.toNat h ({ h with defn := h.defn.setCal gas cal }.setRun gas (.fresh lost)) = t) :
        exec c s = .next (t.done tag (decide (7 < k.toNat))) := by
      have ho := ownHeadCal_of_head (r := r) (s := p) hi hg (hget.trans hh)
      rw [hlost] at ho
      exact ht ▸ exec_done (owner := ownHeadCal) (x := r) rfl hs rfl rfl ho
    refine ⟨fun hg => done (gas := .co) (by rw [hg]; rfl) ?_, fun hg => done (gas := .no2) (by rw [hg]; rfl) ?_⟩
    · rw [State.changeHead_eq, hhanded, hgas]
      simp only [Head.setRun, bne_self_eq_false, Bool.or_false]
      rfl
    · rw [State.changeHead_eq, hhanded, hgas]
      simp only [Head.setRun, bne_self_eq_false, Bool.false_or]
      rfl

end Sys2Proof.Machine
end

