-- ==== Sys2Proof/Proofs/Folds.lean ====
section
/-! SUPPORT. Folds over records: two steps that agree, and a table visited record by record. -/

namespace Sys2Proof.Machine

/-! ### Folds over a table -/

/-- Two steps that agree while an invariant holds give the same fold. -/
theorem foldl_congr_of_invariant {σ α : Type} {P : σ → Prop} {f g : σ → α → σ} (hP : ∀ u a, P u → P (f u a))
    (hfg : ∀ u a, P u → f u a = g u a) {s : σ} (hs : P s) (l : List α) : l.foldl f s = l.foldl g s := by
  induction l generalizing s with
  | nil => rfl
  | cons a l ih => rw [List.foldl_cons, List.foldl_cons, ← hfg s a hs, ih (hP s a hs)]

section
variable {α : Type}

/-- In canonical form a record is replaced in its place. -/
theorem Table.put_append_cons {a b : Table α} {k : Nat} {v : α} (w : Table.wf (a ++ (k, v) :: b) = true) (x : α) :
    Table.put (a ++ (k, v) :: b) k x = a ++ (k, x) :: b := by
  induction a with
  | nil => simp [Table.put]
  | cons e a ih =>
    obtain ⟨k', v'⟩ := e
    obtain ⟨hlt, wt⟩ := Table.wf_cons.mp w
    have hk : k' < k := hlt (k, v) (by simp)
    show (if k < k' then _ else if k = k' then _ else (k', v') :: Table.put (a ++ (k, v) :: b) k x) = _
    rw [if_neg (by omega), if_neg (by omega), ih wt]
    rfl

/-- Replacing a defined record keeps the numbers. -/
theorem Table.keys_put {t : Table α} (w : Table.wf t = true) {i : Nat} {old : α} (h : t.get i = some old) (new : α) :
    (t.put i new).keys = t.keys := by
  obtain ⟨a, b, ht, hput⟩ := Table.put_split w h new
  rw [hput, ht]
  simp [Table.keys]

/-- Visiting a table's records by number, each visit changing the record it reads, is visiting its entries. -/
theorem Table.foldl_visit {σ : Type} {tab : σ → Table α} {P : σ → Prop} {f : Nat → α → α} {step : σ → Nat → σ}
    {visit : σ → Nat × α → σ} (hstep : ∀ u e, P u → (tab u).get e.1 = some e.2 → step u e.1 = visit u e)
    (htab : ∀ u e, P u → tab (visit u e) = (tab u).put e.1 (f e.1 e.2)) (hP : ∀ u e, P u → P (visit u e))
    {s : σ} (hs : P s) (w : Table.wf (tab s) = true) : (tab s).keys.foldl step s = List.foldl visit s (tab s) := by
  have rest : ∀ (b a : Table α) (u : σ), P u → tab u = a ++ b → Table.wf (tab u) = true →
      (List.map Prod.fst b).foldl step u = List.foldl visit u b := by
    intro b
    induction b with
    | nil => exact fun _ _ _ _ _ => rfl
    | cons e b ih =>
      intro a u hu hab wu
      have hget : (tab u).get e.1 = some e.2 := Table.get_of_mem wu (by simp [hab])
      have hput : tab (visit u e) = (a ++ [(e.1, f e.1 e.2)]) ++ b := by
        rw [htab u e hu, hab, Table.put_append_cons (hab ▸ wu)]
        simp
      rw [List.map_cons, List.foldl_cons, List.foldl_cons, hstep u e hu hget]
      exact ih _ _ (hP u e hu) hput (htab u e hu ▸ Table.wf_put wu _ _)
  exact rest (tab s) [] s hs rfl w

/-- Replacing every record in turn is a map. -/
theorem Table.foldl_put {t : Table α} (w : Table.wf t = true) (f : Nat → α → α) :
    List.foldl (fun u e => Table.put u e.1 (f e.1 e.2)) t t = t.map f := by
  have rest : ∀ b a : Table α, Table.wf (a ++ b) = true →
      List.foldl (fun u e => Table.put u e.1 (f e.1 e.2)) (a ++ b) b = a ++ b.map f := by
    intro b
    induction b with
    | nil => exact fun _ _ => rfl
    | cons e b ih =>
      intro a wab
      have hput := Table.put_append_cons wab (f e.1 e.2)
      have wput := Table.wf_put wab e.1 (f e.1 e.2)
      rw [List.foldl_cons, hput]
      rw [hput] at wput
      have := ih (a ++ [(e.1, f e.1 e.2)]) (by simpa using wput)
      simpa [Table.map] using this
  exact rest t [] w

end

end Sys2Proof.Machine
end

