-- ==== Sys2Proof/Proofs/FanTimers.lean ====
section
/-! SUPPORT. SET-ITEM at the Fan Controller: what fan operations keep, and the timers an item moves (R54 to R64). -/

namespace Sys2Proof.Machine

/-! ### Fan operations keep the fans' numbers and the items -/

/-- The same fans are defined, and the settings store is as it was. -/
structure SameFans (s t : State) : Prop where
  store : t.store = s.store
  table : Table.wf s.fans.fans = true → Table.wf t.fans.fans = true ∧ t.fans.fans.keys = s.fans.fans.keys

section
variable {s t u : State}

theorem SameFans.refl (s : State) : SameFans s s := ⟨rfl, fun w => ⟨w, rfl⟩⟩

theorem SameFans.trans (h : SameFans s t) (k : SameFans t u) : SameFans s u :=
  ⟨k.store.trans h.store, fun w => ⟨(k.table (h.table w).1).1, ((k.table (h.table w).1).2).trans (h.table w).2⟩⟩

/-- A change of anything but the fan table and the store. -/
theorem SameFans.outside (h : SameFans s t) (hs : u.store = t.store := by simp)
    (hf : u.fans.fans = t.fans.fans := by simp) : SameFans s u :=
  ⟨hs.trans h.store, by rw [hf]; exact h.table⟩

theorem SameFans.foldl {α : Type} {f : State → α → State} (hf : ∀ t a, SameFans t (f t a)) (h : SameFans s t)
    (l : List α) : SameFans s (l.foldl f t) := by
  induction l generalizing t with
  | nil => exact h
  | cons a l ih => exact ih (h.trans (hf t a))

theorem SameFans.mark {x : Subject} (h : SameFans s t) : SameFans s (t.mark x) := h.outside

theorem SameFans.post {n : NodeId} (h : SameFans s t) : SameFans s (t.post n) := h.outside

theorem SameFans.changeFan {i : Nat} {old : Fan} (new : Fan) (hg : t.fan i = some old) (h : SameFans s t) :
    SameFans s (t.changeFan i old new) := by
  have put : SameFans t { t with
      fans := { t.fans with fans := t.fans.fans.put i new, account := t.fans.account + new.load - old.load } } :=
    ⟨rfl, fun w => ⟨Table.wf_put w i new, Table.keys_put w hg new⟩⟩
  have k := h.trans put
  unfold State.changeFan
  dsimp only
  split <;> split
  · exact k.mark
  · exact k.post.mark
  · exact k
  · exact k.post

theorem SameFans.dequeue {i : Nat} (h : SameFans s t) : SameFans s (t.dequeue i) := h.outside rfl rfl

theorem SameFans.enqueue {e : QueueEntry} (h : SameFans s t) : SameFans s (t.enqueue e) := h.outside rfl rfl

theorem SameFans.putZoneFans {z : Nat} {x : ZoneFans} (h : SameFans s t) : SameFans s (t.putZoneFans z x) := h.outside rfl rfl

theorem SameFans.hand {e : Instr} (h : SameFans s t) : SameFans s (t.hand e) := h.outside rfl rfl

theorem SameFans.stopFan {i held : Nat} {st : FanState} {cause : Option FanCause} (h : SameFans s t) :
    SameFans s (t.stopFan i st cause held) := by
  unfold State.stopFan State.modifyFan
  refine SameFans.dequeue ?_
  split
  · exact h
  · exact h.changeFan _ ‹_›

theorem SameFans.evaluate (h : SameFans s t) : SameFans s t.evaluate := by
  unfold State.evaluate
  split
  · exact h
  · split
    · exact h
    · rename_i f hf
      split
      · exact SameFans.changeFan (t := { t with fans := _ }) _ hf (h.outside rfl rfl)
      · exact h

theorem SameFans.followPolicy {i : Nat} (h : SameFans s t) : SameFans s (t.followPolicy i) := by
  unfold State.followPolicy
  split
  · exact h
  · split
    · exact h.stopFan
    · exact (h.changeFan _ ‹_›).dequeue

theorem SameFans.askSpeedup {i : Nat} (h : SameFans s t) : SameFans s (t.askSpeedup i) := by
  unfold State.askSpeedup
  split
  · exact h
  · split
    · exact h.enqueue
    · exact h

theorem SameFans.runningWant {i : Nat} {f : Fan} {w : Want} (hf : t.fan i = some f) (h : SameFans s t) :
    SameFans s (t.runningWant i f w) := by
  unfold State.runningWant
  split
  · split
    · exact h.changeFan _ hf
    · dsimp only
      split
      · exact (h.changeFan _ hf).dequeue.followPolicy
      · exact (h.changeFan _ hf).dequeue
  · exact (h.changeFan _ hf).dequeue
  · exact (h.changeFan _ hf).askSpeedup

theorem SameFans.takeWant {i : Nat} {w : Want} (h : SameFans s t) : SameFans s (t.takeWant i w) := by
  unfold State.takeWant
  split
  · exact h
  · rename_i f hf
    have k (new : Fan) : SameFans s (t.changeFan i f new) := h.changeFan new hf
    split
    · split
      · exact k _
      · exact (k _).enqueue
    · split
      · split
        · exact k _
        · exact (k _).dequeue.enqueue
      · split
        · exact (k _).dequeue
        · exact k _
    · exact k _
    · exact h.runningWant hf
    all_goals exact k _

theorem SameFans.recount {z : Nat} (h : SameFans s t) : SameFans s (t.recount z) := by
  unfold State.recount
  split
  · exact h
  · dsimp only
    split
    · exact h.putZoneFans
    · exact h.putZoneFans.hand

theorem SameFans.mapZone {z d : Nat} (h : SameFans s t) : SameFans s (t.mapZone z d) := by
  unfold State.mapZone
  split
  · exact h
  · exact SameFans.foldl (fun t _ => (refl t).takeWant) h.putZoneFans _

theorem SameFans.remap {z : Nat} (h : SameFans s t) : SameFans s (t.remap z) := by
  unfold State.remap
  dsimp only
  split
  · exact h.recount
  · exact h.recount.mapZone

theorem SameFans.faultFan {i z held : Nat} {c : FanCause} (h : SameFans s t) : SameFans s (t.faultFan i z c held) :=
  h.stopFan.remap.evaluate

end

/-! ### Timers of every fan at once -/

/-- A timer event of one fan that acts when its time has come. -/
def fanTimer (due : State → Fan → Bool) (act : Nat → Fan → State → State) (s : State) (i : Nat) : State :=
  match s.fan i with
  | some f => if due s f then act i f s else s
  | none => s

/-- An event of one fan's timer, its moment and its effect said over the state it finds. -/
theorem State.whenDue_eq_fanTimer {u : State} {i : Nat} {d : Fan → Bool} {a : Fan → State → State}
    {due : State → Fan → Bool} {act : Nat → Fan → State → State} (hdue : ∀ f, d f = due u f)
    (hact : ∀ f, u.fan i = some f → a f u = act i f u) : u.whenDue i d a = fanTimer due act u i := by
  unfold State.whenDue fanTimer
  cases hf : u.fan i with
  | none => rfl
  | some f =>
    dsimp only
    rw [hdue, hact f hf]

theorem SameFans.fanTimer {due : State → Fan → Bool} {act : Nat → Fan → State → State} {t : State}
    (ha : ∀ i f t, t.fan i = some f → SameFans t (act i f t)) (i : Nat) : SameFans t (fanTimer due act t i) := by
  unfold Machine.fanTimer
  split
  · split
    · exact ha i _ t ‹_›
    · exact .refl t
  · exact .refl t

/-- One event for every fan, where each event is a timer as long as the items stand. -/
theorem State.eachFan_eq_fanTimers {eff : Nat → State → State} {due : State → Fan → Bool}
    {act : Nat → Fan → State → State} {s t : State} (hst : t.store = s.store)
    (ha : ∀ i f t, t.fan i = some f → SameFans t (act i f t))
    (heff : ∀ i u, u.items = s.items → eff i u = Machine.fanTimer due act u i) :
    t.eachFan eff = t.fans.fans.keys.foldl (Machine.fanTimer due act) t :=
  foldl_congr_of_invariant (P := fun u => u.store = s.store)
    (fun u i hu => by
      rw [heff i u (congrArg Store.items hu)]
      exact (SameFans.fanTimer ha i).store.trans hu)
    (fun u i hu => heff i u (congrArg Store.items hu)) hst _

theorem SameFans.fanTimers {due : State → Fan → Bool} {act : Nat → Fan → State → State}
    (ha : ∀ i f t, t.fan i = some f → SameFans t (act i f t)) (s : State) (l : List Nat) :
    SameFans s (l.foldl (Machine.fanTimer due act) s) :=
  SameFans.foldl (fun _ i => SameFans.fanTimer ha i) (.refl s) l

/-! ### The fan timers that a site item moves (R56, R60, R64) -/

section
variable {s u : State} {i : Nat}

/-- The spacing, under a new value: at its end the queue is evaluated, else it runs on from the last grant (R56, log 32). -/
theorem recheckSpacing_eq (s : State) :
    recheckSpacing s
      = if s.spacingPassed then
          if s.fans.spacing then ({ s with fans := { s.fans with spacing := false } } : State).evaluate else s
        else { s with fans := { s.fans with spacing := true } } := by
  have expiry (b : Bool) : effStartSpacingExpiry { s with fans := { s.fans with spacing := b } }
      = if (b && s.spacingPassed) = true then ({ s with fans := { s.fans with spacing := false } } : State).evaluate
        else { s with fans := { s.fans with spacing := b } } := rfl
  unfold recheckSpacing
  rw [expiry]
  cases hp : s.spacingPassed with
  | false => simp
  | true =>
    cases hs : s.fans.spacing with
    | false => simp [← hs]
    | true => simp

/-- Whether a stamp lies a time back. -/
def State.timePassed (u : State) (since : Option Nat) (time : Nat) : Bool :=
  match since with
  | some t => decide (t + time ≤ u.now)
  | none => false

theorem State.spacingPassed_eq (s : State) :
    s.spacingPassed = (s.fans.lastGrant.isNone || s.timePassed s.fans.lastGrant s.items.startSpacing) := by
  unfold State.spacingPassed State.timePassed
  cases s.fans.lastGrant <;> rfl

theorem Fan.minimumMet_eq (f : Fan) (u : State) (minimum : Nat) :
    f.minimumMet u.now minimum = (f.runningSince.isNone || u.timePassed f.runningSince minimum) := by
  unfold Fan.minimumMet State.timePassed
  cases f.runningSince <;> rfl

theorem State.followPolicy_of_fan {f : Fan} (hf : u.fan i = some f) :
    u.followPolicy i
      = if f.defn.policy = .release ∨ u.items.holdTime = 0 then u.stopFan i .rundown none 0
        else (u.changeFan i f { f with speed := .low, speedup := false, holdStart := some u.now }).dequeue i := by
  unfold State.followPolicy
  rw [hf]

/-- A SET-ITEM of the start timeout takes first the fans that start and then those that speed up (log 2). -/
theorem itemChanged_startTimeout (old : Items) (w : Table.wf s.fans.fans = true) :
    itemChanged 2 old s
      = s.fans.fans.keys.foldl
          (fanTimer (fun u f => f.state == .running && f.speedup && u.timePassed f.lastGrant s.items.startTimeout)
            fun i f u => (u.changeFan i f { f with speed := .low, speedup := false, speedupFailed := true }).evaluate)
          (s.fans.fans.keys.foldl
            (fanTimer (fun u f => f.state == .starting && u.timePassed f.lastGrant s.items.startTimeout)
              fun i f u => u.faultFan i f.defn.zone .drive 0) s) := by
  have fault (i : Nat) (f : Fan) (t : State) (_ : t.fan i = some f) :
      SameFans t (t.faultFan i f.defn.zone .drive 0) := (SameFans.refl t).faultFan
  have starts := State.eachFan_eq_fanTimers (eff := effStartTimeout) (s := s) (t := s)
    (due := fun u f => f.state == .starting && u.timePassed f.lastGrant s.items.startTimeout) rfl fault
    fun i u hu => State.whenDue_eq_fanTimer (fun f => by rw [hu]; rfl) fun _ _ => rfl
  have same := SameFans.fanTimers
    (due := fun u f => f.state == .starting && u.timePassed f.lastGrant s.items.startTimeout) fault s s.fans.fans.keys
  show (s.eachFan effStartTimeout).eachFan effSpeedupTimeout = _
  rw [starts]
  generalize List.foldl _ s s.fans.fans.keys = first at same ⊢
  rw [← (same.table w).2]
  refine State.eachFan_eq_fanTimers same.store (fun i f t hf => ?_) fun i u hu =>
    State.whenDue_eq_fanTimer (fun f => ?_) fun f _ => ?_
  · exact ((SameFans.refl t).changeFan _ hf).evaluate
  · rw [hu]
    rfl
  · rfl

theorem itemChanged_minimumRun (old : Items) :
    itemChanged 3 old s
      = s.fans.fans.keys.foldl
          (fanTimer
            (fun u f =>
              f.state == .running && f.want == .off && !f.exercise && f.holdStart.isNone
                && (f.runningSince.isNone || u.timePassed f.runningSince s.items.minimumRun))
            fun i f u =>
              (if f.defn.policy = .release ∨ s.items.holdTime = 0 then u.stopFan i .rundown none 0
                else
                  (u.changeFan i f { f with speed := .low, speedup := false, holdStart := some u.now }).dequeue
                    i).evaluate) s := by
  refine State.eachFan_eq_fanTimers rfl (fun i f t hf => SameFans.evaluate ?_) fun i u hu =>
    State.whenDue_eq_fanTimer (fun f => ?_) fun f hf => ?_
  · split
    · exact (SameFans.refl t).stopFan
    · exact ((SameFans.refl t).changeFan _ hf).dequeue
  · rw [hu, ← Fan.minimumMet_eq]
    rfl
  · rw [State.followPolicy_of_fan hf, hu]

theorem itemChanged_holdTime (old : Items) :
    itemChanged 4 old s
      = s.fans.fans.keys.foldl
          (fanTimer (fun u f => f.state == .running && f.want == .off && u.timePassed f.holdStart s.items.holdTime)
            fun i _ u => (u.stopFan i .rundown none 0).evaluate) s :=
  State.eachFan_eq_fanTimers rfl (fun _ _ t _ => (SameFans.refl t).stopFan.evaluate) fun _ _ hu =>
    State.whenDue_eq_fanTimer (fun f => by rw [hu]; rfl) fun _ _ => rfl

theorem itemChanged_exerciseInterval (old : Items) :
    itemChanged 6 old s
      = s.fans.fans.keys.foldl
          (fanTimer
            (fun u f =>
              f.state == .off && decide (0 < s.items.exerciseInterval)
                && u.timePassed (some f.lastStop) (s.items.exerciseInterval * 3600))
            fun i f u =>
              ((u.changeFan i f { f with state := .queued, exercise := true }).enqueue ⟨i, .start, .exercise⟩).evaluate)
          s :=
  State.eachFan_eq_fanTimers rfl (fun _ _ t hf => ((SameFans.refl t).changeFan _ hf).enqueue.evaluate) fun _ _ hu =>
    State.whenDue_eq_fanTimer (fun f => by rw [hu]; rfl) fun _ _ => rfl

end

end Sys2Proof.Machine
end

