-- ==== Sys2Proof/Proofs/ItemOwners.lean ====
section
/-! SUPPORT. SET-ITEM at the other owners: zones, gas heads, groups and nodes, and every item together. -/

namespace Sys2Proof.Machine

/-! ### A sweep over every zone (R27, R30, R40) -/

/-- Two records of a zone that differ in nothing a neighbour sees but the demand. -/
structure Zone.Alike (old new : Zone) : Prop where
  defn : new.defn = old.defn
  coAlarm : new.coAlarm = old.coAlarm
  no2Alarm : new.no2Alarm = old.no2Alarm
  hostClosed : new.hostClosed = old.hostClosed
  unventilated : new.unventilated = old.unventilated

theorem Zone.Alike.recompute {old new : Zone} (h : old.Alike new) (fallback : Nat) : old.Alike (new.recompute fallback) :=
  ⟨h.defn, h.coAlarm, h.no2Alarm, h.hostClosed, h.unventilated⟩

section
variable {old new : Zone}

theorem Zone.Alike.inAlarm (h : old.Alike new) : new.inAlarm = old.inAlarm := by
  unfold Zone.inAlarm
  rw [h.coAlarm, h.no2Alarm]

theorem Zone.Alike.alarm (h : old.Alike new) : new.alarm = old.alarm := by
  unfold Zone.alarm
  rw [h.coAlarm, h.no2Alarm]

theorem Zone.Alike.closed (h : old.Alike new) : new.closed = old.closed := by
  unfold Zone.closed
  rw [h.inAlarm, h.hostClosed]

/-- Only the demand marks the zone. -/
theorem Zone.Alike.noted (h : old.Alike new) : old.noted new = (old.demand != new.demand) := by
  simp [Zone.noted, h.coAlarm, h.no2Alarm, h.hostClosed, h.unventilated]

theorem listMove_self (b : Bool) : listMove b b = .stayed := by cases b <;> rfl

/-- Only a new demand is handed on, and to the Fan Controller alone. -/
theorem Zone.Alike.zoneChanges (h : old.Alike new) (i : Nat) :
    zoneChanges i old new
      = if old.demand != new.demand then [.zoneChangeFan ⟨i, some new.demand, old.alarm, .stayed, false⟩] else [] := by
  unfold Machine.zoneChanges
  rw [h.inAlarm, h.alarm, h.closed, h.defn, listMove_self]
  by_cases hd : old.demand = new.demand <;> simp [hd]

end

/-- One zone of a sweep, where `f` changes the zone's record and `fallback` is the fallback demand. -/
def sweepZone (f : Zone → Zone) (fallback : Nat) (s : State) (e : Nat × Zone) : State :=
  let changed := e.2.demand != ((f e.2).recompute fallback).demand
  { s.markWhen changed (.zone e.1) with
    air := { s.air with zones := s.air.zones.put e.1 ((f e.2).recompute fallback) }
    handed :=
      s.handed
        ++ if changed then [.zoneChangeFan ⟨e.1, some ((f e.2).recompute fallback).demand, e.2.alarm, .stayed, false⟩]
          else [] }

theorem State.settleZone_of_alike {i : Nat} {old : Zone} {f : Zone → Zone} (s : State) (h : old.Alike (f old)) :
    s.settleZone i old (f old) = sweepZone f s.items.fallback s (i, old) := by
  have ha := h.recompute s.items.fallback
  unfold State.settleZone sweepZone
  dsimp only
  rw [ha.inAlarm, listMove_self, ha.noted, ha.zoneChanges, State.markWhen_eq_port]
  cases old.demand != ((f old).recompute s.items.fallback).demand with
  | false => rfl
  | true =>
    dsimp only [State.moveInAlarmOrder]
    rw [if_pos rfl, State.mark_eq_port]
    rfl

@[simp] theorem State.markWhen_store (s : State) (b : Bool) (x : Subject) : (s.markWhen b x).store = s.store := by
  rw [State.markWhen_eq_port]

theorem foldl_markWhen_eq_port {α : Type} (b : α → Bool) (x : α → Subject) (l : List α) (s : State) :
    l.foldl (fun t a => t.markWhen (b a) (x a)) s
      = { s with port := l.foldl (fun p a => if b a then p.mark (x a) else p) s.port } := by
  induction l generalizing s with
  | nil => rfl
  | cons a l ih => rw [List.foldl_cons, List.foldl_cons, ih, State.markWhen_eq_port]

/-- A list of zones swept in turn: the marks, the records and what is handed on. -/
theorem foldl_sweepZone (f : Zone → Zone) (fallback : Nat) (l : Table Zone) (s : State) :
    List.foldl (sweepZone f fallback) s l
      = { List.foldl
            (fun (t : State) (e : Nat × Zone) =>
              t.markWhen (e.2.demand != ((f e.2).recompute fallback).demand) (.zone e.1)) s l with
          air :=
            { s.air with
              zones := List.foldl (fun u e => Table.put u e.1 ((f e.2).recompute fallback)) s.air.zones l }
          handed :=
            s.handed ++
              (List.filter (fun e : Nat × Zone => e.2.demand != ((f e.2).recompute fallback).demand) l).map fun e =>
                .zoneChangeFan ⟨e.1, some ((f e.2).recompute fallback).demand, e.2.alarm, .stayed, false⟩ } := by
  rw [foldl_markWhen_eq_port]
  induction l generalizing s with
  | nil => simp
  | cons e l ih =>
    rw [List.foldl_cons, ih]
    unfold sweepZone
    simp only [State.markWhen_eq_port, List.foldl_cons, List.filter_cons]
    split <;> simp [*]

/-- A change of every zone that its neighbours see by the demand alone. -/
theorem State.changeZones_of_alike {f : Zone → Zone} (hf : ∀ z : Zone, z.Alike (f z)) (s : State)
    (w : Table.wf s.air.zones = true) :
    s.changeZones f
      = { List.foldl
            (fun (t : State) (e : Nat × Zone) =>
              t.markWhen (e.2.demand != ((f e.2).recompute s.items.fallback).demand) (.zone e.1)) s s.air.zones with
          air := { s.air with zones := s.air.zones.map fun _ z => (f z).recompute s.items.fallback }
          handed :=
            s.handed ++
              (List.filter (fun e : Nat × Zone => e.2.demand != ((f e.2).recompute s.items.fallback).demand)
                s.air.zones).map fun e =>
                .zoneChangeFan ⟨e.1, some ((f e.2).recompute s.items.fallback).demand, e.2.alarm, .stayed, false⟩ } := by
  have visits : s.changeZones f = List.foldl (sweepZone f s.items.fallback) s s.air.zones := by
    refine Table.foldl_visit (tab := fun u : State => u.air.zones) (P := fun u => u.store = s.store)
      (f := fun _ z => (f z).recompute s.items.fallback) (fun u e hu hget => ?_) (fun u e hu => ?_) (fun u e hu => ?_)
      rfl w
    · unfold State.changeZone
      rw [show u.zone e.1 = some e.2 from hget]
      dsimp only
      rw [State.settleZone_of_alike u (hf e.2), State.items, hu]
    · rfl
    · exact (u.markWhen_store _ _).trans hu
  rw [visits, foldl_sweepZone, Table.foldl_put w fun _ z => (f z).recompute s.items.fallback]

/-! ### The stale time of every head (R12, R13) -/

theorem ChannelRun.recheck_smoothed (c : ChannelRun) (now staleTime : Nat) :
    (c.recheck now staleTime).smoothed = c.smoothed := by
  unfold ChannelRun.recheck
  split <;> rfl

/-- A channel is due when it is VALID or WARMING and its last fresh reading lies the stale time back. -/
theorem ChannelRun.staleDue_eq (c : ChannelRun) (s : State) (staleTime : Nat) :
    c.staleDue s.now staleTime
      = ((c.validity == .valid || c.validity == .warming) && s.timePassed c.lastFresh staleTime) := by
  unfold ChannelRun.staleDue State.timePassed
  cases c.validity <;> cases c.lastFresh <;> rfl

/-- The updates of an event over the heads of a table, zone by zone. -/
theorem updatesByZone_map (l : List (Nat × Head)) (u : Nat × Head → HeadUpdate) :
    updatesByZone (l.map fun e => (e.2.defn.zone, u e))
      = (List.range 24).flatMap fun z =>
          match (l.filter fun e => decide (e.2.defn.zone = z)).map u with
          | [] => []
          | x :: more => [.gasUpdate z x more] := by
  unfold updatesByZone
  refine congrArg (fun step => List.flatMap step (List.range 24)) ?_
  funext z
  rw [List.filter_map, List.map_map]
  rfl

/-- The heads with a channel whose stale time has passed go STALE in that channel, and each zone is updated once. -/
theorem recheckStale_eq (s : State) {gone : ChannelRun → Bool}
    (hgone : ∀ c, gone c = c.staleDue s.now s.items.staleTime) :
    let stale (c : ChannelRun) : ChannelRun := if gone c then { c with validity := .stale, seedPending := true } else c
    let affected := s.gas.heads.filter fun e => gone e.2.co || gone e.2.no2
    recheckStale s
      = { s.markAll (List.map (fun e : Nat × Head => Subject.zone e.2.defn.zone) affected) with
          gas := { heads := s.gas.heads.map fun _ h => { h with co := stale h.co, no2 := stale h.no2 } }
          handed :=
            s.handed ++ updatesByZone (affected.map fun e =>
              (e.2.defn.zone,
                ⟨e.1, some ⟨(stale e.2.co).validity, e.2.co.smoothed, (stale e.2.no2).validity, e.2.no2.smoothed⟩⟩)) } := by
  obtain rfl : gone = fun c => c.staleDue s.now s.items.staleTime := funext hgone
  have entry (h : Head) : (h.mapRuns (ChannelRun.recheck s.now s.items.staleTime)).viewEntry
      = ⟨(h.co.recheck s.now s.items.staleTime).validity, h.co.smoothed,
          (h.no2.recheck s.now s.items.staleTime).validity, h.no2.smoothed⟩ := by
    unfold Head.viewEntry Head.mapRuns
    dsimp only
    rw [ChannelRun.recheck_smoothed, ChannelRun.recheck_smoothed]
  intro stale affected
  unfold recheckStale
  simp only [entry, State.markAll_eq_port]
  rfl

/-! ### The targets of every group (R112) -/

section
variable (s : State)

theorem State.post_withLight (n : NodeId) (l : Lighting) :
    ({ s with light := l } : State).post n = { s.post n with light := l } := by
  have hnode : ({ s with light := l } : State).node n = s.node n := rfl
  unfold State.post
  dsimp only
  rw [hnode]
  split
  · rfl
  · split
    · rfl
    · split <;> rfl

theorem State.postAll_withLight (ns : List NodeId) (l : Lighting) :
    ({ s with light := l } : State).postAll ns = { s.postAll ns with light := l } := by
  unfold State.postAll
  induction ns generalizing s with
  | nil => rfl
  | cons n ns ih => rw [List.foldl_cons, List.foldl_cons, State.post_withLight, ih]

/-- A target depends on the clock, the items, the zone alarm view and the site mode. -/
theorem State.targeted_congr {t : State} (hc : t.clockMs = s.clockMs) (hs : t.store = s.store)
    (hz : t.light.zoneAlarm = s.light.zoneAlarm) (hm : t.light.mode = s.light.mode) : t.targeted = s.targeted := by
  funext g
  unfold State.targeted State.now State.alarmView
  rw [hc, hz, State.items, hs, hm]

/-- One group retargeted, where `g` gives its new record. -/
def retargetGroup (g : Group → Group) (s : State) (e : Nat × Group) : State :=
  { s.postAll (if (g e.2).target ≠ e.2.target then [e.2.defn.node] else []) with
    light := { s.light with groups := s.light.groups.put e.1 (g e.2) } }

theorem State.changeGroup_self (i : Nat) (g : Group) : s.changeGroup i g g = retargetGroup s.targeted s (i, g) := by
  unfold State.changeGroup retargetGroup State.putGroup
  dsimp only
  by_cases ht : g.target = (s.targeted g).target
  · rw [if_pos ht, if_neg (not_not_intro ht.symm)]
    rfl
  · rw [if_neg ht, if_pos (Ne.symm ht), State.post_withLight]
    rfl

theorem retargetGroup_targeted (g : Group → Group) (e : Nat × Group) : (retargetGroup g s e).targeted = s.targeted := by
  refine s.targeted_congr ?_ ?_ rfl rfl
  · exact State.postAll_clockMs _ _
  · exact State.postAll_store _ _

/-- A list of groups retargeted in turn: the posts and the records. -/
theorem foldl_retargetGroup (g : Group → Group) (l : Table Group) :
    List.foldl (retargetGroup g) s l
      = { s.postAll (List.map (fun e : Nat × Group => e.2.defn.node)
            (l.filter fun e => decide ((g e.2).target ≠ e.2.target))) with
          light :=
            { s.light with groups := List.foldl (fun u e => Table.put u e.1 (g e.2)) s.light.groups l } } := by
  induction l generalizing s with
  | nil => rfl
  | cons e l ih =>
    rw [List.foldl_cons, ih]
    unfold retargetGroup
    rw [State.postAll_withLight, List.filter_cons]
    by_cases ht : (g e.2).target = e.2.target
    · simp [ht, State.postAll]
    · simp [ht, State.postAll]

/-- Every group is retargeted, and the nodes of those whose level changed are posted. -/
theorem retargetAll_eq (w : Table.wf s.light.groups = true) :
    retargetAll s
      = { s.postAll (List.map (fun e : Nat × Group => e.2.defn.node)
            (s.light.groups.filter fun e => (s.targeted e.2).target ≠ e.2.target)) with
          light := { s.light with groups := s.light.groups.map fun _ g => s.targeted g } } := by
  have numbers : retargetAll s = s.light.groups.keys.foldl (fun u i => u.modifyGroup i id) s := by
    unfold retargetAll State.modifyGroups Table.keys
    rw [List.filter_eq_self.mpr fun _ _ => rfl, List.foldl_map]
  have visits : s.light.groups.keys.foldl (fun u i => u.modifyGroup i id) s
      = List.foldl (retargetGroup s.targeted) s s.light.groups := by
    refine Table.foldl_visit (tab := fun u : State => u.light.groups) (P := fun u => u.targeted = s.targeted)
      (f := fun _ g => s.targeted g) (fun u e hu hget => ?_) (fun u e _ => rfl)
      (fun u e hu => (retargetGroup_targeted u _ e).trans hu) rfl w
    unfold State.modifyGroup
    rw [hget]
    exact (u.changeGroup_self e.1 e.2).trans (by rw [hu])
  rw [numbers, visits, foldl_retargetGroup, Table.foldl_put w fun _ g => s.targeted g]

end

/-! ### The fail limit of every node (R129) -/

/-- An entry becomes LOST: its node is marked, its owner is told, and a retiring entry is deleted (R129, R132, log 31). -/
def loseNode (n : NodeId) (x : Node) (s : State) : State :=
  let t : State :=
    { (s.setNode n { x with state := .lost }).mark (.node n) with handed := s.handed ++ [lostEvent n x.defn.role] }
  if x.retiring then t.deleteNode n else t

/-- An entry that was not LOST is handed on as its state changes (R132). -/
theorem loseNode_eq_afterLoss {n : NodeId} {x : Node} {s : State} (h : x.state ≠ .lost) :
    loseNode n x s
      = ((s.setNode n { x with state := .lost }).mark (.node n)).afterLoss n x { x with state := .lost } := by
  unfold State.afterLoss State.hand
  rw [if_pos ⟨h, rfl⟩, State.mark_handed, State.setNode_handed]
  rfl

/-- The entry of a place against a fail limit. -/
def failNode (limit : Nat) (s : State) (i : Nat) : State :=
  match s.node (nodeAt i) with
  | none => s
  | some x => if x.state = .lost ∨ x.failures < limit then s else loseNode (nodeAt i) x s

theorem loseNode_store (n : NodeId) (x : Node) (s : State) : (loseNode n x s).store = s.store := by
  have marked : ((s.setNode n { x with state := .lost }).mark (.node n)).store = s.store := by simp
  unfold loseNode
  split
  · exact ((Calm.refl _).deleteNode (n := n)).store.trans marked
  · exact marked

theorem failNode_store (limit : Nat) (s : State) (i : Nat) : (failNode limit s i).store = s.store := by
  unfold failNode
  split
  · rfl
  · split
    · rfl
    · exact loseNode_store _ _ s

/-- Each entry is held against the new limit in the order of the node table. -/
theorem recheckFailLimit_eq (s : State) :
    recheckFailLimit s = s.loops.nodes.keys.foldl (failNode s.items.failLimit) s := by
  symm
  refine foldl_congr_of_invariant (P := fun u => u.store = s.store)
    (fun u i hu => (failNode_store _ u i).trans hu) (fun u i hu => ?_) rfl _
  unfold failNode
  dsimp only
  cases hx : u.node (nodeAt i) with
  | none => rfl
  | some x =>
    dsimp only
    rw [State.items, State.items, hu]
    by_cases hlost : x.state = .lost
    · rw [if_pos (.inl hlost), if_neg (fun h => h.1 hlost)]
    · by_cases hfew : x.failures < s.store.items.failLimit
      · rw [if_pos (.inr hfew), if_neg (by omega)]
      · rw [if_neg (by simp [hlost, hfew]), if_pos ⟨hlost, Nat.not_lt.mp hfew⟩]
        exact loseNode_eq_afterLoss hlost

/-- Settles O51, item by item. -/
theorem itemChangesReachTheirOwners : Obligations.ItemChangesReachTheirOwners := by
  intro s old it passed each swept retargeted gone stale
  have sweeps (f : Zone → Zone) (hf : ∀ z : Zone, z.Alike (f z)) (w : Table.wf s.air.zones = true) :
      s.changeZones f = swept f s.air.subWindowStart := State.changeZones_of_alike hf s w
  have hgone (c : ChannelRun) : gone c = c.staleDue s.now it.staleTime := (c.staleDue_eq s it.staleTime).symm
  refine ⟨rfl, ?spacing, itemChanged_startTimeout old, itemChanged_minimumRun old, itemChanged_holdTime old, ?hysteresis,
    itemChanged_exerciseInterval old, fun w => ⟨?fallback, ?openFloor, ?quietFloor, ?trafficWindow⟩, ?staleTime,
    fun w => ⟨?openBase, ?quietBase⟩, ?failLimit, fun hcalm => exec_of_calm hcalm, ?codes⟩
  case spacing =>
    have hpassed : (s.fans.lastGrant.isNone || passed s s.fans.lastGrant it.startSpacing) = s.spacingPassed :=
      s.spacingPassed_eq.symm
    rw [hpassed]
    exact recheckSpacing_eq s
  case hysteresis =>
    refine congrArg (fun step => (List.foldl step s s.air.zones.keys).evaluate) ?_
    funext u z
    unfold State.remap
    dsimp only
    cases (u.recount z).zone z <;> rfl
  case fallback => exact sweeps id (fun _ => ⟨rfl, rfl, rfl, rfl, rfl⟩) w
  case openFloor => exact congrArg (ite _ · s) (sweeps _ (fun _ => ⟨rfl, rfl, rfl, rfl, rfl⟩) w)
  case quietFloor => exact congrArg (ite _ · s) (sweeps _ (fun _ => ⟨rfl, rfl, rfl, rfl, rfl⟩) w)
  case trafficWindow =>
    have restarted := State.changeZones_of_alike (f := fun z => { z with ring := [0, 0, 0, 0, 0, 0] })
      (fun _ => ⟨rfl, rfl, rfl, rfl, rfl⟩) { s with air := { s.air with subWindowStart := s.now } } w
    refine restarted.trans ?_
    simp only [swept, foldl_markWhen_eq_port]
    rfl
  case staleTime =>
    refine (recheckStale_eq s hgone).trans ?_
    dsimp only
    rw [updatesByZone_map] <;> rfl
  case openBase => exact congrArg (ite _ · s) (retargetAll_eq s w)
  case quietBase => exact congrArg (ite _ · s) (retargetAll_eq s w)
  case failLimit =>
    refine (recheckFailLimit_eq s).trans (congrArg (fun step => List.foldl step s s.loops.nodes.keys) ?_)
    funext u i
    cases hx : u.node (nodeAt i) with
    | none => simp [failNode, hx]
    | some x => cases hrole : x.defn.role <;> simp [failNode, loseNode, lostEvent, hx, hrole, it]
  case codes =>
    intro i hi
    simp only [List.mem_cons, List.not_mem_nil, or_false] at hi
    rcases hi with rfl | rfl <;> exact ⟨rfl, rfl⟩

end Sys2Proof.Machine
end

