-- ==== Sys2Proof/Proofs/Steps.lean ====
section
/-! SUPPORT. What every step keeps: a property that effects, the engine with the transmitter and the list of handed
events keep is kept by every command and by an idle step (R34, R136, R168). -/

namespace Sys2Proof.Machine

/-! ### The parts of a step -/

/-- The three parts of a step, each of which keeps `P`. -/
structure StepKeeps (P : State → Prop) : Prop where
  effect : ∀ c s, P s → P (effect c s)
  settle : ∀ s, P s → P (settle s)
  handed : ∀ s es, P s → P { s with handed := es }

section
variable {P : State → Prop} (k : StepKeeps P) {s : State}
include k

theorem StepKeeps.takeOne (h : P s) (e : Instr) : P (takeOne s e) := k.settle _ (k.effect e _ (k.handed _ _ h))

theorem StepKeeps.foldl_takeOne (h : P s) (es : List Instr) : P (es.foldl Machine.takeOne s) := by
  induction es generalizing s with
  | nil => exact h
  | cons e es ih => exact ih (k.takeOne h e)

theorem StepKeeps.takeHanded (h : P s) : P (takeHanded s) := by
  unfold Machine.takeHanded
  split
  · exact h
  · exact k.settle _ (k.effect _ _ (k.handed _ _ h))

theorem StepKeeps.catchUp (h : P s) (fuel : Nat) : P (catchUp fuel s) := by
  induction fuel generalizing s with
  | zero => exact h
  | succ fuel ih =>
    unfold Machine.catchUp
    split
    · exact h
    · exact ih (k.takeHanded h)

theorem StepKeeps.prepare (h : P s) (c : Instr) : P (prepare c s) := by
  unfold Machine.prepare
  split
  · exact h
  · split
    · exact k.handed _ _ (k.foldl_takeOne h _)
    · exact k.catchUp h _

theorem StepKeeps.perform (h : P s) (c : Instr) : P (perform c (Machine.effect c) s) :=
  k.settle _ (k.effect c _ (k.prepare h c))

end

/-! ### The queue of commands -/

theorem effect_pending (c : Instr) (s : State) : (effect c s).pending = s.pending := by
  cases hc : isStart c with
  | false => exact (effect_course hc).pending
  | true =>
    cases c
    case powerOn => exact State.start_pending _ _
    case restart => exact State.start_pending _ _
    all_goals cases hc

theorem State.transmit_pending (s : State) : s.transmit.pending = s.pending := by
  obtain ⟨p, hp⟩ := s.transmit_port
  rw [hp]

theorem settle_pending (s : State) : (settle s).pending = s.pending := by
  unfold settle
  rw [State.transmit_pending]
  split
  · exact (Calm.refl s).choose.pending
  · rfl

/-- A step's parts leave the queue of commands. -/
theorem stepKeeps_pending (q : List Instr) : StepKeeps fun s => s.pending = q :=
  ⟨fun c s h => (effect_pending c s).trans h, fun s h => (settle_pending s).trans h, fun _ _ h => h⟩

/-! ### The sound states -/

theorem effect_sound {s : State} (h : Sound s) (c : Instr) : Sound (effect c s) := by
  cases hc : isStart c with
  | false => exact (effect_course hc).sound h
  | true =>
    cases c
    case powerOn => exact State.start_sound h.saved _ _
    case restart => exact State.start_sound h.saved _ _
    all_goals cases hc

theorem settle_sound {s : State} (h : Sound s) : Sound (settle s) := by
  unfold settle
  split
  · exact ((Moves.refl s).choose.sound h).transmit
  · exact h.transmit

/-- A step's parts keep a sound state sound. -/
theorem stepKeeps_sound : StepKeeps Sound :=
  ⟨fun c _ h => effect_sound h c, fun _ h => settle_sound h, fun s es h => (Move.handed s es).sound h⟩

/-- The queue of commands and the clock have no part in what makes a state sound. -/
theorem Sound.outside {s : State} (h : Sound s) (pending : List Instr) (clockMs : Nat) :
    Sound { s with pending := pending, clockMs := clockMs } :=
  ⟨⟨h.capacities.replies, h.capacities.urgent, h.capacities.urgentOnce, h.capacities.notesOnce, h.capacities.memory⟩,
    ⟨h.supply.table, h.supply.ordered, h.supply.account, h.supply.limit, h.supply.slot⟩, h.alarmOrder, h.counts,
    h.guide, h.light, h.nodes, h.saved⟩

theorem idle_sound {s : State} (h : Sound s) : Sound (idle s) := by
  unfold idle
  split
  · exact stepKeeps_sound.takeHanded h
  · split
    · exact stepKeeps_sound.perform h _
    · exact settle_sound (h.outside s.pending _)

/-! ### The idle steps -/

section
variable {s : State}

theorem step_of_command {c : Instr} {rest : List Instr} (hq : s.pending = c :: rest) :
    step s = exec c { s with pending := rest } := by
  unfold step
  rw [hq]

theorem step_of_noCommand (hq : s.pending = []) : step s = .next (idle s) := by
  unfold step
  rw [hq]

theorem idle_of_handed {e : Instr} {rest : List Instr} (hh : s.handed = e :: rest) :
    idle s = settle (effect e { s with handed := rest }) := by
  unfold idle takeHanded
  rw [hh]

theorem idle_of_due {c : Instr} {rest : List Instr} (hh : s.handed = []) (hd : s.due = c :: rest) :
    idle s = perform c (effect c) s := by
  unfold idle
  rw [hh, hd]

theorem idle_of_nothingDue (hh : s.handed = []) (hd : s.due = []) : idle s = s.tick := by
  unfold idle
  rw [hh, hd]

end

/-- Settles O60: the command at the front keeps a sound state sound, and so does an idle step. -/
theorem everyStepKeepsTheStateSound : Obligations.EveryStepKeepsTheStateSound := by
  intro s h
  match hq : s.pending with
  | c :: rest =>
    rw [step_of_command hq, exec_eq]
    exact stepKeeps_sound.perform (h.outside rest s.clockMs) c
  | [] =>
    rw [step_of_noCommand hq]
    exact idle_sound h

/-- Settles O58: the front command, the queue it leaves, the lane of a handed event, and the three idle steps. -/
theorem stepTakesTheFrontCommand : Obligations.StepTakesTheFrontCommand := by
  refine ⟨fun _ _ _ => step_of_command, fun s c => ?goesOn, fun s c before rest hc hsplit hfirst => ?lane,
    fun s hq => ⟨fun e rest hh => ?handed, fun c rest hh hd => ?due, fun hh hd => ?tick⟩⟩
  case goesOn => exact ⟨_, exec_eq c s, (stepKeeps_pending s.pending).perform rfl c⟩
  case lane =>
    have hmem : c ∈ s.handed := by simp [hsplit]
    rw [exec_of_handed hc hmem, earlier_of_split hsplit hfirst]
    rfl
  case handed => rw [step_of_noCommand hq, idle_of_handed hh]
  case due => rw [step_of_noCommand hq, idle_of_due hh hd, exec_eq]
  case tick => rw [step_of_noCommand hq, idle_of_nothingDue hh hd, State.tick]

end Sys2Proof.Machine
end

