-- ==== Sys2Proof/Proofs/ZoneTerms.lean ====
section
/-! SUPPORT. The figure, the alarm and the terms of a zone (R22, R23, R25, R28). -/

namespace Sys2Proof.Machine

/-! ### The greatest of a list -/

theorem greatest_eq_max? (l : List Nat) : greatest l = l.max? := by cases l <;> rfl

/-! ### The figure of a view (R22) -/

/-- The value of a gas in a view entry, while its channel is VALID. -/
def validValueOf (e : ViewEntry) : Gas → Option Nat
  | .co => if e.coValidity = .valid then some e.coValue else none
  | .no2 => if e.no2Validity = .valid then some e.no2Value else none

theorem validValues_eq (view : Table ViewEntry) (g : Gas) :
    validValues view g = List.filterMap (fun e : Nat × ViewEntry => validValueOf e.2 g) view := by cases g <;> rfl

theorem figureOf_eq_none_iff (view : Table ViewEntry) (g : Gas) :
    figureOf view g = none ↔ ∀ e ∈ view, validValueOf e.2 g = none := by
  unfold figureOf
  rw [greatest_eq_max?, List.max?_eq_none_iff, validValues_eq, List.filterMap_eq_nil_iff]

theorem figureOf_eq_some_iff (view : Table ViewEntry) (g : Gas) (m : Nat) :
    figureOf view g = some m
      ↔ (∃ e ∈ view, validValueOf e.2 g = some m) ∧ ∀ e ∈ view, ∀ y, validValueOf e.2 g = some y → y ≤ m := by
  unfold figureOf
  rw [greatest_eq_max?, List.max?_eq_some_iff, validValues_eq]
  simp only [List.mem_filterMap]
  exact and_congr_right fun _ => ⟨fun h e he y hy => h y ⟨e, he, hy⟩, fun h y ⟨e, he, hy⟩ => h e he y hy⟩

/-! ### The alarm and the terms (R23, R25, R28) -/

theorem alarmAfter_clear {l : GasLimits} {f : Nat} : alarmAfter l (some f) false = decide (l.alarmOn ≤ f) := rfl

/-- A set alarm clears below the clearing threshold, which is at most the setting one (R23). -/
theorem alarmAfter_set_eq_false_iff {l : GasLimits} {f : Nat} :
    alarmAfter l (some f) true = false ↔ f < min l.alarmOff l.alarmOn := by simp [alarmAfter]

theorem gasTerm_of_start_lt_full {l : GasLimits} (h : l.start < l.full) (fallback f : Nat) :
    gasTerm fallback l (some f)
      = if f ≤ l.start then 0 else if l.full ≤ f then 100 else 100 * (f - l.start) / (l.full - l.start) := if_pos h

theorem gasTerm_of_full_le_start {l : GasLimits} (h : l.full ≤ l.start) (fallback f : Nat) :
    gasTerm fallback l (some f) = if l.start ≤ f then 100 else 0 := if_neg (Nat.not_lt.mpr h)

/-- Between START and FULL the term is a share of 100. -/
theorem gasTerm_le (fallback : Nat) (l : GasLimits) (f : Nat) : gasTerm fallback l (some f) ≤ 100 := by
  rcases Nat.lt_or_ge l.start l.full with h | h
  · rw [gasTerm_of_start_lt_full h]
    split
    · omega
    · split
      · exact Nat.le_refl _
      · refine Nat.div_le_of_le_mul ?_
        rw [Nat.mul_comm]
        exact Nat.mul_le_mul_right 100 (by omega)
  · rw [gasTerm_of_full_le_start h]
    split <;> omega

/-- Settles O7: the figure by its two laws, the alarm by its threshold, the gas term by the order of its limits. -/
theorem zoneFigureAlarmAndTerms : Obligations.ZoneFigureAlarmAndTerms := by
  refine ⟨fun view => ⟨?coNone, fun m => ?coSome, ?no2None, fun m => ?no2Some⟩,
    fun l set f => ⟨rfl, fun h => ?alarmSets, fun h => ?alarmStays, fun h => ?offBelowOn, fun h => ?onBelowOff⟩,
    fun l fallback f =>
      ⟨rfl, fun h hf => ?atStart, fun h hf => ?atFull, fun h hf hf' => ?between, fun h hf => ?stepOn,
        fun h hf => ?stepOff, gasTerm_le fallback l f⟩,
    fun t w => ⟨rfl, ?noWeight, fun h => ?heavy⟩⟩
  case coNone => simp [figureOf_eq_none_iff, validValueOf]
  case coSome => simp [figureOf_eq_some_iff, validValueOf]
  case no2None => simp [figureOf_eq_none_iff, validValueOf]
  case no2Some => simp [figureOf_eq_some_iff, validValueOf]
  case alarmSets => exact alarmAfter_clear.trans (decide_eq_true h)
  case alarmStays => exact alarmAfter_clear.trans (decide_eq_false (Nat.not_le.mpr h))
  case offBelowOn => rw [alarmAfter_set_eq_false_iff, Nat.min_eq_left h]
  case onBelowOff => rw [alarmAfter_set_eq_false_iff, Nat.min_eq_right (Nat.le_of_lt h)]
  case atStart => rw [gasTerm_of_start_lt_full h, if_pos hf]
  case atFull => rw [gasTerm_of_start_lt_full h, if_neg (by omega), if_pos hf]
  case between => rw [gasTerm_of_start_lt_full h, if_neg (by omega), if_neg (by omega)]
  case stepOn => rw [gasTerm_of_full_le_start h, if_pos hf]
  case stepOff => rw [gasTerm_of_full_le_start h, if_neg (by omega)]
  case noWeight => simp [trafficTermOf]
  case heavy =>
    unfold trafficTermOf
    omega

end Sys2Proof.Machine
end

