-- ==== Sys2Proof/Proofs/ZoneSettling.lean ====
section
/-! SUPPORT. How a zone settles, and what its events and sweeps make of it (R22 to R35). -/

namespace Sys2Proof.Machine

/-! ### Settling a zone (R24, R31, R34, R35) -/

section
variable (s : State) (i : Nat)

theorem State.moveInAlarmOrder_eq (old new : Bool) :
    s.moveInAlarmOrder i (listMove old new)
      = { s.markWhen (old != new) .site with
          air :=
            { s.air with
              alarmOrder :=
                if !old && new then s.air.alarmOrder ++ [i]
                else if old && !new then s.air.alarmOrder.filter (· ≠ i)
                else s.air.alarmOrder } } := by
  rw [State.markWhen_eq_port]
  cases old <;> cases new
  case false.true => exact State.mark_eq_port _ _
  case true.false => exact State.mark_eq_port _ _
  all_goals rfl

theorem listMove_eq (old new : Bool) :
    listMove old new = if !old && new then .entered else if old && !new then .left else .stayed := by
  cases old <;> cases new <;> rfl

/-- The zone changes with the condition of each said over the two records (R34). -/
theorem zoneChanges_eq (old new : Zone) :
    zoneChanges i old new
      = (if old.demand != new.demand || old.alarm != new.alarm
            || (new.inAlarm && old.defn.alarmPlan != new.defn.alarmPlan) then
          [.zoneChangeFan
            ⟨i, if old.demand = new.demand then none else some new.demand, new.alarm, listMove old.inAlarm new.inAlarm,
              new.inAlarm && old.defn.alarmPlan != new.defn.alarmPlan⟩]
        else [])
        ++ (if old.closed != new.closed then [.zoneChangeGuidance i new.closed] else [])
        ++ (if old.inAlarm != new.inAlarm then [.zoneChangeLighting i new.inAlarm] else []) := by
  unfold Machine.zoneChanges
  by_cases hd : old.demand = new.demand <;> simp [hd]

theorem queueTermOf_eq (standing : List Nat) (q : Nat) : queueTermOf standing q = if standing = [] then 0 else q := by
  unfold queueTermOf
  cases standing <;> simp

/-- The parts of settling a zone: its place in the alarm order list, its mark and its zone changes. -/
theorem State.settleZone_eq_parts {old new z : Zone} (hz : new.recompute s.items.fallback = z) :
    s.settleZone i old new
      = (((s.putZone i z).moveInAlarmOrder i (listMove old.inAlarm z.inAlarm)).markWhen (old.noted z) (.zone i)).handAll
          (zoneChanges i old z) := by
  subst hz
  rfl

end

/-- Settles O8: the place in the alarm order list, the zone's mark and the zone changes, each by its own law. -/
theorem zoneSettlesWhole : Obligations.ZoneSettlesWhole := by
  intro s i old new co no2 traffic queue demand z planChanged
  have hz : new.recompute s.items.fallback = z := by
    unfold Zone.recompute
    rw [queueTermOf_eq]
    rfl
  rw [State.settleZone_eq_parts s i hz, State.moveInAlarmOrder_eq, zoneChanges_eq, listMove_eq]
  simp only [State.markWhen_eq_port, State.handAll, List.append_assoc]
  rfl

/-! ### The events of a zone (R22, R26, R29, R33) -/

section
variable {s : State} {i : Nat} {z : Zone}

theorem State.changeZone_of_some (hz : s.zone i = some z) (f : Zone → Zone) :
    s.changeZone i f = s.settleZone i z (f z) := by
  unfold State.changeZone
  rw [hz]

theorem State.changeZone_of_none (hz : s.zone i = none) (f : Zone → Zone) : s.changeZone i f = s := by
  unfold State.changeZone
  rw [hz]

end

/-- A channel view after an update of one head (R22). -/
def viewAfter (view : Table ViewEntry) (u : HeadUpdate) : Table ViewEntry :=
  match u.entry with
  | some e => view.put u.head e
  | none => view.del u.head

theorem Zone.see_eq (z : Zone) (u : HeadUpdate) : z.see u = { z with view := viewAfter z.view u } := by
  unfold Zone.see viewAfter
  cases u.entry <;> rfl

theorem Zone.foldl_see (us : List HeadUpdate) (z : Zone) :
    us.foldl Zone.see z = { z with view := us.foldl viewAfter z.view } := by
  induction us generalizing z with
  | nil => rfl
  | cons u us ih => rw [List.foldl_cons, List.foldl_cons, ih, Zone.see_eq]

theorem bumpNewest_append (older : List Nat) (newest : Nat) :
    bumpNewest (older ++ [newest]) = older ++ [heldSucc 255 newest] := by
  induction older with
  | nil => rfl
  | cons x older ih => cases older <;> simp_all [bumpNewest]

/-- Settles O9: each event changes the record of its zone, when it is defined, and settles it. -/
theorem zoneEventsSettleTheZone : Obligations.ZoneEventsSettleTheZone := by
  intro s i hcalm
  refine ⟨fun z hz => ?defined, fun hz => ?undefined⟩
  case defined =>
    have settled {c : Instr} {f : Zone → Zone} {new : Zone} (hc : effect c s = s.changeZone i f) (hf : f z = new) :
        exec c s = .next (settle (s.settleZone i z new)) := by
      rw [exec_of_calm hcalm, hc, State.changeZone_of_some hz, hf]
    refine ⟨fun u more => settled rfl ?_, fun older newest hring => settled rfl ?_, fun ramp hr => settled rfl ?_,
      fun ramp hr => settled rfl ?_, fun ramp => settled rfl rfl, fun flag => settled rfl rfl⟩
    · rw [Zone.foldl_see]
      rfl
    · rw [hring, bumpNewest_append]
      rfl
    · exact (if_pos rfl).trans (if_neg hr)
    · exact (if_pos rfl).trans (if_pos hr)
  case undefined =>
    have passed {c : Instr} {f : Zone → Zone} (hc : effect c s = s.changeZone i f) : exec c s = .next (settle s) := by
      rw [exec_of_calm hcalm, hc, State.changeZone_of_none hz]
    exact ⟨fun _ _ => passed rfl, passed rfl, fun _ _ => passed rfl, fun _ => passed rfl⟩

/-! ### The sweeps over every zone (R27, R30) -/

theorem effSubWindowExpiry_of_due {s : State} (h : s.air.subWindowStart + s.items.trafficWindow / 6 ≤ s.now) :
    effSubWindowExpiry s
      = State.changeZones (fun z => { z with ring := z.ring.drop 1 ++ [0] })
          { s with air := { s.air with subWindowStart := s.now } } :=
  if_pos (decide_eq_true h)

theorem effSubWindowExpiry_of_early {s : State} (h : s.now < s.air.subWindowStart + s.items.trafficWindow / 6) :
    effSubWindowExpiry s = s :=
  if_neg fun hdue => Nat.not_le.mpr h (of_decide_eq_true hdue)

/-- Settles O10: both events are one change of every zone that its neighbours see by the demand alone. -/
theorem zoneSweepsReachEveryZone : Obligations.ZoneSweepsReachEveryZone := by
  intro s hcalm w swept
  have sweep {c : Instr} {f : Zone → Zone} {start : Nat} (hf : ∀ z : Zone, z.Alike (f z))
      (hc : effect c s = State.changeZones f { s with air := { s.air with subWindowStart := start } }) :
      exec c s = .next (settle (swept f start)) := by
    have hswept : effect c s = swept f start := by
      refine (hc.trans (State.changeZones_of_alike hf _ w)).trans ?_
      simp only [swept, foldl_markWhen_eq_port, hcalm, List.nil_append]
    rw [exec_of_calm hcalm, hswept]
  refine ⟨fun hdue => ?atItsTime, fun hearly => ?before, ?opened, ?quiet⟩
  case atItsTime =>
    exact sweep (f := fun z => { z with ring := z.ring.drop 1 ++ [0] }) (fun _ => ⟨rfl, rfl, rfl, rfl, rfl⟩)
      (effSubWindowExpiry_of_due hdue)
  case opened =>
    exact sweep (f := fun z => { z with floorTerm := s.items.openFloor }) (fun _ => ⟨rfl, rfl, rfl, rfl, rfl⟩) rfl
  case quiet =>
    exact sweep (f := fun z => { z with floorTerm := s.items.quietFloor }) (fun _ => ⟨rfl, rfl, rfl, rfl, rfl⟩) rfl
  case before =>
    have heff : effect .subWindowExpiry s = s := effSubWindowExpiry_of_early hearly
    rw [exec_of_calm hcalm, heff]

end Sys2Proof.Machine
end

