-- ==== Sys2Proof/Proofs/ZoneRequests.lean ====
section
/-! SUPPORT. The requests of the Zone Air Unit: each check in its order, and what is done on acceptance (R36 to R39). -/

namespace Sys2Proof.Machine

/-! ### The zone number -/

theorem refuseIf_zones_out {i : Nat} {rest : Owned} (hi : 24 ≤ i) :
    refuseIf (decide (Config.zones ≤ i)) .outOfRange rest = .error .outOfRange :=
  refuseIf_of_true (decide_eq_true hi)

theorem refuseIf_zones_in {i : Nat} {rest : Owned} (hi : i < 24) :
    refuseIf (decide (Config.zones ≤ i)) .outOfRange rest = rest :=
  refuseIf_of_false (decide_eq_false (Nat.not_le.mpr hi))

/-! ### Removing a zone (R36) -/

/-- A record names a zone: a head, bay, ramp, fan, group or sign. -/
def State.Names (s : State) (i : Nat) : Prop :=
  (∃ e ∈ s.gas.heads, e.2.defn.zone = i) ∨ (∃ e ∈ s.occ.bays, e.2.defn.zone = i)
    ∨ (∃ e ∈ s.occ.ramps, e.2.defn.zone = i) ∨ (∃ e ∈ s.fans.fans, e.2.defn.zone = i)
    ∨ (∃ e ∈ s.light.groups, e.2.defn.zone = i)
    ∨ ∃ e ∈ s.guide.signs, i ∈ e.2.defn.sources ∨ ∃ d ∈ e.2.defn.directions, i ∈ d.zones

section
variable {s : State} {i : Nat} {z : Zone}

theorem State.zoneNamed_iff : s.zoneNamed i = true ↔ s.Names i := by
  simp [State.zoneNamed, State.Names, Table.any, or_assoc]

theorem State.framePassed_names : s.framePassed.Names i ↔ s.Names i := by simp [State.Names]

theorem Zone.alarm_bne_none (z : Zone) : (z.alarm != .none) = z.inAlarm := by
  unfold Zone.alarm Zone.inAlarm
  cases z.coAlarm <;> cases z.no2Alarm <;> rfl

/-- The neighbours of a removed zone are told that its alarm and its closure end (R36). -/
theorem zoneChanges_ended (i : Nat) (z : Zone) :
    zoneChanges i z { z with coAlarm := false, no2Alarm := false, hostClosed := false }
      = (if z.inAlarm then [.zoneChangeFan ⟨i, none, .none, .left, false⟩] else [])
        ++ (if z.inAlarm || z.hostClosed then [.zoneChangeGuidance i false] else [])
        ++ (if z.inAlarm then [.zoneChangeLighting i false] else []) := by
  have calm : ({ z with coAlarm := false, no2Alarm := false, hostClosed := false } : Zone).alarm = .none := rfl
  have opened : ({ z with coAlarm := false, no2Alarm := false, hostClosed := false } : Zone).closed = false := rfl
  have unlisted : ({ z with coAlarm := false, no2Alarm := false, hostClosed := false } : Zone).inAlarm = false := rfl
  rw [zoneChanges_eq, calm, opened, unlisted, Zone.alarm_bne_none, Zone.closed]
  cases z.inAlarm <;> simp [listMove]

theorem State.removeZone_eq (s : State) (i : Nat) (z : Zone) :
    s.removeZone i z
      = { (s.markWhen z.inAlarm .site).mark (.zone i) with
          air :=
            { s.air with
              zones := s.air.zones.del i
              alarmOrder := if z.inAlarm then s.air.alarmOrder.filter (· ≠ i) else s.air.alarmOrder }
          fans := { s.fans with zones := s.fans.zones.del i }
          occ := { s.occ with counts := s.occ.counts.del i }
          handed :=
            s.handed
              ++ ((if z.inAlarm then [.zoneChangeFan ⟨i, none, .none, .left, false⟩] else [])
                ++ (if z.inAlarm || z.hostClosed then [.zoneChangeGuidance i false] else [])
                ++ (if z.inAlarm then [.zoneChangeLighting i false] else [])) } := by
  unfold State.removeZone
  dsimp only
  rw [zoneChanges_ended, State.moveInAlarmOrder_eq, State.mark_eq_port, State.mark_eq_port, State.markWhen_eq_port,
    State.markWhen_eq_port]
  cases z.inAlarm <;> rfl

end

/-! ### ZONE-DEF (R36) -/

section
variable {r : ZoneDefReq} {s : State} {z : Zone} {kind : ZoneKind}

theorem ownZoneDef_of_noZone (hi : 24 ≤ r.zone) : ownZoneDef r s = .error .outOfRange := refuseIf_zones_out hi

theorem ownZoneDef_remove_of_none (hi : r.zone < 24) (hf : r.remove = true) (hz : s.zone r.zone = none) :
    ownZoneDef r s = .error .notDefined := by
  unfold ownZoneDef
  rw [refuseIf_zones_in hi, if_pos hf, hz]

theorem ownZoneDef_remove_of_named (hi : r.zone < 24) (hf : r.remove = true) (hz : s.zone r.zone = some z)
    (hn : s.Names r.zone) : ownZoneDef r s = .error .conflict := by
  unfold ownZoneDef
  rw [refuseIf_zones_in hi, if_pos hf, hz]
  exact refuseIf_of_true (State.zoneNamed_iff.mpr hn)

theorem ownZoneDef_remove_of_free (hi : r.zone < 24) (hf : r.remove = true) (hz : s.zone r.zone = some z)
    (hn : ¬ s.Names r.zone) : ownZoneDef r s = accept false (s.removeZone r.zone z) := by
  unfold ownZoneDef
  rw [refuseIf_zones_in hi, if_pos hf, hz]
  exact refuseIf_of_false (Bool.eq_false_iff.mpr fun h => hn (State.zoneNamed_iff.mp h))

theorem zoneKindOf_of_two_le {n : Nat} (h : 2 ≤ n) : zoneKindOf n = none := by
  match n, h with
  | _ + 2, _ => rfl

/-- The kind, the level and the alarm plan of a definition are checked before the zone's record is looked at. -/
theorem ownZoneDef_of_badField (hi : r.zone < 24) (hf : r.remove = false)
    (hbad : 2 ≤ r.kind ∨ 8 ≤ r.level ∨ (r.alarmPlan ≠ 0xFF ∧ 8 ≤ r.alarmPlan)) :
    ownZoneDef r s = .error .outOfRange := by
  unfold ownZoneDef
  rw [refuseIf_zones_in hi, if_neg (by simp [hf])]
  split
  · rfl
  · rename_i hk
    refine refuseIf_of_true ?_
    rcases hbad with hbad | hbad
    · simp [zoneKindOf_of_two_le hbad] at hk
    · rw [Bool.or_eq_true, Bool.and_eq_true, bne_iff_ne, decide_eq_true_eq, decide_eq_true_eq]
      exact hbad

/-- The definition part of a zone that ZONE-DEF creates (R36, limits at definition). -/
def ZoneDefReq.created (r : ZoneDefReq) (kind : ZoneKind) : ZoneDefn :=
  { kind := kind, level := r.level, co := .newCo, no2 := .newNo2, alarmPlan := optionalId r.alarmPlan
    weight := r.weight, queueDemand := min 100 r.queueDemand }

/-- A zone's definition part after ZONE-DEF: its limits stay (R36). -/
def ZoneDefReq.redefined (r : ZoneDefReq) (kind : ZoneKind) (d : ZoneDefn) : ZoneDefn :=
  { d with
    kind := kind, level := r.level, alarmPlan := optionalId r.alarmPlan, weight := r.weight
    queueDemand := min 100 r.queueDemand }

/-- A definition whose fields pass their checks creates its zone or changes it. -/
theorem ownZoneDef_of_fields (hi : r.zone < 24) (hf : r.remove = false) (hk : zoneKindOf r.kind = some kind)
    (hl : r.level < 8) (hp : r.alarmPlan = 0xFF ∨ r.alarmPlan < 8) :
    (s.zone r.zone = none →
      let z := Zone.new (r.created kind) (floorOf s.items s.light.mode) true
      ownZoneDef r s
        = accept (decide (100 < r.queueDemand))
            (((s.putZoneFans r.zone .new).settleZone r.zone z z).mark (.zone r.zone)))
    ∧ ∀ z, s.zone r.zone = some z →
      ownZoneDef r s
        = accept (decide (100 < r.queueDemand))
            ((s.settleZone r.zone z { z with defn := r.redefined kind z.defn }).mark (.zone r.zone)) := by
  have hfields : (decide (Config.levels ≤ r.level) || (r.alarmPlan != 0xFF && decide (Config.plans ≤ r.alarmPlan)))
      = false := by
    rw [Bool.or_eq_false_iff, Bool.and_eq_false_iff, bne_eq_false_iff_eq, decide_eq_false_iff_not,
      decide_eq_false_iff_not]
    exact ⟨Nat.not_le.mpr hl, hp.imp_right Nat.not_le.mpr⟩
  unfold ownZoneDef
  rw [refuseIf_zones_in hi, if_neg (by simp [hf]), hk]
  dsimp only
  rw [refuseIf_of_false hfields]
  exact ⟨fun hz => by rw [hz]; rfl, fun z hz => by rw [hz]; rfl⟩

end

theorem toNat_eq_ones_iff (p : Byte) : p.toNat = 0xFF ↔ p = 0xFF :=
  ⟨fun h => BitVec.eq_of_toNat_eq h, fun h => h ▸ rfl⟩

theorem optionalId_toNat (p : Byte) : optionalId p.toNat = if p = 0xFF then none else some p.toNat := by
  unfold optionalId
  by_cases h : p = 0xFF
  · rw [if_pos h, if_pos ((toNat_eq_ones_iff p).mpr h)]
  · rw [if_neg h, if_neg (mt (toNat_eq_ones_iff p).mp h)]

/-- Settles O11: each check of R36 in its order, then the removal, the creation and the change. -/
theorem zoneDefFollowsItsRules : Obligations.ZoneDefFollowsItsRules := by
  intro s tag i f k l p w q hs fp c plan named
  let r : ZoneDefReq := ⟨i.toNat, f.getLsbD 0, k.toNat, l.toNat, p.toNat, w.toNat, q.toNat⟩
  have refused {e : RefusalCode} (ho : ownZoneDef r fp = .error e) : exec c s = .next (fp.turnedAway tag e) :=
    exec_turnedAway (owner := ownZoneDef) (x := r) rfl hs rfl rfl ho
  have done {b : Bool} {t u : State} (ho : ownZoneDef r fp = accept b t) (ht : t = u) :
      exec c s = .next (u.done tag b) :=
    ht ▸ exec_done (owner := ownZoneDef) (x := r) rfl hs rfl rfl ho
  have hzone (z : Option Zone) (hz : s.zone i.toNat = z) : fp.zone i.toNat = z := (s.framePassed_zone _).trans hz
  have hnames : fp.Names i.toNat ↔ named := State.framePassed_names
  refine ⟨fun hi => refused (ownZoneDef_of_noZone hi),
    fun hi hf => ⟨fun hz => ?undefined, fun z hz => ⟨fun hn => ?named, fun hn => ?removed⟩⟩,
    fun hi hf =>
      ⟨fun hbad => ?badField, fun kind hk hl hp => ⟨fun hz => ?created, fun z hz => ?changed⟩⟩⟩
  case undefined => exact refused (ownZoneDef_remove_of_none hi hf (hzone _ hz))
  case named => exact refused (ownZoneDef_remove_of_named hi hf (hzone _ hz) (hnames.mpr hn))
  case removed =>
    refine done (ownZoneDef_remove_of_free hi hf (hzone _ hz) (fun h => hn (hnames.mp h))) ?_
    rw [State.removeZone_eq]
    simp only [fp, State.framePassed_air, State.framePassed_fans, State.framePassed_occ, State.framePassed_handed,
      hs.handed, List.nil_append]
    rfl
  case badField =>
    have hplan := mt (toNat_eq_ones_iff p).mp
    exact refused (ownZoneDef_of_badField hi hf (hbad.imp_right (.imp_right (.imp_left hplan))))
  case created =>
    obtain ⟨create, -⟩ := ownZoneDef_of_fields (s := fp) (r := r) hi hf hk hl (hp.imp_left (toNat_eq_ones_iff p).mpr)
    refine done (create (hzone _ hz)) ?_
    have hfloor : floorOf fp.items fp.light.mode = floorOf s.items s.light.mode := by
      rw [s.framePassed_light, State.items, s.framePassed_store]
    rw [hfloor, State.putZoneFans, s.framePassed_fans, ZoneDefReq.created, optionalId_toNat]
    rfl
  case changed =>
    obtain ⟨-, change⟩ := ownZoneDef_of_fields (s := fp) (r := r) hi hf hk hl (hp.imp_left (toNat_eq_ones_iff p).mpr)
    refine done (change z (hzone _ hz)) ?_
    rw [ZoneDefReq.redefined, optionalId_toNat]

/-! ### ZONE-LIMITS (R37) -/

section
variable {r : ZoneLimitsReq} {s : State} {g : Gas} {z : Zone}

/-- The zone and the gas code are checked before what the zone number names (log 35). -/
theorem ownZoneLimits_outOfRange (hbad : 24 ≤ r.zone ∨ 2 ≤ r.gas) : ownZoneLimits r s = .error .outOfRange := by
  unfold ownZoneLimits
  rcases Nat.lt_or_ge r.zone 24 with hi | hi
  · rw [refuseIf_zones_in hi, gasOf_of_two_le (hbad.resolve_left (Nat.not_le.mpr hi))]
  · exact refuseIf_zones_out hi

theorem ownZoneLimits_undefined (hi : r.zone < 24) (hg : gasOf r.gas = some g) (hz : s.zone r.zone = none) :
    ownZoneLimits r s = .error .notDefined := by
  unfold ownZoneLimits
  rw [refuseIf_zones_in hi, hg]
  dsimp only
  rw [hz]

/-- The limits of one gas are replaced and its alarm is evaluated at once. -/
theorem ownZoneLimits_of_zone (hi : r.zone < 24) (hg : gasOf r.gas = some g) (hz : s.zone r.zone = some z) :
    ownZoneLimits r s
      = accept false
          ((s.settleZone r.zone z (({ z with defn := z.defn.setLimits g r.limits } : Zone).evalAlarm g)).mark
            (.zone r.zone)) := by
  unfold ownZoneLimits
  rw [refuseIf_zones_in hi, hg]
  dsimp only
  rw [hz]

end

/-! ### ZONE-CLOSE, ZONE-OPEN and ZONE-QUERY (R38, R39) -/

section
variable {i : Nat} {flag : Bool} {s : State} {z : Zone}

theorem ownZoneClosure_outOfRange (hi : 24 ≤ i) : ownZoneClosure flag i s = .error .outOfRange := refuseIf_zones_out hi

theorem ownZoneClosure_undefined (hi : i < 24) (hz : s.zone i = none) :
    ownZoneClosure flag i s = .error .notDefined := by
  unfold ownZoneClosure
  rw [refuseIf_zones_in hi, hz]

/-- A closure flag that stays changes nothing, and one that changes settles the zone. -/
theorem ownZoneClosure_of_zone (hi : i < 24) (hz : s.zone i = some z) :
    ownZoneClosure flag i s
      = accept false (if z.hostClosed = flag then s else s.settleZone i z { z with hostClosed := flag }) := by
  unfold ownZoneClosure
  rw [refuseIf_zones_in hi, hz]
  exact (apply_ite (accept false) _ _ _).symm

theorem ownZoneQuery_outOfRange (hi : 24 ≤ i) : ownZoneQuery i s = .error .outOfRange := refuseIf_zones_out hi

theorem ownZoneQuery_undefined (hi : i < 24) (hz : s.zone i = none) : ownZoneQuery i s = .error .notDefined := by
  unfold ownZoneQuery
  rw [refuseIf_zones_in hi, hz]

theorem ownZoneQuery_of_zone (hi : i < 24) (hz : s.zone i = some z) :
    ownZoneQuery i s = .ok (s, .data (s.zoneData i z)) := by
  unfold ownZoneQuery
  rw [refuseIf_zones_in hi, hz]

end

theorem isSome_ite_some {α : Type} {c : Prop} [Decidable c] {x : α} :
    (if c then some x else none).isSome = decide c := by
  by_cases h : c <;> simp [h]

theorem length_validValues {view : Table ViewEntry} {g : Gas} {p : Nat × ViewEntry → Bool}
    (hp : ∀ e, (validValueOf e.2 g).isSome = p e) : (validValues view g).length = (List.filter p view).length := by
  rw [validValues_eq, List.length_filterMap_eq_countP, List.countP_eq_length_filter]
  exact congrArg (fun q => (List.filter q view).length) (funext hp)

theorem zoneAlarmCode_alarm (z : Zone) : zoneAlarmCode z.alarm = z.coAlarm.toNat + 2 * z.no2Alarm.toNat := by
  unfold Zone.alarm
  cases z.coAlarm <;> cases z.no2Alarm <;> rfl

theorem flatMap_u8 (l : List Nat) : l.flatMap u8 = l.map (BitVec.ofNat 8) := List.map_eq_flatMap.symm

/-- Settles O12: the checks of each request in order, the flag that changes or stays, and the record byte by byte. -/
theorem zoneRequestsFollowTheirRules : Obligations.ZoneRequestsFollowTheirRules := by
  intro s tag i fp service byte orFF limits figure
  have hlevel : levelService fp = service := by
    show (if fp.store.items.editService then _ else _) = _
    rw [s.framePassed_store]
  have hzone {z : Option Zone} (hz : s.zone i.toNat = z) : fp.zone i.toNat = z := (s.framePassed_zone _).trans hz
  have closure {flag : Bool} {c : Instr} {t : State} (hs : Admits service s)
      (hc : effect c = State.request tag levelService (some i.toNat) (ownZoneClosure flag))
      (ho : ownZoneClosure flag i.toNat fp = accept false t) : exec c s = .next (t.done tag false) :=
    exec_done hc hs hlevel rfl ho
  have closureRefused {flag : Bool} {c : Instr} {e : RefusalCode} (hs : Admits service s)
      (hc : effect c = State.request tag levelService (some i.toNat) (ownZoneClosure flag))
      (ho : ownZoneClosure flag i.toNat fp = .error e) : exec c s = .next (fp.turnedAway tag e) :=
    exec_turnedAway hc hs hlevel rfl ho
  have queryRefused {e : RefusalCode} (hs : Admits .view s) (ho : ownZoneQuery i.toNat fp = .error e) :
      exec (.zoneQuery tag [i]) s = .next (fp.turnedAway tag e) :=
    exec_turnedAway (owner := ownZoneQuery) (x := i.toNat) rfl hs rfl rfl ho
  refine ⟨fun z hi hz => ⟨fun hs => ?query, fun hs => ?closures, fun hs s1 s0 f1 f0 n1 n0 o1 o0 => ?limits⟩,
    fun hi => ⟨fun hs => queryRefused hs (ownZoneQuery_outOfRange hi), fun hs =>
      ⟨closureRefused hs rfl (ownZoneClosure_outOfRange hi), closureRefused hs rfl (ownZoneClosure_outOfRange hi)⟩⟩,
    fun hs g s1 s0 f1 f0 n1 n0 o1 o0 => ?limitsRefused,
    fun hi hz => ⟨fun hs => queryRefused hs (ownZoneQuery_undefined hi (hzone hz)), fun hs =>
      ⟨closureRefused hs rfl (ownZoneClosure_undefined hi (hzone hz)),
        closureRefused hs rfl (ownZoneClosure_undefined hi (hzone hz))⟩⟩⟩
  case query =>
    have hfigure (g : Gas) (p : Nat × ViewEntry → Bool) (hp : ∀ e, (validValueOf e.2 g).isSome = p e) :
        figureBytes z g = figure (z.figure g) (z.view.filter p).length := by
      unfold figureBytes
      rw [optionals_singleton, length_validValues hp]
      cases z.figure g <;> rfl
    have hco := hfigure .co (fun e => e.2.coValidity = .valid) fun e => isSome_ite_some
    have hno2 := hfigure .no2 (fun e => e.2.no2Validity = .valid) fun e => isSome_ite_some
    have hplace (o : Option Nat) : idByte o = [orFF o] := by cases o <;> rfl
    refine exec_told (owner := ownZoneQuery) (x := i.toNat) rfl hs rfl rfl
      ((ownZoneQuery_of_zone hi (hzone hz)).trans ?_)
    unfold State.zoneData
    rw [hco, hno2, zoneAlarmCode_alarm, hplace, hplace, State.alarmPlace, s.framePassed_air, counted, flatMap_u8,
      flatMap_u8]
    simp [limitBytes, flag, u8, byte, limits, Zone.traffic, Zone.closureCode, Zone.inAlarm, Zone.figure]
  case closures =>
    have hown (flag : Bool) := ownZoneClosure_of_zone (flag := flag) hi (hzone hz)
    refine ⟨fun hc => ⟨closure hs rfl ((hown true).trans ?_), closure hs rfl ((hown false).trans ?_)⟩,
      fun hc => ⟨closure hs rfl ((hown false).trans ?_), closure hs rfl ((hown true).trans ?_)⟩⟩
    all_goals simp [hc]
  case limits =>
    intro l
    have limited (code : Byte) {g : Gas} (hg : gasOf code.toNat = some g) {new : Zone}
        (hnew : ({ z with defn := z.defn.setLimits g l } : Zone).evalAlarm g = new) :
        exec (.zoneLimits tag [i, code, s1, s0, f1, f0, n1, n0, o1, o0]) s
          = .next (State.done tag false ((fp.settleZone i.toNat z new).mark (.zone i.toNat))) :=
      hnew ▸ exec_done (owner := ownZoneLimits) (x := ⟨i.toNat, code.toNat, l⟩) rfl hs rfl rfl
        (ownZoneLimits_of_zone hi hg (hzone hz))
    exact ⟨limited 0 (g := .co) rfl rfl, limited 1 (g := .no2) rfl rfl⟩
  case limitsRefused =>
    let r : ZoneLimitsReq := ⟨i.toNat, g.toNat, nat16 s1 s0, nat16 f1 f0, nat16 n1 n0, nat16 o1 o0⟩
    have refused {e : RefusalCode} (ho : ownZoneLimits r fp = .error e) :
        exec (.zoneLimits tag [i, g, s1, s0, f1, f0, n1, n0, o1, o0]) s = .next (fp.turnedAway tag e) :=
      exec_turnedAway (owner := ownZoneLimits) (x := r) rfl hs rfl rfl ho
    refine ⟨fun hbad => refused (ownZoneLimits_outOfRange hbad), fun hi hg hz => ?_⟩
    obtain ⟨gas, hgas⟩ := gasOf_of_lt_two hg
    exact refused (ownZoneLimits_undefined hi hgas (hzone hz))

end Sys2Proof.Machine
end

