-- ==== Sys2Proof/Proofs/PlanChoice.lean ====
section
/-! SUPPORT. What a zone change does at the Fan Controller: the classes it raises and the active plan it chooses (R46,
R52). -/

namespace Sys2Proof.Machine

/-! ### Raising the class of a zone's entries (R52) -/

/-- An ALARM entry joins behind the ALARM entries and before every other one. -/
theorem joinQueue_alarm {e : QueueEntry} (he : e.cls = .alarm) {a b : List QueueEntry} (ha : ∀ x ∈ a, x.cls = .alarm)
    (hb : ∀ x ∈ b, x.cls ≠ .alarm) : joinQueue e (a ++ b) = a ++ e :: b := by
  induction a with
  | nil =>
    cases b with
    | nil => rfl
    | cons x b =>
      have hx : e.cls.rank < x.cls.rank := by
        rw [he]
        have := hb x (by simp)
        cases h : x.cls <;> simp_all [EntryClass.rank]
      exact if_pos hx
  | cons x a ih =>
    have hx : ¬ e.cls.rank < x.cls.rank := by
      rw [ha x (by simp)]
      exact Nat.not_lt_zero _
    exact (if_neg hx).trans (congrArg (x :: ·) (ih fun y hy => ha y (by simp [hy])))

/-- Several entries raised to ALARM join behind the ALARM entries in their order. -/
theorem foldl_joinQueue_alarm (moved : List QueueEntry) {a b : List QueueEntry} (ha : ∀ x ∈ a, x.cls = .alarm)
    (hb : ∀ x ∈ b, x.cls ≠ .alarm) :
    moved.foldl (fun q e => joinQueue { e with cls := .alarm } q) (a ++ b)
      = a ++ moved.map (fun e => { e with cls := .alarm }) ++ b := by
  induction moved generalizing a with
  | nil => simp
  | cons e moved ih =>
    rw [List.foldl_cons, joinQueue_alarm rfl ha hb, List.append_cons, ih]
    · simp
    · intro x hx
      rcases List.mem_append.mp hx with hx | hx
      · exact ha x hx
      · rw [List.mem_singleton.mp hx]

/-- A queue in the order of the classes is its ALARM, its NORMAL and its EXERCISE entries. -/
theorem queue_eq_by_class {q : List QueueEntry} (hq : q.Pairwise fun a b => a.cls.rank ≤ b.cls.rank) :
    q = q.filter (fun e => e.cls = .alarm)
      ++ (q.filter (fun e => e.cls = .normal) ++ q.filter (fun e => e.cls = .exercise)) := by
  induction q with
  | nil => rfl
  | cons e q ih =>
    obtain ⟨hfirst, hrest⟩ := List.pairwise_cons.mp hq
    have none_below (c : EntryClass) (hc : c.rank < e.cls.rank) : q.filter (fun x => x.cls = c) = [] := by
      refine List.filter_eq_nil_iff.mpr fun x hx => ?_
      have := hfirst x hx
      simp only [decide_eq_true_eq]
      rintro rfl
      omega
    have hsplit := ih hrest
    cases h : e.cls with
    | alarm => simpa [List.filter_cons, h] using hsplit
    | normal =>
      have halarm := none_below .alarm (by rw [h]; decide)
      rw [halarm] at hsplit
      simpa [List.filter_cons, h, halarm] using hsplit
    | exercise =>
      have halarm := none_below .alarm (by rw [h]; decide)
      have hnormal := none_below .normal (by rw [h]; decide)
      rw [halarm, hnormal] at hsplit
      simpa [List.filter_cons, h, halarm, hnormal] using hsplit

/-- The NORMAL entries that meet a test join the ALARM entries, and every other entry keeps its class and its order. -/
theorem raised_queue_eq {q : List QueueEntry} (hq : q.Pairwise fun a b => a.cls.rank ≤ b.cls.rank)
    (ofZone : QueueEntry → Bool) :
    (q.filter fun e => e.cls = .normal && ofZone e).foldl (fun q e => joinQueue { e with cls := .alarm } q)
        (q.filter fun e => !(e.cls = .normal && ofZone e))
      = q.filter (fun e => e.cls = .alarm)
        ++ (q.filter fun e => e.cls = .normal && ofZone e).map (fun e => { e with cls := .alarm })
        ++ q.filter (fun e => e.cls = .normal && !ofZone e)
        ++ q.filter (fun e => e.cls = .exercise) := by
  have stays (c : EntryClass) (e : QueueEntry) :
      (decide (e.cls = c) && !(decide (e.cls = .normal) && ofZone e))
        = (decide (e.cls = c) && (decide (c ≠ .normal) || !ofZone e)) := by
    by_cases h : e.cls = c <;> simp [h]
  have split := queue_eq_by_class (hq.filter fun e => !(e.cls = .normal && ofZone e))
  simp only [List.filter_filter, stays] at split
  rw [split, foldl_joinQueue_alarm]
  · simp
  · simp
  · simp only [List.mem_append, List.mem_filter]
    rintro x (⟨-, hx⟩ | ⟨-, hx⟩) <;> simp_all

/-! ### The choice of the active plan (R46) -/

section
variable {s : State}

/-- The first zone of a list with an alarm plan gives the plan, whatever comes after it. -/
theorem State.firstAlarmPlan_of_first {before after : List Nat} {zone p : Nat} {z : Zone}
    (hb : ∀ y ∈ before, ∀ r, s.zone y = some r → r.defn.alarmPlan = none) (hz : s.zone zone = some z)
    (hp : z.defn.alarmPlan = some p) : s.firstAlarmPlan (before ++ zone :: after) = some (p, zone) := by
  induction before with
  | nil => simp [State.firstAlarmPlan, hz, hp]
  | cons y before ih =>
    have hy : ((s.zone y).bind fun r => r.defn.alarmPlan) = none := by simpa using hb y (by simp)
    rw [List.cons_append, State.firstAlarmPlan, hy]
    exact ih fun x hx => hb x (by simp [hx])

theorem State.firstAlarmPlan_of_none {l : List Nat} (hl : ∀ y ∈ l, ∀ r, s.zone y = some r → r.defn.alarmPlan = none) :
    s.firstAlarmPlan l = none := by
  induction l with
  | nil => rfl
  | cons y l ih =>
    have hy : ((s.zone y).bind fun r => r.defn.alarmPlan) = none := by simpa using hl y (by simp)
    rw [State.firstAlarmPlan, hy]
    exact ih fun x hx => hl x (by simp [hx])

theorem State.choosePlan_of_forced {p : Nat} (hf : s.fans.forcedPlan = some p) : s.choosePlan = (p, .forced) := by
  unfold State.choosePlan
  rw [hf]

theorem State.choosePlan_of_alarm {p z : Nat} (hf : s.fans.forcedPlan = none)
    (ha : s.firstAlarmPlan s.air.alarmOrder = some (p, z)) : s.choosePlan = (p, .alarm z) := by
  unfold State.choosePlan
  rw [hf, ha]

theorem State.choosePlan_of_calm (hf : s.fans.forcedPlan = none) (ha : s.firstAlarmPlan s.air.alarmOrder = none) :
    s.choosePlan = (s.fans.basePlan, .base) := by
  unfold State.choosePlan
  rw [hf, ha]

end

/-- Settles O17: what a zone change makes of the fans, the raised classes, the plan evaluated and the plan chosen. -/
theorem zoneChangeReachesTheFans : Obligations.ZoneChangeReachesTheFans := by
  refine ⟨fun s c hcalm => ?change, fun s zone hq => ?raised, fun s => ⟨fun hp hs => ?same, fun hp hs => ?source,
    fun hp => ?plan⟩, fun s => ⟨fun p hf => State.choosePlan_of_forced hf, fun hf =>
      ⟨fun before zone after p z ho hb hz hp => ?alarm, fun hn => ?base⟩⟩⟩
  case change =>
    intro a b
    have hb : (if c.move ≠ .stayed ∨ c.planChanged = true then a.evaluatePlan else a) = b := by
      by_cases hquiet : c.move = .stayed ∧ c.planChanged = false
      · obtain ⟨hstayed, hplan⟩ := hquiet
        have hnot : ¬ (c.move ≠ .stayed ∨ c.planChanged = true) := by
          rintro (h | h)
          · exact h hstayed
          · exact Bool.noConfusion (hplan.symm.trans h)
        exact (if_neg hnot).trans (if_pos ⟨hstayed, hplan⟩).symm
      · have hchange : c.move ≠ .stayed ∨ c.planChanged = true :=
          (Decidable.not_and_iff_or_not.mp hquiet).imp_right fun h => (Bool.not_eq_false _).mp h
        exact (if_pos hchange).trans (if_neg hquiet).symm
    rw [exec_of_calm hcalm, ← hb]
    rfl
  case raised => exact congrArg (fun q => s.setQueue q) (raised_queue_eq hq _)
  case same => exact (if_pos hp).trans (if_pos hs)
  case source => exact (if_pos hp).trans (if_neg hs)
  case plan => exact if_neg hp
  case alarm =>
    refine State.choosePlan_of_alarm hf ?_
    rw [ho]
    exact State.firstAlarmPlan_of_first hb hz hp
  case base => exact State.choosePlan_of_calm hf (State.firstAlarmPlan_of_none hn)

end Sys2Proof.Machine
end

