-- ==== Sys2Proof/Proofs/Starts.lean ====
section
/-! SUPPORT. What a start makes of the Loop Master, the node table and the Scan List Unit (R40, R133, R145, R163,
R184). -/

namespace Sys2Proof.Machine

/-! ### Places of the node table (R127) -/

theorem nodeIndex_nodeAt {i : Nat} (hi : i < 124) : nodeIndex (nodeAt i) = i := by
  have hloop : loopCode ((loopOf (i / 31)).getD .d) = i / 31 := by
    have : i / 31 < 4 := by omega
    match i / 31, this with
    | 0, _ => rfl
    | 1, _ => rfl
    | 2, _ => rfl
    | 3, _ => rfl
  unfold nodeIndex nodeAt
  dsimp only
  rw [hloop]
  omega

theorem addrOk_nodeAt (i : Nat) : addrOk (nodeAt i).addr = true := by
  unfold addrOk nodeAt
  simp only [Bool.and_eq_true, decide_eq_true_eq]
  omega

theorem nodeAt_nodeIndex {n : NodeId} (hn : addrOk n.addr = true) : nodeAt (nodeIndex n) = n := by
  obtain ⟨l, a⟩ := n
  unfold addrOk at hn
  simp only [Bool.and_eq_true, decide_eq_true_eq] at hn
  have hcode : (loopCode l * 31 + (a - 1)) / 31 = loopCode l := by omega
  have haddr : (loopCode l * 31 + (a - 1)) % 31 + 1 = a := by omega
  have hloop : (loopOf (loopCode l)).getD .d = l := by cases l <;> rfl
  unfold nodeAt nodeIndex
  dsimp only
  rw [hcode, haddr, hloop]

/-! ### The posts of a start (R137, R145) -/

section
variable {α : Type} {t : Table α}

theorem Table.put_cons (k : Nat) (v : α) (i : Nat) (x : α) :
    Table.put ((k, v) :: t) i x
      = if i < k then (i, x) :: (k, v) :: t else if i = k then (i, x) :: t else (k, v) :: Table.put t i x := rfl

theorem Table.map_cons {β : Type} (k : Nat) (v : α) (f : Nat → α → β) :
    Table.map ((k, v) :: t) f = (k, f k v) :: Table.map t f := rfl

theorem Table.map_map {β γ : Type} (f : Nat → α → β) (g : Nat → β → γ) :
    Table.map (Table.map t f) g = t.map fun k v => g k (f k v) := List.map_map

theorem Table.map_congr {β : Type} {f g : Nat → α → β} (h : ∀ e ∈ t, f e.1 e.2 = g e.1 e.2) : t.map f = t.map g :=
  List.map_congr_left fun e he => congrArg (e.1, ·) (h e he)

/-- In canonical form, replacing a defined record is a map. -/
theorem Table.put_eq_map (w : Table.wf t = true) {i : Nat} {old : α} (h : t.get i = some old) (new : α) :
    t.put i new = t.map fun k v => if k = i then new else v := by
  induction t with
  | nil => cases h
  | cons e t ih =>
    obtain ⟨k, v⟩ := e
    obtain ⟨hlt, wt⟩ := Table.wf_cons.mp w
    rw [Table.put_cons, Table.map_cons]
    by_cases hk : k = i
    · subst hk
      have hrest : (Table.map t fun j x => if j = k then new else x) = t :=
        (List.map_congr_left fun e he => congrArg (e.1, ·) (if_neg (Nat.ne_of_gt (hlt e he)))).trans (List.map_id _)
      rw [if_neg (Nat.lt_irrefl k), if_pos rfl, if_pos rfl, hrest]
    · have hi : Table.get t i = some old := (if_neg hk).symm.trans h
      have hbelow : k < i := hlt (i, old) (Table.mem_of_get hi)
      rw [if_neg (by omega), if_neg (Ne.symm hk), if_neg hk, ih wt hi]

end

/-- A node is posted, once (R137). -/
def postOnce (posted : List NodeId) (n : NodeId) : List NodeId := if n ∈ posted then posted else posted ++ [n]

/-- A node table of a start in which the nodes of a list have their refresh owed marks set. -/
def owedNodes (nodes : Table NodeDefn) (owed : List NodeId) : Table Node :=
  nodes.map fun i d => { Node.new d with refreshOwed := decide (nodeAt i ∈ owed) }

theorem owedNodes_congr {nodes : Table NodeDefn} {a b : List NodeId}
    (h : ∀ e ∈ nodes, nodeAt e.1 ∈ a ↔ nodeAt e.1 ∈ b) : owedNodes nodes a = owedNodes nodes b :=
  Table.map_congr fun e he =>
    congrArg (fun owed => { Node.new e.2 with refreshOwed := owed }) (decide_eq_decide.mpr (h e he))

theorem State.node_eq_some_iff {s : State} {n : NodeId} {x : Node} :
    s.node n = some x ↔ addrOk n.addr = true ∧ s.loops.nodes.get (nodeIndex n) = some x := by
  unfold State.node
  split <;> simp_all

/-- A node posted to a full queue in which it does not wait has its refresh owed mark set, if it has an entry (R137). -/
theorem State.post_of_full {s : State} {n : NodeId} (hn : n ∉ s.loops.urgent) (hfull : 32 ≤ s.loops.urgent.length) :
    (s.post n).loops
      = match s.node n with
        | some x => (s.setNode n { x with refreshOwed := true }).loops
        | none => s.loops := by
  unfold State.post
  rw [if_neg hn, if_neg (show ¬ s.loops.urgent.length < Config.urgentCapacity from Nat.not_lt.mpr hfull)]
  cases s.node n <;> rfl

section
variable {nodes : Table NodeDefn} (w : Table.wf nodes = true) (hplaces : ∀ i d, nodes.get i = some d → i < 124)
include w hplaces

/-- At a start the entry of a defined place is found. -/
theorem State.node_of_owed {s : State} {owed : List NodeId} (hs : s.loops.nodes = owedNodes nodes owed)
    {e : Nat × NodeDefn} (he : e ∈ nodes) :
    s.node (nodeAt e.1) = some { Node.new e.2 with refreshOwed := decide (nodeAt e.1 ∈ owed) } := by
  have hget : nodes.get e.1 = some e.2 := Table.get_of_mem w he
  unfold State.node
  rw [if_pos (addrOk_nodeAt _), nodeIndex_nodeAt (hplaces _ _ hget), hs, owedNodes, Table.get_map, hget]
  rfl

theorem State.post_of_full_owed {s : State} {owed : List NodeId} (hs : s.loops.nodes = owedNodes nodes owed)
    {n : NodeId} (hn : n ∉ s.loops.urgent) (hfull : 32 ≤ s.loops.urgent.length) :
    (s.post n).loops = { s.loops with nodes := owedNodes nodes (owed ++ [n]) } := by
  have found (e) (he : e ∈ nodes) := State.node_of_owed w hplaces hs he
  rw [State.post_of_full hn hfull]
  cases hx : s.node n with
  | none =>
    have hnot (e) (he : e ∈ nodes) : nodeAt e.1 ≠ n := by
      rintro rfl
      rw [found e he] at hx
      cases hx
    rw [← owedNodes_congr (a := owed) fun e he => by simp [hnot e he], ← hs]
  | some x =>
    obtain ⟨hok, hget⟩ := State.node_eq_some_iff.mp hx
    have hplace (e) (he : e ∈ nodes) : e.1 = nodeIndex n ↔ nodeAt e.1 = n := by
      refine ⟨fun h => h ▸ nodeAt_nodeIndex hok, ?_⟩
      rintro rfl
      exact (nodeIndex_nodeAt (hplaces _ _ (Table.get_of_mem w he))).symm
    have hput : s.loops.nodes.put (nodeIndex n) { x with refreshOwed := true } = owedNodes nodes (owed ++ [n]) := by
      rw [Table.put_eq_map (by rw [hs]; exact Table.wf_map w _) hget, hs, owedNodes, owedNodes, Table.map_map]
      refine Table.map_congr fun e he => ?_
      by_cases hn : nodeAt e.1 = n
      · have hnew := found e he
        rw [hn, hx, Option.some.injEq] at hnew
        rw [if_pos ((hplace e he).mpr hn), hnew]
        simp [hn]
      · rw [if_neg (mt (hplace e he).mp hn)]
        simp [hn]
    show (s.setNode n { x with refreshOwed := true }).loops = _
    rw [State.setNode_loops, if_pos hok, hput]

/-- The first 32 nodes posted wait in the queue, and the later ones are owed. -/
theorem State.post_loops {s : State} {once : List NodeId} (hu : s.loops.urgent = once.take 32)
    (hs : s.loops.nodes = owedNodes nodes (once.drop 32)) (n : NodeId) :
    (s.post n).loops
      = { s.loops with
          urgent := (postOnce once n).take 32
          nodes := owedNodes nodes ((postOnce once n).drop 32) } := by
  by_cases hwaits : n ∈ once.take 32
  · rw [postOnce, if_pos (List.mem_of_mem_take hwaits), ← hu, ← hs]
    unfold State.post
    rw [if_pos (hu ▸ hwaits)]
  · have hn : n ∉ s.loops.urgent := hu ▸ hwaits
    by_cases hroom : once.length < 32
    · have hall : once.take 32 = once := List.take_of_length_le (Nat.le_of_lt hroom)
      have hlen : s.loops.urgent.length < Config.urgentCapacity := by
        rw [hu, hall]
        exact hroom
      have hjoined : (once ++ [n]).length ≤ 32 := by
        rw [List.length_append]
        exact hroom
      rw [hall] at hwaits
      rw [List.drop_of_length_le (Nat.le_of_lt hroom)] at hs
      rw [postOnce, if_neg hwaits, List.take_of_length_le hjoined, List.drop_of_length_le hjoined, ← hs]
      unfold State.post
      rw [if_neg hn, if_pos hlen, hu, hall]
    · have hlen : 32 ≤ once.length := Nat.not_lt.mp hroom
      have hfull : 32 ≤ s.loops.urgent.length := by simp [hu, hlen]
      rw [State.post_of_full_owed w hplaces hs hn hfull]
      unfold postOnce
      split
      · rename_i hin
        have hlater : n ∈ once.drop 32 :=
          (List.mem_append.mp ((List.take_append_drop 32 once).symm ▸ hin)).resolve_left hwaits
        have hsame : owedNodes nodes (once.drop 32 ++ [n]) = owedNodes nodes (once.drop 32) :=
          owedNodes_congr fun e _ => by
            rw [List.mem_append, List.mem_singleton]
            refine or_iff_left_of_imp fun h => ?_
            rw [h]
            exact hlater
        rw [hsame, ← hu]
      · rw [List.take_append_of_le_length hlen, List.drop_append_of_le_length hlen, ← hu]

theorem State.postAll_loops {s : State} {once : List NodeId} (hu : s.loops.urgent = once.take 32)
    (hs : s.loops.nodes = owedNodes nodes (once.drop 32)) (posts : List NodeId) :
    (s.postAll posts).loops
      = { s.loops with
          urgent := (posts.foldl postOnce once).take 32
          nodes := owedNodes nodes ((posts.foldl postOnce once).drop 32) } := by
  unfold State.postAll
  induction posts generalizing s once with
  | nil => rw [List.foldl_nil, List.foldl_nil, ← hu, ← hs]
  | cons n posts ih =>
    have hpost := State.post_loops w hplaces hu hs n
    rw [List.foldl_cons, List.foldl_cons, ih (congrArg LoopMaster.urgent hpost) (congrArg LoopMaster.nodes hpost),
      hpost]

end

theorem Calm.foldl {α : Type} {s t : State} {f : State → α → State} (hf : ∀ t a, Calm s t → Calm s (f t a))
    (h : Calm s t) (l : List α) : Calm s (l.foldl f t) := by
  induction l generalizing t with
  | nil => exact h
  | cons a l ih => exact ih (hf t a h)

/-! ### The attention lines (R133) -/

/-- Sampling a line sets the latch of a NORMAL loop whose line is asserted. -/
theorem State.sample_loops (s : State) (l : LoopId) :
    (s.sample l).loops
      = { s.loops with
          lines := s.loops.lines.set l
            { s.loops.lines.get l with
              latch := (s.loops.lines.get l).latch
                || ((s.loops.lines.get l).line && (s.loops.lines.get l).ignoredSince.isNone) } } := by
  have hself : s.loops.lines.set l (s.loops.lines.get l) = s.loops.lines := by cases l <;> rfl
  unfold State.sample State.line
  dsimp only
  split
  · rename_i h
    rw [State.setLine_loops, h, Bool.or_true]
  · rename_i h
    rw [Bool.not_eq_true] at h
    rw [h, Bool.or_false, hself]

theorem Calm.sample {s t : State} {l : LoopId} (h : Calm s t) : Calm s (t.sample l) := by
  unfold State.sample
  dsimp only
  split
  · exact h.setLine
  · exact h

theorem State.sample_list (s : State) (l : LoopId) : (s.sample l).list = s.list := by
  unfold State.sample
  dsimp only
  split <;> rfl

/-- A loop's attention state at a start, with its line sampled (R133, R145). -/
def sampledLine (level : Bool) : LoopState := { LoopState.initial level with latch := level }

/-- At a start each loop's latch is the level of its line. -/
theorem State.sampleAll_loops {s : State} {lines : PerLoop Bool}
    (hs : s.loops.lines = ⟨.initial lines.a, .initial lines.b, .initial lines.c, .initial lines.d⟩) :
    s.sampleAll.loops
      = { s.loops with
          lines := ⟨sampledLine lines.a, sampledLine lines.b, sampledLine lines.c, sampledLine lines.d⟩ } := by
  simp [State.sampleAll, loopList, State.sample_loops, hs, PerLoop.set, PerLoop.get, sampledLine, LoopState.initial]

/-! ### The list (R148, R163) -/

theorem State.setListState_loops (s : State) (x : ListState) : (s.setListState x).loops = s.loops := by
  unfold State.setListState
  dsimp only
  split
  · rw [State.mark_loops, State.withList_loops]
  · rw [State.withList_loops]

theorem State.faultList_loops (s : State) (k : ListErrorKind) (n : Option NodeId) :
    (s.faultList k n).loops = s.loops := by
  unfold State.faultList
  rw [State.setListState_loops, State.withList_loops]

/-- The list reaches an entry without a transaction. -/
theorem State.reach_loops (fuel : Nat) (s : State) : (s.reach fuel).loops = s.loops := by
  induction fuel generalizing s with
  | zero => rfl
  | succ fuel ih =>
    unfold State.reach
    split
    · rfl
    · rfl
    · rw [State.setListState_loops, State.withList_loops]
    · dsimp only
      split
      · rw [State.faultList_loops, State.withList_loops]
      · rw [ih, State.withList_loops, State.withList_loops]
    · rw [State.setListState_loops, State.withList_loops]

theorem State.setListState_list (s : State) (x : ListState) : (s.setListState x).list = { s.list with state := x } := by
  unfold State.setListState
  dsimp only
  split
  · rw [State.mark_list, State.withList_list]
  · rw [State.withList_list]

theorem Calm.autoStart {s t : State} (h : Calm s t) : Calm s t.autoStart := by
  unfold State.autoStart
  split
  · exact Calm.reach (Calm.withList h.setListState)
  · exact h

theorem State.autoStart_loops (s : State) : s.autoStart.loops = s.loops := by
  unfold State.autoStart State.reachAt
  split
  · rw [State.reach_loops, State.withList_loops, State.setListState_loops]
  · rfl

/-! ### The course of a start (R183, R184) -/

/-- A start waits for nothing that was handed (log 26). -/
theorem exec_of_start {c : Instr} (hc : isStart c = true) (s : State) : exec c s = .next (settle (effect c s)) := by
  rw [exec_eq, perform, prepare, if_pos hc]

/-- The settings a start loads, with the run minutes of its cause (R183). -/
def State.startSettings (s : State) (cause : StartCause) : Settings :=
  { s.loaded.1 with fans := s.loaded.1.fans.map fun i x => s.startMinutes cause i x }

/-- The blocks of a start, before the owners post (R184). -/
def State.blocks (s : State) (cause : StartCause) (lines : PerLoop Bool) : State :=
  startBlocks (s.startSettings cause) cause s.loaded.2 lines s.store.image s.pending

/-- A start after its posts and its samples, before the list begins (R184). -/
def State.sampled (s : State) (cause : StartCause) (lines : PerLoop Bool) : State :=
  ((s.blocks cause lines).postAll (s.blocks cause lines).startPosts).sampleAll

theorem State.start_eq (s : State) (cause : StartCause) (lines : PerLoop Bool) :
    s.start cause lines
      = ((s.sampled cause lines).autoStart.withPort fun p => { p with notes := [] }).handAll
          (startZoneChanges (s.blocks cause lines).air.zones) := rfl

section
variable (s : State) (cause : StartCause) (lines : PerLoop Bool)

/-- Nothing of a start before the list's part touches more than the Loop Master and the list. -/
theorem State.sampled_calm : Calm (s.blocks cause lines) (s.sampled cause lines) :=
  Calm.foldl (fun _ _ h => h.sample) (Calm.foldl (fun _ _ h => h.post) (.refl _) _) _

theorem State.sampled_list : (s.sampled cause lines).list = startList s.loaded.1.list :=
  (foldl_field State.list _ State.sample_list _ _).trans (State.postAll_list _ _)

theorem State.sampled_items : (s.sampled cause lines).items = s.loaded.1.items :=
  congrArg Store.items (s.sampled_calm cause lines).store

/-- The nodes of the loaded fans, signs and groups are posted in that order (R75, R108, R126). -/
theorem State.startPosts_eq :
    (s.blocks cause lines).startPosts
      = List.map (fun e : Nat × SavedFan => e.2.defn.node) s.loaded.1.fans
        ++ List.map (fun e : Nat × SignDefn => e.2.node) s.loaded.1.signs
        ++ List.map (fun e : Nat × GroupDefn => e.2.node) s.loaded.1.groups := by
  have hminutes (e : Nat × SavedFan) : (s.startMinutes cause e.1 e.2).defn.node = e.2.defn.node := by
    rw [State.startMinutes_defn]
  simp [State.startPosts, State.blocks, State.startSettings, startBlocks, startFans, startSigns, startGroups, Table.map,
    Fan.new, hminutes, Function.comp_def]

theorem State.sampled_loops (w : Table.wf s.loaded.1.nodes = true)
    (hplaces : ∀ i d, s.loaded.1.nodes.get i = some d → i < 124) :
    (s.sampled cause lines).loops
      = { nodes := owedNodes s.loaded.1.nodes (((s.blocks cause lines).startPosts.foldl postOnce []).drop 32)
          lines := ⟨sampledLine lines.a, sampledLine lines.b, sampledLine lines.c, sampledLine lines.d⟩
          urgent := ((s.blocks cause lines).startPosts.foldl postOnce []).take 32
          sinceList := 0, lastRollcall := none, found := [], tx := none } := by
  have hposts := State.postAll_loops w hplaces (s := s.blocks cause lines) (once := []) rfl rfl
    (s.blocks cause lines).startPosts
  unfold State.sampled
  rw [State.sampleAll_loops (lines := lines) (by rw [hposts]; rfl), hposts]
  rfl

end

/-- Settles O53: the start's loops after its posts and samples, the list by the auto-start item, the demands handed. -/
theorem startsBeginTheLoopsAndTheList : Obligations.StartsBeginTheLoopsAndTheList := by
  intro s lines start hstart c w hplaces posts once line idle
  obtain ⟨cause, heff, hs⟩ : ∃ cause, effect start s = s.start cause lines ∧ isStart start = true := by
    rcases hstart with rfl | rfl
    · exact ⟨.powerOn, rfl, rfl⟩
    · exact ⟨.restart, rfl, rfl⟩
  have hc : s.loaded.1 = c := by
    unfold State.loaded StoredImage.contents
    cases h : s.store.image with
    | spoiled => simp [c, h]
    | written d crc =>
      by_cases hcrc : crc32 (Config.imageBytes d) = crc <;> simp [c, h, hcrc]
  have hposts : (s.blocks cause lines).startPosts = posts := by rw [State.startPosts_eq, hc]
  have hlist : (s.sampled cause lines).list = idle := by rw [State.sampled_list, hc]; rfl
  have hitems : (s.sampled cause lines).items = c.items := by rw [State.sampled_items, hc]
  have hcalm : Calm (s.blocks cause lines) (s.sampled cause lines) := s.sampled_calm cause lines
  rw [← hc] at w hplaces
  refine ⟨s.start cause lines, (exec_of_start hs s).trans (by rw [heff]), ?loops, fun hauto => ?stays,
    fun hauto => ⟨(s.sampled cause lines).setListState .running, ?running, ?clock, ?reached⟩, rfl, ?handed⟩
  case loops =>
    rw [State.start_eq, State.handAll_loops, State.withPort_loops, State.autoStart_loops,
      State.sampled_loops s cause lines w hplaces, hposts, hc]
    rfl
  case stays =>
    rw [State.start_eq, State.handAll_list, State.withPort_list, State.autoStart, if_neg (by simp [hitems, hauto]),
      hlist]
  case running => rw [State.setListState_list, hlist]
  case clock => exact hcalm.setListState.clockMs
  case reached =>
    rw [State.start_eq, State.handAll_list, State.withPort_list, State.autoStart, if_pos (by rw [hitems, hauto])]
  case handed =>
    have hzones : (s.start cause lines).air = (s.blocks cause lines).air := hcalm.autoStart.air
    rw [hzones, State.start_eq, State.handAll_handed, State.withPort_handed, hcalm.autoStart.handed]
    rfl

end Sys2Proof.Machine
end

