-- ==== Sys2Proof/Proofs/Notes.lean ====
section
/-! SUPPORT. The bodies of the notes, field by field (R35, R69, R143, R162, R169, R171, 11.3). -/

namespace Sys2Proof.Machine

/-! ### Fields of a note -/

theorem sum_mapIdx_flags (l : List Bool) (k : Nat) :
    (l.mapIdx fun i b => if b then 2 ^ (i + k) else 0).sum = 2 ^ k * flagsNat l := by
  induction l generalizing k with
  | nil => rfl
  | cons b l ih =>
    have hshift : (l.mapIdx fun i b => if b then 2 ^ (i + 1 + k) else 0)
        = l.mapIdx fun i b => if b then 2 ^ (i + (k + 1)) else 0 := by
      simp only [Nat.add_assoc, Nat.add_comm 1]
    rw [List.mapIdx_cons, List.sum_cons, hshift, ih, flagsNat, Nat.pow_succ, Nat.zero_add]
    cases b <;> simp [Nat.mul_add, Nat.mul_assoc]

/-- A flags byte is the sum of the powers of two of its set flags (11.1). -/
theorem flagsNat_eq_sum (l : List Bool) : flagsNat l = (l.mapIdx fun i b => if b then 2 ^ i else 0).sum :=
  ((sum_mapIdx_flags l 0).trans (Nat.one_mul _)).symm

theorem flagsByte_eq (l : List Bool) :
    flagsByte l = [BitVec.ofNat 8 (l.mapIdx fun i b => if b then 2 ^ i else 0).sum] := by
  rw [flagsByte, u8, flagsNat_eq_sum]

theorem length_filler (place n : Nat) : (filler place n).length = n := by simp [filler]

/-- A figure of NOTE-ZONE fills its two bytes, known or not (log 12). -/
theorem length_noteFigure (place : Nat) (f : Option Nat) : (noteFigure place f).length = 2 := by
  cases f with
  | some n => rfl
  | none => exact length_filler _ _

theorem noteFigure_of_known {place n : Nat} {f : Option Nat} (h : f = some n) : noteFigure place f = u16 n := by
  rw [h]
  rfl

/-- The 32 bytes of the counts hold each class's four counts at its place. -/
theorem classBytes_at (p : PerClass Counts) {k : Nat} {c : BayClass} (hc : classOf k = some c) :
    ((classBytes p).drop (8 * k)).take 8 = countBytes (p.get c) := by
  match k, hc with
  | 0, rfl => rfl
  | 1, rfl => rfl
  | 2, rfl => rfl
  | 3, rfl => rfl

theorem State.alarmPlace_of_not_mem {s : State} {i : Nat} (h : i ∉ s.air.alarmOrder) : s.alarmPlace i = none := by
  unfold State.alarmPlace
  rw [List.findIdx?_eq_none_iff]
  rintro x hx
  simpa using fun e : x = i => h (e ▸ hx)

theorem State.alarmPlace_of_split {s : State} {i : Nat} {before after : List Nat}
    (h : s.air.alarmOrder = before ++ i :: after) (hi : i ∉ before) : s.alarmPlace i = some before.length := by
  have hbefore : before.findIdx? (· == i) = none :=
    List.findIdx?_eq_none_iff.mpr fun x hx => by simpa using fun e : x = i => hi (e ▸ hx)
  unfold State.alarmPlace
  rw [h, List.findIdx?_append, hbefore]
  simp [List.findIdx?_cons]

theorem driveByte_eq (r : DriveReport) :
    (BitVec.ofNat 8 (driveByte r) : Byte)
      = BitVec.ofNat 8 (driveConditionCode r.condition) + (if r.direction = .reverse then 8 else 0)
        + (if r.speed = .high then 16 else 0) := by
  obtain ⟨condition, direction, speed⟩ := r
  cases condition <;> cases direction <;> cases speed <;> rfl

/-- Settles O56. -/
theorem notesTellTheOwnersState : Obligations.NotesTellTheOwnersState := by
  intro s note byte orFF flags
  have hflags (l : List Bool) : flagsByte l = [flags l] := flagsByte_eq l
  have hplace (o : Option Nat) : idByte o = [orFF o] := by cases o <;> rfl
  have told {x : Subject} {kind : Byte} {body other : List Byte} (hx : s.noteFrame x = note kind body)
      (hb : body = other) : s.noteFrame x = note kind other := hb ▸ hx
  refine ⟨told (body := s.siteBody) rfl ?site, ⟨fun e n he hn => told (body := s.listBody) rfl ?listPlace,
    fun e he hn => ?listNowhere, fun he => ?listCalm⟩, fun i hz => ?noZone, fun i z hz => ?zone, fun i hf => ?noFan,
    fun i f hf => ?fan, fun n => ⟨fun hx => ?noNode, fun x hx => ?node⟩⟩
  case site =>
    unfold State.siteBody counted
    rw [hplace, flatMap_u8]
    cases s.fans.source <;> rfl
  case listPlace =>
    unfold State.listBody stopErrorBytes
    rw [he]
    dsimp only
    rw [hn, hflags]
    rfl
  case listNowhere =>
    refine ⟨Config.unstatedByte 20, told (body := s.listBody) rfl ?_⟩
    unfold State.listBody stopErrorBytes
    rw [he]
    dsimp only
    rw [hn, hflags]
    rfl
  case listCalm =>
    refine ⟨Config.unstatedByte 21, Config.unstatedByte 20, filler 22 4, length_filler _ _,
      told (body := s.listBody) rfl ?_⟩
    have hclear : flagsByte [s.list.haltPending, false] = flagsByte [s.list.haltPending] := rfl
    unfold State.listBody
    rw [he, Option.isSome_none, hclear, hflags]
    rfl
  case noZone =>
    refine told (body := s.zoneBody i) rfl ?_
    unfold State.zoneBody
    rw [hz]
    rfl
  case zone =>
    refine ⟨noteFigure 30 z.coFigure, noteFigure 32 z.no2Figure, classBytes (s.counts i), orFF (s.alarmPlace i),
      length_noteFigure _ _, length_noteFigure _ _, rfl, fun n => noteFigure_of_known, fun n => noteFigure_of_known,
      fun hi => ?_, fun before after hsplit hi => ?_, fun k hk c hc => classBytes_at _ hc,
      told (body := s.zoneBody i) rfl ?_⟩
    · rw [State.alarmPlace_of_not_mem hi]
    · rw [State.alarmPlace_of_split hsplit hi]
    · unfold State.zoneBody
      rw [hz, hplace]
      dsimp only
      rw [hflags, hflags, Zone.inAlarm]
      simp [u8, byte]
  case noFan =>
    refine told (body := s.fanBody i) rfl ?_
    unfold State.fanBody
    rw [hf]
    rfl
  case fan =>
    have hcommand : commandByte f.command
        = match f.command with | .stop => 0 | .run dir sp => flags [true, dir == .reverse, sp == .high] := by
      unfold commandByte
      cases f.command with
      | stop => rfl
      | run dir sp => exact congrArg (BitVec.ofNat 8) (flagsNat_eq_sum _)
    have hreport : reportByte f.report
        = [match f.report with
            | some r =>
              byte (driveConditionCode r.condition) + (if r.direction = .reverse then 8 else 0)
                + (if r.speed = .high then 16 else 0)
            | none => 0xFF] := by
      cases f.report with
      | none => rfl
      | some r => exact congrArg (fun b => [b]) (driveByte_eq r)
    refine told (body := s.fanBody i) rfl ?_
    unfold State.fanBody
    rw [hf]
    dsimp only
    rw [hflags, hcommand, hreport]
    rfl
  case noNode =>
    refine told (body := s.nodeBody n) rfl ?_
    unfold State.nodeBody
    rw [hx]
    dsimp only
    rw [hflags]
    rfl
  case node =>
    refine ⟨match x.lastSeen with | some t => u16 (age s.now t) | none => filler 34 2,
      roleReportBytes x.defn.role x.report, fun t ht => ?_, fun ht => ?_, fun c hc => ?_, fun k hk => ?_,
      fun c0 c1 c2 c3 c4 c5 c6 c7 hc => ?_, fun he => ⟨?_, fun hr => ?_⟩, told (body := s.nodeBody n) rfl ?_⟩
    · rw [ht]
      rfl
    · rw [ht]
      rfl
    · rw [hc]
      exact ⟨_, rfl⟩
    · rw [hk]
      exact ⟨_, rfl⟩
    · rw [hc]
      rfl
    · rw [he]
      cases x.defn.role <;> rfl
    · rw [he, hr]
      rfl
    · unfold State.nodeBody
      rw [hx]
      dsimp only
      rw [hflags]
      rfl

end Sys2Proof.Machine
end

