-- ==== Sys2Proof/Proofs/BayCounts.lean ====
section
/-! SUPPORT. A bay's debounce, and its change with the counts it moves between (R78 to R80, R82, R85). -/

namespace Sys2Proof.Machine

/-! ### Debounce (R78 to R80) -/

/-- The readings that agree with a state (R78). -/
theorem agrees_iff (r : BayReading) (st : BayState) :
    agrees r st = true ↔
      (r = .vacant ∧ st = .free) ∨ (r = .present ∧ st = .occupied)
        ∨ ((r = .fault ∨ r = .notFitted) ∧ st = .unknown) := by
  cases r <;> cases st <;> decide

theorem confirmed_ne {r : BayReading} {st : BayState} (h : agrees r st = false) (hst : st ≠ .outOfService) :
    confirmed r ≠ st := by
  rintro rfl
  cases r <;> contradiction

section
variable {now k : Nat} {r : BayReading} {b : Bay}

/-- A bay in service takes a reading (R78). -/
theorem Bay.debounce_inService (h : b.state ≠ .outOfService) :
    b.debounce now k r
      = if agrees r b.state then { b with counter := 0 }
        else
          let n := if b.candidate = some r then b.counter + 1 else 1
          if k ≤ n then { b with candidate := some r, counter := 0, state := confirmed r, lastChange := now }
          else { b with candidate := some r, counter := n } := by
  unfold Bay.debounce
  split
  · contradiction
  all_goals rfl

/-- A bay OUT_OF_SERVICE takes a reading (R80). -/
theorem Bay.debounce_outOfService (h : b.state = .outOfService) :
    b.debounce now k r
      = if b.candidate = some r then { b with counter := if b.counter < k then b.counter + 1 else k }
        else { b with candidate := some r, counter := 1 } := by
  unfold Bay.debounce
  rw [h]

/-- A reading never changes a bay's definition. -/
theorem Bay.debounce_defn : (b.debounce now k r).defn = b.defn := by
  by_cases h : b.state = .outOfService
  · rw [Bay.debounce_outOfService h]
    split <;> rfl
  · rw [Bay.debounce_inService h]
    dsimp only
    repeat' split
    all_goals rfl

end

/-! ### A bay's change and the counts (R82, R85) -/

section
variable {s : State} {i : Nat} {old new : Bay}

/-- A change that keeps state, zone and class moves no count and marks nothing. -/
theorem State.changeBay_of_same
    (h : old.state = new.state ∧ old.defn.zone = new.defn.zone ∧ old.defn.cls = new.defn.cls) :
    s.changeBay i old new = s.putBay i new := if_pos h

/-- Any other change moves one bay between two counts and marks both zones, the old one first (log 41). -/
theorem State.changeBay_of_moved
    (h : ¬ (old.state = new.state ∧ old.defn.zone = new.defn.zone ∧ old.defn.cls = new.defn.cls)) :
    s.changeBay i old new
      = ((((s.putBay i new).recordCount old.defn.zone old.defn.cls old.state (· - 1)).recordCount new.defn.zone
            new.defn.cls new.state (· + 1)).mark (.zone old.defn.zone)).mark (.zone new.defn.zone) := by
  refine (if_neg h).trans ?_
  unfold State.countIn State.countOut
  rw [State.mark_recordCount]

theorem State.changeBay_bays : (s.changeBay i old new).occ.bays = s.occ.bays.put i new := by
  by_cases h : old.state = new.state ∧ old.defn.zone = new.defn.zone ∧ old.defn.cls = new.defn.cls
  · rw [State.changeBay_of_same h]
    rfl
  · rw [State.changeBay_of_moved h, State.mark_occ, State.mark_occ]
    rfl

/-- The old bay leaves the counts and the new one enters them, also where both count alike. -/
theorem State.changeBay_count (z : Nat) (c : BayClass) (st : BayState)
    (h : old.tally z c st ≤ s.occ.count z c st) :
    (s.changeBay i old new).occ.count z c st = s.occ.count z c st - old.tally z c st + new.tally z c st := by
  by_cases hsame : old.state = new.state ∧ old.defn.zone = new.defn.zone ∧ old.defn.cls = new.defn.cls
  · obtain ⟨hstate, hzone, hcls⟩ := hsame
    have htally : old.tally z c st = new.tally z c st := by
      unfold Bay.tally
      rw [hstate, hzone, hcls]
    rw [State.changeBay_of_same ⟨hstate, hzone, hcls⟩, ← htally, Nat.sub_add_cancel h]
    rfl
  · rw [State.changeBay_of_moved hsame, State.mark_occ, State.mark_occ, State.countIn_count, State.countOut_count]
    rfl

/-- A bay's change touches the Occupancy Unit and the note set alone. -/
theorem State.changeBay_frame (s : State) (i : Nat) (old new : Bay) :
    s.changeBay i old new
      = { s with
          occ :=
            { s.occ with bays := (s.changeBay i old new).occ.bays, counts := (s.changeBay i old new).occ.counts }
          port := { s.port with notes := (s.changeBay i old new).port.notes } } := by
  by_cases h : old.state = new.state ∧ old.defn.zone = new.defn.zone ∧ old.defn.cls = new.defn.cls
  · rw [State.changeBay_of_same h]
    rfl
  · rw [State.changeBay_of_moved h, State.mark_eq_port, State.mark_eq_port]
    unfold Port.mark
    repeat' split
    all_goals rfl

end

theorem State.mem_notes_mark (s : State) (x : Subject) : x ∈ (s.mark x).port.notes := by
  unfold State.mark
  split
  · assumption
  · simp

theorem State.mem_notes_mark_of_mem {s : State} {x : Subject} (h : x ∈ s.port.notes) (y : Subject) :
    x ∈ (s.mark y).port.notes := by
  unfold State.mark
  split
  · exact h
  · simp [h]

/-- A bay counts for exactly one zone, class and state. -/
theorem Bay.tally_eq (b : Bay) (z : Nat) (c : BayClass) (st : BayState) :
    b.tally z c st = if (z, c, st) = (b.defn.zone, b.defn.cls, b.state) then 1 else 0 := by
  unfold Bay.tally
  simp only [Prod.mk.injEq, eq_comm]

/-- Settles O25: each case of the debounce, and the two counts a bay's change moves between. -/
theorem bayDebounceAndCounts : Obligations.BayDebounceAndCounts := by
  constructor
  · intro now k r b _ agree count
    refine ⟨fun hs ha => ?agrees, fun hs ha hk => ?counts, fun hs ha hk => ?confirms,
      fun hs => ⟨fun hc => ?sameCandidate, fun hc => ?newCandidate⟩⟩
    case agrees => rw [Bay.debounce_inService hs, if_pos ((agrees_iff r b.state).mpr ha)]
    case counts =>
      rw [Bay.debounce_inService hs, if_neg (mt (agrees_iff r b.state).mp ha)]
      exact if_neg (Nat.not_le.mpr hk)
    case confirms =>
      have hagree := mt (agrees_iff r b.state).mp ha
      rw [Bay.debounce_inService hs, if_neg hagree]
      dsimp only
      rw [if_pos hk]
      exact ⟨by cases r <;> rfl, confirmed_ne (Bool.eq_false_iff.mpr hagree) hs⟩
    case sameCandidate => rw [Bay.debounce_outOfService hs, if_pos hc]
    case newCandidate => rw [Bay.debounce_outOfService hs, if_neg hc]
  · intro s i old new same t
    refine ⟨State.changeBay_bays, fun h => ?same, fun h hpos => ?moved, s.changeBay_frame i old new⟩
    case same =>
      have ht : t = s.putBay i new := State.changeBay_of_same h
      rw [ht]
      exact ⟨rfl, rfl⟩
    case moved =>
      have hne : (new.defn.zone, new.defn.cls, new.state) ≠ (old.defn.zone, old.defn.cls, old.state) := by
        intro e
        simp only [Prod.mk.injEq] at e
        obtain ⟨hzone, hcls, hstate⟩ := e
        exact h ⟨hstate.symm, hzone.symm, hcls.symm⟩
      have hle (z : Nat) (c : BayClass) (st : BayState) : old.tally z c st ≤ s.occ.count z c st := by
        rw [Bay.tally_eq]
        split
        · rename_i e
          cases e
          exact hpos
        · exact Nat.zero_le _
      have count (z : Nat) (c : BayClass) (st : BayState) :
          t.occ.count z c st = s.occ.count z c st
            - (if (z, c, st) = (old.defn.zone, old.defn.cls, old.state) then 1 else 0)
            + if (z, c, st) = (new.defn.zone, new.defn.cls, new.state) then 1 else 0 := by
        rw [← Bay.tally_eq, ← Bay.tally_eq]
        exact State.changeBay_count z c st (hle z c st)
      have marked : t = _ := State.changeBay_of_moved h
      refine ⟨?_, ?_, fun z c st ho hn => ?_, ?_, ?_⟩
      · have hcount := count old.defn.zone old.defn.cls old.state
        rw [if_pos rfl, if_neg hne.symm] at hcount
        change t.occ.count _ _ _ + 1 = s.occ.count _ _ _
        change 1 ≤ s.occ.count _ _ _ at hpos
        omega
      · have hcount := count new.defn.zone new.defn.cls new.state
        rwa [if_neg hne, if_pos rfl] at hcount
      · have hcount := count z c st
        rwa [if_neg ho, if_neg hn] at hcount
      · rw [marked]
        exact State.mem_notes_mark_of_mem (State.mem_notes_mark _ _) _
      · rw [marked]
        exact State.mem_notes_mark _ _

end Sys2Proof.Machine
end

