-- ==== Sys2Proof/Proofs/BayVisits.lean ====
section
/-! SUPPORT. A strip reading, a node event and BAY-SERVICE visit bays in rising number; each visit changes one bay, its
counts and its mark (R77, R79, R81 to R83, R86). -/

namespace Sys2Proof.Machine

/-! ### What a visit leaves -/

/-- Nothing changes but the Occupancy Unit, what is handed on and the note set. -/
def OccupancyOnly (s u : State) : Prop :=
  ∃ o h n, u = { s with occ := o, handed := h, port := { s.port with notes := n } }

theorem OccupancyOnly.refl (s : State) : OccupancyOnly s s := ⟨_, _, _, rfl⟩

theorem OccupancyOnly.trans {s t u : State} : OccupancyOnly s t → OccupancyOnly t u → OccupancyOnly s u := by
  rintro ⟨_, _, _, rfl⟩ ⟨o, h, n, rfl⟩
  exact ⟨o, h, n, rfl⟩

theorem OccupancyOnly.eq {s u : State} :
    OccupancyOnly s u →
      u = { s with occ := u.occ, handed := u.handed, port := { s.port with notes := u.port.notes } } := by
  rintro ⟨_, _, _, rfl⟩
  rfl

theorem OccupancyOnly.now_eq {s u : State} : OccupancyOnly s u → u.now = s.now := by
  rintro ⟨_, _, _, rfl⟩
  rfl

theorem OccupancyOnly.items_eq {s u : State} : OccupancyOnly s u → u.items = s.items := by
  rintro ⟨_, _, _, rfl⟩
  rfl

theorem OccupancyOnly.handAll {s u : State} (es : List Instr) : OccupancyOnly s u → OccupancyOnly s (u.handAll es) := by
  rintro ⟨_, _, _, rfl⟩
  exact ⟨_, _, _, rfl⟩

/-! ### One visit -/

/-- One bay is changed, and what it hands on follows. -/
def State.visitBay (f : Bay → Bay) (h : Nat × Bay → List Instr) (s : State) (e : Nat × Bay) : State :=
  (s.changeBay e.1 e.2 (f e.2)).handAll (h e)

/-- One bay moves from the count of its state to that of another (R82). -/
def State.moveCount (f : Bay → Bay) (s : State) (e : Nat × Bay) : State :=
  (s.recordCount e.2.defn.zone e.2.defn.cls e.2.state (· - 1)).recordCount e.2.defn.zone e.2.defn.cls (f e.2).state
    (· + 1)

/-- Whether a bay changes its state. -/
def movesState (f : Bay → Bay) (e : Nat × Bay) : Bool := decide ((f e.2).state ≠ e.2.state)

/-- What a count becomes rests on the counts alone. -/
theorem State.recordCount_congr {s t : State} (h : s.occ.counts = t.occ.counts) (z : Nat) (c : BayClass) (st : BayState)
    (f : Nat → Nat) : (s.recordCount z c st f).occ.counts = (t.recordCount z c st f).occ.counts := by
  simp [State.recordCount, State.counts, h]

theorem State.moveCount_congr {s t : State} (h : s.occ.counts = t.occ.counts) (f : Bay → Bay) (e : Nat × Bay) :
    (s.moveCount f e).occ.counts = (t.moveCount f e).occ.counts :=
  State.recordCount_congr (State.recordCount_congr h _ _ _ _) _ _ _ _

/-- A second mark of a subject changes nothing (R169). -/
theorem State.mark_mark (s : State) (x : Subject) : (s.mark x).mark x = s.mark x := if_pos (s.mem_notes_mark x)

/-- The notes after a mark rest on the notes alone. -/
theorem State.mark_notes_congr {s t : State} (h : s.port.notes = t.port.notes) (x : Subject) :
    (s.mark x).port.notes = (t.mark x).port.notes := by
  unfold State.mark
  rw [h]
  split
  · exact h
  · rfl

section
variable {f : Bay → Bay} {h : Nat × Bay → List Instr} (hf : ∀ b, (f b).defn = b.defn) (s : State) (e : Nat × Bay)
include hf

theorem State.visitBay_counts :
    (s.visitBay f h e).occ.counts = if movesState f e then (s.moveCount f e).occ.counts else s.occ.counts := by
  unfold State.visitBay
  rw [State.handAll_occ]
  by_cases hstate : (f e.2).state = e.2.state
  · rw [State.changeBay_of_same ⟨hstate.symm, by rw [hf], by rw [hf]⟩, if_neg (by simp [movesState, hstate])]
    rfl
  · rw [State.changeBay_of_moved fun same => hstate same.1.symm, if_pos (by simp [movesState, hstate]), State.mark_occ,
      State.mark_occ, hf]
    rfl

theorem State.visitBay_notes :
    (s.visitBay f h e).port.notes
      = if movesState f e then (s.mark (.zone e.2.defn.zone)).port.notes else s.port.notes := by
  unfold State.visitBay
  rw [State.handAll_port]
  by_cases hstate : (f e.2).state = e.2.state
  · rw [State.changeBay_of_same ⟨hstate.symm, by rw [hf], by rw [hf]⟩, if_neg (by simp [movesState, hstate])]
    rfl
  · rw [State.changeBay_of_moved fun same => hstate same.1.symm, if_pos (by simp [movesState, hstate]), hf,
      State.mark_mark]
    refine State.mark_notes_congr ?_ _
    rfl

end

section
variable (f : Bay → Bay) (h : Nat × Bay → List Instr) (s : State) (e : Nat × Bay)

theorem State.visitBay_bays : (s.visitBay f h e).occ.bays = s.occ.bays.put e.1 (f e.2) := State.changeBay_bays

theorem State.visitBay_handed : (s.visitBay f h e).handed = s.handed ++ h e := by
  unfold State.visitBay
  rw [State.changeBay_frame]
  rfl

theorem State.visitBay_ramps : (s.visitBay f h e).occ.ramps = s.occ.ramps := by
  unfold State.visitBay
  rw [State.changeBay_frame]
  rfl

theorem State.visitBay_frame : OccupancyOnly s (s.visitBay f h e) := by
  refine OccupancyOnly.handAll _ ?_
  rw [State.changeBay_frame]
  exact ⟨_, _, _, rfl⟩

end

/-- A change of a bay keeps each count the number of its bays (R82). -/
theorem CountsSound.changeBay {s : State} {i : Nat} {old : Bay} (k : CountsSound s.occ)
    (hg : s.occ.bays.get i = some old) (new : Bay) : CountsSound (s.changeBay i old new).occ := by
  refine ⟨by rw [State.changeBay_bays]; exact Table.wf_put k.table i new, fun z c st => ?_⟩
  have before : s.occ.count z c st = _ := k.exact z c st
  have change := bayTally_put k.table hg new z c st
  have counted : old.tally z c st ≤ bayTally s.occ.bays z c st := by
    obtain ⟨a, b, split, -⟩ := Table.put_split k.table hg new
    rw [split, bayTally_append, bayTally_cons]
    dsimp only
    omega
  change (s.changeBay i old new).occ.count z c st = _
  rw [State.changeBay_bays, State.changeBay_count z c st (before ▸ counted)]
  omega

/-! ### Visits in turn -/

/-- The records that a list of entries tells are those of a table, each number once. -/
structure Entries (bays : Table Bay) (l : List (Nat × Bay)) : Prop where
  once : (l.map Prod.fst).Nodup
  told : ∀ e ∈ l, bays.get e.1 = some e.2

theorem Entries.filter {bays : Table Bay} (w : Table.wf bays = true) (p : Nat × Bay → Bool) :
    Entries bays (bays.filter p) :=
  ⟨(Table.keys_nodup w).sublist (List.filter_sublist.map _),
    fun _ he => Table.get_of_mem w (List.mem_filter.mp he).1⟩

/-- After the first entry's record is replaced, the others are still told. -/
theorem Entries.put_head {bays : Table Bay} {e : Nat × Bay} {l : List (Nat × Bay)} (k : Entries bays (e :: l))
    (new : Bay) : Entries (bays.put e.1 new) l := by
  have once := k.once
  rw [List.map_cons, List.nodup_cons] at once
  obtain ⟨hnew, hrest⟩ := once
  refine ⟨hrest, fun x hx => ?_⟩
  have hne : x.1 ≠ e.1 := fun q => hnew (q ▸ List.mem_map_of_mem hx)
  rw [Table.get_put_other _ _ hne]
  exact k.told x (List.mem_cons_of_mem e hx)

/-- Visiting bays by number, each visit reading the bay's record, is visiting their entries. -/
theorem foldl_numbers_eq_visits {f : Bay → Bay} {h : Nat × Bay → List Instr} {step : State → Nat → State} {s : State}
    (hstep : ∀ u e, OccupancyOnly s u → u.occ.bays.get e.1 = some e.2 → step u e.1 = u.visitBay f h e)
    {l : List (Nat × Bay)} {u : State} (hu : OccupancyOnly s u) (k : Entries u.occ.bays l) :
    (l.map Prod.fst).foldl step u = l.foldl (State.visitBay f h) u := by
  induction l generalizing u with
  | nil => rfl
  | cons e l ih =>
    rw [List.map_cons, List.foldl_cons, List.foldl_cons, hstep u e hu (k.told e List.mem_cons_self)]
    refine ih (hu.trans (u.visitBay_frame f h e)) ?_
    rw [State.visitBay_bays]
    exact k.put_head _

section
variable (f : Bay → Bay) (h : Nat × Bay → List Instr) (l : List (Nat × Bay)) (s : State)

theorem State.visits_handed : (l.foldl (State.visitBay f h) s).handed = s.handed ++ l.flatMap h := by
  induction l generalizing s with
  | nil => simp
  | cons e l ih => rw [List.foldl_cons, ih, State.visitBay_handed, List.flatMap_cons, List.append_assoc]

theorem State.visits_ramps : (l.foldl (State.visitBay f h) s).occ.ramps = s.occ.ramps :=
  foldl_field (fun s => s.occ.ramps) _ (State.visitBay_ramps f h) l s

theorem State.visits_frame : OccupancyOnly s (l.foldl (State.visitBay f h) s) := by
  induction l generalizing s with
  | nil => exact .refl s
  | cons e l ih => exact (s.visitBay_frame f h e).trans (ih _)

/-- A bay that no entry names keeps its record. -/
theorem State.visits_get_other {j : Nat} (hj : j ∉ l.map Prod.fst) :
    (l.foldl (State.visitBay f h) s).occ.bays.get j = s.occ.bays.get j := by
  induction l generalizing s with
  | nil => rfl
  | cons e l ih =>
    rw [List.map_cons, List.mem_cons, not_or] at hj
    obtain ⟨hne, hrest⟩ := hj
    rw [List.foldl_cons, ih _ hrest, State.visitBay_bays, Table.get_put_other _ _ hne]

/-- A bay that an entry names is changed. -/
theorem State.visits_get {e : Nat × Bay} (once : (l.map Prod.fst).Nodup) (he : e ∈ l) :
    (l.foldl (State.visitBay f h) s).occ.bays.get e.1 = some (f e.2) := by
  induction l generalizing s with
  | nil => contradiction
  | cons x l ih =>
    rw [List.map_cons, List.nodup_cons] at once
    obtain ⟨hnew, hrest⟩ := once
    rw [List.foldl_cons]
    rcases List.mem_cons.mp he with rfl | he
    · rw [State.visits_get_other f h l _ hnew, State.visitBay_bays, Table.get_put_same]
    · exact ih _ hrest he

variable {f l s}

theorem CountsSound.visits (c : CountsSound s.occ) (k : Entries s.occ.bays l) :
    CountsSound (l.foldl (State.visitBay f h) s).occ := by
  induction l generalizing s with
  | nil => exact c
  | cons e l ih =>
    refine ih (c.changeBay (k.told e List.mem_cons_self) (f e.2)) ?_
    rw [State.visitBay_bays]
    exact k.put_head _

variable (hf : ∀ b, (f b).defn = b.defn)
include hf

/-- Exactly the bays that change their state move between counts. -/
theorem State.visits_counts {t : State} (hst : s.occ.counts = t.occ.counts) :
    (l.foldl (State.visitBay f h) s).occ.counts
      = ((l.filter (movesState f)).foldl (State.moveCount f) t).occ.counts := by
  induction l generalizing s t with
  | nil => exact hst
  | cons e l ih =>
    have visited := State.visitBay_counts (h := h) hf s e
    rw [List.foldl_cons, List.filter_cons]
    split at visited <;> rename_i hmove
    · rw [if_pos hmove, List.foldl_cons]
      exact ih (visited.trans (State.moveCount_congr hst f e))
    · rw [if_neg hmove]
      exact ih (visited.trans hst)

/-- Exactly the zones of the bays that change their state are marked. -/
theorem State.visits_notes {t : State} (hst : s.port.notes = t.port.notes) :
    (l.foldl (State.visitBay f h) s).port.notes
      = (t.markAll
          (List.map (fun e : Nat × Bay => Subject.zone e.2.defn.zone) (l.filter (movesState f)))).port.notes := by
  induction l generalizing s t with
  | nil => exact hst
  | cons e l ih =>
    have visited := State.visitBay_notes (h := h) hf s e
    rw [List.foldl_cons, List.filter_cons]
    split at visited <;> rename_i hmove
    · rw [if_pos hmove, List.map_cons]
      exact ih (visited.trans (State.mark_notes_congr hst _))
    · rw [if_neg hmove]
      exact ih (visited.trans hst)

end

/-! ### The event as a whole -/

/-- What an event makes of the bays it concerns: those records change and no other, the counts and the marks follow the
bays that change their state, and nothing outside the Occupancy Unit but the note set and what is handed on changes. -/
structure BaysVisited (s start u : State) (concerned : Nat × Bay → Bool) (f : Bay → Bay) (h : Nat × Bay → List Instr) :
    Prop where
  changed : ∀ j b, s.occ.bays.get j = some b → concerned (j, b) = true → u.occ.bays.get j = some (f b)
  kept : ∀ j b, s.occ.bays.get j = some b → concerned (j, b) = false → u.occ.bays.get j = some b
  undefined : ∀ j, s.occ.bays.get j = none → u.occ.bays.get j = none
  ramps : u.occ.ramps = s.occ.ramps
  counts : u.occ.counts
    = ((s.occ.bays.filter fun e => concerned e && movesState f e).foldl (State.moveCount f) s).occ.counts
  sound : CountsSound s.occ → ∀ z c st, ((u.counts z).get c).get st = bayTally u.occ.bays z c st
  notes : u.port.notes
    = (start.markAll (List.map (fun e : Nat × Bay => Subject.zone e.2.defn.zone)
        (s.occ.bays.filter fun e => concerned e && movesState f e))).port.notes
  handed : u.handed = (s.occ.bays.filter concerned).flatMap h ++ countDeliveries s u
  frame : u = { start with occ := u.occ, handed := u.handed, port := { start.port with notes := u.port.notes } }

/-- The deliveries of an event rest on the counts before and after it. -/
theorem countDeliveries_congr {s s' u u' : State} (hs : s.occ.counts = s'.occ.counts)
    (hu : u.occ.counts = u'.occ.counts) : countDeliveries s u = countDeliveries s' u' := by
  have before (z : Nat) : s.counts z = s'.counts z := by simp [State.counts, hs]
  have after (z : Nat) : u.counts z = u'.counts z := by simp [State.counts, hu]
  simp only [countDeliveries, before, after]

theorem BaysVisited.of_visits {s start : State} (w : Table.wf s.occ.bays = true) (hocc : start.occ = s.occ)
    (hhanded : start.handed = []) {f : Bay → Bay} (hf : ∀ b, (f b).defn = b.defn) (concerned : Nat × Bay → Bool)
    (h : Nat × Bay → List Instr) :
    BaysVisited s start
      (((s.occ.bays.filter concerned).foldl (State.visitBay f h) start).handCounts start) concerned f h := by
  have k := Entries.filter w concerned
  have hfilter : (s.occ.bays.filter concerned).filter (movesState f)
      = s.occ.bays.filter fun e => concerned e && movesState f e := List.filter_filter.trans (by simp [Bool.and_comm])
  have unconcerned {j : Nat} (hj : ∀ b, s.occ.bays.get j = some b → concerned (j, b) = false) :
      j ∉ (s.occ.bays.filter concerned).map Prod.fst := by
    rintro hmem
    obtain ⟨⟨j, b⟩, he, rfl⟩ := List.mem_map.mp hmem
    have hcon := hj b (k.told _ he)
    simp [List.mem_filter.mp he] at hcon
  constructor
  case changed => exact fun j b hb hc =>
    State.visits_get f h _ _ k.once (List.mem_filter.mpr ⟨Table.mem_of_get hb, hc⟩)
  case kept =>
    intro j b hb hc
    have hj : ∀ b', s.occ.bays.get j = some b' → concerned (j, b') = false := by
      intro b' hb'
      rw [hb, Option.some.injEq] at hb'
      exact hb' ▸ hc
    refine (State.visits_get_other f h _ _ (unconcerned hj)).trans ?_
    rw [hocc, hb]
  case undefined =>
    intro j hb
    refine (State.visits_get_other f h _ _ (unconcerned fun b hb' => ?_)).trans (by rw [hocc, hb])
    rw [hb] at hb'
    contradiction
  case ramps => exact (State.visits_ramps f h _ _).trans (by rw [hocc])
  case counts =>
    rw [← hfilter]
    exact State.visits_counts h hf (by rw [hocc])
  case sound => exact fun c => (CountsSound.visits h (hocc ▸ c) (hocc ▸ k)).exact
  case notes =>
    rw [← hfilter]
    exact State.visits_notes h hf rfl
  case handed =>
    show (List.foldl (State.visitBay f h) start _).handed ++ _ = _
    rw [State.visits_handed, hhanded, List.nil_append]
    exact congrArg _ (countDeliveries_congr (by rw [hocc]) rfl)
  case frame => exact (OccupancyOnly.handAll _ (State.visits_frame f h _ start)).eq

end Sys2Proof.Machine
end

