-- ==== Sys2Proof/Proofs/BayEvents.lean ====
section
/-! SUPPORT. Strip readings, node events of strips and BAY-SERVICE (R77, R79, R81 to R83, R86). -/

namespace Sys2Proof.Machine

/-! ### Strip readings (R77, R79, R81) -/

@[simp] theorem State.handAll_nil (s : State) : s.handAll [] = s := by
  unfold State.handAll
  rw [List.append_nil]

/-- A bay event is a move between FREE and OCCUPIED (R79). -/
theorem bayEvent_iff (old new : BayState) :
    bayEvent old new = true ↔ (old = .free ∧ new = .occupied) ∨ (old = .occupied ∧ new = .free) := by
  cases old <;> cases new <;> decide

/-- A bay after the strip's reading of its channel. -/
def Bay.afterStrip (s : State) (readings : List BayReading) (b : Bay) : Bay :=
  b.debounce s.now s.items.confirmation (readings.getD b.defn.channel .fault)

/-- What a bay hands on when it changes: traffic and presence at a bay event, else nothing (R81). -/
def bayHandOn (f : Bay → Bay) (e : Nat × Bay) : List Instr :=
  if bayEvent e.2.state (f e.2).state then bayEventHandOn e.1 e.2 else []

/-- A bay that takes its reading is visited. -/
theorem State.takeReading_eq_visit {s u : State} (hu : OccupancyOnly s u) (readings : List BayReading) {e : Nat × Bay}
    (he : u.occ.bays.get e.1 = some e.2) :
    u.takeReading readings e.1
      = u.visitBay (Bay.afterStrip s readings) (bayHandOn (Bay.afterStrip s readings)) e := by
  unfold State.takeReading State.visitBay bayHandOn Bay.afterStrip
  rw [he, hu.now_eq, hu.items_eq]
  dsimp only
  split
  · rfl
  · rw [State.handAll_nil]

/-- A fresh strip reading visits the bays of its node. -/
theorem effBayStripReading_visited {s : State} (hs : s.handed = []) (w : Table.wf s.occ.bays = true) (n : NodeId)
    {payload : List Byte} (hp : payload.length = 6) :
    let readings := (payload.flatMap quads).map bayReadingOf
    BaysVisited s s (effBayStripReading n true payload s) (fun e => decide (e.2.defn.node = n))
      (Bay.afterStrip s readings) (bayHandOn (Bay.afterStrip s readings)) := by
  intro readings
  have heff : effBayStripReading n true payload s
      = ((s.baysOf n).foldl (fun t i => t.takeReading readings i) s).handCounts s := by
    unfold effBayStripReading parseStrip
    rw [if_pos rfl, if_pos hp]
  have visits := foldl_numbers_eq_visits (step := fun t i => t.takeReading readings i)
    (fun u e hu he => State.takeReading_eq_visit hu readings he) (OccupancyOnly.refl s)
    (Entries.filter w fun e => decide (e.2.defn.node = n))
  rw [heff]
  exact visits ▸ BaysVisited.of_visits w rfl hs (fun _ => Bay.debounce_defn) _ _

theorem mem_classList (c : BayClass) : c ∈ classList := by cases c <;> decide

/-- Exactly the free counts that changed are delivered (R81). -/
theorem countDelivery_mem_iff (s u : State) (z : Nat) (c : BayClass) (m : Nat) :
    Instr.countDelivery z c m ∈ countDeliveries s u ↔
      z < 24 ∧ ((u.counts z).get c).free = m ∧ ((s.counts z).get c).free ≠ m := by
  unfold countDeliveries
  simp only [List.mem_flatMap, List.mem_range, List.mem_filterMap]
  constructor
  · rintro ⟨z', hz, c', -, hdelivery⟩
    split at hdelivery
    · contradiction
    · rename_i hchanged
      cases hdelivery
      exact ⟨hz, rfl, hchanged⟩
  · rintro ⟨hz, rfl, hchanged⟩
    exact ⟨z, hz, c, mem_classList c, if_neg hchanged⟩

/-- Settles O26: the bays of the node are visited in rising number. -/
theorem stripReadingDebouncesEveryBay : Obligations.StripReadingDebouncesEveryBay := by
  intro s n payload hs hp
  refine ⟨exec_of_calm hs, ?_⟩
  intro w readings after changed
  have v := effBayStripReading_visited hs w n hp
  have hchanged : changed
      = s.occ.bays.filter fun e => decide (e.2.defn.node = n) && movesState (Bay.afterStrip s readings) e :=
    List.filter_congr fun e _ => Bool.decide_and _ _
  refine ⟨_, exec_of_calm hs, fun j => ?bays, v.ramps, hchanged ▸ v.counts, v.sound, hchanged ▸ v.notes, ?handed,
    countDelivery_mem_iff s _, v.frame⟩
  case bays =>
    cases hb : s.occ.bays.get j with
    | none => exact v.undefined j hb
    | some b =>
      show _ = some (if b.defn.node = n then after b else b)
      split <;> rename_i hn
      · exact v.changed j b hb (decide_eq_true hn)
      · exact v.kept j b hb (decide_eq_false hn)
  case handed =>
    have hevents (e : Nat × Bay) : bayHandOn (Bay.afterStrip s readings) e
        = if (e.2.state = .free ∧ (after e.2).state = .occupied) ∨ (e.2.state = .occupied ∧ (after e.2).state = .free)
          then [.trafficEvent e.2.defn.zone, .presenceTrigger (.bay e.1)] else [] := by
      unfold bayHandOn
      simp only [bayEvent_iff]
      rfl
    refine v.handed.trans ?_
    rw [funext hevents]
    rfl

/-! ### Node events and BAY-SERVICE (R83, R86) -/

/-- One bay of a number is changed where it is defined. -/
def State.changeNumber (f : Bay → Bay) (t : State) (i : Nat) : State :=
  match t.occ.bays.get i with
  | none => t
  | some b => t.changeBay i b (f b)

/-- A change of the bays of some numbers, with no bay event, visits them. -/
theorem changeNumbers_visited {s start : State} (w : Table.wf s.occ.bays = true) (hocc : start.occ = s.occ)
    (hhanded : start.handed = []) {f : Bay → Bay} (hf : ∀ b, (f b).defn = b.defn) (concerned : Nat × Bay → Bool) :
    BaysVisited s start
      ((((s.occ.bays.filter concerned).map Prod.fst).foldl (State.changeNumber f) start).handCounts start) concerned f
      fun _ => [] := by
  have step (u : State) (e : Nat × Bay) (_ : OccupancyOnly start u) (he : u.occ.bays.get e.1 = some e.2) :
      u.changeNumber f e.1 = u.visitBay f (fun _ => []) e := by
    unfold State.changeNumber State.visitBay
    rw [he, State.handAll_nil]
  rw [foldl_numbers_eq_visits step (.refl start) (hocc ▸ Entries.filter w concerned)]
  exact BaysVisited.of_visits w hocc hhanded hf concerned _

theorem State.changeBaysOf_visited {s : State} (hs : s.handed = []) (w : Table.wf s.occ.bays = true) (n : NodeId)
    {f : Bay → Bay} (hf : ∀ b, (f b).defn = b.defn) :
    BaysVisited s s (s.changeBaysOf n f) (fun e => decide (e.2.defn.node = n)) f fun _ => [] :=
  changeNumbers_visited w rfl hs hf _

/-- The loss of a bay's strip, field by field (R83). -/
theorem Bay.lost_eq (now : Nat) (b : Bay) :
    b.lost now
      = { b with
          candidate := none, counter := 0
          state := if b.state = .outOfService then .outOfService else .unknown
          lastChange := if b.state = .free ∨ b.state = .occupied then now else b.lastChange } := by
  obtain ⟨d, st, c, k, t⟩ := b
  cases st <;> rfl

theorem Bay.takeOut_eq (now : Nat) (b : Bay) :
    b.takeOut now = if b.state = .outOfService then b else { b with state := .outOfService, lastChange := now } := by
  obtain ⟨d, st, c, k, t⟩ := b
  cases st <;> rfl

theorem Bay.takeIn_eq (now : Nat) (b : Bay) :
    b.takeIn now
      = if b.state = .outOfService then { b with state := .unknown, candidate := none, counter := 0, lastChange := now }
        else b := by
  obtain ⟨d, st, c, k, t⟩ := b
  cases st <;> rfl

/-- What BAY-SERVICE makes of a bay: OUT of service in direction 0, else back IN. -/
def Bay.serve (now d : Nat) : Bay → Bay := if d = 0 then Bay.takeOut now else Bay.takeIn now

theorem Bay.serve_defn (now d : Nat) (b : Bay) : (b.serve now d).defn = b.defn := by
  unfold Bay.serve
  split
  · rw [Bay.takeOut_eq]
    split <;> rfl
  · rw [Bay.takeIn_eq]
    split <;> rfl

theorem toNat_eq_zero_iff (b : Byte) : b.toNat = 0 ↔ b = 0 := ⟨fun h => BitVec.eq_of_toNat_eq h, fun h => h ▸ rfl⟩

section
variable {first last d : Nat} {s : State}

theorem ownBayService_outOfRange (h : 2048 ≤ first ∨ 2048 ≤ last ∨ last < first ∨ 2 ≤ d) :
    ownBayService (first, last, d) s = .error .outOfRange := by
  refine refuseIf_of_true ?_
  simp only [Bool.or_eq_true, decide_eq_true_eq]
  unfold Config.bays
  omega

/-- With its range and direction in order BAY-SERVICE goes on to the bays of the range. -/
theorem ownBayService_inRange (hfl : first ≤ last) (hl : last < 2048) (hd : d < 2) :
    ownBayService (first, last, d) s
      = refuseIf (s.bayRange first last).isEmpty .notDefined
          (accept false (((s.bayRange first last).foldl (State.changeNumber (Bay.serve s.now d)) s).handCounts s)) := by
  refine refuseIf_of_false ?_
  rw [Bool.eq_false_iff, ne_eq]
  simp only [Bool.or_eq_true, decide_eq_true_eq]
  unfold Config.bays
  omega

/-- The bays of a range are those of the entries within it. -/
theorem State.bayRange_eq (s : State) (first last : Nat) :
    s.bayRange first last
      = (s.occ.bays.filter fun e => decide (first ≤ e.1 ∧ e.1 ≤ last)).map Prod.fst := by
  unfold State.bayRange Table.keys
  rw [List.filter_map]
  simp only [Bool.decide_and]
  rfl

theorem State.mem_bayRange_iff {j : Nat} (w : Table.wf s.occ.bays = true) :
    j ∈ s.bayRange first last ↔ first ≤ j ∧ j ≤ last ∧ s.occ.bays.get j ≠ none := by
  rw [State.bayRange_eq, List.mem_map]
  constructor
  · rintro ⟨⟨j, b⟩, he, rfl⟩
    obtain ⟨hmem, hrange⟩ := List.mem_filter.mp he
    obtain ⟨hfirst, hlast⟩ := of_decide_eq_true hrange
    exact ⟨hfirst, hlast, by simp [Table.get_of_mem w hmem]⟩
  · rintro ⟨hfirst, hlast, hdefined⟩
    obtain ⟨b, hb⟩ := Option.ne_none_iff_exists'.mp hdefined
    exact ⟨(j, b), List.mem_filter.mpr ⟨Table.mem_of_get hb, decide_eq_true ⟨hfirst, hlast⟩⟩, rfl⟩

end

/-- Settles O27: node events and BAY-SERVICE visit the bays they concern, with no bay event. -/
theorem bayNodeEventsAndServiceSetTheBays : Obligations.BayNodeEventsAndServiceSetTheBays := by
  intro s hs w changes lost
  have changes_of_visited {start u : State} {concerned : Nat → Bay → Prop} [∀ j, DecidablePred (concerned j)]
      {f g : Bay → Bay} (hfg : f = g)
      (v : BaysVisited s start u (fun e => decide (concerned e.1 e.2)) g fun _ => []) :
      changes start u concerned f := by
    subst hfg
    have hchanged : (s.occ.bays.filter fun e => concerned e.1 e.2 ∧ (f e.2).state ≠ e.2.state)
        = s.occ.bays.filter fun e => decide (concerned e.1 e.2) && movesState f e :=
      List.filter_congr fun e _ => Bool.decide_and _ _
    refine ⟨fun j b hb hc => v.changed j b hb (decide_eq_true hc), fun j b hb hc => v.kept j b hb (decide_eq_false hc),
      v.undefined, v.ramps, hchanged ▸ v.counts, v.sound, hchanged ▸ v.notes, v.handed.trans ?_, v.frame⟩
    simp
  have hlost : lost = Bay.lost s.now := funext fun b => (b.lost_eq s.now).symm
  have lost_defn (b : Bay) : (b.lost s.now).defn = b.defn := by rw [Bay.lost_eq]
  refine ⟨fun n => ⟨⟨_, exec_of_calm hs, ?_⟩, ⟨_, exec_of_calm hs, ?_⟩, ⟨_, exec_of_calm hs, ?_⟩⟩,
    ?_⟩
  · exact changes_of_visited hlost (State.changeBaysOf_visited hs w n lost_defn)
  · exact changes_of_visited hlost (State.changeBaysOf_visited hs w n lost_defn)
  · exact changes_of_visited rfl (State.changeBaysOf_visited hs w n fun _ => rfl)
  intro tag f1 f0 l1 l0 d ha c first last
  let p := s.framePassed
  have hocc : p.occ = s.occ := s.framePassed_occ
  have hlevel : levelService p = if s.items.editService then .operator else .installer := by
    show (if p.store.items.editService then _ else _) = _
    rw [s.framePassed_store]
  have refused {e : RefusalCode} (ho : ownBayService (first, last, d.toNat) p = .error e) :
      exec c s = .next (p.turnedAway tag e) :=
    exec_turnedAway (owner := ownBayService) (x := (first, last, d.toNat)) rfl ha hlevel rfl ho
  have hmem (j : Nat) : j ∈ p.bayRange first last ↔ first ≤ j ∧ j ≤ last ∧ s.occ.bays.get j ≠ none := by
    rw [State.mem_bayRange_iff (hocc ▸ w), hocc]
  refine ⟨fun hbad => refused (ownBayService_outOfRange hbad), fun hfl hl hd => ⟨fun hnone => ?_, fun hsome => ?_⟩⟩
  · refine refused ((ownBayService_inRange hfl hl hd).trans (refuseIf_of_true ?_))
    rw [List.isEmpty_iff, List.eq_nil_iff_forall_not_mem]
    intro j hj
    obtain ⟨hfirst, hlast, hdefined⟩ := (hmem j).mp hj
    exact hdefined (hnone j hfirst hlast)
  · obtain ⟨j, hj⟩ := hsome
    have hids : (p.bayRange first last).isEmpty = false :=
      List.isEmpty_eq_false_iff_exists_mem.mpr ⟨j, (hmem j).mpr hj⟩
    refine ⟨_, exec_done (owner := ownBayService) (x := (first, last, d.toNat)) rfl ha hlevel rfl
      ((ownBayService_inRange hfl hl hd).trans (refuseIf_of_false hids)), ?_⟩
    have hserve : (fun b : Bay =>
        if d = 0 then
          if b.state = .outOfService then b else { b with state := .outOfService, lastChange := s.now }
        else if b.state = .outOfService then
          { b with state := .unknown, candidate := none, counter := 0, lastChange := s.now }
        else b) = Bay.serve p.now d.toNat := by
      funext b
      unfold Bay.serve
      simp only [toNat_eq_zero_iff]
      split
      · rw [Bay.takeOut_eq, s.framePassed_now]
      · rw [Bay.takeIn_eq, s.framePassed_now]
    refine changes_of_visited (concerned := fun j _ => first ≤ j ∧ j ≤ last) hserve ?_
    rw [State.bayRange_eq, hocc]
    exact changeNumbers_visited w hocc (s.framePassed_handed.trans hs) (Bay.serve_defn _ _) _

end Sys2Proof.Machine
end

