-- ==== Sys2Proof/Proofs/BayRequests.lean ====
section
/-! SUPPORT. BAY-DEF, its checks in order and what it makes of the bay (R84, R85). -/

namespace Sys2Proof.Machine

theorem classOf_of_four_le {k : Nat} (h : 4 ≤ k) : classOf k = none := by
  match k, h with
  | _ + 4, _ => rfl

section
variable {r : BayDefReq} {s : State} {n : NodeId} {c : BayClass} {x : Node} {b : Bay}

theorem ownBayDef_of_noBay (hi : 2048 ≤ r.bay) : ownBayDef r s = .error .outOfRange :=
  refuseIf_of_true (decide_eq_true hi)

/-- A bay within the range goes on to the remove flag. -/
theorem refuseIf_bays {rest : Owned} (hi : r.bay < 2048) :
    refuseIf (decide (Config.bays ≤ r.bay)) .outOfRange rest = rest :=
  refuseIf_of_false (decide_eq_false (Nat.not_le.mpr hi))

theorem ownBayDef_remove_of_none (hi : r.bay < 2048) (hr : r.remove = true) (hb : s.occ.bays.get r.bay = none) :
    ownBayDef r s = .error .notDefined := by
  unfold ownBayDef
  rw [refuseIf_bays hi, if_pos hr, hb]

/-- The removal of a bay deletes its record, and the bay leaves the counts. -/
theorem ownBayDef_remove_of_some (hi : r.bay < 2048) (hr : r.remove = true) (hb : s.occ.bays.get r.bay = some b) :
    ownBayDef r s
      = accept false
          ((State.countOut b { s with occ := { s.occ with bays := s.occ.bays.del r.bay } }).handCounts s) := by
  unfold ownBayDef
  rw [refuseIf_bays hi, if_pos hr, hb]

/-- The ranges of zone, channel, node and class are checked before what they name. -/
theorem ownBayDef_of_badPlace (hi : r.bay < 2048) (hr : r.remove = false)
    (hbad : 24 ≤ r.zone ∨ 24 ≤ r.channel ∨ nodeOf r.loop r.addr = none ∨ 4 ≤ r.cls) :
    ownBayDef r s = .error .outOfRange := by
  unfold ownBayDef
  rw [refuseIf_bays hi, if_neg (by simp [hr])]
  cases hn : nodeOf r.loop r.addr with
  | none => rfl
  | some n =>
    cases hc : classOf r.cls with
    | none => rfl
    | some c =>
      refine refuseIf_of_true ?_
      have hcls : ¬ 4 ≤ r.cls := fun h => by simp [classOf_of_four_le h] at hc
      have hplace : 24 ≤ r.zone ∨ 24 ≤ r.channel := by simpa [hn, hcls] using hbad
      rw [Bool.or_eq_true, decide_eq_true_eq, decide_eq_true_eq]
      exact hplace

/-- The request defines a bay at a place within its ranges. -/
structure BayDefReq.Places (r : BayDefReq) (n : NodeId) (c : BayClass) : Prop where
  bay : r.bay < 2048
  define : r.remove = false
  zone : r.zone < 24
  channel : r.channel < 24
  node : nodeOf r.loop r.addr = some n
  cls : classOf r.cls = some c

theorem BayDefReq.Places.inRange (hp : r.Places n c) :
    (decide (Config.zones ≤ r.zone) || decide (24 ≤ r.channel)) = false := by
  rw [Bool.or_eq_false_iff, decide_eq_false_iff_not, decide_eq_false_iff_not]
  exact ⟨Nat.not_le.mpr hp.zone, Nat.not_le.mpr hp.channel⟩

/-- With its place in range BAY-DEF goes on to what the place names. -/
theorem ownBayDef_undefined (hp : r.Places n c) (hu : s.zone r.zone = none ∨ s.node n = none) :
    ownBayDef r s = .error .notDefined := by
  unfold ownBayDef
  rw [refuseIf_bays hp.bay, if_neg (by simp [hp.define]), hp.node, hp.cls]
  dsimp only
  rw [refuseIf_of_false hp.inRange]
  cases hx : s.node n with
  | none => rfl
  | some x =>
    have hzone : s.zoneDefined r.zone = false := State.zoneDefined_of_none (hu.resolve_right (by simp [hx]))
    exact refuseIf_of_true (by rw [hzone]; rfl)

/-- The request's place names a defined zone and a node with an entry. -/
structure BayDefReq.Named (r : BayDefReq) (s : State) (n : NodeId) (c : BayClass) (x : Node) : Prop
    extends r.Places n c where
  zoneDefined : s.zoneDefined r.zone = true
  entry : s.node n = some x

/-- Whether another bay than the request's names a node and the request's channel. -/
def BayDefReq.taken (r : BayDefReq) (s : State) (n : NodeId) : Bool :=
  s.occ.bays.anyOther r.bay fun b => b.defn.node == n && b.defn.channel == r.channel

theorem BayDefReq.taken_iff :
    r.taken s n = true ↔ ∃ o ∈ s.occ.bays, o.1 ≠ r.bay ∧ o.2.defn.node = n ∧ o.2.defn.channel = r.channel := by
  simp [BayDefReq.taken, Table.anyOther]

/-- A node of another role, or a channel that another bay names, is refused. -/
theorem ownBayDef_conflict (hp : r.Named s n c x) (hc : x.defn.role ≠ .bay ∨ r.taken s n = true) :
    ownBayDef r s = .error .conflict := by
  unfold ownBayDef
  rw [refuseIf_bays hp.bay, if_neg (by simp [hp.define]), hp.node, hp.cls]
  dsimp only
  rw [refuseIf_of_false hp.inRange, hp.entry]
  dsimp only
  rw [refuseIf_of_false (by simp [hp.zoneDefined])]
  by_cases hrole : x.defn.role = .bay
  · rw [refuseIf_of_false (by simp [hrole])]
    exact refuseIf_of_true (hc.resolve_left (not_not_intro hrole))
  · exact refuseIf_of_true (by simpa using hrole)

/-- The request passes every check of R84. -/
structure BayDefReq.Free (r : BayDefReq) (s : State) (n : NodeId) (c : BayClass) (x : Node) : Prop
    extends r.Named s n c x where
  role : x.defn.role = .bay
  only : r.taken s n = false

/-- The definition part that BAY-DEF gives. -/
def BayDefReq.defn (r : BayDefReq) (n : NodeId) (c : BayClass) : BayDefn :=
  { zone := r.zone, node := n, channel := r.channel, cls := c }

/-- A bay right after its creation or its move: UNKNOWN, with no candidate (R85). -/
def BayDefn.fresh (d : BayDefn) (now : Nat) : Bay :=
  { defn := d, state := .unknown, candidate := none, counter := 0, lastChange := now }

/-- What BAY-DEF does when every check has passed. -/
theorem ownBayDef_of_free (hp : r.Free s n c x) :
    let d := r.defn n c
    (s.occ.bays.get r.bay = none →
      ownBayDef r s
        = accept false (((s.putBay r.bay (d.fresh s.now)).countIn (d.fresh s.now)).handCounts s))
    ∧ ∀ b, s.occ.bays.get r.bay = some b →
      (b.defn = d → ownBayDef r s = accept false s)
      ∧ (b.defn ≠ d →
        ownBayDef r s
          = accept false
              ((s.changeBay r.bay b
                (if b.defn.zone = d.zone ∧ b.defn.node = d.node ∧ b.defn.channel = d.channel then { b with defn := d }
                  else d.fresh s.now)).handCounts s)) := by
  have only := hp.only
  unfold BayDefReq.taken at only
  unfold ownBayDef
  rw [refuseIf_bays hp.bay, if_neg (by simp [hp.define]), hp.node, hp.cls]
  dsimp only
  rw [refuseIf_of_false hp.inRange, hp.entry]
  dsimp only
  rw [refuseIf_of_false (by simp [hp.zoneDefined]), refuseIf_of_false (by simp [hp.role]), refuseIf_of_false only]
  refine ⟨fun hb => ?_, fun b hb => ⟨fun hd => ?_, fun hd => ?_⟩⟩
  · rw [hb]
    rfl
  · rw [hb]
    exact if_pos hd
  · rw [hb]
    exact (if_neg hd).trans (apply_ite (fun new => accept false ((s.changeBay r.bay b new).handCounts s)) _ _ _).symm

end

/-- The counts before a request are those before its frame passed. -/
theorem State.handCounts_framePassed (t s : State) : t.handCounts s.framePassed = t.handCounts s := by
  have hcounts : s.framePassed.occ.counts = s.occ.counts := by rw [State.framePassed_occ]
  exact congrArg t.handAll (countDeliveries_congr hcounts rfl)

/-- Settles O28: each check of R84 in its order, then the case of the bay in the table. -/
theorem bayDefFollowsItsRules : Obligations.BayDefFollowsItsRules := by
  intro s tag b1 b0 f z l a ch k hs p i c
  let r : BayDefReq := ⟨i, f.getLsbD 0, z.toNat, l.toNat, a.toNat, ch.toNat, k.toNat⟩
  have refused {e : RefusalCode} (ho : ownBayDef r p = .error e) : exec c s = .next (p.turnedAway tag e) :=
    exec_turnedAway (owner := ownBayDef) (x := r) rfl hs rfl rfl ho
  have done {t u : State} (ho : ownBayDef r p = accept false t) (ht : t = u) :
      exec c s = .next (u.done tag false) :=
    ht ▸ exec_done (owner := ownBayDef) (x := r) rfl hs rfl rfl ho
  have hocc : p.occ = s.occ := s.framePassed_occ
  have hget {o : Option Bay} (ho : s.occ.bays.get i = o) : p.occ.bays.get i = o := by rw [hocc, ho]
  refine ⟨fun hi => refused (ownBayDef_of_noBay hi), fun hi hf => ⟨fun hb => ?_, fun b hb => ?_⟩,
    fun hi hf => ⟨fun hbad => refused (ownBayDef_of_badPlace hi hf hbad), fun n cls hz hch hn hcls => ?_⟩⟩
  · exact refused (ownBayDef_remove_of_none hi hf (hget hb))
  · refine done (ownBayDef_remove_of_some hi hf (hget hb)) ?_
    rw [State.handCounts_framePassed, hocc]
    rfl
  · have placed : r.Places n cls := ⟨hi, hf, hz, hch, hn, hcls⟩
    refine ⟨fun hu => refused (ownBayDef_undefined placed ?_), fun zr x hzr hx => ?_⟩
    · rwa [State.framePassed_zone, State.framePassed_node]
    have named : r.Named p n cls x :=
      ⟨placed, State.zoneDefined_of_some ((s.framePassed_zone _).trans hzr), (s.framePassed_node n).trans hx⟩
    have taken_iff := BayDefReq.taken_iff (r := r) (s := p) (n := n)
    rw [hocc] at taken_iff
    refine ⟨fun hc => refused (ownBayDef_conflict named (hc.imp_right taken_iff.mpr)), fun hrole hone => ?_⟩
    have only : r.taken p n = false := by
      refine Bool.eq_false_iff.mpr fun ht => ?_
      obtain ⟨o, ho, hother, hnode, hchannel⟩ := taken_iff.mp ht
      exact hother (hone o ho hnode hchannel)
    intro d fresh
    obtain ⟨create, change⟩ := ownBayDef_of_free ⟨named, hrole, only⟩
    have hfresh : (r.defn n cls).fresh p.now = fresh := by rw [State.framePassed_now]; rfl
    rw [hfresh] at create change
    refine ⟨fun hb => done (create (hget hb)) ?_, fun b hb => ⟨fun hd => ?_, fun hd => ?_⟩⟩
    · rw [State.handCounts_framePassed, ← hocc]
      rfl
    · exact done ((change b (hget hb)).1 hd) rfl
    · exact done ((change b (hget hb)).2 hd) (State.handCounts_framePassed _ _)

end Sys2Proof.Machine
end

