-- ==== Sys2Proof/Proofs/Ramps.lean ====
section
/-! SUPPORT. The reply of a ramp detector, and RAMP-DEF (R90 to R93, R143). -/

namespace Sys2Proof.Machine

/-! ### A ramp's reply (R90, R91, R143) -/

section
variable {s : State} {n : NodeId} {i : Nat} {r : Ramp}

/-- The overflow touches the node table and the note set alone, whatever the Occupancy Unit holds. -/
theorem State.countOverflow_withOcc (s : State) (n : NodeId) (o : Occupancy) (h : List Instr) :
    State.countOverflow n { s with occ := o, handed := h } = { s.countOverflow n with occ := o, handed := h } := by
  have hnode : ({ s with occ := o, handed := h } : State).node n = s.node n := rfl
  unfold State.countOverflow
  rw [hnode]
  cases s.node n with
  | none => rfl
  | some x =>
    dsimp only
    rw [State.mark_eq_port, State.mark_eq_port]
    rfl

/-- The state after the overflow flag of a reply (R143). -/
def State.overflowed (n : NodeId) (flag : Bool) (s : State) : State := if flag then s.countOverflow n else s

theorem State.overflowed_withOcc (s : State) (n : NodeId) (flag : Bool) (o : Occupancy) (h : List Instr) :
    State.overflowed n flag { s with occ := o, handed := h } = { s.overflowed n flag with occ := o, handed := h } := by
  cases flag with
  | false => rfl
  | true => exact s.countOverflow_withOcc n o h

theorem State.overflowed_occ (s : State) (n : NodeId) (flag : Bool) : (s.overflowed n flag).occ = s.occ :=
  (congrArg State.occ (s.overflowed_withOcc n flag s.occ s.handed) :)

/-- An overflow raises the tally of a node with an entry and marks it (R143). -/
theorem State.overflowed_eq (s : State) (n : NodeId) (flag : Bool) :
    s.overflowed n flag
      = match flag, s.node n with
        | true, some x =>
          let tally := match x.report with | .ramp k => k | .empty | .sign _ | .lamp _ => 0
          ({ s with
              loops :=
                { s.loops with
                  nodes := s.loops.nodes.put (nodeIndex n) { x with report := .ramp (min 255 (tally + 1)) } } } :
            State).mark (.node n)
        | _, _ => s := by
  cases flag with
  | false => rfl
  | true =>
    show s.countOverflow n = _
    unfold State.countOverflow
    cases hx : s.node n with
    | none => rfl
    | some x =>
      obtain ⟨haddr, -⟩ := State.node_eq_some_iff.mp hx
      dsimp only
      unfold State.setNode
      rw [if_pos haddr]
      rfl

/-- A standing flag takes a value: only a change is recorded and handed on (R90). -/
theorem State.setStanding_eq (hs : s.handed = []) (flag : Bool) :
    s.setStanding i r flag
      = { s with
          occ :=
            { s.occ with
              ramps := if flag = r.standing then s.occ.ramps else s.occ.ramps.put i { r with standing := flag } }
          handed := if flag = r.standing then [] else [.standingChange r.defn.zone i flag] } := by
  unfold State.setStanding
  by_cases hflag : r.standing = flag
  · rw [if_pos hflag, if_pos hflag.symm, if_pos hflag.symm, ← hs]
  · rw [if_neg hflag, if_neg (Ne.symm hflag), if_neg (Ne.symm hflag)]
    simp [State.hand, State.putRamp, hs]

section
variable (hi : s.rampOf n = some i) (hr : s.occ.ramps.get i = some r) (b : Byte)
include hi hr

/-- A reply with READY clear is the standing flag and the overflow. -/
theorem effRampReading_notReady :
    effRampReading n false [b] s = (s.setStanding i r (b.getLsbD 0)).overflowed n (b.getLsbD 1) := by
  unfold effRampReading
  rw [hi]
  dsimp only [parseRampPayload]
  rw [hr]
  rfl

/-- A reply with READY set: the passage follows the standing flag and the overflow. -/
theorem effRampReading_ready (hs : s.handed = []) :
    effRampReading n true [b] s
      = { s.overflowed n (b.getLsbD 1) with
          occ :=
            { s.occ with
              ramps :=
                s.occ.ramps.put i
                  (({ r with standing := b.getLsbD 0 } : Ramp).pass s.now (passageDirOf (b.toNat / 4 % 4))) }
          handed :=
            (if b.getLsbD 0 = r.standing then [] else [.standingChange r.defn.zone i (b.getLsbD 0)])
              ++ passageHandOn i r.defn (passageDirOf (b.toNat / 4 % 4)) } := by
  have heff : effRampReading n true [b] s
      = (((s.setStanding i r (b.getLsbD 0)).overflowed n (b.getLsbD 1)).putRamp i
          (({ r with standing := b.getLsbD 0 } : Ramp).pass s.now (passageDirOf (b.toNat / 4 % 4)))).handAll
            (passageHandOn i r.defn (passageDirOf (b.toNat / 4 % 4))) := by
    unfold effRampReading
    rw [hi]
    dsimp only [parseRampPayload]
    rw [hr]
    rfl
  rw [heff, State.setStanding_eq hs, State.overflowed_withOcc]
  by_cases hflag : b.getLsbD 0 = r.standing
  · rw [if_pos hflag, if_pos hflag]
    rfl
  · rw [if_neg hflag, if_neg hflag]
    simp only [State.putRamp, State.handAll, Table.put_put]

end

/-- A reply of a node that no ramp names changes nothing (log 25). -/
theorem effRampReading_of_noRamp (hi : s.rampOf n = none) (ready : Bool) (payload : List Byte) :
    effRampReading n ready payload s = s := by
  unfold effRampReading
  rw [hi]
  split
  · contradiction
  · rfl

theorem effRampNodeReset_of_noRamp (hi : s.rampOf n = none) : effRampNodeReset n s = s := by
  unfold effRampNodeReset
  rw [hi]

/-- A LOOP-RESET clears the standing flag of the node's ramp (R92). -/
theorem effRampNodeReset_of_ramp (hi : s.rampOf n = some i) (hr : s.occ.ramps.get i = some r) :
    effRampNodeReset n s = s.setStanding i r false := by
  unfold effRampNodeReset
  rw [hi]
  dsimp only
  rw [hr]

end

theorem passageDirOf_of_two_le {k : Nat} (h : 2 ≤ k) : passageDirOf k = .unknown := by
  match k, h with
  | _ + 2, _ => rfl

/-- Settles O30: the standing flag, the overflow and the passage of a reply, in this order. -/
theorem rampReplyIsTakenInOrder : Obligations.RampReplyIsTakenInOrder := by
  intro s n b hs
  refine ⟨exec_of_calm hs, fun hi ready => ⟨?noReading, ?noReset⟩, ?ramp⟩
  case noReading => rw [exec_of_calm hs, effect, effRampReading_of_noRamp hi]
  case noReset => rw [exec_of_calm hs, effect, effRampNodeReset_of_noRamp hi]
  intro i r hi hr put counted
  have hcounted : counted = s.overflowed n (b.getLsbD 1) := (s.overflowed_eq n (b.getLsbD 1)).symm
  have hocc : counted.occ = s.occ := by rw [hcounted, State.overflowed_occ]
  have reset {t : State} (ht : s.setStanding i r false = t) : exec (.rampNodeReset n) s = .next (settle t) := by
    rw [exec_of_calm hs, ← ht, ← effRampNodeReset_of_ramp hi hr]
    rfl
  have notReady {t : State} (ht : (s.setStanding i r (b.getLsbD 0)).overflowed n (b.getLsbD 1) = t) :
      exec (.rampReading n false [b]) s = .next (settle t) := by
    rw [exec_of_calm hs, ← ht, ← effRampReading_notReady hi hr]
    rfl
  refine ⟨fun hstanding => reset (if_pos hstanding), fun hstanding => reset ?_, fun hflag => notReady ?_,
    fun hflag => notReady ?_, ?passage⟩
  · rw [State.setStanding_eq hs, hstanding]
    rfl
  · rw [hcounted, State.setStanding, if_pos hflag.symm]
  · rw [State.setStanding_eq hs, State.overflowed_withOcc, ← hcounted, if_neg hflag, if_neg hflag]
    show _ = { counted with
      occ := { counted.occ with ramps := counted.occ.ramps.put i { r with standing := b.getLsbD 0 } }
      handed := [.standingChange r.defn.zone i (b.getLsbD 0)] }
    rw [hocc]
  case passage =>
    intro moved common
    have ready {dir : PassageDir} {new : Ramp} {escort : List Instr} (hdir : passageDirOf (b.toNat / 4 % 4) = dir)
        (hnew : ({ r with standing := b.getLsbD 0 } : Ramp).pass s.now dir = new)
        (hescort : passageHandOn i r.defn dir = common ++ escort) :
        exec (.rampReading n true [b]) s
          = .next (settle { put counted new with handed := moved ++ common ++ escort }) := by
      have heff := effRampReading_ready hi hr b hs
      rw [hdir, hnew, hescort, ← hcounted, ← hocc, ← List.append_assoc] at heff
      rw [exec_of_calm hs]
      exact congrArg (fun t => Host.Outcome.next (settle t)) heff
    refine ⟨fun hd => ready (by rw [hd, passageDirOf]) rfl rfl, fun hd => ready (by rw [hd, passageDirOf]) rfl rfl,
      fun hd => ?_⟩
    have unknown := ready (escort := []) (passageDirOf_of_two_le hd) rfl rfl
    rwa [List.append_nil] at unknown

/-! ### RAMP-DEF (R93) -/

section
variable {r : RampDefReq} {s : State} {n : NodeId} {x : Node} {p : Ramp}

theorem ownRampDef_of_noRamp (hi : 32 ≤ r.ramp) : ownRampDef r s = .error .outOfRange :=
  refuseIf_of_true (decide_eq_true hi)

/-- A ramp within the range goes on to the remove flag. -/
theorem refuseIf_ramps {rest : Owned} (hi : r.ramp < 32) :
    refuseIf (decide (Config.ramps ≤ r.ramp)) .outOfRange rest = rest :=
  refuseIf_of_false (decide_eq_false (Nat.not_le.mpr hi))

theorem ownRampDef_remove_of_none (hi : r.ramp < 32) (hf : r.remove = true) (hp : s.occ.ramps.get r.ramp = none) :
    ownRampDef r s = .error .notDefined := by
  unfold ownRampDef
  rw [refuseIf_ramps hi, if_pos hf, hp]

/-- An event is handed on where a flag is set. -/
theorem State.hand_of_flag {s : State} (hs : s.handed = []) (flag : Bool) (e : Instr) :
    (if flag then s.hand e else s) = { s with handed := if flag then [e] else [] } := by
  cases flag with
  | false => exact (congrArg (fun h => { s with handed := h }) hs)
  | true => exact (congrArg (fun h => { s with handed := h ++ [e] }) hs)

/-- The removal of a ramp deletes its record and hands the end of its standing on. -/
theorem ownRampDef_remove_of_some (hi : r.ramp < 32) (hf : r.remove = true) (hp : s.occ.ramps.get r.ramp = some p)
    (hs : s.handed = []) :
    ownRampDef r s
      = accept false
          { s with
            occ := { s.occ with ramps := s.occ.ramps.del r.ramp }
            handed := if p.standing then [.standingChange p.defn.zone r.ramp false] else [] } := by
  unfold ownRampDef
  rw [refuseIf_ramps hi, if_pos hf, hp]
  dsimp only
  rw [State.hand_of_flag (by exact hs)]

theorem signIdOk_eq_false_iff (n : Nat) : signIdOk n = false ↔ n ≠ 255 ∧ 64 ≤ n := by
  simp only [signIdOk, Bool.or_eq_false_iff, beq_eq_false_iff_ne, decide_eq_false_iff_not]
  exact and_congr Iff.rfl Nat.not_lt

/-- Whether a field of the request other than its node lies outside its range. -/
def RampDefReq.badField (r : RampDefReq) : Bool :=
  Config.zones ≤ r.zone || Config.levels ≤ r.upper || Config.levels ≤ r.lower || r.lower < r.upper
    || !signIdOk r.lowerSign || !signIdOk r.upperSign

theorem RampDefReq.badField_iff :
    r.badField = true ↔
      24 ≤ r.zone ∨ 8 ≤ r.upper ∨ 8 ≤ r.lower ∨ r.lower < r.upper ∨ (r.lowerSign ≠ 255 ∧ 64 ≤ r.lowerSign)
        ∨ (r.upperSign ≠ 255 ∧ 64 ≤ r.upperSign) := by
  simp only [RampDefReq.badField, Bool.or_eq_true, decide_eq_true_eq, Bool.not_eq_true', signIdOk_eq_false_iff,
    or_assoc]
  exact Iff.rfl

/-- The fields are checked before what they name. -/
theorem ownRampDef_of_badField (hi : r.ramp < 32) (hf : r.remove = false)
    (hbad : nodeOf r.loop r.addr = none ∨ r.badField = true) : ownRampDef r s = .error .outOfRange := by
  unfold ownRampDef
  rw [refuseIf_ramps hi, if_neg (by simp [hf])]
  cases hn : nodeOf r.loop r.addr with
  | none => rfl
  | some n => exact refuseIf_of_true (hbad.resolve_left (by simp [hn]))

/-- The request defines a ramp with its fields in range. -/
structure RampDefReq.Places (r : RampDefReq) (n : NodeId) : Prop where
  ramp : r.ramp < 32
  define : r.remove = false
  node : nodeOf r.loop r.addr = some n
  fields : r.badField = false

/-- With its fields in range RAMP-DEF goes on to what they name. -/
theorem ownRampDef_undefined (hp : r.Places n) (hu : s.zone r.zone = none ∨ s.node n = none) :
    ownRampDef r s = .error .notDefined := by
  unfold ownRampDef
  rw [refuseIf_ramps hp.ramp, if_neg (by simp [hp.define]), hp.node]
  refine (refuseIf_of_false hp.fields).trans ?_
  cases hx : s.node n with
  | none => rfl
  | some x =>
    have hzone : s.zoneDefined r.zone = false := State.zoneDefined_of_none (hu.resolve_right (by simp [hx]))
    exact refuseIf_of_true (by rw [hzone]; rfl)

/-- The request names a defined zone and a node with an entry. -/
structure RampDefReq.Named (r : RampDefReq) (s : State) (n : NodeId) (x : Node) : Prop extends r.Places n where
  zoneDefined : s.zoneDefined r.zone = true
  entry : s.node n = some x

/-- Whether the node is no ramp detector, or another ramp than the request's names it. -/
def RampDefReq.conflicts (r : RampDefReq) (s : State) (n : NodeId) (x : Node) : Bool :=
  x.defn.role != .ramp || s.occ.ramps.anyOther r.ramp fun p => p.defn.node == n

theorem RampDefReq.conflicts_iff :
    r.conflicts s n x = true ↔ x.defn.role ≠ .ramp ∨ ∃ o ∈ s.occ.ramps, o.1 ≠ r.ramp ∧ o.2.defn.node = n := by
  simp [RampDefReq.conflicts, Table.anyOther]

theorem ownRampDef_conflict (hp : r.Named s n x) (hc : r.conflicts s n x = true) :
    ownRampDef r s = .error .conflict := by
  unfold ownRampDef
  rw [refuseIf_ramps hp.ramp, if_neg (by simp [hp.define]), hp.node]
  refine (refuseIf_of_false hp.fields).trans ?_
  rw [hp.entry]
  dsimp only
  rw [refuseIf_of_false (by simp [hp.zoneDefined])]
  exact refuseIf_of_true hc

/-- The definition part that RAMP-DEF gives. -/
def RampDefReq.defn (r : RampDefReq) (n : NodeId) : RampDefn :=
  { node := n, zone := r.zone, upper := r.upper, lower := r.lower
    lowerSign := optionalId r.lowerSign, upperSign := optionalId r.upperSign }

/-- What RAMP-DEF does when every check has passed: a ramp that changes its node loses its standing flag, and one that
changes its zone alone takes the flag with it. -/
theorem ownRampDef_of_free (hp : r.Named s n x) (hfree : r.conflicts s n x = false) (hs : s.handed = []) :
    (s.occ.ramps.get r.ramp = none →
      ownRampDef r s
        = accept false
            (s.putRamp r.ramp { defn := r.defn n, standing := false, upTally := 0, downTally := 0, last := none }))
    ∧ ∀ p, s.occ.ramps.get r.ramp = some p →
      (p.defn.node ≠ n →
        ownRampDef r s
          = accept false
              { s.putRamp r.ramp { p with defn := r.defn n, standing := false } with
                handed := if p.standing then [.standingChange p.defn.zone r.ramp false] else [] })
      ∧ (p.defn.node = n →
        ownRampDef r s
          = accept false
              { s.putRamp r.ramp { p with defn := r.defn n } with
                handed :=
                  if p.defn.zone ≠ r.zone ∧ p.standing = true then
                    [.standingChange p.defn.zone r.ramp false, .standingChange r.zone r.ramp true]
                  else [] }) := by
  have fields := hp.fields
  unfold RampDefReq.badField at fields
  unfold RampDefReq.conflicts at hfree
  unfold ownRampDef
  rw [refuseIf_ramps hp.ramp, if_neg (by simp [hp.define]), hp.node]
  dsimp only
  rw [refuseIf_of_false fields, hp.entry]
  dsimp only
  rw [refuseIf_of_false (by simp [hp.zoneDefined]), refuseIf_of_false hfree]
  refine ⟨fun hg => ?_, fun p hg => ⟨fun hnode => ?_, fun hnode => ?_⟩⟩
  · rw [hg]
    rfl
  · rw [hg]
    refine (if_pos hnode).trans (congrArg (accept false) ?_)
    exact State.hand_of_flag (by exact hs) _ _
  · rw [hg]
    refine (if_neg (not_not_intro hnode)).trans ?_
    by_cases hzone : p.defn.zone ≠ r.zone ∧ p.standing = true
    · rw [if_pos hzone, if_pos hzone]
      simp [State.handAll, State.putRamp, hs, RampDefReq.defn]
    · rw [if_neg hzone, if_neg hzone, ← hs]
      rfl

end

/-- Settles O31: each check of R93 in its order, then the case of the ramp in the table. -/
theorem rampDefFollowsItsRules : Obligations.RampDefFollowsItsRules := by
  intro s tag i f l a z u w ls us hs fp c sign put
  let r : RampDefReq :=
    ⟨i.toNat, f.getLsbD 0, l.toNat, a.toNat, z.toNat, u.toNat, w.toNat, ls.toNat, us.toNat⟩
  have refused {e : RefusalCode} (ho : ownRampDef r fp = .error e) : exec c s = .next (fp.turnedAway tag e) :=
    exec_turnedAway (owner := ownRampDef) (x := r) rfl hs rfl rfl ho
  have done {t t' : State} (ho : ownRampDef r fp = accept false t) (ht : t = t') :
      exec c s = .next (t'.done tag false) :=
    ht ▸ exec_done (owner := ownRampDef) (x := r) rfl hs rfl rfl ho
  have hocc : fp.occ = s.occ := s.framePassed_occ
  have hhanded : fp.handed = [] := s.framePassed_handed.trans hs.handed
  have hget {o : Option Ramp} (ho : s.occ.ramps.get i.toNat = o) : fp.occ.ramps.get i.toNat = o := by rw [hocc, ho]
  have hput (p : Ramp) : fp.putRamp i.toNat p = put p := by
    show { fp with occ := { fp.occ with ramps := fp.occ.ramps.put i.toNat p } } = _
    rw [hocc]
  have hones (b : Byte) : b.toNat = 255 ↔ b = 0xFF := toNat_eq_ones_iff b
  have badField : r.badField = true ↔ _ := RampDefReq.badField_iff
  refine ⟨fun hi => refused (ownRampDef_of_noRamp hi), fun hi hf => ⟨fun hp => ?_, fun p hp => ?_⟩,
    fun hi hf => ⟨fun hbad => ?_, fun n hz hn huw hw hls hus => ?_⟩⟩
  · exact refused (ownRampDef_remove_of_none hi hf (hget hp))
  · exact done (ownRampDef_remove_of_some hi hf (hget hp) hhanded) (by rw [hocc])
  · refine refused (ownRampDef_of_badField hi hf ?_)
    rw [badField]
    simp only [r, ne_eq, hones]
    exact or_left_comm.mp hbad
  · have fields : r.badField = false := by
      rw [Bool.eq_false_iff, ne_eq, badField]
      rw [← hones] at hls hus
      simp only [r]
      omega
    have placed : r.Places n := ⟨hi, hf, hn, fields⟩
    refine ⟨fun hu => refused (ownRampDef_undefined placed ?_), fun zr x hzr hx => ?_⟩
    · rwa [State.framePassed_zone, State.framePassed_node]
    have named : r.Named fp n x :=
      ⟨placed, State.zoneDefined_of_some ((s.framePassed_zone _).trans hzr), (s.framePassed_node n).trans hx⟩
    have conflicts_iff := RampDefReq.conflicts_iff (r := r) (s := fp) (n := n) (x := x)
    rw [hocc] at conflicts_iff
    refine ⟨fun hc => refused (ownRampDef_conflict named (conflicts_iff.mpr hc)), fun hrole hone => ?_⟩
    have free : r.conflicts fp n x = false := by
      refine Bool.eq_false_iff.mpr fun hc => ?_
      obtain ⟨o, ho, hother, hnode⟩ := (conflicts_iff.mp hc).resolve_left (not_not_intro hrole)
      exact hother (hone o ho hnode)
    intro d
    obtain ⟨create, change⟩ := ownRampDef_of_free named free hhanded
    have hdefn : r.defn n = d := by
      unfold RampDefReq.defn
      rw [optionalId_toNat, optionalId_toNat]
    rw [hdefn] at create change
    refine ⟨fun hp => done (create (hget hp)) (hput _), fun p hp => ?_⟩
    obtain ⟨moved, kept⟩ := change p (hget hp)
    exact ⟨fun hnode => done (moved hnode) (by rw [hput]), fun hnode => done (kept hnode) (by rw [hput])⟩

end Sys2Proof.Machine
end

