-- ==== Sys2Proof/Proofs/CountQueries.lean ====
section
/-! SUPPORT. BAY-QUERY and the four forms of COUNT-QUERY (R87, R88). -/

namespace Sys2Proof.Machine

/-! ### Counts summed over zones (R88) -/

/-- Summing counts over zones sums every figure that adds up, such as each state's. -/
theorem State.sumCounts_get (s : State) (zones : List Nat) (c : BayClass) {k : Counts → Nat}
    (hplus : ∀ a b : Counts, k (a.plus b) = k a + k b) (hzero : k .zero = 0) :
    k ((s.sumCounts zones).get c) = (zones.map fun z => k ((s.counts z).get c)).sum := by
  have fold (p : PerClass Counts) : k ((zones.foldl
      (fun p z =>
        let q := s.counts z
        ⟨p.standard.plus q.standard, p.wide.plus q.wide, p.charging.plus q.charging, p.accessible.plus q.accessible⟩)
      p).get c) = k (p.get c) + (zones.map fun z => k ((s.counts z).get c)).sum := by
    induction zones generalizing p with
    | nil => rfl
    | cons z zones ih =>
      have step : k (PerClass.get
          ⟨p.standard.plus (s.counts z).standard, p.wide.plus (s.counts z).wide,
            p.charging.plus (s.counts z).charging, p.accessible.plus (s.counts z).accessible⟩ c)
          = k (p.get c) + k ((s.counts z).get c) := by
        cases c <;> exact hplus _ _
      rw [List.foldl_cons, ih, step, List.map_cons, List.sum_cons, Nat.add_assoc]
  have hnone : k (noCounts.get c) = 0 := by cases c <;> exact hzero
  rw [State.sumCounts, fold, hnone, Nat.zero_add]

/-! ### What each query answers -/

section
variable {s : State} {i n : Nat}

theorem ownBayQuery_outOfRange (h : 2048 ≤ i ∨ n = 0 ∨ 16 < n) : ownBayQuery (i, n) s = .error .outOfRange := by
  refine refuseIf_of_true ?_
  simp only [Bool.or_eq_true, decide_eq_true_eq, beq_iff_eq, or_assoc]
  exact h

theorem ownBayQuery_inRange (hi : i < 2048) (hn : 1 ≤ n) (hn' : n ≤ 16) :
    ownBayQuery (i, n) s
      = .ok (s, .data ((List.range (min n (2048 - i))).flatMap fun k => bayBytes s.now (s.occ.bays.get (i + k)))) := by
  refine refuseIf_of_false ?_
  simp only [Bool.or_eq_false_iff, decide_eq_false_iff_not, beq_eq_false_iff_ne]
  exact ⟨⟨Nat.not_le.mpr hi, Nat.one_le_iff_ne_zero.mp hn⟩, Nat.not_lt.mpr hn'⟩

theorem ownCountQuery_zone_outOfRange (hi : 24 ≤ i) : ownCountQuery (0, i) s = .error .outOfRange :=
  refuseIf_zones_out hi

theorem ownCountQuery_zone_undefined (hi : i < 24) (hz : s.zone i = none) :
    ownCountQuery (0, i) s = .error .notDefined := by
  refine (refuseIf_zones_in hi).trans ?_
  rw [hz]

theorem ownCountQuery_zone {z : Zone} (hi : i < 24) (hz : s.zone i = some z) :
    ownCountQuery (0, i) s = .ok (s, .data (countData (s.counts i) ++ u8 z.closureCode)) := by
  refine (refuseIf_zones_in hi).trans ?_
  rw [hz]

theorem ownCountQuery_level_outOfRange (hi : 8 ≤ i) : ownCountQuery (1, i) s = .error .outOfRange :=
  refuseIf_of_true (decide_eq_true hi)

theorem ownCountQuery_level (hi : i < 8) :
    let zones := (s.air.zones.filter fun e => e.2.defn.level = i).map Prod.fst
    ownCountQuery (1, i) s = .ok (s, .data (countData (s.sumCounts zones) ++ counted zones)) := by
  refine (refuseIf_of_false (decide_eq_false (Nat.not_le.mpr hi))).trans ?_
  rfl

theorem ownCountQuery_ramp_outOfRange (hi : 32 ≤ i) : ownCountQuery (3, i) s = .error .outOfRange :=
  refuseIf_of_true (decide_eq_true hi)

theorem ownCountQuery_ramp_undefined (hi : i < 32) (hr : s.occ.ramps.get i = none) :
    ownCountQuery (3, i) s = .error .notDefined := by
  refine (refuseIf_of_false (decide_eq_false (Nat.not_le.mpr hi))).trans ?_
  rw [hr]

theorem ownCountQuery_ramp {r : Ramp} (hi : i < 32) (hr : s.occ.ramps.get i = some r) :
    ownCountQuery (3, i) s = .ok (s, .data (rampData i r)) := by
  refine (refuseIf_of_false (decide_eq_false (Nat.not_le.mpr hi))).trans ?_
  rw [hr]

theorem ownCountQuery_form_outOfRange (hn : 4 ≤ n) : ownCountQuery (n, i) s = .error .outOfRange := by
  match n, hn with
  | _ + 4, _ => rfl

end

/-- Settles O29: the checks of the two queries, and their records field by field. -/
theorem bayAndCountQueriesTell : Obligations.BayAndCountQueriesTell := by
  intro s tag hs p byte orFF told summed
  have hocc : p.occ = s.occ := s.framePassed_occ
  have hair : p.air = s.air := s.framePassed_air
  have hnow : p.now = s.now := s.framePassed_now
  have hcounts (z : Nat) : p.counts z = s.counts z := by unfold State.counts; rw [hocc]
  have hzone {x : Nat} {o : Option Zone} (ho : s.zone x = o) : p.zone x = o := (s.framePassed_zone x).trans ho
  have hramp {x : Nat} {o : Option Ramp} (ho : s.occ.ramps.get x = o) : p.occ.ramps.get x = o := by rw [hocc, ho]
  have data_eq_told (q : PerClass Counts) : countData q = told fun c k => k (q.get c) := by
    unfold countData countBytes
    rw [← List.append_assoc, ← List.append_assoc, ← List.append_assoc]
    rfl
  have data_eq_summed (zones : List Nat) : countData (p.sumCounts zones) = summed zones := by
    have total (c : BayClass) {k : Counts → Nat} (hplus : ∀ a b : Counts, k (a.plus b) = k a + k b)
        (hzero : k .zero = 0) : k ((p.sumCounts zones).get c) = (zones.map fun z => k ((s.counts z).get c)).sum := by
      rw [State.sumCounts_get p zones c hplus hzero]
      simp only [hcounts]
    have free (c : BayClass) := total c (k := Counts.free) (fun _ _ => rfl) rfl
    have occupied (c : BayClass) := total c (k := Counts.occupied) (fun _ _ => rfl) rfl
    have unknown (c : BayClass) := total c (k := Counts.unknown) (fun _ _ => rfl) rfl
    have outOfService (c : BayClass) := total c (k := Counts.outOfService) (fun _ _ => rfl) rfl
    rw [data_eq_told]
    simp only [told, summed, free, occupied, unknown, outOfService]
  refine ⟨fun f1 f0 n => ⟨fun hbad => ?badBays, fun hi hn hn' => ?bays⟩, fun x => ?counts⟩
  case badBays =>
    rw [← toNat_eq_zero_iff] at hbad
    exact exec_turnedAway (owner := ownBayQuery) (x := (nat16 f1 f0, n.toNat)) rfl hs rfl rfl
      (ownBayQuery_outOfRange hbad)
  case bays =>
    refine exec_told (owner := ownBayQuery) (x := (nat16 f1 f0, n.toNat)) rfl hs rfl rfl
      ((ownBayQuery_inRange hi hn hn').trans ?_)
    rw [hocc, hnow]
    refine congrArg (fun entry => Except.ok (p, Answer.data (List.flatMap entry _))) (funext fun k => ?_)
    cases s.occ.bays.get (nat16 f1 f0 + k) <;> rfl
  case counts =>
    have refused {form : Byte} {e : RefusalCode} (ho : ownCountQuery (form.toNat, x.toNat) p = .error e) :
        exec (.countQuery tag [form, x]) s = .next (p.turnedAway tag e) :=
      exec_turnedAway (owner := ownCountQuery) (x := (form.toNat, x.toNat)) rfl hs rfl rfl ho
    have answered {form : Byte} {d d' : List Byte} (ho : ownCountQuery (form.toNat, x.toNat) p = .ok (p, .data d))
        (hd : d = d') : exec (.countQuery tag [form, x]) s = .next (p.told tag d') :=
      hd ▸ exec_told (owner := ownCountQuery) (x := (form.toNat, x.toNat)) rfl hs rfl rfl ho
    refine ⟨fun hx => refused (ownCountQuery_zone_outOfRange hx),
      fun hx hz => refused (ownCountQuery_zone_undefined hx (hzone hz)),
      fun z hx hz => answered (ownCountQuery_zone hx (hzone hz)) ?zone,
      fun hx => refused (ownCountQuery_level_outOfRange hx), fun hx => answered (ownCountQuery_level hx) ?level,
      answered rfl ?site, fun hx => refused (ownCountQuery_ramp_outOfRange hx),
      fun hx hr => refused (ownCountQuery_ramp_undefined hx (hramp hr)),
      fun r hx hr => answered (ownCountQuery_ramp hx (hramp hr)) ?ramp,
      fun form hform => refused (ownCountQuery_form_outOfRange hform)⟩
    case zone =>
      rw [data_eq_told, hcounts]
      rfl
    case level =>
      rw [data_eq_summed, hair, counted, flatMap_u8]
      rfl
    case site =>
      rw [data_eq_summed, hair]
      rfl
    case ramp =>
      have hnumber : u8 x.toNat = [x] := by rw [u8, BitVec.ofNat_toNat, BitVec.setWidth_eq]
      have hsign (o : Option Nat) : idByte o = [orFF o] := by cases o <;> rfl
      have hlast : orOnes 5 (r.last.map passageBytes)
          = match r.last with
            | some (.up, t) => 0 :: u32 t
            | some (.down, t) => 1 :: u32 t
            | some (.unknown, t) => 2 :: u32 t
            | none => [0xFF, 0xFF, 0xFF, 0xFF, 0xFF] := by
        cases r.last with
        | none => rfl
        | some passage =>
          obtain ⟨dir, t⟩ := passage
          cases dir <;> rfl
      rw [rampData, hnumber, hsign, hsign, hlast]
      rfl

end Sys2Proof.Machine
end

