-- ==== Sys2Proof/Proofs/SignDisplay.lean ====
section
/-! SUPPORT. What a guidance view gives a sign: its offered figure, its text and its chosen direction (R98, R99). -/

namespace Sys2Proof.Machine

/-! ### The offered figure (R98) -/

theorem sum_map_filter_eq_sum_ite {α : Type} (p : α → Bool) (f : α → Nat) (l : List α) :
    ((l.filter p).map f).sum = (l.map fun x => if p x then f x else 0).sum := by
  induction l with
  | nil => rfl
  | cons a l ih => cases h : p a <;> simp [h, ih]

/-- Each class of bay is counted when the filter holds it. -/
theorem filteredFree_eq (f : PerClass Bool) (free : PerClass Nat) :
    filteredFree f free
      = (if f.standard then free.standard else 0) + (if f.wide then free.wide else 0)
        + (if f.charging then free.charging else 0) + (if f.accessible then free.accessible else 0) := by
  rw [filteredFree, sum_map_filter_eq_sum_ite, Nat.add_assoc, Nat.add_assoc]
  rfl

section
variable {v : List GuideZone} {d : SignDefn}

/-! ### The text (R98) -/

theorem allClosed_eq_false_iff : allClosed v d = false ↔ ∃ z ∈ d.sources, (v.getD z .initial).closed = false := by
  simp [allClosed]

theorem signText_eq_closed_iff : signText v d = .closed ↔ allClosed v d = true := by
  unfold signText
  split
  · simp [*]
  · split <;> simp [*]

theorem signText_eq_full_iff : signText v d = .full ↔ allClosed v d = false ∧ offeredFigure v d ≤ d.threshold := by
  unfold signText
  split
  · simp [*]
  · split <;> simp [*]

theorem signText_eq_number_iff {n : Nat} :
    signText v d = .number n ↔ allClosed v d = false ∧ d.threshold < offeredFigure v d ∧ n = offeredFigure v d := by
  unfold signText
  split
  · simp [*]
  · split
    · rename_i hfull
      simp [*, Nat.not_lt.mpr hfull]
    · simp [*, Nat.lt_of_not_le, eq_comm]

/-! ### The direction (R99) -/

/-- The chosen direction is the first that offers a free bay. -/
theorem chosenDirection_eq_some_iff {i : Nat} :
    chosenDirection v d = some i ↔
      ∃ x, d.directions[i]? = some x ∧ 1 ≤ offeredSum v d.filter x.zones
        ∧ ∀ j y, j < i → d.directions[j]? = some y → offeredSum v d.filter y.zones = 0 := by
  rw [chosenDirection, List.findIdx?_eq_some_iff_getElem]
  constructor
  · rintro ⟨hi, hfree, hbefore⟩
    refine ⟨d.directions[i], List.getElem?_eq_getElem hi, of_decide_eq_true hfree, fun j y hj hy => ?_⟩
    obtain ⟨hlt, rfl⟩ := List.getElem?_eq_some_iff.mp hy
    simpa using hbefore j hj
  · rintro ⟨x, hx, hfree, hbefore⟩
    obtain ⟨hi, rfl⟩ := List.getElem?_eq_some_iff.mp hx
    refine ⟨hi, decide_eq_true hfree, fun j hj => ?_⟩
    simp [hbefore j _ hj (List.getElem?_eq_getElem (Nat.lt_trans hj hi))]

theorem chosenArrow_of_some {i : Nat} {x : RouteDirection} (hx : d.directions[i]? = some x) :
    chosenArrow d (some i) = x.arrow := by
  rw [chosenArrow, Option.bind_some, hx]

end

/-! ### The last change time (R96) -/

/-- A recomputed record that keeps its figure, its text and its direction keeps its last change time. -/
theorem Display.update_eq (old new : Display) :
    old.update new
      = if new.offered = old.offered ∧ new.text = old.text ∧ new.chosen = old.chosen then
          { new with lastChange := old.lastChange }
        else new := by
  have hsame : old.same new = true ↔ new.offered = old.offered ∧ new.text = old.text ∧ new.chosen = old.chosen := by
    simp only [Display.same, Bool.and_eq_true, beq_iff_eq, and_assoc]
    exact and_congr eq_comm (and_congr eq_comm eq_comm)
  exact ite_congr (propext hsame) (fun _ => rfl) fun _ => rfl

/-- Settles O32: the sums over the open zones, and the iff of each text and of the chosen direction. -/
theorem signDisplayFollowsTheView : Obligations.SignDisplayFollowsTheView := by
  intro v d now entry free offer r anyOpen
  have hoffer (zs : List Nat) : offeredSum v d.filter zs = offer zs :=
    congrArg List.sum (List.map_congr_left fun z _ => by simp only [openFree, filteredFree_eq]; rfl)
  have hopen : allClosed v d = false ↔ anyOpen := allClosed_eq_false_iff
  refine ⟨congrArg (min 9999) (hoffer _), ?closed, ?full, fun n => ?number, fun i => ?chosen, fun i x hi hx => ?arrow,
    fun hnone => ?noArrow⟩
  case closed => rw [← hopen, Bool.not_eq_false]; exact signText_eq_closed_iff
  case full => rw [← hopen]; exact signText_eq_full_iff
  case number => rw [← hopen]; exact signText_eq_number_iff
  case chosen =>
    simp only [← hoffer]
    exact chosenDirection_eq_some_iff
  case arrow => exact (congrArg (chosenArrow d) hi).trans (chosenArrow_of_some hx)
  case noArrow => exact congrArg (chosenArrow d) hnone

end Sys2Proof.Machine
end

