-- ==== Sys2Proof/Proofs/SignEvents.lean ====
section
/-! SUPPORT. The recomputation of the signs that depend on a change of the view, and the events of a sign's node (R97,
R100, R103, R104). -/

namespace Sys2Proof.Machine

/-! ### A recomputation of several signs (R100, R101) -/

/-- The nodes that a sign's recomputation posts: its node, when the shown content differs (R101). -/
def Sign.posts (v : List GuideZone) (now : Nat) (g : Sign) : List NodeId :=
  if g.content = (g.refreshed v now).content then [] else [g.defn.node]

theorem Sign.flatMap_posts (v : List GuideZone) (now : Nat) (l : List (Nat × Sign)) :
    l.flatMap (fun e => e.2.posts v now)
      = List.map (fun e : Nat × Sign => e.2.defn.node)
          (l.filter fun e => (e.2.refreshed v now).content ≠ e.2.content) := by
  induction l with
  | nil => rfl
  | cons e l ih =>
    rw [List.flatMap_cons, ih, Sign.posts]
    by_cases hsame : (e.2.refreshed v now).content = e.2.content
    · rw [if_pos hsame.symm, List.filter_cons_of_neg (by simpa using hsame), List.nil_append]
    · rw [if_neg (Ne.symm hsame), List.filter_cons_of_pos (by simpa using hsame)]
      rfl

theorem State.postAll_now (s : State) (ns : List NodeId) : (s.postAll ns).now = s.now :=
  congrArg (fun ms => ms / 1000) (State.postAll_clockMs s ns)

theorem State.postAll_append (s : State) (ns ms : List NodeId) : (s.postAll ns).postAll ms = s.postAll (ns ++ ms) :=
  List.foldl_append.symm

/-- Recomputing signs posts, in their order, the nodes of those whose shown content changes. -/
theorem State.recompute_posts (v : List GuideZone) (l : List (Nat × Sign)) (s : State) (signs : Table Sign)
    (once : (l.map Prod.fst).Nodup) (told : ∀ e ∈ l, signs.get e.1 = some e.2) :
    ∃ g, (l.map Prod.fst).foldl (fun s i => s.recomputeSign i) { s with guide := ⟨signs, v⟩ }
      = { s.postAll (l.flatMap fun e => e.2.posts v s.now) with guide := g } := by
  induction l generalizing s signs with
  | nil => exact ⟨_, rfl⟩
  | cons e l ih =>
    rw [List.map_cons, List.nodup_cons] at once
    obtain ⟨hnew, hrest⟩ := once
    have hstep : State.recomputeSign e.1 { s with guide := ⟨signs, v⟩ }
        = { s.postAll (e.2.posts v s.now) with guide := ⟨signs.put e.1 (e.2.refreshed v s.now), v⟩ } := by
      rw [State.recomputeSign_eq (s := { s with guide := ⟨signs, v⟩ }) (told e List.mem_cons_self),
        State.postAll_withGuide]
      rfl
    have htold : ∀ x ∈ l, (signs.put e.1 (e.2.refreshed v s.now)).get x.1 = some x.2 := fun x hx => by
      have hne : x.1 ≠ e.1 := fun q => hnew (q ▸ List.mem_map_of_mem hx)
      rw [Table.get_put_other _ _ hne]
      exact told x (List.mem_cons_of_mem e hx)
    obtain ⟨g, hg⟩ := ih (s.postAll (e.2.posts v s.now)) _ hrest htold
    refine ⟨g, ?_⟩
    rw [List.map_cons, List.foldl_cons, hstep, hg, State.postAll_now, State.postAll_append, List.flatMap_cons]

/-- A change of the view recomputes the signs that meet a test, and posts those of them whose shown content changes. -/
theorem State.recomputeSigns_eq {s : State} (w : Table.wf s.guide.signs = true) (v : List GuideZone)
    (p : SignDefn → Bool) :
    ∃ g, State.recomputeSigns p { s with guide := { s.guide with view := v } }
        = { s.postAll (List.map (fun e : Nat × Sign => e.2.defn.node)
              (s.guide.signs.filter fun e => p e.2.defn = true ∧ (e.2.refreshed v s.now).content ≠ e.2.content)) with
            guide := g }
      ∧ g.view = v
      ∧ ∀ j, g.signs.get j
          = (s.guide.signs.get j).map fun x => if p x.defn = true then x.refreshed v s.now else x := by
  let l := s.guide.signs.select fun g => p g.defn
  have once : (l.map Prod.fst).Nodup := (Table.keys_nodup w).sublist (List.filter_sublist.map _)
  have told : ∀ e ∈ l, s.guide.signs.get e.1 = some e.2 := fun e he => Table.get_of_mem w (List.mem_filter.mp he).1
  have named {j : Nat} {x : Sign} (hx : s.guide.signs.get j = some x) : j ∈ l.map Prod.fst ↔ p x.defn = true := by
    rw [List.mem_map]
    constructor
    · rintro ⟨e, he, rfl⟩
      have heq : e.2 = x := Option.some.inj ((told e he).symm.trans hx)
      exact heq ▸ (List.mem_filter.mp he).2
    · exact fun hp => ⟨(j, x), List.mem_filter.mpr ⟨Table.mem_of_get hx, hp⟩, rfl⟩
  obtain ⟨g, hposts⟩ := State.recompute_posts v l s s.guide.signs once told
  obtain ⟨ns, g', hall, hview, -, hget⟩ :=
    State.recompute_all (l.map Prod.fst) { s with guide := { s.guide with view := v } } once
  obtain rfl : g = g' := congrArg State.guide (hposts.symm.trans hall)
  refine ⟨g, ?_, hview, fun j => ?_⟩
  · rw [Sign.flatMap_posts] at hposts
    refine hposts.trans ?_
    simp only [l, Table.select, List.filter_filter, Bool.decide_and, Bool.decide_eq_true, Bool.and_comm]
  · rw [hget]
    refine Option.map_congr fun x hx => ?_
    exact ite_congr (propext (named hx)) (fun _ => rfl) fun _ => rfl

theorem SignDefn.names_iff (d : SignDefn) (z : Nat) :
    d.names z = true ↔ z ∈ d.sources ∨ ∃ r ∈ d.directions, z ∈ r.zones := by
  simp [SignDefn.names]

/-- Settles O33: the view takes the delivery, and the signs that depend on it are recomputed. -/
theorem signEventsRecomputeTheSigns : Obligations.SignEventsRecomputeTheSigns := by
  intro s z hs w _ _ zone named fresh taken
  have hfresh (v : List GuideZone) (g : Sign) : fresh v g = g.refreshed v s.now := by
    rw [Sign.refreshed, Display.update_eq]
  have taken_of_recomputed (v : List GuideZone) (p : SignDefn → Bool) (touched : Sign → Prop)
      [DecidablePred touched] (htouched : ∀ g, p g.defn = true ↔ touched g) :
      (State.recomputeSigns p { s with guide := { s.guide with view := v } }).guide.view = v
        ∧ taken (State.recomputeSigns p { s with guide := { s.guide with view := v } }) touched := by
    obtain ⟨g, heq, hview, hget⟩ := State.recomputeSigns_eq w v p
    rw [heq]
    refine ⟨hview, fun j => ?_, ?_⟩
    · simpa only [hfresh, hview, htouched] using hget j
    · simp only [hfresh, hview, htouched]
  refine ⟨fun c m => ⟨_, exec_of_calm hs, taken_of_recomputed _ _ _ fun g => ?_⟩,
    fun closed => ⟨_, exec_of_calm hs, taken_of_recomputed _ _ _ fun g => ?_⟩⟩
  · rw [Bool.and_eq_true, SignDefn.names_iff]
  · exact g.defn.names_iff z

/-! ### The events of a sign's node (R103, R104) -/

section
variable {s : State} {n : NodeId} {i : Nat} {g : Sign}

theorem State.signOf_of_unnamed (h : ∀ e ∈ s.guide.signs, e.2.defn.node ≠ n) : s.signOf n = none := by
  rw [State.signOf, Table.find, Option.map_eq_none_iff, List.find?_eq_none]
  simpa using h

/-- A node that one sign names is that sign's. -/
theorem State.signOf_of_only (hg : s.guide.signs.get i = some g) (hn : g.defn.node = n)
    (only : ∀ e ∈ s.guide.signs, e.2.defn.node = n → e.1 = i) : s.signOf n = some i := by
  cases hfind : List.find? (fun e : Nat × Sign => e.2.defn.node == n) s.guide.signs with
  | none => exact absurd hn (by simpa using List.find?_eq_none.mp hfind (i, g) (Table.mem_of_get hg))
  | some e =>
    have hnode : e.2.defn.node = n := by simpa using List.find?_some hfind
    rw [State.signOf, Table.find, hfind, Option.map_some, only e (List.mem_of_find?_eq_some hfind) hnode]

theorem effSignReport_of_unnamed (hi : s.signOf n = none) (payload : List Byte) :
    effSignReport n true payload s = s := by
  unfold effSignReport
  rw [if_pos rfl, hi]
  split
  · contradiction
  · rfl

/-- A READY reply of a sign stores the condition and the echo, and posts the node when the echo differs from the content
of the present record and the sign is not DARK (R103). -/
theorem effSignReport_of_sign (hi : s.signOf n = some i) (hg : s.guide.signs.get i = some g) (c t1 t0 a : Byte) :
    let cond := signConditionOf c.toNat
    let shown : SignContent := ⟨nat16 t1 t0, a.toNat⟩
    let t := s.putSign i { g with condition := cond, echo := some shown }
    let u := if g.condition = cond then t else t.setReport n (.sign cond)
    effSignReport n true [c, t1, t0, a] s = if cond ≠ .dark ∧ shown ≠ g.content then u.post n else u := by
  unfold effSignReport
  rw [if_pos rfl, hi]
  dsimp only [parseSign]
  rw [hg]

theorem State.forgetSign_of_unnamed (hi : s.signOf n = none) : s.forgetSign n = s := by
  unfold State.forgetSign
  rw [hi]

theorem State.forgetSign_of_sign (hi : s.signOf n = some i) (hg : s.guide.signs.get i = some g) :
    s.forgetSign n = s.putSign i { g with condition := .unknown, echo := none } := by
  unfold State.forgetSign
  rw [hi]
  dsimp only
  rw [hg]

end

theorem signConditionOf_eq (c : Nat) :
    signConditionOf c = if c = 0 then .ok else if c = 1 then .partFailed else .dark := by
  match c with
  | 0 => rfl
  | 1 => rfl
  | _ + 2 => rfl

theorem signConditionOf_eq_dark_iff (c : Nat) : signConditionOf c = .dark ↔ 2 ≤ c := by
  match c with
  | 0 => decide
  | 1 => decide
  | _ + 2 => exact iff_of_true rfl (Nat.le_add_left 2 _)

/-- Settles O34: the sign that names the node takes the reply, or forgets what it showed; no other node has a sign. -/
theorem signReportsAndNodeEventsAreTaken : Obligations.SignReportsAndNodeEventsAreTaken := by
  intro s n c t1 t0 a hs
  have taken {e : Instr} {t : State} (he : effect e s = t) : exec e s = .next (settle t) := by
    rw [exec_of_calm hs, he]
  refine ⟨taken rfl, fun hnone => ?unnamed, fun i g hg hn only => ?named⟩
  case unnamed =>
    have hi : s.signOf n = none := State.signOf_of_unnamed hnone
    exact ⟨taken (effSignReport_of_unnamed hi _), taken (State.forgetSign_of_unnamed hi),
      taken (State.forgetSign_of_unnamed hi)⟩
  case named =>
    intro put cond shown t u
    have hi : s.signOf n = some i := State.signOf_of_only hg hn only
    have forgotten : s.forgetSign n = put { g with condition := .unknown, echo := none } :=
      State.forgetSign_of_sign hi hg
    refine ⟨taken ((effSignReport_of_sign hi hg c t1 t0 a).trans ?_), taken forgotten, taken forgotten⟩
    have hpost : (signConditionOf c.toNat ≠ .dark ∧ shown ≠ g.content) ↔ ¬ (2 ≤ c.toNat ∨ shown = g.content) := by
      rw [ne_eq, signConditionOf_eq_dark_iff, not_or]
    refine (ite_congr (propext hpost) (fun _ => rfl) fun _ => rfl).trans ((ite_not ..).trans ?_)
    rw [signConditionOf_eq]
    rfl

end Sys2Proof.Machine
end

