-- ==== Sys2Proof/Proofs/SignRequests.lean ====
section
/-! SUPPORT. SIGN-DEF and SIGN-QUERY (R105 to R107). -/

namespace Sys2Proof.Machine

/-! ### The body of SIGN-DEF (11.2) -/

/-- A counted list is read back, and what follows it is left. -/
theorem takeCounted_counted {l : List Byte} (hl : l.length < 256) (rest : List Byte) :
    takeCounted (BitVec.ofNat 8 l.length :: (l ++ rest)) = some (l.map BitVec.toNat, rest) := by
  have hcount : (BitVec.ofNat 8 l.length).toNat = l.length := Nat.mod_eq_of_lt hl
  rw [takeCounted, takeNats, hcount, if_neg (by simp), List.take_left, List.drop_left]

/-- A direction of SIGN-DEF from its bytes: the arrow, the zones and the lanes. -/
def directionOf (d : Byte × List Byte × List Byte) : DirectionReq :=
  ⟨d.1.toNat, d.2.1.map BitVec.toNat, d.2.2.map BitVec.toNat⟩

/-- The bytes of a direction of SIGN-DEF. -/
def directionBytes (d : Byte × List Byte × List Byte) : List Byte :=
  d.1 :: (BitVec.ofNat 8 d.2.1.length :: d.2.1) ++ (BitVec.ofNat 8 d.2.2.length :: d.2.2)

theorem parseDirections_bytes {ds : List (Byte × List Byte × List Byte)}
    (h : ∀ d ∈ ds, d.2.1.length < 256 ∧ d.2.2.length < 256) :
    parseDirections ds.length (ds.flatMap directionBytes) = some (ds.map directionOf) := by
  induction ds with
  | nil => rfl
  | cons d ds ih =>
    obtain ⟨hzones, hlanes⟩ := h d List.mem_cons_self
    have hbody : (d :: ds).flatMap directionBytes
        = d.1 :: BitVec.ofNat 8 d.2.1.length
          :: (d.2.1 ++ BitVec.ofNat 8 d.2.2.length :: (d.2.2 ++ ds.flatMap directionBytes)) := by
      simp [directionBytes]
    rw [hbody, List.length_cons, parseDirections, takeCounted_counted hzones]
    dsimp only
    rw [takeCounted_counted hlanes]
    dsimp only
    rw [ih fun e he => h e (List.mem_cons_of_mem d he)]
    rfl

/-- The request of SIGN-DEF from its bytes. -/
def signDefReqOf (i f l a k fi th : Byte) (zs : List Byte) (ds : List (Byte × List Byte × List Byte)) : SignDefReq :=
  ⟨i.toNat, removeFlag f, l.toNat, a.toNat, k.toNat, zs.map BitVec.toNat, fi, th.toNat, ds.map directionOf⟩

theorem parseSignDef_bytes {zs : List Byte} {ds : List (Byte × List Byte × List Byte)} (hzs : zs.length < 256)
    (hds : ds.length < 256) (h : ∀ d ∈ ds, d.2.1.length < 256 ∧ d.2.2.length < 256) (i f l a k fi th : Byte) :
    parseSignDef
        ([i, f, l, a, k] ++ (BitVec.ofNat 8 zs.length :: zs) ++ [fi, th, BitVec.ofNat 8 ds.length]
          ++ ds.flatMap directionBytes)
      = some (signDefReqOf i f l a k fi th zs ds) := by
  have hcount : (BitVec.ofNat 8 ds.length).toNat = ds.length := Nat.mod_eq_of_lt hds
  have hbody : [i, f, l, a, k] ++ (BitVec.ofNat 8 zs.length :: zs) ++ [fi, th, BitVec.ofNat 8 ds.length]
        ++ ds.flatMap directionBytes
      = i :: f :: l :: a :: k :: BitVec.ofNat 8 zs.length
        :: (zs ++ fi :: th :: BitVec.ofNat 8 ds.length :: ds.flatMap directionBytes) := by
    simp
  rw [hbody, parseSignDef, takeCounted_counted hzs]
  dsimp only
  rw [hcount, parseDirections_bytes h]
  rfl

/-! ### The ranges of SIGN-DEF (R105) -/

/-- The kind of a code in range. -/
def signKindAt (k : Nat) : SignKind := if k = 0 then .count else if k = 1 then .arrow else .countArrow

theorem signKindOf_eq_some_iff {k : Nat} {kind : SignKind} :
    signKindOf k = some kind ↔ k < 3 ∧ kind = signKindAt k := by
  match k with
  | 0 | 1 | 2 => simp [signKindOf, signKindAt, eq_comm]
  | k + 3 =>
    have hout : ¬ k + 3 < 3 := by omega
    simp [signKindOf, hout]

/-- The arrow of a route direction's code in range. -/
def routeArrowAt (a : Nat) : Arrow :=
  if a = 1 then .left else if a = 2 then .right else if a = 3 then .ahead else if a = 4 then .up else .down

theorem routeArrowOf_eq_some_iff {a : Nat} {arrow : Arrow} :
    routeArrowOf a = some arrow ↔ 1 ≤ a ∧ a ≤ 5 ∧ arrow = routeArrowAt a := by
  match a with
  | 0 => simp [routeArrowOf]
  | 1 | 2 | 3 | 4 | 5 => simp [routeArrowOf, routeArrowAt, eq_comm]
  | _ + 6 => simp [routeArrowOf]

/-- A direction of SIGN-DEF has its fields in range. -/
def DirectionReq.InRange (r : DirectionReq) : Prop :=
  1 ≤ r.arrow ∧ r.arrow ≤ 5 ∧ 1 ≤ r.zones.length ∧ r.zones.length ≤ 4 ∧ (∀ z ∈ r.zones, z < 24) ∧ r.lanes.length ≤ 8
    ∧ ∀ x ∈ r.lanes, x < 192

/-- The route direction that a direction of SIGN-DEF gives. -/
def DirectionReq.route (r : DirectionReq) : RouteDirection := ⟨routeArrowAt r.arrow, r.zones, r.lanes⟩

/-- The directions of SIGN-DEF are taken when each is in range. -/
theorem routeDirections_eq_some_iff {rs : List DirectionReq} {dirs : List RouteDirection} :
    routeDirections rs = some dirs ↔ (∀ r ∈ rs, r.InRange) ∧ dirs = rs.map DirectionReq.route := by
  induction rs generalizing dirs with
  | nil => simp [routeDirections, eq_comm]
  | cons r rs ih =>
    rw [List.forall_mem_cons, List.map_cons, routeDirections]
    cases ha : routeArrowOf r.arrow with
    | none =>
      have hr : ¬ r.InRange := fun ⟨hlow, hhigh, _⟩ =>
        nomatch ha.symm.trans (routeArrowOf_eq_some_iff.mpr ⟨hlow, hhigh, rfl⟩)
      simp [hr]
    | some arrow =>
      obtain ⟨hlow, hhigh, rfl⟩ := routeArrowOf_eq_some_iff.mp ha
      cases hrest : routeDirections rs with
      | none =>
        have hrs : ¬ ∀ r ∈ rs, r.InRange := fun h => nomatch hrest.symm.trans (ih.mpr ⟨h, rfl⟩)
        simp [hrs]
      | some tail =>
        obtain ⟨hrs, rfl⟩ := ih.mp hrest
        have hfields : (1 ≤ r.zones.length ∧ r.zones.length ≤ 4 ∧ r.zones.all (· < Config.zones) = true
            ∧ r.lanes.length ≤ 8 ∧ r.lanes.all (· < Config.groups) = true) ↔ r.InRange := by
          simp only [DirectionReq.InRange, hlow, hhigh, true_and, List.all_eq_true, decide_eq_true_eq]
          exact Iff.rfl
        dsimp only
        by_cases hr : r.InRange
        · rw [if_pos (hfields.mpr hr)]
          constructor
          · rintro ⟨⟩
            exact ⟨⟨hr, hrs⟩, rfl⟩
          · rintro ⟨-, rfl⟩
            rfl
        · rw [if_neg (mt hfields.mp hr)]
          simp [hr]

/-- The directions that SIGN-DEF gives. -/
def SignDefReq.routes (r : SignDefReq) : List RouteDirection := r.directions.map DirectionReq.route

/-- Whether the sources, the filter or the number of directions lie outside their ranges. -/
def SignDefReq.badLists (r : SignDefReq) : Bool :=
  r.sources.length == 0 || 8 < r.sources.length || !r.sources.all (· < Config.zones) || r.filter.toNat == 0
    || 16 ≤ r.filter.toNat || 3 < r.routes.length

theorem SignDefReq.badLists_eq_false_iff (r : SignDefReq) :
    r.badLists = false ↔
      1 ≤ r.sources.length ∧ r.sources.length ≤ 8 ∧ (∀ z ∈ r.sources, z < 24) ∧ 1 ≤ r.filter.toNat
        ∧ r.filter.toNat < 16 ∧ r.directions.length ≤ 3 := by
  simp only [SignDefReq.badLists, SignDefReq.routes, List.length_map, Bool.or_eq_false_iff, Bool.not_eq_false',
    List.all_eq_true, decide_eq_true_eq, decide_eq_false_iff_not, beq_eq_false_iff_ne, Nat.not_lt, Nat.not_le,
    Nat.one_le_iff_ne_zero, and_assoc]
  exact Iff.rfl

/-- The fields of SIGN-DEF other than its node are in range. -/
structure SignDefReq.InRange (r : SignDefReq) : Prop where
  kind : r.kind < 3
  lists : r.badLists = false
  directions : ∀ d ∈ r.directions, d.InRange

theorem SignDefReq.inRange_iff (r : SignDefReq) :
    r.InRange ↔ r.kind < 3 ∧ r.badLists = false ∧ ∀ d ∈ r.directions, d.InRange :=
  ⟨fun h => ⟨h.kind, h.lists, h.directions⟩, fun ⟨kind, lists, directions⟩ => ⟨kind, lists, directions⟩⟩

/-! ### SIGN-DEF (R105, R106) -/

section
variable {r : SignDefReq} {s : State} {n : NodeId} {x : Node} {g : Sign}

theorem SignDefReq.InRange.kindOf (h : r.InRange) : signKindOf r.kind = some (signKindAt r.kind) :=
  signKindOf_eq_some_iff.mpr ⟨h.kind, rfl⟩

theorem SignDefReq.InRange.routesOf (h : r.InRange) : routeDirections r.directions = some r.routes :=
  routeDirections_eq_some_iff.mpr ⟨h.directions, rfl⟩

theorem ownSignDef_of_noSign (hi : 64 ≤ r.sign) : ownSignDef r s = .error .outOfRange :=
  refuseIf_of_true (decide_eq_true hi)

/-- A sign within the range goes on to the remove flag. -/
theorem refuseIf_signs {rest : Owned} (hi : r.sign < 64) :
    refuseIf (decide (Config.signs ≤ r.sign)) .outOfRange rest = rest :=
  refuseIf_of_false (decide_eq_false (Nat.not_le.mpr hi))

theorem ownSignDef_remove_of_none (hi : r.sign < 64) (hf : r.remove = true) (hg : s.guide.signs.get r.sign = none) :
    ownSignDef r s = .error .notDefined := by
  unfold ownSignDef
  rw [refuseIf_signs hi, if_pos hf, hg]

/-- The removal of a sign deletes its record and posts its node (R106). -/
theorem ownSignDef_remove_of_some (hi : r.sign < 64) (hf : r.remove = true)
    (hg : s.guide.signs.get r.sign = some g) :
    ownSignDef r s
      = accept false
          (({ s with guide := { s.guide with signs := s.guide.signs.del r.sign } } : State).post g.defn.node) := by
  unfold ownSignDef
  rw [refuseIf_signs hi, if_pos hf, hg]

/-- The ranges are checked before what the request names. -/
theorem ownSignDef_of_badField (hi : r.sign < 64) (hf : r.remove = false)
    (hbad : nodeOf r.loop r.addr = none ∨ ¬ r.InRange) : ownSignDef r s = .error .outOfRange := by
  unfold ownSignDef
  rw [refuseIf_signs hi, if_neg (by simp [hf])]
  cases hn : nodeOf r.loop r.addr with
  | none => rfl
  | some n =>
    have hout : ¬ r.InRange := hbad.resolve_left (by simp [hn])
    cases hk : signKindOf r.kind with
    | none => rfl
    | some kind =>
      cases hd : routeDirections r.directions with
      | none => rfl
      | some dirs =>
        obtain ⟨hkind, -⟩ := signKindOf_eq_some_iff.mp hk
        obtain ⟨hdirs, rfl⟩ := routeDirections_eq_some_iff.mp hd
        have hlists : r.badLists = true := Bool.of_not_eq_false fun hlists => hout ⟨hkind, hlists, hdirs⟩
        exact refuseIf_of_true hlists

/-- The request defines a sign with its fields in range. -/
structure SignDefReq.Places (r : SignDefReq) (n : NodeId) : Prop extends r.InRange where
  sign : r.sign < 64
  define : r.remove = false
  node : nodeOf r.loop r.addr = some n

/-- Whether a source or a direction names a zone that is not defined. -/
def SignDefReq.namesUndefined (r : SignDefReq) (s : State) : Bool :=
  !r.sources.all s.zoneDefined || !r.routes.all fun d => d.zones.all s.zoneDefined

theorem SignDefReq.namesUndefined_eq_false_iff :
    r.namesUndefined s = false ↔
      (∀ z ∈ r.sources, s.zone z ≠ none) ∧ ∀ d ∈ r.directions, ∀ z ∈ d.zones, s.zone z ≠ none := by
  simp [SignDefReq.namesUndefined, SignDefReq.routes, DirectionReq.route, State.zoneDefined,
    Option.isSome_iff_ne_none]

/-- With its fields in range SIGN-DEF goes on to the zones and the node. -/
theorem ownSignDef_undefined (hp : r.Places n) (hu : r.namesUndefined s = true ∨ s.node n = none) :
    ownSignDef r s = .error .notDefined := by
  unfold ownSignDef
  rw [refuseIf_signs hp.sign, if_neg (by simp [hp.define]), hp.node, hp.kindOf, hp.routesOf]
  refine (refuseIf_of_false hp.lists).trans ?_
  cases hzones : r.namesUndefined s with
  | true => exact refuseIf_of_true hzones
  | false =>
    refine (refuseIf_of_false hzones).trans ?_
    rw [hu.resolve_left (by simp [hzones])]

/-- The request names defined zones and a node with an entry. -/
structure SignDefReq.Named (r : SignDefReq) (s : State) (n : NodeId) (x : Node) : Prop extends r.Places n where
  zones : r.namesUndefined s = false
  entry : s.node n = some x

/-- Whether the node is no sign, or another sign than the request's names it. -/
def SignDefReq.takenNode (r : SignDefReq) (s : State) (n : NodeId) (x : Node) : Bool :=
  x.defn.role != .sign || s.guide.signs.anyOther r.sign fun g => g.defn.node == n

theorem SignDefReq.takenNode_iff :
    r.takenNode s n x = true ↔ x.defn.role ≠ .sign ∨ ∃ e ∈ s.guide.signs, e.1 ≠ r.sign ∧ e.2.defn.node = n := by
  simp [SignDefReq.takenNode, Table.anyOther]

theorem distinct_eq_true_iff (l : List Nat) : distinct l = true ↔ l.Nodup := by
  induction l with
  | nil => simp [distinct]
  | cons a l ih => simp [distinct, ih]

/-- Whether a list of the request holds a number twice. -/
def SignDefReq.repeats (r : SignDefReq) : Bool :=
  !distinct r.sources || !r.routes.all fun d => distinct d.zones && distinct d.lanes

theorem SignDefReq.repeats_eq_false_iff :
    r.repeats = false ↔ r.sources.Nodup ∧ ∀ d ∈ r.directions, d.zones.Nodup ∧ d.lanes.Nodup := by
  simp [SignDefReq.repeats, SignDefReq.routes, DirectionReq.route, distinct_eq_true_iff]

theorem ownSignDef_conflict (hp : r.Named s n x) (hc : r.takenNode s n x = true ∨ r.repeats = true) :
    ownSignDef r s = .error .conflict := by
  unfold ownSignDef
  rw [refuseIf_signs hp.sign, if_neg (by simp [hp.define]), hp.node, hp.kindOf, hp.routesOf]
  refine (refuseIf_of_false hp.lists).trans ((refuseIf_of_false hp.zones).trans ?_)
  rw [hp.entry]
  cases htaken : r.takenNode s n x with
  | true => exact refuseIf_of_true htaken
  | false => exact (refuseIf_of_false htaken).trans (refuseIf_of_true (hc.resolve_left (by simp [htaken])))

/-- The request passes every check of R105. -/
structure SignDefReq.Free (r : SignDefReq) (s : State) (n : NodeId) (x : Node) : Prop extends r.Named s n x where
  nodeFree : r.takenNode s n x = false
  once : r.repeats = false

/-- The definition part that SIGN-DEF gives. -/
def SignDefReq.defn (r : SignDefReq) (n : NodeId) : SignDefn :=
  { node := n, kind := signKindAt r.kind, sources := r.sources, filter := filterOf r.filter
    threshold := min 99 r.threshold, directions := r.routes }

/-- What SIGN-DEF does when every check has passed (R106). -/
theorem ownSignDef_of_free (hp : r.Free s n x) :
    let d := r.defn n
    let shown := displayOf s.guide.view d s.now
    (s.guide.signs.get r.sign = none →
      ownSignDef r s
        = accept (decide (99 < r.threshold))
            ((s.putSign r.sign { defn := d, display := shown, condition := .unknown, echo := none }).post n))
    ∧ ∀ g, s.guide.signs.get r.sign = some g →
      (g.defn.node = n →
        ownSignDef r s
          = accept (decide (99 < r.threshold))
              (s.changeSign r.sign g { g with defn := d, display := g.display.update shown }))
      ∧ (g.defn.node ≠ n →
        ownSignDef r s
          = accept (decide (99 < r.threshold))
              ((s.putSign r.sign
                { defn := d, display := g.display.update shown, condition := .unknown, echo := none }).postAll
                  [g.defn.node, n])) := by
  intro d shown
  unfold ownSignDef
  rw [refuseIf_signs hp.sign, if_neg (by simp [hp.define]), hp.node, hp.kindOf, hp.routesOf]
  have lists := hp.lists
  have zones := hp.zones
  have nodeFree := hp.nodeFree
  have once := hp.once
  unfold SignDefReq.badLists at lists
  unfold SignDefReq.namesUndefined at zones
  unfold SignDefReq.takenNode at nodeFree
  unfold SignDefReq.repeats at once
  dsimp only
  rw [refuseIf_of_false lists, refuseIf_of_false zones, hp.entry]
  dsimp only
  rw [refuseIf_of_false nodeFree, refuseIf_of_false once]
  refine ⟨fun hg => ?_, fun g hg => ⟨fun hnode => ?_, fun hnode => ?_⟩⟩
  · rw [hg]
    rfl
  · rw [hg]
    exact if_pos hnode
  · rw [hg]
    exact if_neg hnode

end

/-! ### The checks over the bytes of a request -/

section
variable (i f l a k fi th : Byte) (zs : List Byte) (ds : List (Byte × List Byte × List Byte))

theorem signDefReqOf_inRange_iff :
    (signDefReqOf i f l a k fi th zs ds).InRange ↔
      k.toNat < 3 ∧ 1 ≤ zs.length ∧ zs.length ≤ 8 ∧ (∀ z ∈ zs, z.toNat < 24) ∧ 1 ≤ fi.toNat ∧ fi.toNat < 16
        ∧ ds.length ≤ 3
        ∧ ∀ d ∈ ds, 1 ≤ d.1.toNat ∧ d.1.toNat ≤ 5 ∧ 1 ≤ d.2.1.length ∧ d.2.1.length ≤ 4 ∧ (∀ z ∈ d.2.1, z.toNat < 24)
            ∧ d.2.2.length ≤ 8 ∧ ∀ x ∈ d.2.2, x.toNat < 192 := by
  simp only [SignDefReq.inRange_iff, SignDefReq.badLists_eq_false_iff, signDefReqOf, DirectionReq.InRange, directionOf,
    List.forall_mem_map, List.length_map, and_assoc]

theorem signDefReqOf_namesUndefined_iff (s : State) :
    (signDefReqOf i f l a k fi th zs ds).namesUndefined s = false ↔
      ∀ z ∈ zs ++ ds.flatMap (fun d => d.2.1), s.zone z.toNat ≠ none := by
  simp only [SignDefReq.namesUndefined_eq_false_iff, signDefReqOf, directionOf, List.forall_mem_map,
    List.forall_mem_append, List.forall_mem_flatMap]

theorem signDefReqOf_repeats_iff :
    (signDefReqOf i f l a k fi th zs ds).repeats = false ↔
      zs.Nodup ∧ ∀ d ∈ ds, d.2.1.Nodup ∧ d.2.2.Nodup := by
  have hnodup (bytes : List Byte) : (bytes.map BitVec.toNat).Nodup ↔ bytes.Nodup :=
    List.pairwise_map.trans (by simp only [List.Nodup, ne_eq, BitVec.toNat_inj])
  simp only [SignDefReq.repeats_eq_false_iff, signDefReqOf, directionOf, List.forall_mem_map, hnodup]

end

/-! ### SIGN-QUERY (R107) -/

section
variable {i : Nat} {s : State} {g : Sign}

theorem ownSignQuery_outOfRange (hi : 64 ≤ i) : ownSignQuery i s = .error .outOfRange :=
  refuseIf_of_true (decide_eq_true hi)

theorem ownSignQuery_undefined (hi : i < 64) (hg : s.guide.signs.get i = none) :
    ownSignQuery i s = .error .notDefined := by
  refine (refuseIf_of_false (decide_eq_false (Nat.not_le.mpr hi))).trans ?_
  rw [hg]

theorem ownSignQuery_of_sign (hi : i < 64) (hg : s.guide.signs.get i = some g) :
    ownSignQuery i s = .ok (s, .data (s.signData i g)) := by
  refine (refuseIf_of_false (decide_eq_false (Nat.not_le.mpr hi))).trans ?_
  rw [hg]

end

theorem State.framePassed_signData (s : State) (i : Nat) (g : Sign) : s.framePassed.signData i g = s.signData i g := by
  unfold State.signData State.standing State.guideZone
  rw [s.framePassed_guide, s.framePassed_now, s.framePassed_loops, s.framePassed_node]

theorem filterByte_eq (f : PerClass Bool) :
    filterByte f
      = [BitVec.ofNat 8 (f.standard.toNat + 2 * f.wide.toNat + 4 * f.charging.toNat + 8 * f.accessible.toNat)] := by
  rw [filterByte, flagsByte, u8]
  simp only [flagsNat]
  congr 2
  omega

/-- Settles O35: the record of SIGN-QUERY field by field, and each check of SIGN-DEF in its order with the case of the
sign in the table. -/
theorem signRequestsFollowTheirRules : Obligations.SignRequestsFollowTheirRules := by
  intro s tag i p put byte many
  have hguide : p.guide = s.guide := s.framePassed_guide
  have hget : p.guide.signs.get i.toNat = s.guide.signs.get i.toNat := by rw [hguide]
  refine ⟨fun hs => ?query, ?define⟩
  case query =>
    have refused {e : RefusalCode} (ho : ownSignQuery i.toNat p = .error e) :
        exec (.signQuery tag [i]) s = .next (p.turnedAway tag e) :=
      exec_turnedAway (owner := ownSignQuery) (x := i.toNat) rfl hs rfl rfl ho
    refine ⟨fun hi => refused (ownSignQuery_outOfRange hi),
      fun hi hg => refused (ownSignQuery_undefined hi (hget.trans hg)), ?_⟩
    intro g hi hg seen filtered
    refine (exec_told (owner := ownSignQuery) (x := i.toNat) rfl hs rfl rfl
      (ownSignQuery_of_sign hi (hget.trans hg))).trans (congrArg (fun d => Host.Outcome.next (p.told tag d)) ?_)
    have hfiltered (z : Nat) : filteredFree g.defn.filter (s.guideZone z).free = filtered z := by
      rw [filteredFree_eq]
      rfl
    have hoffered (zones : List Nat) :
        offeredSum s.guide.view g.defn.filter zones
          = (zones.map fun z => if (seen z).closed then 0 else filtered z).sum :=
      congrArg List.sum (List.map_congr_left fun z _ => by rw [openFree, ← hfiltered]; rfl)
    have hmany (l : List Nat) : counted l = many l := by rw [counted, flatMap_u8]; rfl
    have hnumber : u8 i.toNat = [i] := by rw [u8, BitVec.ofNat_toNat, BitVec.setWidth_eq]
    have hchosen : idByte g.display.chosen = [match g.display.chosen with | some k => byte k | none => 0xFF] := by
      cases g.display.chosen <;> rfl
    have hecho : optionals [g.echo.map fun e => u16 e.text ++ u8 e.arrow]
        = match g.echo with | some e => 1 :: u16 e.text ++ [byte e.arrow] | none => [0] := by
      rw [optionals_singleton]
      cases g.echo <;> rfl
    have hstanding : s.standing g.defn.node
        = [match s.node g.defn.node with | some x => byte (nodeStateCode x.state) | none => 0xFF,
          byte ((s.loops.urgent.contains g.defn.node).toNat
            + 2 * (match s.node g.defn.node with | some x => x.refreshOwed.toNat | none => 0))] := by
      unfold State.standing
      cases s.node g.defn.node <;> rfl
    rw [State.framePassed_signData, State.signData, signDefnBytes, hnumber, filterByte_eq, hchosen, hecho, hstanding]
    simp only [hfiltered, hoffered, hmany, List.append_assoc]
    rfl
  case define =>
    intro f l a k fi th zs ds hs hzs hds hlists listed c inRange
    let r : SignDefReq := signDefReqOf i f l a k fi th zs ds
    have hparse : parseSignDef _ = some r := parseSignDef_bytes hzs hds hlists i f l a k fi th
    have refused {e : RefusalCode} (ho : ownSignDef r p = .error e) : exec c s = .next (p.turnedAway tag e) :=
      exec_turnedAway (owner := ownSignDef) (x := r) rfl hs rfl hparse ho
    have done {b : Bool} {t u : State} (ho : ownSignDef r p = accept b t) (ht : t = u) :
        exec c s = .next (u.done tag b) :=
      ht ▸ exec_done (owner := ownSignDef) (x := r) rfl hs rfl hparse ho
    have hput (h : Sign) : p.putSign r.sign h = put h := by
      show { p with guide := { p.guide with signs := p.guide.signs.put i.toNat h } } = _
      rw [hguide]
    have hinRange : inRange ↔ nodeOf l.toNat a.toNat ≠ none ∧ r.InRange :=
      and_congr Iff.rfl (signDefReqOf_inRange_iff i f l a k fi th zs ds).symm
    refine ⟨fun hi => refused (ownSignDef_of_noSign hi), fun hi hf => ⟨fun hg => ?_, fun g hg => ?_⟩,
      fun hi hf => ⟨fun hbad => ?_, fun n hn hin => ?_⟩⟩
    · exact refused (ownSignDef_remove_of_none hi hf (hget.trans hg))
    · exact done (ownSignDef_remove_of_some hi hf (hget.trans hg)) (by rw [hguide]; rfl)
    · refine refused (ownSignDef_of_badField hi hf ?_)
      rwa [hinRange, Classical.not_and_iff_not_or_not, Classical.not_not] at hbad
    obtain ⟨-, fields⟩ := hinRange.mp hin
    have placed : r.Places n := ⟨fields, hi, hf, hn⟩
    have hzones : r.namesUndefined p = false ↔ ∀ z ∈ zs ++ ds.flatMap (fun d => d.2.1), s.zone z.toNat ≠ none := by
      rw [← (funext s.framePassed_zone : p.zone = s.zone)]
      exact signDefReqOf_namesUndefined_iff i f l a k fi th zs ds p
    refine ⟨fun hu => refused (ownSignDef_undefined placed ?_), fun x hdefined hx => ?_⟩
    · rw [s.framePassed_node]
      exact hu.imp_left fun ⟨z, hz, hnone⟩ => Bool.of_not_eq_false fun h => hzones.mp h z hz hnone
    have named : r.Named p n x := ⟨placed, hzones.mpr hdefined, (s.framePassed_node n).trans hx⟩
    have htaken : r.takenNode p n x = true ↔
        x.defn.role ≠ .sign ∨ ∃ e ∈ s.guide.signs, e.1 ≠ i.toNat ∧ e.2.defn.node = n := by
      rw [SignDefReq.takenNode_iff, hguide]
      rfl
    have honce : r.repeats = false ↔ zs.Nodup ∧ ∀ d ∈ ds, d.2.1.Nodup ∧ d.2.2.Nodup :=
      signDefReqOf_repeats_iff i f l a k fi th zs ds
    refine ⟨fun hc => refused (ownSignDef_conflict named ?_), ?_⟩
    · rw [htaken, ← Bool.not_eq_false, honce]
      simpa only [or_assoc, Classical.not_and_iff_not_or_not, Classical.not_forall, exists_prop] using hc
    intro hrole hone hsources hdirs d shown kept answer
    have nodeFree : r.takenNode p n x = false := by
      rw [← Bool.not_eq_true, htaken, not_or, Classical.not_not]
      exact ⟨hrole, fun ⟨e, he, hne, hnode⟩ => hne (hone e he hnode)⟩
    have free : r.Free p n x := ⟨named, nodeFree, honce.mpr ⟨hsources, hdirs⟩⟩
    have hd : r.defn n = d := congrArg (fun dirs => { d with directions := dirs }) (List.map_map ..)
    have hshown : displayOf p.guide.view d p.now = shown := by rw [hguide, s.framePassed_now]
    have hkept (g : Sign) : g.display.update shown = kept g := Display.update_eq _ _
    obtain ⟨create, change⟩ := ownSignDef_of_free free
    rw [hd, hshown] at create change
    refine ⟨fun hg => done (create (hget.trans hg)) (by rw [hput]), fun g hg => ⟨fun hnode => ?_, fun hnode => ?_⟩⟩
    · refine done ((change g (hget.trans hg)).1 hnode) ?_
      rw [hkept, State.changeSign, hput]
      exact ite_congr (propext eq_comm) (fun _ => rfl) fun _ => rfl
    · refine done ((change g (hget.trans hg)).2 hnode) ?_
      rw [hkept, hput]
      rfl

end Sys2Proof.Machine
end

