-- ==== Sys2Proof/Proofs/LampContent.lean ====
section
/-! SUPPORT. A group's target and cause, the output codes, and the content of a write to a luminaire driver (R111,
R116). -/

namespace Sys2Proof.Machine

/-! ### The target and its cause (R111) -/

theorem Group.present_iff (now : Nat) (g : Group) :
    g.present now = true ↔ ∃ t, g.presence = some t ∧ now < t := by
  unfold Group.present
  cases g.presence <;> simp

section
variable {s : State} {g : Group}

/-- The level and the cause that apply are the ones a retargeted group takes. -/
theorem State.targeted_of_targetOf {l : Nat} {c : TargetCause}
    (h : targetOf s.now (s.alarmView g.defn.zone) (baseLevel s.items s.light.mode) g = (l, c)) :
    s.targeted g = { g with target := l, cause := c } := by
  unfold State.targeted
  rw [h]

theorem State.targeted_of_override {l : Nat} (h : g.override = some l) :
    s.targeted g = { g with target := l, cause := .override } := by
  refine State.targeted_of_targetOf ?_
  unfold targetOf
  rw [h]

theorem State.targeted_of_alarm (hfree : g.override = none) (halarm : s.alarmView g.defn.zone = true) :
    s.targeted g = { g with target := 1000, cause := .alarm } := by
  refine State.targeted_of_targetOf ?_
  unfold targetOf
  rw [hfree]
  exact if_pos halarm

theorem State.targeted_of_presence (hfree : g.override = none) (halarm : s.alarmView g.defn.zone = false)
    (hpresent : g.present s.now = true) :
    s.targeted g = { g with target := g.defn.presenceLevel, cause := .presence } := by
  refine State.targeted_of_targetOf ?_
  unfold targetOf
  rw [hfree, halarm]
  exact if_pos hpresent

theorem State.targeted_of_base (hfree : g.override = none) (halarm : s.alarmView g.defn.zone = false)
    (habsent : g.present s.now = false) :
    s.targeted g = { g with target := baseLevel s.items s.light.mode, cause := .base } := by
  refine State.targeted_of_targetOf ?_
  unfold targetOf
  rw [hfree, halarm, habsent]
  rfl

end

/-! ### Output codes and the fade (R116) -/

theorem outputCode_normal (l : Nat) : outputCode .normal l = l * 1023 / 1000 := rfl

/-- The two polarities give complementary codes of a level in range. -/
theorem outputCode_inverted_add_normal {l : Nat} (h : l ≤ 1000) :
    outputCode .inverted l + outputCode .normal l = 1023 := by
  unfold outputCode
  dsimp only
  omega

theorem outputCode_normal_mono {l m : Nat} (h : l ≤ m) : outputCode .normal l ≤ outputCode .normal m :=
  Nat.div_le_div_right (Nat.mul_le_mul_right 1023 h)

/-- A write fades only where it lowers the level last applied. -/
theorem Group.fade_eq (g : Group) :
    g.fade = match g.applied with | none => 0 | some l => if g.target < l then g.defn.fadeTime else 0 := by
  unfold Group.fade
  cases g.applied with
  | none => rfl
  | some l => simp only [← Nat.not_le, ite_not]

/-! ### The content of a write (R116, 11.5) -/

/-- Of chunks of one length, each stands at its multiple of that length. -/
theorem take_drop_flatMap {α β : Type} {f : α → List β} {k : Nat} (hf : ∀ a, (f a).length = k) (l : List α) {i : Nat}
    (hi : i < l.length) : ((l.flatMap f).drop (k * i)).take k = f l[i] := by
  induction l generalizing i with
  | nil => simp at hi
  | cons a l ih =>
    rw [List.flatMap_cons]
    cases i with
    | zero =>
      rw [Nat.mul_zero, List.drop_zero, List.take_left' (hf a), List.getElem_cons_zero]
    | succ i =>
      rw [Nat.mul_succ, Nat.add_comm, ← List.drop_drop, List.drop_left' (hf a), List.getElem_cons_succ]
      exact ih (Nat.lt_of_succ_lt_succ hi)

section
variable {groups : Table Group} {n : NodeId} {o : Nat}

/-- The three bytes of output `o`. -/
theorem lampContent_at (ho : o < 8) :
    ((lampContent groups n).drop (3 * o)).take 3 = u16 (outputOf groups n o).1 ++ u8 (outputOf groups n o).2 := by
  have hrange : o < (List.range 8).length := by simpa using ho
  refine (take_drop_flatMap (fun _ => ?_) (List.range 8) hrange).trans ?_
  · rfl
  · rw [List.getElem_range]

theorem lampContent_length : (lampContent groups n).length = 24 := rfl

/-- Whether an entry is of a group that owns output `o` of node `n`. -/
def ownsOutput (n : NodeId) (o : Nat) (e : Nat × Group) : Bool := e.2.defn.node == n && e.2.defn.outputs.contains o

theorem ownsOutput_iff (e : Nat × Group) :
    ownsOutput n o e = true ↔ e.2.defn.node = n ∧ o ∈ e.2.defn.outputs := by
  simp [ownsOutput]

theorem outputOf_eq :
    outputOf groups n o
      = match List.find? (ownsOutput n o) groups with
        | some e => (outputCode e.2.defn.polarity e.2.target, e.2.fade)
        | none => (0, 0) := rfl

theorem outputOf_of_unowned (h : ∀ e ∈ groups, e.2.defn.node = n → o ∉ e.2.defn.outputs) :
    outputOf groups n o = (0, 0) := by
  have hnone : List.find? (ownsOutput n o) groups = none :=
    List.find?_eq_none.mpr fun e he howns => by
      obtain ⟨hnode, hout⟩ := (ownsOutput_iff e).mp howns
      exact h e he hnode hout
  rw [outputOf_eq, hnone]

/-- An output that one group owns is that group's. -/
theorem outputOf_of_only {i : Nat} {g : Group} (hmem : (i, g) ∈ groups) (hnode : g.defn.node = n)
    (hout : o ∈ g.defn.outputs)
    (only : ∀ e ∈ groups, e.2.defn.node = n → o ∈ e.2.defn.outputs → e = (i, g)) :
    outputOf groups n o = (outputCode g.defn.polarity g.target, g.fade) := by
  have hfind : List.find? (ownsOutput n o) groups = some (i, g) := by
    cases hfound : List.find? (ownsOutput n o) groups with
    | none => exact absurd ((ownsOutput_iff _).mpr ⟨hnode, hout⟩) (List.find?_eq_none.mp hfound _ hmem)
    | some e =>
      obtain ⟨henode, heout⟩ := (ownsOutput_iff e).mp (List.find?_some hfound)
      rw [only e (List.mem_of_find?_eq_some hfound) henode heout]
  rw [outputOf_eq, hfind]

end

theorem State.takeInFlight_get (s : State) (n : NodeId) (j : Nat) :
    (s.takeInFlight n).light.groups.get j
      = (s.light.groups.get j).map fun g => if g.defn.node = n then { g with inFlight := some g.target } else g := by
  rw [State.takeInFlight, Table.get_map]

/-- Settles O36: the first cause that applies, the two polarities, and each output's three bytes. -/
theorem lampTargetsAndContentFollowTheRules : Obligations.LampTargetsAndContentFollowTheRules := by
  refine ⟨?targets, fun l hl => ?codes, ?content⟩
  case targets =>
    intro s g alarm present base
    refine ⟨fun l h => State.targeted_of_override h, fun hfree halarm => State.targeted_of_alarm hfree halarm,
      fun hfree halarm hpresent => State.targeted_of_presence hfree halarm ((g.present_iff s.now).mpr hpresent),
      fun hfree halarm habsent => ?_⟩
    have hbase : baseLevel s.items s.light.mode = base := rfl
    rw [← hbase]
    exact State.targeted_of_base hfree halarm (Bool.eq_false_iff.mpr (mt (g.present_iff s.now).mp habsent))
  case codes =>
    exact ⟨outputCode_normal l, outputCode_inverted_add_normal hl, fun m => outputCode_normal_mono⟩
  case content =>
    intro s n groups
    refine ⟨lampContent_length, fun o ho => ⟨fun hnone => ?_, fun i g hmem hnode hout only => ?_⟩,
      s.takeInFlight_get n⟩
    · rw [lampContent_at ho, outputOf_of_unowned hnone]
      rfl
    · intro fade
      rw [lampContent_at ho, outputOf_of_only hmem hnode hout only]
      exact congrArg (fun k => u16 (outputCode g.defn.polarity g.target) ++ u8 k) g.fade_eq

end Sys2Proof.Machine
end

