-- ==== Sys2Proof/Proofs/GroupChanges.lean ====
section
/-! SUPPORT. Groups whose inputs change: each is retargeted, and the nodes of those whose level changes are posted
(R110, R112 to R115, R121, R122). -/

namespace Sys2Proof.Machine

/-! ### Choices along a list -/

/-- Two choices that agree on the members of a list choose the same from it. -/
theorem filterMap_congr_of_mem {α β : Type} {f g : α → Option β} {l : List α} (h : ∀ a ∈ l, f a = g a) :
    l.filterMap f = l.filterMap g := by
  induction l with
  | nil => rfl
  | cons a l ih =>
    rw [List.filterMap_cons, List.filterMap_cons, h a List.mem_cons_self,
      ih fun b hb => h b (List.mem_cons_of_mem a hb)]

/-! ### One group (R112) -/

/-- The node that a change of a group's inputs posts: its own, when the level changes (R112). -/
def State.movedNode (s : State) (f : Group → Group) (j : Nat) : Option NodeId :=
  (s.light.groups.get j).bind fun g => if (s.targeted (f g)).target = g.target then none else some g.defn.node

/-- From `s` to `u` the inputs of the defined groups of `numbers` are changed by `f`: their targets are recomputed, the
nodes of those whose level changes are posted in order, and nothing else changes. -/
structure GroupsChanged (s u : State) (numbers : List Nat) (f : Group → Group) : Prop where
  groups : ∀ j, u.light.groups.get j
    = (s.light.groups.get j).map fun g => if j ∈ numbers then s.targeted (f g) else g
  zoneAlarm : u.light.zoneAlarm = s.light.zoneAlarm
  mode : u.light.mode = s.light.mode
  frame : u = { s.postAll (numbers.filterMap (s.movedNode f)) with light := u.light }

section
variable {s t u : State} {f : Group → Group} {l m : List Nat}

theorem GroupsChanged.targeted (h : GroupsChanged s u l f) : u.targeted = s.targeted := by
  refine s.targeted_congr ?_ ?_ h.zoneAlarm h.mode
  · rw [h.frame]
    exact State.postAll_clockMs _ _
  · rw [h.frame]
    exact State.postAll_store _ _

theorem GroupsChanged.now (h : GroupsChanged s u l f) : u.now = s.now := by
  rw [h.frame]
  exact State.postAll_now s _

theorem GroupsChanged.nil (s : State) (f : Group → Group) : GroupsChanged s s [] f :=
  ⟨fun j => by simp, rfl, rfl, rfl⟩

/-- A change of some groups and then of others is a change of all of them. -/
theorem GroupsChanged.append (h : GroupsChanged s t l f) (k : GroupsChanged t u m f) (apart : ∀ j ∈ m, j ∉ l) :
    GroupsChanged s u (l ++ m) f := by
  have hget {j : Nat} (hj : j ∉ l) : t.light.groups.get j = s.light.groups.get j := by
    rw [h.groups j]
    simp [hj]
  have hmoved : m.filterMap (t.movedNode f) = m.filterMap (s.movedNode f) :=
    filterMap_congr_of_mem fun j hj => by rw [State.movedNode, h.targeted, hget (apart j hj), State.movedNode]
  refine ⟨fun j => ?_, k.zoneAlarm.trans h.zoneAlarm, k.mode.trans h.mode, ?_⟩
  · rw [k.groups j, h.targeted]
    by_cases hm : j ∈ m
    · rw [hget (apart j hm)]
      simp [hm]
    · rw [h.groups j]
      cases s.light.groups.get j <;> simp [hm]
  · have hframe := k.frame
    rw [hmoved, h.frame, State.postAll_withLight, State.postAll_append, ← List.filterMap_append] at hframe
    exact hframe

/-- A change of one defined group's inputs (R112). -/
theorem State.modifyGroup_changed (s : State) (i : Nat) (hf : ∀ g, (f g).defn = g.defn) :
    GroupsChanged s (s.modifyGroup i f) [i] f := by
  unfold State.modifyGroup
  cases hg : s.light.groups.get i with
  | none =>
    refine ⟨fun j => ?_, rfl, rfl, ?_⟩
    · by_cases hj : j = i
      · rw [hj, hg]
        rfl
      · simp [hj]
    · simp [State.movedNode, hg, State.postAll]
  | some g =>
    have hchange : s.changeGroup i g (f g)
        = { s.postAll ([i].filterMap (s.movedNode f)) with
            light := { s.light with groups := s.light.groups.put i (s.targeted (f g)) } } := by
      have hnode : (s.targeted (f g)).defn.node = g.defn.node := congrArg GroupDefn.node (hf g)
      unfold State.changeGroup State.putGroup
      dsimp only
      by_cases hsame : g.target = (s.targeted (f g)).target
      · rw [if_pos hsame]
        simp [State.movedNode, hg, ← hsame, State.postAll]
      · rw [if_neg hsame, State.post_withLight, hnode]
        simp [State.movedNode, hg, Ne.symm hsame, State.postAll]
    dsimp only
    rw [hchange]
    refine ⟨fun j => ?_, rfl, rfl, rfl⟩
    dsimp only
    rw [Table.get_put]
    by_cases hj : j = i
    · simp [hj, hg]
    · simp [hj]

/-- Changing groups one after the other, each once, is a change of all of them. -/
theorem State.foldl_modifyGroup_changed (s : State) (once : l.Nodup) (hf : ∀ g, (f g).defn = g.defn) :
    GroupsChanged s (l.foldl (fun u i => u.modifyGroup i f) s) l f := by
  induction l generalizing s with
  | nil => exact .nil s f
  | cons i l ih =>
    obtain ⟨hi, hl⟩ := List.nodup_cons.mp once
    refine (s.modifyGroup_changed i hf).append (ih (s.modifyGroup i f) hl) fun j hj hji => ?_
    exact hi (List.mem_singleton.mp hji ▸ hj)

end

/-! ### The groups that meet a test -/

/-- From `s` to `u` the inputs of the groups that meet a test are changed by `f`: their targets are recomputed, the
nodes of those whose level changes are posted in ascending number, and nothing else changes. -/
structure GroupsTaken (s u : State) (concerned : Nat → Group → Bool) (f : Group → Group) : Prop where
  groups : ∀ j, u.light.groups.get j
    = (s.light.groups.get j).map fun g => if concerned j g then u.targeted (f g) else g
  zoneAlarm : u.light.zoneAlarm = s.light.zoneAlarm
  mode : u.light.mode = s.light.mode
  frame : u = { s.postAll (List.map (fun e : Nat × Group => e.2.defn.node)
      (s.light.groups.filter fun e => concerned e.1 e.2 && decide ((u.targeted (f e.2)).target ≠ e.2.target))) with
    light := u.light }

section
variable {s u : State} {f : Group → Group} {concerned : Nat → Group → Bool}

/-- Groups told by their numbers are those of the entries that the numbers come from. -/
theorem GroupsChanged.taken (w : Table.wf s.light.groups = true)
    (h : GroupsChanged s u ((s.light.groups.filter fun e => concerned e.1 e.2).map Prod.fst) f) :
    GroupsTaken s u concerned f := by
  have hmem {j : Nat} {g : Group} (hg : s.light.groups.get j = some g) :
      j ∈ (s.light.groups.filter fun e => concerned e.1 e.2).map Prod.fst ↔ concerned j g = true := by
    rw [List.mem_map]
    constructor
    · rintro ⟨e, he, rfl⟩
      obtain ⟨hin, hc⟩ := List.mem_filter.mp he
      obtain rfl : e.2 = g := Option.some.inj ((Table.get_of_mem w hin).symm.trans hg)
      exact hc
    · exact fun hc => ⟨(j, g), List.mem_filter.mpr ⟨Table.mem_of_get hg, hc⟩, rfl⟩
  refine ⟨fun j => ?_, h.zoneAlarm, h.mode, ?_⟩
  · rw [h.groups j, h.targeted]
    exact Option.map_congr fun g hg => ite_congr (propext (hmem hg)) (fun _ => rfl) fun _ => rfl
  · have hnodes : ((s.light.groups.filter fun e => concerned e.1 e.2).map Prod.fst).filterMap (s.movedNode f)
        = List.map (fun e : Nat × Group => e.2.defn.node)
            (s.light.groups.filter fun e =>
              concerned e.1 e.2 && decide ((u.targeted (f e.2)).target ≠ e.2.target)) := by
      rw [List.filterMap_map, List.filterMap_filter, ← List.filterMap_eq_map, List.filterMap_filter, h.targeted]
      refine filterMap_congr_of_mem fun e he => ?_
      have hget : s.light.groups.get e.1 = some e.2 := Table.get_of_mem w he
      by_cases hc : concerned e.1 e.2 <;> by_cases ht : (s.targeted (f e.2)).target = e.2.target <;>
        simp [State.movedNode, hget, hc, ht]
    rw [← hnodes]
    exact h.frame

theorem State.modifyGroups_taken (w : Table.wf s.light.groups = true) (concerned : Nat → Group → Bool)
    (hf : ∀ g, (f g).defn = g.defn) : GroupsTaken s (s.modifyGroups concerned f) concerned f := by
  refine GroupsChanged.taken w ?_
  have hfold : s.modifyGroups concerned f
      = ((s.light.groups.filter fun e => concerned e.1 e.2).map Prod.fst).foldl (fun u i => u.modifyGroup i f) s := by
    rw [List.foldl_map]
    rfl
  rw [hfold]
  exact s.foldl_modifyGroup_changed ((Table.keys_nodup w).sublist (List.filter_sublist.map _)) hf

/-- What a change of groups leaves, over the state before the event's own change of the unit. -/
theorem GroupsTaken.over {l : Lighting} {concerned : Nat → Group → Prop} [∀ i, DecidablePred (concerned i)]
    {test : Nat → Group → Bool} (htest : ∀ j g, test j g = true ↔ concerned j g)
    (h : GroupsTaken { s with light := l } u test f) :
    (∀ j, u.light.groups.get j = (l.groups.get j).map fun g => if concerned j g then u.targeted (f g) else g)
      ∧ u = { s.postAll (List.map (fun e : Nat × Group => e.2.defn.node)
                (l.groups.filter fun e => concerned e.1 e.2 ∧ (u.targeted (f e.2)).target ≠ e.2.target)) with
              light := u.light } := by
  have hframe := h.frame
  rw [State.postAll_withLight] at hframe
  refine ⟨fun j => ?_, ?_⟩
  · simpa only [htest] using h.groups j
  · simpa only [Bool.decide_and, ← htest, Bool.decide_eq_true] using hframe

/-- One number is the test that it alone meets. -/
theorem Table.filter_number {α : Type} {t : Table α} (w : Table.wf t = true) (i : Nat) :
    List.filter (fun e => decide (e.1 = i)) t = ((t.get i).map fun x => (i, x)).toList := by
  induction t with
  | nil => rfl
  | cons e t ih =>
    obtain ⟨k, x⟩ := e
    obtain ⟨hlt, wt⟩ := Table.wf_cons.mp w
    by_cases hk : k = i
    · have hrest : Table.get t i = none := Table.get_of_lt (hk ▸ hlt)
      rw [List.filter_cons_of_pos (by simpa using hk), ih wt, hrest, Table.get, if_pos hk, hk]
      rfl
    · rw [List.filter_cons_of_neg (by simpa using hk), ih wt, Table.get, if_neg hk]

theorem State.modifyGroups_number (w : Table.wf s.light.groups = true) (i : Nat) (f : Group → Group) :
    s.modifyGroups (fun j _ => decide (j = i)) f = s.modifyGroup i f := by
  unfold State.modifyGroups
  rw [Table.filter_number w]
  cases hg : s.light.groups.get i with
  | none =>
    unfold State.modifyGroup
    rw [hg]
    rfl
  | some g => rfl

end

end Sys2Proof.Machine
end

