-- ==== Sys2Proof/Proofs/LightingEvents.lean ====
section
/-! SUPPORT. The events of the Lighting Controller: alarm, presence, escort and supervision expiry (R110, R112 to R115,
R122), and the events of a luminaire driver (R117 to R119). -/

namespace Sys2Proof.Machine

/-! ### Alarm, presence, escort and supervision (R110, R113 to R115, R122) -/

theorem presenceNames_bay_iff (b : Nat) (d : GroupDefn) :
    presenceNames (.bay b) d = true ↔ (d.bayRange.any fun r => decide (r.1 ≤ b) && decide (b ≤ r.2)) = true := by
  unfold presenceNames
  cases d.bayRange with
  | none => exact Iff.rfl
  | some r => exact Iff.rfl

theorem presenceNames_ramp_iff (r : Nat) (d : GroupDefn) : presenceNames (.ramp r) d = true ↔ d.ramp = some r :=
  beq_iff_eq

theorem Group.presenceDue_iff (now : Nat) (g : Group) :
    g.presenceDue now = true ↔ ∃ t, g.presence = some t ∧ t ≤ now := by
  unfold Group.presenceDue
  cases g.presence <;> simp

section
variable {s : State} {i sign : Nat} {g : Group} {x : Sign}

/-- A zone change reaches the groups of the zone, over the view that has taken it (R110, R112). -/
theorem effZoneChangeLighting_taken (w : Table.wf s.light.groups = true) (z : Nat) (b : Bool) :
    GroupsTaken { s with light := { s.light with zoneAlarm := s.light.zoneAlarm.set z b } }
      (effZoneChangeLighting z b s) (fun _ g => g.defn.zone == z) id :=
  State.modifyGroups_taken (by exact w) _ fun _ => rfl

theorem effPresenceExpiry_of_none (hg : s.light.groups.get i = none) : effPresenceExpiry i s = s := by
  unfold effPresenceExpiry
  rw [hg]

theorem effPresenceExpiry_of_waiting (hg : s.light.groups.get i = some g) (h : g.presenceDue s.now = false) :
    effPresenceExpiry i s = s := by
  unfold effPresenceExpiry
  rw [hg]
  exact if_neg (Bool.eq_false_iff.mp h)

/-- A presence whose expiry is reached leaves its group (R114). -/
theorem effPresenceExpiry_of_due (hg : s.light.groups.get i = some g) (h : g.presenceDue s.now = true) :
    effPresenceExpiry i s = s.modifyGroup i fun g => { g with presence := none } := by
  unfold effPresenceExpiry State.modifyGroup
  rw [hg]
  exact if_pos h

/-- An escort triggers the lanes of its sign (R115). -/
theorem effEscort_eq (s : State) (sign : Nat) :
    effEscort sign s = (s.escortLanes sign).foldl (fun u j => u.modifyGroup j (Group.trigger s.now)) s := by
  refine foldl_congr_of_invariant (P := fun u : State => u.now = s.now) (fun u j hu => ?_) (fun u j hu => ?_) rfl _
  · exact (u.modifyGroup_changed (f := Group.trigger u.now) j fun _ => rfl).now.trans hu
  · rw [hu]

theorem effEscort_of_noLanes (h : s.escortLanes sign = []) : effEscort sign s = s := by
  unfold effEscort
  rw [h]
  rfl

theorem State.escortLanes_of_noSign (hx : s.guide.signs.get sign = none) : s.escortLanes sign = [] := by
  unfold State.escortLanes
  rw [hx]

theorem State.escortLanes_of_noDirection (hx : s.guide.signs.get sign = some x)
    (h : ∀ k, x.display.chosen = some k → x.defn.directions[k]? = none) : s.escortLanes sign = [] := by
  have hnone : (x.display.chosen.bind fun k => x.defn.directions[k]?) = none := Option.bind_eq_none_iff.mpr h
  unfold State.escortLanes
  rw [hx]
  dsimp only
  rw [hnone]

theorem State.escortLanes_of_direction {k : Nat} {d : RouteDirection} (hx : s.guide.signs.get sign = some x)
    (hk : x.display.chosen = some k) (hd : x.defn.directions[k]? = some d) : s.escortLanes sign = d.lanes := by
  have hsome : (x.display.chosen.bind fun k => x.defn.directions[k]?) = some d :=
    Option.bind_eq_some_iff.mpr ⟨k, hk, hd⟩
  unfold State.escortLanes
  rw [hx]
  dsimp only
  rw [hsome]

end

/-- Settles O37: each event changes the inputs of the groups that meet its test, or of the lanes of its sign. -/
theorem lightingEventsRetargetTheGroups : Obligations.LightingEventsRetargetTheGroups := by
  intro s hs w _ taken trigger
  have taken_of {view : List Bool} {test : Nat → Group → Bool} {concerned : Nat → Group → Prop}
      [∀ i, DecidablePred (concerned i)] {f : Group → Group} {u : State}
      (htest : ∀ j g, test j g = true ↔ concerned j g)
      (h : GroupsTaken { s with light := { s.light with zoneAlarm := view } } u test f) :
      u.light.zoneAlarm = view ∧ taken u concerned f := by
    obtain ⟨hgroups, hframe⟩ := h.over htest
    exact ⟨h.zoneAlarm, hgroups, h.mode, hframe⟩
  have changed {e : Instr} {test : Nat → Group → Bool} {concerned : Nat → Group → Prop}
      [∀ i, DecidablePred (concerned i)] {f : Group → Group} (htest : ∀ j g, test j g = true ↔ concerned j g)
      (hf : ∀ g, (f g).defn = g.defn) (he : effect e s = s.modifyGroups test f) :
      ∃ u, exec e s = .next (settle u) ∧ u.light.zoneAlarm = s.light.zoneAlarm ∧ taken u concerned f :=
    ⟨_, exec_of_calm hs, taken_of htest (he ▸ State.modifyGroups_taken w test hf)⟩
  have still {e : Instr} (he : effect e s = s) : exec e s = .next (settle s) := by rw [exec_of_calm hs, he]
  refine ⟨fun z b _ => ⟨effZoneChangeLighting z b s, exec_of_calm hs,
      taken_of (fun _ _ => beq_iff_eq) (effZoneChangeLighting_taken w z b)⟩,
    fun b => changed (fun _ g => presenceNames_bay_iff b g.defn) (fun _ => rfl) rfl,
    fun r => changed (fun _ g => presenceNames_ramp_iff r g.defn) (fun _ => rfl) rfl,
    changed (fun _ _ => iff_of_true rfl trivial) (fun _ => rfl) rfl,
    fun i g hg => ⟨fun t ht hnow => ?due, fun hwait => ?wait⟩,
    fun i hg => still (effPresenceExpiry_of_none hg),
    fun sign => ⟨fun hx => ?noSign, fun x hx => ⟨fun hnone => ?noDirection, fun k d hk hd once => ?lanes⟩⟩⟩
  case due =>
    refine changed (fun _ _ => decide_eq_true_iff) (fun _ => rfl) ?_
    exact (effPresenceExpiry_of_due hg ((g.presenceDue_iff s.now).mpr ⟨t, ht, hnow⟩)).trans
      (State.modifyGroups_number w i _).symm
  case wait =>
    refine still (effPresenceExpiry_of_waiting hg (Bool.eq_false_iff.mpr fun hdue => ?_))
    obtain ⟨t, ht, hnow⟩ := (g.presenceDue_iff s.now).mp hdue
    exact Nat.not_lt.mpr hnow (hwait t ht)
  case noSign => exact still (effEscort_of_noLanes (State.escortLanes_of_noSign hx))
  case noDirection => exact still (effEscort_of_noLanes (State.escortLanes_of_noDirection hx hnone))
  case lanes =>
    have h : GroupsChanged s (effEscort sign s) d.lanes trigger := by
      rw [effEscort_eq, State.escortLanes_of_direction hx hk hd]
      exact s.foldl_modifyGroup_changed once fun _ => rfl
    refine ⟨effEscort sign s, exec_of_calm hs, fun j => ?_, h.zoneAlarm, h.mode, ?_⟩
    · rw [h.targeted]
      exact h.groups j
    · rw [h.targeted]
      exact h.frame

/-! ### The events of a luminaire driver (R117 to R119) -/

/-- A group after the outcome of a write: an accepted one applies the in-flight level, which leaves in any case
(R117). -/
def Group.written (accepted : Bool) (g : Group) : Group :=
  { g with applied := if accepted then g.inFlight.or g.applied else g.applied, inFlight := none }

theorem Group.written_eq (accepted : Bool) (g : Group) :
    g.written accepted
      = match g.inFlight with
        | some l => if accepted then { g with applied := some l, inFlight := none } else { g with inFlight := none }
        | none => g := by
  obtain ⟨defn, override, presence, target, cause, inFlight, applied, conditions⟩ := g
  cases inFlight <;> cases accepted <;> rfl

theorem effLampWriteOutcome_eq (s : State) (n : NodeId) (accepted : Bool) :
    effLampWriteOutcome n accepted s = s.touchGroups n (Group.written accepted) := by
  rw [funext (Group.written_eq accepted)]
  rfl

/-- The field of output `o` in the two bytes of a READ reply, output 0 in the top bits of the first (R118, log 44). -/
def lampField (b1 b0 : Byte) (o : Nat) : Nat := (if o < 4 then b1 else b0).toNat / 4 ^ (3 - o % 4) % 4

theorem flatMap_quads_eq (b1 b0 : Byte) : [b1, b0].flatMap quads = (List.range 8).map (lampField b1 b0) := by
  simp [quads, lampField, List.range_succ]

/-- The condition of output `o` in the two bytes of a READ reply; a driver has eight outputs. -/
def reportedCondition (b1 b0 : Byte) (o : Nat) : LampCondition :=
  if 8 ≤ o then .unknown else lampConditionOf (lampField b1 b0 o)

theorem lampConditionOf_eq (k : Nat) :
    lampConditionOf k = if k = 0 then .ok else if k = 2 then .notFitted else .failed := by
  match k with
  | 0 | 1 | 2 | _ + 3 => rfl

theorem parseLamp_bytes (b1 b0 : Byte) :
    parseLamp [b1, b0] = some ((List.range 8).map fun o => lampConditionOf (lampField b1 b0 o)) := by
  refine (if_pos rfl).trans ?_
  rw [flatMap_quads_eq, List.map_map]
  rfl

theorem getD_reported (b1 b0 : Byte) (o : Nat) :
    ((List.range 8).map fun o => lampConditionOf (lampField b1 b0 o)).getD o .unknown = reportedCondition b1 b0 o := by
  unfold reportedCondition
  by_cases ho : 8 ≤ o
  · simp [ho]
  · simp [ho, Nat.not_le.mp ho]

/-- A READY reply stores the conditions of the outputs of the node's groups, and hands a change of them on (R118). -/
theorem effLampReport_ready (s : State) (n : NodeId) (b1 b0 : Byte) :
    let t := s.touchGroups n fun g => { g with conditions := g.defn.outputs.map (reportedCondition b1 b0) }
    effLampReport n true [b1, b0] s
      = if nodeConditions s.light.groups n = nodeConditions t.light.groups n then t
        else t.setReport n (.lamp (nodeConditions t.light.groups n)) := by
  unfold effLampReport Group.takeReport
  rw [if_pos rfl, parseLamp_bytes]
  simp only [getD_reported]
  rfl

/-- Settles O38: every event of a driver changes the groups that name its node, each by itself. -/
theorem lampOutcomesReportsAndNodeEventsAreTaken : Obligations.LampOutcomesReportsAndNodeEventsAreTaken := by
  intro s n hs on unknowns
  have taken {e : Instr} {t : State} (he : effect e s = t) : exec e s = .next (settle t) := by
    rw [exec_of_calm hs, he]
  refine ⟨fun accepted => taken (effLampWriteOutcome_eq s n accepted), taken rfl, taken rfl, taken rfl,
    fun b1 b0 => ⟨taken rfl, ?_⟩⟩
  intro code reported t
  have hreported : reported = reportedCondition b1 b0 := by
    funext o
    unfold reportedCondition
    rw [lampConditionOf_eq]
    rfl
  refine taken ((effLampReport_ready s n b1 b0).trans ?_)
  rw [← hreported]
  rfl

end Sys2Proof.Machine
end

