-- ==== Sys2Proof/Proofs/LightingRequests.lean ====
section
/-! SUPPORT. SITE-MODE, GROUP-OVERRIDE, GROUP-RELEASE and GROUP-QUERY (R120, R121, R125). -/

namespace Sys2Proof.Machine

/-! ### SITE-MODE (R120) -/

theorem siteModeOf_of_two_le {k : Nat} (h : 2 ≤ k) : siteModeOf k = none := by
  match k, h with
  | _ + 2, _ => rfl

section
variable {s : State} {k : Nat} {m : SiteMode}

theorem ownSiteMode_outOfRange (h : 2 ≤ k) : ownSiteMode k s = .error .outOfRange := by
  unfold ownSiteMode
  rw [siteModeOf_of_two_le h]

theorem ownSiteMode_of_same (hk : siteModeOf k = some m) (hm : s.light.mode = m) :
    ownSiteMode k s = accept false s := by
  unfold ownSiteMode
  rw [hk]
  exact if_pos hm

/-- A new site mode retargets every group, is handed on and marks the site. -/
theorem ownSiteMode_of_other (hk : siteModeOf k = some m) (hm : s.light.mode ≠ m) :
    ownSiteMode k s
      = accept false
          (((State.modifyGroups (fun _ _ => true) id { s with light := { s.light with mode := m } }).hand
            (.siteModeFloorChange m)).mark .site) := by
  unfold ownSiteMode
  rw [hk]
  exact if_neg hm

end

/-! ### A range of groups (R121) -/

section
variable {s : State} {first last : Nat} {clamped : Bool} {f : Group → Group}

theorem ownGroupRange_outOfRange (h : 192 ≤ first ∨ 192 ≤ last ∨ last < first) :
    ownGroupRange first last clamped f s = .error .outOfRange := by
  refine refuseIf_of_true ?_
  simp only [Bool.or_eq_true, decide_eq_true_eq]
  unfold Config.groups
  omega

/-- With its range in order the request goes on to the groups of the range. -/
theorem ownGroupRange_inRange (hfl : first ≤ last) (hl : last < 192) :
    ownGroupRange first last clamped f s
      = refuseIf (s.light.groups.keys.all fun i => i < first || last < i) .notDefined
          (accept clamped (s.modifyGroups (fun i _ => decide (first ≤ i) && decide (i ≤ last)) f)) := by
  refine refuseIf_of_false ?_
  rw [Bool.eq_false_iff, ne_eq]
  simp only [Bool.or_eq_true, decide_eq_true_eq]
  unfold Config.groups
  omega

/-- Whether no defined group lies in a range. -/
theorem noGroupInRange_iff (w : Table.wf s.light.groups = true) :
    (s.light.groups.keys.all fun i => decide (i < first) || decide (last < i)) = true ↔
      ∀ j, first ≤ j → j ≤ last → s.light.groups.get j = none := by
  simp only [Table.keys, List.all_eq_true, List.forall_mem_map, Bool.or_eq_true, decide_eq_true_eq]
  constructor
  · intro h j hfirst hlast
    refine Option.eq_none_iff_forall_ne_some.mpr fun g hg => ?_
    have := h (j, g) (Table.mem_of_get hg)
    dsimp only at this
    omega
  · intro h e he
    refine Classical.byContradiction fun hin => ?_
    have hnone := h e.1 (by omega) (by omega)
    rw [Table.get_of_mem w he] at hnone
    cases hnone

end

/-! ### GROUP-QUERY (R125) -/

section
variable {i : Nat} {s : State} {g : Group}

theorem ownGroupQuery_outOfRange (hi : 192 ≤ i) : ownGroupQuery i s = .error .outOfRange :=
  refuseIf_of_true (decide_eq_true hi)

theorem ownGroupQuery_undefined (hi : i < 192) (hg : s.light.groups.get i = none) :
    ownGroupQuery i s = .error .notDefined := by
  refine (refuseIf_of_false (decide_eq_false (Nat.not_le.mpr hi))).trans ?_
  rw [hg]

theorem ownGroupQuery_of_group (hi : i < 192) (hg : s.light.groups.get i = some g) :
    ownGroupQuery i s = .ok (s, .data (s.groupData i g)) := by
  refine (refuseIf_of_false (decide_eq_false (Nat.not_le.mpr hi))).trans ?_
  rw [hg]

end

theorem State.framePassed_groupData (s : State) (i : Nat) (g : Group) :
    s.framePassed.groupData i g = s.groupData i g := by
  unfold State.groupData State.standing State.alarmView
  rw [s.framePassed_light, s.framePassed_now, s.framePassed_loops, s.framePassed_node]

theorem u8_toNat (b : Byte) : u8 b.toNat = [b] := by rw [u8, BitVec.ofNat_toNat, BitVec.setWidth_eq]

/-- The two bytes that tell a node's state and its place in the urgent write queue (R107, R125). -/
theorem State.standing_eq (s : State) (n : NodeId) :
    s.standing n
      = [match s.node n with | some x => BitVec.ofNat 8 (nodeStateCode x.state) | none => 0xFF,
        BitVec.ofNat 8 ((s.loops.urgent.contains n).toNat
          + 2 * (match s.node n with | some x => x.refreshOwed.toNat | none => 0))] := by
  unfold State.standing
  cases s.node n <;> rfl

/-- Settles O39: the mode and the ranges retarget the groups they concern, and the record of GROUP-QUERY is told field
by field. -/
theorem lightingRequestsFollowTheirRules : Obligations.LightingRequestsFollowTheirRules := by
  intro s tag r taken byte
  have hlight : r.light = s.light := s.framePassed_light
  have hget {i : Nat} {o : Option Group} (ho : s.light.groups.get i = o) : r.light.groups.get i = o := by
    rw [hlight, ho]
  have taken_of {l : Lighting} {test : Nat → Group → Bool} {concerned : Nat → Prop} [DecidablePred concerned]
      {f : Group → Group} {u : State} (hgroups : l.groups = s.light.groups) (hview : l.zoneAlarm = s.light.zoneAlarm)
      (htest : ∀ j g, test j g = true ↔ concerned j) (h : GroupsTaken { r with light := l } u test f) :
      u.light.mode = l.mode ∧ taken r u concerned f := by
    have hover := h.over htest
    rw [hgroups] at hover
    obtain ⟨hrecords, hframe⟩ := hover
    exact ⟨h.mode, hrecords, h.zoneAlarm.trans hview, hframe⟩
  refine ⟨fun hs w => ⟨fun m => ?siteMode, fun a b v1 v0 => ?ranges⟩, fun hs i => ?query⟩
  case siteMode =>
    have hmode {mode : SiteMode} (hm : m.toNat = match mode with | .opened => 0 | .quiet => 1) :
        siteModeOf m.toNat = some mode := by
      rw [hm]
      cases mode <;> rfl
    refine ⟨fun hm => exec_turnedAway (owner := ownSiteMode) (x := m.toNat) rfl hs rfl rfl (ownSiteMode_outOfRange hm),
      fun mode hm => ⟨fun hsame => ?_, fun hother => ?_⟩⟩
    · exact exec_done (owner := ownSiteMode) (x := m.toNat) rfl hs rfl rfl
        (ownSiteMode_of_same (hmode hm) (by rw [hlight, hsame]))
    · let start : State := { r with light := { s.light with mode := mode } }
      have hchanged : GroupsTaken start (start.modifyGroups (fun _ _ => true) id) (fun _ _ => true) id :=
        State.modifyGroups_taken (by exact w) _ fun _ => rfl
      have hcalm : (start.modifyGroups (fun _ _ => true) id).handed = [] := by
        rw [hchanged.frame]
        exact (State.postAll_handed _ _).trans (s.framePassed_handed.trans hs.handed)
      have hown := ownSiteMode_of_other (s := r) (hmode hm) (by rwa [hlight])
      rw [hlight, State.hand, hcalm] at hown
      exact ⟨_, exec_done (owner := ownSiteMode) (x := m.toNat) rfl hs rfl rfl hown,
        taken_of (l := start.light) rfl rfl (fun _ _ => iff_of_true rfl trivial) hchanged⟩
  case ranges =>
    intro level overriding back
    have wr : Table.wf r.light.groups = true := by rwa [hlight]
    have refused {e : RefusalCode} (ho : ∀ c f, ownGroupRange a.toNat b.toNat c f r = .error e) :
        exec overriding s = .next (r.turnedAway tag e) ∧ exec back s = .next (r.turnedAway tag e) :=
      ⟨exec_turnedAway (owner := ownGroupOverride) (x := (a.toNat, b.toNat, level)) rfl hs rfl rfl (ho _ _),
        exec_turnedAway (owner := ownGroupRelease) (x := (a.toNat, b.toNat)) rfl hs rfl rfl (ho _ _)⟩
    have hrange (j : Nat) (_ : Group) :
        (decide (a.toNat ≤ j) && decide (j ≤ b.toNat)) = true ↔ a.toNat ≤ j ∧ j ≤ b.toNat := by simp
    have changed (f : Group → Group) (hf : ∀ g, (f g).defn = g.defn) :
        let u := r.modifyGroups (fun j _ => decide (a.toNat ≤ j) && decide (j ≤ b.toNat)) f
        u.light.mode = s.light.mode ∧ taken r u (fun j => a.toNat ≤ j ∧ j ≤ b.toNat) f := by
      rw [← hlight]
      exact taken_of (congrArg Lighting.groups hlight) (congrArg Lighting.zoneAlarm hlight) hrange
        (State.modifyGroups_taken wr _ hf)
    refine ⟨fun hbad => refused fun c f => ownGroupRange_outOfRange hbad,
      fun hab hb => ⟨fun hnone => ?_, fun hsome => ?_⟩⟩
    · refine refused fun c f => (ownGroupRange_inRange hab hb).trans (refuseIf_of_true ?_)
      rw [hlight]
      exact (noGroupInRange_iff w).mpr hnone
    · have hdefined : (r.light.groups.keys.all fun i => decide (i < a.toNat) || decide (b.toNat < i)) = false := by
        rw [hlight, ← Bool.not_eq_true, noGroupInRange_iff w]
        obtain ⟨j, hfirst, hlast, hj⟩ := hsome
        exact fun hnone => hj (hnone j hfirst hlast)
      have accepted (c : Bool) (f : Group → Group) :=
        (ownGroupRange_inRange (s := r) (clamped := c) (f := f) hab hb).trans (refuseIf_of_false hdefined)
      exact ⟨⟨_, exec_done (owner := ownGroupOverride) (x := (a.toNat, b.toNat, level)) rfl hs rfl rfl (accepted _ _),
          changed (fun g => { g with override := some (min 1000 level) }) fun _ => rfl⟩,
        ⟨_, exec_done (owner := ownGroupRelease) (x := (a.toNat, b.toNat)) rfl hs rfl rfl (accepted _ _),
          changed (fun g => { g with override := none }) fun _ => rfl⟩⟩
  case query =>
    have refused {e : RefusalCode} (ho : ownGroupQuery i.toNat r = .error e) :
        exec (.groupQuery tag [i]) s = .next (r.turnedAway tag e) :=
      exec_turnedAway (owner := ownGroupQuery) (x := i.toNat) rfl hs rfl rfl ho
    refine ⟨fun hi => refused (ownGroupQuery_outOfRange hi),
      fun hi hg => refused (ownGroupQuery_undefined hi (hget hg)), ?_⟩
    intro g hi hg orFFFF code
    refine (exec_told (owner := ownGroupQuery) (x := i.toNat) rfl hs rfl rfl
      (ownGroupQuery_of_group hi (hget hg))).trans (congrArg (fun d => Host.Outcome.next (r.told tag d)) ?_)
    have hones (o : Option Nat) : orOnes 2 (o.map u16) = orFFFF o := by cases o <;> rfl
    have hramp : idByte g.defn.ramp = [match g.defn.ramp with | some p => byte p | none => 0xFF] := by
      cases g.defn.ramp <;> rfl
    have hleft : orFFFF (g.presenceLeft s.now)
        = match g.presence with
          | some t => if s.now < t then u16 (t - s.now) else [0xFF, 0xFF]
          | none => [0xFF, 0xFF] := by
      unfold Group.presenceLeft
      cases g.presence with
      | none => rfl
      | some t => by_cases ht : s.now < t <;> simp [ht, orFFFF]
    have hconditions : g.conditions.flatMap (fun c => u8 (lampConditionCode c))
        = g.conditions.map fun c => byte (lampConditionCode c) := List.map_eq_flatMap.symm
    have hcode : outputCode g.defn.polarity g.target
        = match g.defn.polarity with | .normal => code | .inverted => 1023 - code := by
      unfold outputCode
      cases g.defn.polarity <;> rfl
    have hfade : g.fade
        = match g.applied with | some a => if a ≤ g.target then 0 else g.defn.fadeTime | none => 0 := by
      unfold Group.fade
      cases g.applied <;> rfl
    rw [State.framePassed_groupData, State.groupData, groupDefnBytes, u8_toNat, counted, flatMap_u8, hramp, hones,
      hones, hones, hones, hleft, hcode, hfade, hconditions, State.standing_eq]
    simp only [List.append_assoc]
    cases g.defn.bayRange <;> rfl

end Sys2Proof.Machine
end

