-- ==== Sys2Proof/Proofs/GroupDefs.lean ====
section
/-! SUPPORT. GROUP-DEF, its checks in order and what it makes of the group (R123, R124). -/

namespace Sys2Proof.Machine

/-! ### The body of GROUP-DEF (11.2) -/

/-- The request of GROUP-DEF from its bytes. -/
def groupDefReqOf (i f z l a p f1 f0 e1 e0 rm v1 v0 h1 h0 fd : Byte) (os : List Byte) : GroupDefReq :=
  ⟨i.toNat, removeFlag f, f.getLsbD 1, f.getLsbD 2, z.toNat, l.toNat, a.toNat, os.map BitVec.toNat, p.toNat,
    nat16 f1 f0, nat16 e1 e0, rm.toNat, nat16 v1 v0, nat16 h1 h0, fd.toNat⟩

theorem parseGroupDef_bytes {os : List Byte} (hos : os.length < 256)
    (i f z l a p f1 f0 e1 e0 rm v1 v0 h1 h0 fd : Byte) :
    parseGroupDef
        ([i, f, z, l, a, BitVec.ofNat 8 os.length] ++ os ++ [p, f1, f0, e1, e0, rm, v1, v0, h1, h0, fd])
      = some (groupDefReqOf i f z l a p f1 f0 e1 e0 rm v1 v0 h1 h0 fd os) := by
  have hbody : [i, f, z, l, a, BitVec.ofNat 8 os.length] ++ os ++ [p, f1, f0, e1, e0, rm, v1, v0, h1, h0, fd]
      = i :: f :: z :: l :: a :: BitVec.ofNat 8 os.length
        :: (os ++ [p, f1, f0, e1, e0, rm, v1, v0, h1, h0, fd]) := by
    simp
  rw [hbody, parseGroupDef, takeCounted_counted hos]
  rfl

/-! ### The ranges of GROUP-DEF (R123) -/

/-- The polarity of a code in range. -/
def polarityAt (k : Nat) : Polarity := if k = 0 then .normal else .inverted

theorem polarityOf_eq_some_iff {k : Nat} {p : Polarity} : polarityOf k = some p ↔ k < 2 ∧ p = polarityAt k := by
  match k with
  | 0 | 1 => simp [polarityOf, polarityAt, eq_comm]
  | k + 2 =>
    have hout : ¬ k + 2 < 2 := by omega
    simp [polarityOf, hout]

theorem GroupDefReq.refsOk_iff (r : GroupDefReq) :
    r.refsOk = true ↔
      (r.hasRange = true → r.firstBay ≤ r.lastBay ∧ r.lastBay < 2048) ∧ (r.hasRamp = true → r.ramp < 32) := by
  unfold GroupDefReq.refsOk Config.bays Config.ramps
  cases r.hasRange <;> cases r.hasRamp <;> simp <;> omega

/-- Whether the zone, the outputs, the bay range or the ramp lie outside their ranges. -/
def GroupDefReq.badField (r : GroupDefReq) : Bool :=
  Config.zones ≤ r.zone || r.outputs.length == 0 || 8 < r.outputs.length || !r.outputs.all (· < 8) || !r.refsOk

theorem GroupDefReq.badField_eq_false_iff (r : GroupDefReq) :
    r.badField = false ↔
      r.zone < 24 ∧ 1 ≤ r.outputs.length ∧ r.outputs.length ≤ 8 ∧ (∀ o ∈ r.outputs, o < 8)
        ∧ (r.hasRange = true → r.firstBay ≤ r.lastBay ∧ r.lastBay < 2048) ∧ (r.hasRamp = true → r.ramp < 32) := by
  simp only [GroupDefReq.badField, Bool.or_eq_false_iff, Bool.not_eq_false', List.all_eq_true, decide_eq_true_eq,
    decide_eq_false_iff_not, beq_eq_false_iff_ne, Nat.not_lt, Nat.not_le, Nat.one_le_iff_ne_zero, refsOk_iff, and_assoc]
  exact Iff.rfl

theorem GroupDefReq.clamped_eq (r : GroupDefReq) :
    r.clamped = decide (1000 < r.presenceLevel ∨ r.holdTime < 5 ∨ 1800 < r.holdTime ∨ 60 < r.fadeTime) := by
  simp only [GroupDefReq.clamped, Bool.decide_or, Bool.or_assoc]

/-! ### The checks of GROUP-DEF in their order (R123) -/

section
variable {r : GroupDefReq} {s : State} {n : NodeId} {x : Node} {g : Group}

theorem ownGroupDef_of_noGroup (hi : 192 ≤ r.group) : ownGroupDef r s = .error .outOfRange :=
  refuseIf_of_true (decide_eq_true hi)

/-- A group within the range goes on to the remove flag. -/
theorem refuseIf_groups {rest : Owned} (hi : r.group < 192) :
    refuseIf (decide (Config.groups ≤ r.group)) .outOfRange rest = rest :=
  refuseIf_of_false (decide_eq_false (Nat.not_le.mpr hi))

theorem ownGroupDef_remove_of_none (hi : r.group < 192) (hf : r.remove = true)
    (hg : s.light.groups.get r.group = none) :
    ownGroupDef r s = .error .notDefined := by
  unfold ownGroupDef
  rw [refuseIf_groups hi, if_pos hf, hg]

/-- The removal of a group deletes its record and posts its node (R124). -/
theorem ownGroupDef_remove_of_some (hi : r.group < 192) (hf : r.remove = true)
    (hg : s.light.groups.get r.group = some g) :
    ownGroupDef r s
      = accept false
          (({ s with light := { s.light with groups := s.light.groups.del r.group } } : State).post g.defn.node) := by
  unfold ownGroupDef
  rw [refuseIf_groups hi, if_pos hf, hg]

/-- The ranges are checked before what the request names. -/
theorem ownGroupDef_of_badField (hi : r.group < 192) (hf : r.remove = false)
    (hbad : nodeOf r.loop r.addr = none ∨ ¬ r.polarity < 2 ∨ r.badField = true) :
    ownGroupDef r s = .error .outOfRange := by
  unfold ownGroupDef
  rw [refuseIf_groups hi, if_neg (by simp [hf])]
  cases hn : nodeOf r.loop r.addr with
  | none => rfl
  | some n =>
    cases hp : polarityOf r.polarity with
    | none => rfl
    | some p =>
      obtain ⟨hpolarity, -⟩ := polarityOf_eq_some_iff.mp hp
      have hfield : r.badField = true := (hbad.resolve_left (by simp [hn])).resolve_left (not_not_intro hpolarity)
      exact refuseIf_of_true hfield

/-- The request defines a group with its fields in range. -/
structure GroupDefReq.Places (r : GroupDefReq) (n : NodeId) : Prop where
  group : r.group < 192
  define : r.remove = false
  node : nodeOf r.loop r.addr = some n
  polarity : polarityOf r.polarity = some (polarityAt r.polarity)
  fields : r.badField = false

/-- With its fields in range GROUP-DEF goes on to the zone and the node. -/
theorem ownGroupDef_undefined (hp : r.Places n) (hu : s.zone r.zone = none ∨ s.node n = none) :
    ownGroupDef r s = .error .notDefined := by
  unfold ownGroupDef
  rw [refuseIf_groups hp.group, if_neg (by simp [hp.define]), hp.node, hp.polarity]
  refine (refuseIf_of_false hp.fields).trans ?_
  cases hx : s.node n with
  | none => rfl
  | some x =>
    have hzone : s.zoneDefined r.zone = false := State.zoneDefined_of_none (hu.resolve_right (by simp [hx]))
    exact refuseIf_of_true (by rw [hzone]; rfl)

/-- The request names a defined zone and a node with an entry. -/
structure GroupDefReq.Named (r : GroupDefReq) (s : State) (n : NodeId) (x : Node) : Prop extends r.Places n where
  zoneDefined : s.zoneDefined r.zone = true
  entry : s.node n = some x

/-- Whether the request holds an output twice, or another group of the node owns one of its outputs. -/
def GroupDefReq.outputsTaken (r : GroupDefReq) (s : State) (n : NodeId) : Bool :=
  !distinct r.outputs
    || s.light.groups.anyOther r.group fun g => g.defn.node == n && g.defn.outputs.any fun o => r.outputs.contains o

theorem GroupDefReq.outputsTaken_iff :
    r.outputsTaken s n = true ↔
      ¬ r.outputs.Nodup
        ∨ ∃ e ∈ s.light.groups, e.1 ≠ r.group ∧ e.2.defn.node = n ∧ ∃ o ∈ e.2.defn.outputs, o ∈ r.outputs := by
  simp [GroupDefReq.outputsTaken, Table.anyOther, ← distinct_eq_true_iff]

theorem ownGroupDef_conflict (hp : r.Named s n x) (hc : x.defn.role ≠ .lamp ∨ r.outputsTaken s n = true) :
    ownGroupDef r s = .error .conflict := by
  unfold ownGroupDef
  rw [refuseIf_groups hp.group, if_neg (by simp [hp.define]), hp.node, hp.polarity]
  refine (refuseIf_of_false hp.fields).trans ?_
  rw [hp.entry]
  dsimp only
  rw [refuseIf_of_false (by simp [hp.zoneDefined])]
  by_cases hrole : x.defn.role = .lamp
  · rw [refuseIf_of_false (by simp [hrole])]
    exact refuseIf_of_true (hc.resolve_left (not_not_intro hrole))
  · exact refuseIf_of_true (by simpa using hrole)

/-! ### What GROUP-DEF makes of the group (R124) -/

/-- The request passes every check of R123. -/
structure GroupDefReq.Free (r : GroupDefReq) (s : State) (n : NodeId) (x : Node) : Prop extends r.Named s n x where
  role : x.defn.role = .lamp
  outputsFree : r.outputsTaken s n = false

/-- A group right after its creation: no override, no presence, no level, and conditions UNKNOWN (R124). -/
def GroupDefn.fresh (d : GroupDefn) : Group :=
  { defn := d, override := none, presence := none, target := 0, cause := .base, inFlight := none, applied := none
    conditions := d.outputs.map fun _ => .unknown }

/-- What GROUP-DEF does when every check has passed. -/
theorem ownGroupDef_of_free (hp : r.Free s n x) :
    let d := r.defn n (polarityAt r.polarity)
    (s.light.groups.get r.group = none →
      ownGroupDef r s = accept r.clamped ((s.putGroup r.group (s.targeted d.fresh)).post n))
    ∧ ∀ g, s.light.groups.get r.group = some g →
      (g.defn = d → ownGroupDef r s = accept r.clamped s)
      ∧ (g.defn ≠ d → g.defn.node = n →
        let h := s.targeted { g with defn := d, conditions := carryConditions g d.outputs }
        ownGroupDef r s
          = accept r.clamped
              (if g.target ≠ h.target ∨ g.defn.polarity ≠ d.polarity ∨ g.defn.outputs ≠ d.outputs then
                (s.putGroup r.group h).post n
              else s.putGroup r.group h))
      ∧ (g.defn.node ≠ n →
        ownGroupDef r s
          = accept r.clamped
              ((s.putGroup r.group (s.targeted (Group.lost { g with defn := d }))).postAll [g.defn.node, n])) := by
  have fields := hp.fields
  have outputsFree := hp.outputsFree
  unfold GroupDefReq.badField at fields
  unfold GroupDefReq.outputsTaken at outputsFree
  unfold ownGroupDef
  rw [refuseIf_groups hp.group, if_neg (by simp [hp.define]), hp.node, hp.polarity]
  dsimp only
  rw [refuseIf_of_false fields, hp.entry]
  dsimp only
  rw [refuseIf_of_false (by simp [hp.zoneDefined]), refuseIf_of_false (by simp [hp.role]),
    refuseIf_of_false outputsFree]
  refine ⟨fun hg => ?_, fun g hg => ⟨fun hd => ?_, fun hd hnode => ?_, fun hnode => ?_⟩⟩
  · rw [hg]
    rfl
  · rw [hg]
    exact if_pos hd
  · rw [hg]
    exact (if_neg hd).trans (if_pos hnode)
  · have hd : g.defn ≠ r.defn n (polarityAt r.polarity) := fun h => hnode (congrArg GroupDefn.node h)
    rw [hg]
    exact (if_neg hd).trans (if_neg hnode)

end

/-- Settles O40: each check of R123 in its order, then the case of the group in the table. -/
theorem groupDefFollowsItsRules : Obligations.GroupDefFollowsItsRules := by
  intro s tag i f z l a p f1 f0 e1 e0 rm v1 v0 h1 h0 fd os hs hos fp c put level hold inRange
  let r : GroupDefReq := groupDefReqOf i f z l a p f1 f0 e1 e0 rm v1 v0 h1 h0 fd os
  have hparse : parseGroupDef _ = some r := parseGroupDef_bytes hos i f z l a p f1 f0 e1 e0 rm v1 v0 h1 h0 fd
  have refused {e : RefusalCode} (ho : ownGroupDef r fp = .error e) : exec c s = .next (fp.turnedAway tag e) :=
    exec_turnedAway (owner := ownGroupDef) (x := r) rfl hs rfl hparse ho
  have done {b : Bool} {t u : State} (ho : ownGroupDef r fp = accept b t) (ht : t = u) :
      exec c s = .next (u.done tag b) :=
    ht ▸ exec_done (owner := ownGroupDef) (x := r) rfl hs rfl hparse ho
  have hlight : fp.light = s.light := s.framePassed_light
  have hget {o : Option Group} (ho : s.light.groups.get i.toNat = o) : fp.light.groups.get i.toNat = o := by
    rw [hlight, ho]
  have hput (g : Group) : fp.putGroup r.group g = put g := by
    show { fp with light := { fp.light with groups := fp.light.groups.put i.toNat g } } = _
    rw [hlight]
  have htargeted : fp.targeted = s.targeted :=
    s.targeted_congr s.framePassed_clockMs s.framePassed_store (by rw [hlight]) (by rw [hlight])
  have hfields : r.badField = false ↔ _ := r.badField_eq_false_iff
  simp only [r, groupDefReqOf, List.length_map, List.forall_mem_map] at hfields
  refine ⟨fun hi => refused (ownGroupDef_of_noGroup hi), fun hi hf => ⟨fun hg => ?_, fun g hg => ?_⟩,
    fun hi hf => ⟨fun hbad => ?_, fun n hn hin => ?_⟩⟩
  · exact refused (ownGroupDef_remove_of_none hi hf (hget hg))
  · exact done (ownGroupDef_remove_of_some hi hf (hget hg)) (by rw [hlight]; rfl)
  · refine refused (ownGroupDef_of_badField hi hf (Classical.byContradiction fun hgood => ?_))
    obtain ⟨hnode, hrest⟩ := not_or.mp hgood
    obtain ⟨hpolarity, hfield⟩ := not_or.mp hrest
    obtain ⟨hz, hlow, hhigh, hout, hbays, hramp⟩ := hfields.mp (Bool.eq_false_iff.mpr hfield)
    exact hbad ⟨hz, hnode, hlow, hhigh, hout, Classical.not_not.mp hpolarity, hbays, hramp⟩
  obtain ⟨hz, -, hlow, hhigh, hout, hpolarity, hbays, hramp⟩ := hin
  have placed : r.Places n :=
    ⟨hi, hf, hn, polarityOf_eq_some_iff.mpr ⟨hpolarity, rfl⟩, hfields.mpr ⟨hz, hlow, hhigh, hout, hbays, hramp⟩⟩
  refine ⟨fun hu => refused (ownGroupDef_undefined placed ?_), fun zr x hzr hx => ?_⟩
  · rwa [State.framePassed_zone, State.framePassed_node]
  have named : r.Named fp n x :=
    ⟨placed, State.zoneDefined_of_some ((s.framePassed_zone _).trans hzr), (s.framePassed_node n).trans hx⟩
  intro outs
  have hnodup : outs.Nodup ↔ os.Nodup :=
    List.pairwise_map.trans (by simp only [List.Nodup, ne_eq, BitVec.toNat_inj])
  have htaken : r.outputsTaken fp n = true ↔
      ¬ os.Nodup ∨ ∃ e ∈ s.light.groups, e.1 ≠ i.toNat ∧ e.2.defn.node = n ∧ ∃ o ∈ e.2.defn.outputs, o ∈ outs := by
    rw [GroupDefReq.outputsTaken_iff, hlight, ← hnodup]
    rfl
  refine ⟨fun hc => refused (ownGroupDef_conflict named (hc.imp_right htaken.mpr)), ?_⟩
  intro hrole honce honly d answer unknowns
  have outputsFree : r.outputsTaken fp n = false := by
    rw [← Bool.not_eq_true, htaken, not_or, Classical.not_not]
    exact ⟨honce, fun ⟨e, he, hne, hnode, hshared⟩ => hne (honly e he hnode hshared)⟩
  obtain ⟨create, change⟩ := ownGroupDef_of_free ⟨named, hrole, outputsFree⟩
  have hd : r.defn n (polarityAt r.polarity) = d := rfl
  rw [hd, htargeted, r.clamped_eq] at create change
  refine ⟨fun hg => done (create (hget hg)) (by rw [hput]; rfl), fun g hg => ?_⟩
  obtain ⟨same, kept, moved⟩ := change g (hget hg)
  refine ⟨fun hsame => done (same hsame) rfl, fun hne hnode => ?_, fun hnode => done (moved hnode) (by rw [hput]; rfl)⟩
  intro h
  have hcarry : carryConditions g d.outputs
      = outs.map fun o =>
          if o ∈ g.defn.outputs then g.conditions.getD (g.defn.outputs.idxOf o) .unknown else .unknown := by
    simp only [carryConditions, List.contains_iff_mem]
    rfl
  refine done (kept hne hnode) ?_
  rw [hcarry, hput]

end Sys2Proof.Machine
end

