-- ==== Sys2Proof/Proofs/ListSteps.lean ====
section
/-! SUPPORT. How the scan list reaches an entry and how the entry at its cursor takes an outcome (R148 to R156, R159). -/

namespace Sys2Proof.Machine

/-! ### Changes of the list state (R162) -/

section
variable {s : State}

theorem State.setListState_eq_markWhen (s : State) (x : ListState) :
    s.setListState x
      = ({ s with list := { s.list with state := x } } : State).markWhen (listChangeNoted s.list.state x) .list := rfl

/-- A change that R162 has noted marks the list subject. -/
theorem State.setListState_noted {x : ListState} (h : listChangeNoted s.list.state x = true) :
    s.setListState x = ({ s with list := { s.list with state := x } } : State).mark .list := by
  rw [State.setListState_eq_markWhen, h]
  rfl

/-- A change between RUNNING and PAUSED marks nothing. -/
theorem State.setListState_unnoted {x : ListState} (h : listChangeNoted s.list.state x = false) :
    s.setListState x = { s with list := { s.list with state := x } } := by
  rw [State.setListState_eq_markWhen, h]
  rfl

/-- The list FAULTED at its cursor, with its record and its mark. -/
def State.faultedAt (k : ListErrorKind) (n : Option NodeId) (s : State) : State :=
  ({ s with
      list :=
        { s.list.stopLimit with
          state := .faulted, stopError := some ⟨s.list.cursor, k, n, s.now⟩ } } : State).mark .list

/-- An error stops a RUNNING list (R156). -/
theorem State.faultList_of_running (k : ListErrorKind) (n : Option NodeId) (hr : s.list.state = .running) :
    s.faultList k n = s.faultedAt k n :=
  State.setListState_noted (congrArg (listChangeNoted · .faulted) hr)

/-- A list that becomes IDLE from any other state marks its subject. -/
theorem State.setListState_idle (h : s.list.state ≠ .idle) :
    s.setListState .idle = ({ s with list := { s.list with state := .idle } } : State).mark .list := by
  refine State.setListState_noted ?_
  cases hs : s.list.state with
  | idle => exact absurd hs h
  | running | paused | done | faulted => rfl

end

/-! ### Reaching an entry (R148) -/

/-- The list at an entry of no RUN: the cursor there, nothing remaining and no progress, no JUMP in a row. -/
def ScanList.arrive (i : Nat) (l : ScanList) : ScanList :=
  { l with cursor := i, remaining := none, progress := .absent, jumpRun := 0 }

section
variable {s : State} {fuel : Nat}

theorem State.reach_poll {n : NodeId} {w d : Bool} (h : s.list.entry s.list.cursor = .poll n w d) :
    s.reach (fuel + 1) = { s with list := s.list.arrive s.list.cursor } := by
  rw [State.reach, h]
  rfl

theorem State.reach_run {n : NodeId} {c : Nat} {m : RunMode} {d : Bool}
    (h : s.list.entry s.list.cursor = .run n c m d) :
    s.reach (fuel + 1)
      = { s with
          list :=
            { s.list.arrive s.list.cursor with remaining := some (runCount n c m), progress := runProgress n m } } := by
  rw [State.reach, h]
  rfl

theorem State.reach_pause {ms : Nat} (h : s.list.entry s.list.cursor = .pause ms) :
    s.reach (fuel + 1)
      = ({ s with list := { s.list.arrive s.list.cursor with pauseStart := some s.clockMs } } : State).setListState
          .paused := by
  rw [State.reach, h]
  rfl

theorem State.reach_halt (h : s.list.entry s.list.cursor = .halt) :
    s.reach (fuel + 1) = ({ s with list := s.list.arrive s.list.cursor } : State).setListState .done := by
  rw [State.reach, h]
  rfl

/-- The 256th JUMP in a row is an error. -/
theorem State.reach_lastJump {j r : Nat} (h : s.list.entry s.list.cursor = .jump j) (hr : s.list.jumpRun + 1 = r)
    (hlast : 256 ≤ r) :
    s.reach (fuel + 1)
      = ({ s with list := { s.list.arrive s.list.cursor with jumpRun := r } } : State).faultList .jumpLoop none := by
  subst hr
  rw [State.reach, h]
  exact if_pos hlast

/-- A JUMP before the 256th in a row is followed. -/
theorem State.reach_jump {j : Nat} (h : s.list.entry s.list.cursor = .jump j) (hmore : s.list.jumpRun + 1 < 256) :
    s.reach (fuel + 1)
      = ({ s with list := { s.list.arrive j with jumpRun := s.list.jumpRun + 1 } } : State).reach fuel := by
  rw [State.reach, h]
  exact if_neg (Nat.not_le.mpr hmore)

/-- What an entry is reached with does not depend on the progress of the one before. -/
theorem State.reach_progress (s : State) (p : Progress) (fuel : Nat) :
    (s.withList fun l => { l with progress := p }).reach (fuel + 1) = s.reach (fuel + 1) := by
  let t : State := s.withList fun l => { l with progress := p }
  cases he : s.list.entry s.list.cursor with
  | poll n w d => exact (State.reach_poll (s := t) he).trans (State.reach_poll he).symm
  | run n c m d => exact (State.reach_run (s := t) he).trans (State.reach_run he).symm
  | pause ms => exact (State.reach_pause (s := t) he).trans (State.reach_pause he).symm
  | halt => exact (State.reach_halt (s := t) he).trans (State.reach_halt he).symm
  | jump j =>
    by_cases hlast : 256 ≤ s.list.jumpRun + 1
    · exact (State.reach_lastJump (s := t) he rfl hlast).trans (State.reach_lastJump he rfl hlast).symm
    · have hmore : s.list.jumpRun + 1 < 256 := Nat.lt_of_not_le hlast
      exact (State.reach_jump (s := t) he hmore).trans (State.reach_jump he hmore).symm

/-- The walk ends within 256 JUMPs, so fuel that covers the JUMPs left is as good as more. -/
theorem State.reach_succ_of_covered (hpos : 0 < fuel) (hcover : 256 ≤ fuel + s.list.jumpRun) :
    s.reach (fuel + 1) = s.reach fuel := by
  induction fuel generalizing s with
  | zero => exact absurd hpos (Nat.lt_irrefl 0)
  | succ fuel ih =>
    cases he : s.list.entry s.list.cursor with
    | poll n w d => rw [State.reach_poll he, State.reach_poll he]
    | run n c m d => rw [State.reach_run he, State.reach_run he]
    | pause ms => rw [State.reach_pause he, State.reach_pause he]
    | halt => rw [State.reach_halt he, State.reach_halt he]
    | jump j =>
      by_cases hlast : 256 ≤ s.list.jumpRun + 1
      · rw [State.reach_lastJump he rfl hlast, State.reach_lastJump he rfl hlast]
      · rw [State.reach_jump he (by omega), State.reach_jump he (by omega)]
        refine ih (by omega) ?_
        show 256 ≤ fuel + (s.list.jumpRun + 1)
        omega

end

section
variable {s : State} {i : Nat}

/-- The entry of an index does not depend on the cursor, so a walk begins with the entry given. -/
theorem State.reachAt_poll {n : NodeId} {w d : Bool} (h : s.list.entry i = .poll n w d) :
    s.reachAt i = { s with list := s.list.arrive i } :=
  State.reach_poll (s := s.withList fun l => { l with cursor := i }) h

theorem State.reachAt_run {n : NodeId} {c : Nat} {m : RunMode} {d : Bool} (h : s.list.entry i = .run n c m d) :
    s.reachAt i
      = { s with
          list := { s.list.arrive i with remaining := some (runCount n c m), progress := runProgress n m } } :=
  State.reach_run (s := s.withList fun l => { l with cursor := i }) h

theorem State.reachAt_pause {ms : Nat} (h : s.list.entry i = .pause ms) (hr : s.list.state = .running) :
    s.reachAt i = { s with list := { s.list.arrive i with state := .paused, pauseStart := some s.clockMs } } := by
  refine (State.reach_pause (s := s.withList fun l => { l with cursor := i }) h).trans ?_
  exact State.setListState_unnoted (congrArg (listChangeNoted · .paused) hr)

theorem State.reachAt_halt (h : s.list.entry i = .halt) (hr : s.list.state = .running) :
    s.reachAt i = ({ s with list := { s.list.arrive i with state := .done } } : State).mark .list := by
  refine (State.reach_halt (s := s.withList fun l => { l with cursor := i }) h).trans ?_
  exact State.setListState_noted (congrArg (listChangeNoted · .done) hr)

theorem State.reachAt_jump {j : Nat} (h : s.list.entry i = .jump j) (hj : s.list.jumpRun < 255) :
    s.reachAt i = ({ s with list := { s.list.arrive i with jumpRun := s.list.jumpRun + 1 } } : State).reachAt j := by
  refine (State.reach_jump (s := s.withList fun l => { l with cursor := i }) h (Nat.succ_lt_succ hj)).trans ?_
  refine (State.reach_succ_of_covered (by decide) ?_).symm
  show 256 ≤ 256 + (s.list.jumpRun + 1)
  omega

theorem State.reachAt_lastJump {j : Nat} (h : s.list.entry i = .jump j) (hj : s.list.jumpRun = 255)
    (hr : s.list.state = .running) :
    s.reachAt i
      = ({ s with
            list :=
              { s.list.arrive i with
                state := .faulted, jumpRun := 256, stopError := some ⟨i, .jumpLoop, none, s.now⟩ } } : State).mark
          .list := by
  have hlast : s.list.jumpRun + 1 = 256 := congrArg (· + 1) hj
  refine (State.reach_lastJump (s := s.withList fun l => { l with cursor := i }) h hlast (Nat.le_refl 256)).trans ?_
  exact State.faultList_of_running .jumpLoop none hr

/-- Reaching an entry forgets the progress of the one before. -/
theorem State.reachAt_progress (s : State) (p : Progress) (i : Nat) :
    (s.withList fun l => { l with progress := p }).reachAt i = s.reachAt i :=
  (s.withList fun l => { l with cursor := i }).reach_progress p 256

end

/-! ### Remaining counts (R152 to R155) -/

/-- The remaining count at a number. -/
def State.withRemaining (m : Nat) (s : State) : State := s.withList fun l => { l with remaining := some m }

/-- A SWEEP with a remaining count and the address after one. -/
def State.sweptPast (m a : Nat) (s : State) : State :=
  s.withList fun l => { l with remaining := some m, progress := { l.progress with nextAddr := some (a + 1) } }

section
variable {s : State} {m : Nat}

theorem ScanList.lower_of_succ {l : ScanList} (h : l.remaining = some (m + 1)) :
    l.lower = { l with remaining := some m } := by
  unfold ScanList.lower
  rw [h]
  rfl

theorem State.withList_lower (h : s.list.remaining = some (m + 1)) :
    s.withList ScanList.lower = s.withRemaining m := by
  unfold State.withRemaining State.withList
  rw [ScanList.lower_of_succ h]

/-- A RUN entry with no remaining count left is left. -/
theorem State.endSpent_of_remaining (h : s.list.remaining = some m) :
    s.endSpent = if m = 0 then s.advance else s := by
  unfold State.endSpent
  rw [h]
  simp only [Option.some.injEq]

theorem State.endSpent_withRemaining (s : State) (m : Nat) :
    (s.withRemaining m).endSpent = if m = 0 then (s.withRemaining 0).advance else s.withRemaining m := by
  rw [State.endSpent_of_remaining (s := s.withRemaining m) rfl]
  cases m with
  | zero => rfl
  | succ m => rfl

/-- One address of a SWEEP is done. -/
theorem State.nextSwept_of_progress {a : Nat} (h : s.list.remaining = some (m + 1))
    (ha : s.list.progress.nextAddr = some a) :
    s.nextSwept = if m = 0 then (s.sweptPast m a).advance else s.sweptPast m a := by
  have hlist : { s.list.lower with
      progress := { s.list.progress with nextAddr := s.list.progress.nextAddr.map (· + 1) } }
        = (s.sweptPast m a).list := by
    rw [ScanList.lower_of_succ h, ha]
    rfl
  have hswept : s.nextSwept = (s.sweptPast m a).endSpent :=
    congrArg (fun l => State.endSpent { s with list := l }) hlist
  rw [hswept]
  exact State.endSpent_of_remaining rfl

end

/-! ### Errors (R156) -/

/-- The error kind of a transaction that failed. -/
def failureKind : TxClass → ListErrorKind
  | .noAnswer => .noAnswer
  | .garbled => .garbled
  | .wrongRole => .wrongRole
  | .refused | .good => .refused

theorem errorKindOf_of_failed {c : TxClass} (h : c ≠ .good) : errorKindOf c = some (failureKind c) := by
  cases c with
  | good => exact absurd rfl h
  | noAnswer | garbled | wrongRole | refused => rfl

section
variable {s : State} {n : NodeId} {c m a : Nat} {d : Bool}

/-- The entry is one that an error ends when it does not stop the list: a POLL, or a STOP or REPEAT run. -/
def ListEntry.EndsByError (e : ListEntry) (n : NodeId) (d : Bool) : Prop :=
  (∃ w, e = .poll n w d) ∨ (∃ c, e = .run n c .stop d) ∨ ∃ c, e = .run n c .repeat d

/-- Such an entry is left by the error, or the list stops at it; the limit timer that the error stops has no part in what
the next entry is reached with. -/
theorem State.listError_ending (k : ListErrorKind) (hr : s.list.state = .running)
    (h : (s.list.entry s.list.cursor).EndsByError n d) :
    s.listError k = if d then s.continueError.advance else s.faultedAt k (some n) := by
  have forget : (s.continueError.withList ScanList.stopLimit).advance = s.continueError.advance :=
    s.continueError.reachAt_progress _ _
  rw [← State.faultList_of_running k _ hr, State.listError]
  obtain ⟨w, he⟩ | ⟨c, he⟩ | ⟨c, he⟩ := h
  · rw [he]
  · rw [he, ← forget]
  · rw [he, ← forget]

/-- An IGNORE run goes on with the count it has left after the error, or the list stops at it. -/
theorem State.listError_ignore (k : ListErrorKind) (hr : s.list.state = .running)
    (he : s.list.entry s.list.cursor = .run n c .ignore d) :
    (s.withRemaining m).listError k
      = if d then
          if m = 0 then (s.continueError.withRemaining 0).advance else s.continueError.withRemaining m
        else (s.withRemaining m).faultedAt k (some n) := by
  have he' : (s.withRemaining m).list.entry (s.withRemaining m).list.cursor = .run n c .ignore d := he
  rw [← State.endSpent_withRemaining, ← State.faultList_of_running (s := s.withRemaining m) k _ hr, State.listError,
    he']
  rfl

/-- A SWEEP goes on with its next address, or the list stops with the address swept. -/
theorem State.listError_sweep (k : ListErrorKind) (hr : s.list.state = .running)
    (he : s.list.entry s.list.cursor = .run n c .sweep d) (hm : s.list.remaining = some (m + 1))
    (ha : s.list.progress.nextAddr = some a) :
    s.listError k
      = if d then
          if m = 0 then (s.continueError.sweptPast m a).advance else s.continueError.sweptPast m a
        else s.faultedAt k (some ⟨n.loop, a⟩) := by
  rw [← State.nextSwept_of_progress (s := s.continueError) hm ha, ← State.faultList_of_running k _ hr, State.listError,
    he, ha]
  rfl

end

/-! ### Outcomes (R149 to R155) -/

section
variable {s : State} {o : ListOutcome} {m : Nat}

theorem State.pollOutcome_passed {w : Bool} (h : o.cls = .good ∨ o.cls = .wrongRole ∧ w = false) :
    s.pollOutcome w o = s.advance := by
  unfold State.pollOutcome
  obtain hc | ⟨hc, hw⟩ := h
  · rw [hc]
  · rw [hc, hw]
    rfl

theorem State.pollOutcome_failed {w : Bool} (hc : o.cls ≠ .good) (hw : o.cls = .wrongRole → w = true) :
    s.pollOutcome w o = s.listError (failureKind o.cls) := by
  unfold State.pollOutcome
  cases ho : o.cls with
  | good => exact absurd ho hc
  | wrongRole => exact if_pos (hw ho)
  | noAnswer | garbled | refused => rfl

theorem State.stopOutcome_failed (hc : o.cls ≠ .good) : s.stopOutcome o = s.listError (failureKind o.cls) := by
  unfold State.stopOutcome
  rw [errorKindOf_of_failed hc]

theorem State.stopOutcome_good (hc : o.cls = .good) (h : s.list.remaining = some (m + 1)) :
    s.stopOutcome o
      = if o.ready = false ∨ m = 0 then (s.withRemaining m).advance else s.withRemaining m := by
  unfold State.stopOutcome
  rw [hc, State.withList_lower h]
  dsimp only [errorKindOf]
  cases o.ready with
  | false => simp
  | true => simp [State.endSpent_of_remaining (s := s.withRemaining m) rfl]

/-- Each outcome of an IGNORE run lowers its remaining count first. -/
theorem State.ignoreOutcome_failed (hc : o.cls ≠ .good) (h : s.list.remaining = some (m + 1)) :
    s.ignoreOutcome o = (s.withRemaining m).listError (failureKind o.cls) := by
  unfold State.ignoreOutcome
  rw [errorKindOf_of_failed hc, State.withList_lower h]

theorem State.ignoreOutcome_good (hc : o.cls = .good) (h : s.list.remaining = some (m + 1)) :
    s.ignoreOutcome o = if m = 0 then (s.withRemaining 0).advance else s.withRemaining m := by
  unfold State.ignoreOutcome
  rw [hc, State.withList_lower h]
  exact s.endSpent_withRemaining m

theorem State.repeatOutcome_failed (hc : o.cls ≠ .good) : s.repeatOutcome o = s.listError (failureKind o.cls) := by
  unfold State.repeatOutcome
  rw [errorKindOf_of_failed hc]

/-- A READY reading ends the item. -/
theorem State.repeatOutcome_ready (hc : o.cls = .good) (hr : o.ready = true) (h : s.list.remaining = some (m + 1)) :
    let t := (s.withList ScanList.newItem).withRemaining m
    s.repeatOutcome o = if m = 0 then t.advance else t := by
  have hlower : s.withList (fun l => l.newItem.lower) = (s.withList ScanList.newItem).withRemaining m :=
    State.withList_lower (s := s.withList ScanList.newItem) h
  unfold State.repeatOutcome
  rw [hc, hr, hlower]
  exact State.endSpent_of_remaining rfl

/-- A reading that is not READY leaves the item to its limit. -/
theorem State.repeatOutcome_notReady (hc : o.cls = .good) (hr : o.ready = false) :
    s.repeatOutcome o = if s.list.progress.expired then s.listError .limit else s := by
  unfold State.repeatOutcome
  rw [hc, hr]
  rfl

theorem State.sweepOutcome_garbled (hc : o.cls = .garbled) : s.sweepOutcome o = s.listError .garbled := by
  unfold State.sweepOutcome
  rw [hc]

theorem State.sweepOutcome_counted (hc : o.cls ≠ .garbled) : s.sweepOutcome o = s.nextSwept := by
  unfold State.sweepOutcome
  cases ho : o.cls with
  | garbled => exact absurd ho hc
  | noAnswer | wrongRole | refused | good => rfl

section
variable {n : NodeId} {c : Nat} {w d : Bool}

theorem State.entryOutcome_poll (h : s.list.entry s.list.cursor = .poll n w d) :
    s.entryOutcome o = s.pollOutcome w o := by
  rw [State.entryOutcome, h]

theorem State.entryOutcome_stop (h : s.list.entry s.list.cursor = .run n c .stop d) :
    s.entryOutcome o = s.stopOutcome o := by
  rw [State.entryOutcome, h]

theorem State.entryOutcome_ignore (h : s.list.entry s.list.cursor = .run n c .ignore d) :
    s.entryOutcome o = s.ignoreOutcome o := by
  rw [State.entryOutcome, h]

theorem State.entryOutcome_repeat (h : s.list.entry s.list.cursor = .run n c .repeat d) :
    s.entryOutcome o = s.repeatOutcome o := by
  rw [State.entryOutcome, h]

theorem State.entryOutcome_sweep (h : s.list.entry s.list.cursor = .run n c .sweep d) :
    s.entryOutcome o = s.sweepOutcome o := by
  rw [State.entryOutcome, h]

end

/-! ### The outcome of the transaction in flight (R149, R159) -/

theorem effListOutcome_none (h : s.list.inFlight = none) : effListOutcome o s = s := by
  unfold effListOutcome
  rw [h]

theorem effListOutcome_abandoned {p : NodeId × LoopOp} (h : s.list.inFlight = some p) (ha : s.list.abandoned = true) :
    effListOutcome o s = s.withList fun l => { l with inFlight := none, abandoned := false } := by
  unfold effListOutcome
  rw [h]
  exact if_pos ha

theorem effListOutcome_halting {p : NodeId × LoopOp} (h : s.list.inFlight = some p) (ha : s.list.abandoned = false)
    (hh : s.list.haltPending = true) (hr : s.list.state = .running) :
    effListOutcome o s
      = (s.withList fun l => { l with inFlight := none, haltPending := false, state := .idle }).mark .list := by
  unfold effListOutcome
  rw [h, ha, hh]
  exact State.setListState_noted (congrArg (listChangeNoted · .idle) hr)

theorem effListOutcome_taken {p : NodeId × LoopOp} (h : s.list.inFlight = some p) (ha : s.list.abandoned = false)
    (hh : s.list.haltPending = false) :
    effListOutcome o s = (s.withList fun l => { l with inFlight := none }).entryOutcome o := by
  unfold effListOutcome
  rw [h, ha, hh]
  rfl

/-! ### Timers (R148, R154) -/

theorem effPauseExpiry_of_notPaused (h : s.list.state ≠ .paused) : effPauseExpiry s = s := by
  have hdue : s.pauseDue = false := by
    unfold State.pauseDue
    split
    · next hp _ _ => exact absurd hp h
    · rfl
  exact if_neg (by simp [hdue])

/-- A pause ends at its time, and not before. -/
theorem effPauseExpiry_of_pause {t ms : Nat} (hs : s.list.state = .paused)
    (he : s.list.entry s.list.cursor = .pause ms) (ht : s.list.pauseStart = some t) :
    effPauseExpiry s
      = if t + ms ≤ s.clockMs then
          (s.withList fun l => { l with state := .running, pauseStart := none }).advance
        else s := by
  have hdue : s.pauseDue = decide (t + ms ≤ s.clockMs) := by
    unfold State.pauseDue
    rw [hs, he, ht]
  have hrun : (s.withList fun l => { l with pauseStart := none }).setListState .running
      = s.withList fun l => { l with state := .running, pauseStart := none } :=
    State.setListState_unnoted (congrArg (listChangeNoted · .running) hs)
  unfold effPauseExpiry
  rw [hdue, hrun]
  simp only [decide_eq_true_eq]

theorem effRepeatLimitExpiry_of_stopped (h : s.list.progress.limitRunning = false) : effRepeatLimitExpiry s = s := by
  have hdue : s.limitDue = false := by
    unfold State.limitDue
    rw [h]
    split <;> simp
  exact if_neg (by simp [hdue])

/-- An item meets its limit at its time: a READ in flight is let end, else the item meets an error. -/
theorem effRepeatLimitExpiry_of_item {t : Nat} (hs : s.list.state = .running)
    (ht : s.list.progress.itemStart = some t) (hl : s.list.progress.limitRunning = true)
    (hx : s.list.progress.expired = false) :
    effRepeatLimitExpiry s
      = if t + s.items.repeatLimit ≤ s.clockMs then
          if s.list.inFlight = none then s.listError .limit
          else s.withList fun l => { l with progress := { l.progress with expired := true } }
        else s := by
  have hdue : s.limitDue = decide (t + s.items.repeatLimit ≤ s.clockMs) := by
    unfold State.limitDue
    rw [ht, hs, hl, hx]
    simp
  unfold effRepeatLimitExpiry
  rw [hdue]
  simp only [decide_eq_true_eq]
  cases s.list.inFlight with
  | none => rfl
  | some p => rfl

end

/-! ### The statement -/

/-- Settles O49: each kind of entry reached, each kind of entry in its outcome, and the two timers. -/
theorem listStepsByTheEntryAtItsCursor : Obligations.ListStepsByTheEntryAtItsCursor := by
  refine ⟨fun s i _ => ?reaching, fun s hs => ?stepping⟩
  case reaching =>
    intro at' idle here
    refine ⟨fun n w d he => State.reachAt_poll he, fun n k m d he => (State.reachAt_run he).trans ?_,
      fun ms he hr => State.reachAt_pause he hr, fun j he hj => State.reachAt_jump he hj,
      fun j he hj hr => State.reachAt_lastJump he hj hr, fun he hr => State.reachAt_halt he hr⟩
    cases m <;> rfl
  case stepping =>
    intro l entry withList next calm stop passed
    have outcome {o : ListOutcome} {u : State} (h : effListOutcome o s = u) :
        exec (.listOutcome o) s = .next (settle u) :=
      h ▸ exec_of_calm hs
    have pause {u : State} (h : effPauseExpiry s = u) : exec .pauseExpiry s = .next (settle u) :=
      h ▸ exec_of_calm hs
    have limit {u : State} (h : effRepeatLimitExpiry s = u) : exec .repeatLimitExpiry s = .next (settle u) :=
      h ▸ exec_of_calm hs
    refine ⟨fun o h => outcome (effListOutcome_none h), fun p o h ha => outcome (effListOutcome_abandoned h ha),
      fun p o h ha hh hr => outcome (effListOutcome_halting h ha hh hr), fun p o hf ha hh hr => ?taken,
      fun ms t hp he ht => ?paused, fun t hr ht hl hx => ?limited, fun hl => limit (effRepeatLimitExpiry_of_stopped hl),
      fun hp => pause (effPauseExpiry_of_notPaused hp)⟩
    case taken =>
      intro t answer kind
      have taken {u : State} (h : (withList t).entryOutcome o = u) : answer u :=
        outcome ((effListOutcome_taken hf ha hh).trans h)
      refine ⟨fun n w d he => ?poll, fun n k d m he hm => ?runStop,
        fun n k d m he hm => ?runIgnore, fun n k d m he hm => ?runRepeat, fun n k d m a he hm hnext => ?runSweep⟩
      case poll =>
        have heff := State.entryOutcome_poll (s := withList t) (o := o) he
        refine ⟨fun hpass => taken (heff.trans (State.pollOutcome_passed hpass)), fun hc hw => taken ?_⟩
        rw [heff, State.pollOutcome_failed hc hw]
        exact State.listError_ending kind hr (.inl ⟨w, he⟩)
      case runStop =>
        have heff := State.entryOutcome_stop (s := withList t) (o := o) he
        have hgood (hc : o.cls = .good) := heff.trans (State.stopOutcome_good hc hm)
        refine ⟨fun hc hready h1 => taken ((hgood hc).trans (if_neg ?_)),
          fun hc hend => taken ((hgood hc).trans (if_pos hend)), fun hc => taken ?_⟩
        · simp only [hready, Bool.true_eq_false, false_or]
          omega
        · rw [heff, State.stopOutcome_failed hc]
          exact State.listError_ending kind hr (.inr (.inl ⟨k, he⟩))
      case runIgnore =>
        intro counted
        have heff := State.entryOutcome_ignore (s := withList t) (o := o) he
        exact ⟨fun hc => taken (heff.trans (State.ignoreOutcome_good hc hm)),
          fun hc => taken ((heff.trans (State.ignoreOutcome_failed hc hm)).trans (State.listError_ignore kind hr he))⟩
      case runRepeat =>
        intro fresh
        have heff := State.entryOutcome_repeat (s := withList t) (o := o) he
        have hwait (hc : o.cls = .good) (hready : o.ready = false) :=
          heff.trans (State.repeatOutcome_notReady hc hready)
        have herror (e : ListErrorKind) := State.listError_ending (s := withList t) e hr (.inr (.inr ⟨k, he⟩))
        refine ⟨fun hc hready => taken (heff.trans (State.repeatOutcome_ready hc hready hm)),
          fun hc hready hx => taken ((hwait hc hready).trans (if_neg ?_)),
          fun hc hready hx => taken (((hwait hc hready).trans (if_pos hx)).trans (herror .limit)), fun hc => taken ?_⟩
        · exact Bool.eq_false_iff.mp hx
        · rw [heff, State.repeatOutcome_failed hc]
          exact herror kind
      case runSweep =>
        intro moved counted
        have heff := State.entryOutcome_sweep (s := withList t) (o := o) he
        refine ⟨fun hc => taken ?_, fun hc => taken ?_⟩
        · rw [heff, State.sweepOutcome_counted hc]
          exact State.nextSwept_of_progress hm hnext
        · rw [heff, State.sweepOutcome_garbled hc]
          exact State.listError_sweep .garbled hr he hm hnext
    case paused =>
      have heff := effPauseExpiry_of_pause hp he ht
      exact ⟨fun hearly => pause (heff.trans (if_neg (Nat.not_le.mpr hearly))),
        fun hdue => pause (heff.trans (if_pos hdue))⟩
    case limited =>
      have heff := effRepeatLimitExpiry_of_item hr ht hl hx
      refine ⟨fun hearly => limit (heff.trans (if_neg (Nat.not_le.mpr hearly))), fun hdue => ⟨fun hf => ?_, ?_⟩⟩
      · exact limit ((heff.trans (if_pos hdue)).trans (if_neg hf))
      · intro n k d hf he
        have herror := State.listError_ending .limit hr (.inr (.inr ⟨k, he⟩))
        exact limit (((heff.trans (if_pos hdue)).trans (if_pos hf)).trans herror)

end Sys2Proof.Machine
end

