-- ==== Sys2Proof/Proofs/ListRequests.lean ====
section
/-! SUPPORT. The requests of the Scan List Unit: LIST-LOAD, LIST-GO, LIST-HALT and the three queries (R157 to R161). -/

namespace Sys2Proof.Machine

/-! ### The 5 bytes of an entry (11.4, R157) -/

/-- The five bytes of an entry in LIST-LOAD. -/
abbrev EntryFields := Byte × Byte × Byte × Byte × Byte

/-- The bytes in a row. -/
def EntryFields.bytes (e : EntryFields) : List Byte := [e.1, e.2.1, e.2.2.1, e.2.2.2.1, e.2.2.2.2]

/-- The entry that the bytes give by the table of 11.4, where they are in range. -/
def EntryFields.entry (e : EntryFields) : Option ListEntry :=
  let place := nodeOf e.2.1.toNat (e.2.2.1.toNat % 32)
  let passOver := e.2.2.1.getLsbD 7
  if e.1 = 0 then
    if e.2.2.2.2 = 0 then place.map fun n => .poll n false passOver
    else if e.2.2.2.2 = 1 then place.map fun n => .poll n true passOver else none
  else if e.1 = 1 then
    if e.2.2.2.2 = 0 then place.map fun n => .run n (max 1 e.2.2.2.1.toNat) .stop passOver
    else if e.2.2.2.2 = 1 then place.map fun n => .run n (max 1 e.2.2.2.1.toNat) .ignore passOver
    else if e.2.2.2.2 = 2 then place.map fun n => .run n (max 1 e.2.2.2.1.toNat) .repeat passOver
    else if e.2.2.2.2 = 3 then place.map fun n => .run n (max 1 e.2.2.2.1.toNat) .sweep passOver else none
  else if e.1 = 2 then some (.pause (max 1 (nat16 e.2.1 e.2.2.1)))
  else if e.1 = 3 then some (.jump e.2.1.toNat)
  else if e.1 = 4 then some .halt else none

/-- Whether a count or a duration of 0 is taken as 1. -/
def EntryFields.raised (e : EntryFields) : Bool :=
  (e.1 = 1 && e.2.2.2.1 = 0) || (e.1 = 2 && e.2.1 = 0 && e.2.2.1 = 0)

theorem nat16_eq_zero (h l : Byte) : (nat16 h l == 0) = (decide (h = 0) && decide (l = 0)) := by
  rw [Bool.eq_iff_iff]
  simp only [nat16, beq_iff_eq, Bool.and_eq_true, decide_eq_true_eq, ← toNat_eq_zero_iff]
  omega

/-- A POLL of the table of 11.4: READ at code 0 of the last byte, WRITE at code 1. -/
theorem entryOf_poll (b1 b2 b3 b4 : Byte) :
    entryOf [0, b1, b2, b3, b4] = (EntryFields.entry (0, b1, b2, b3, b4)).map fun x => (x, false) := by
  unfold entryOf EntryFields.entry
  dsimp only
  generalize nodeOf b1.toNat (b2.toNat % 32) = place
  by_cases h0 : b4 = 0
  · subst h0
    cases place <;> rfl
  by_cases h1 : b4 = 1
  · subst h1
    cases place <;> rfl
  have hb : 2 ≤ b4.toNat := by bv_omega
  rw [if_pos rfl, if_neg h0, if_neg h1]
  generalize b4.toNat = code at hb
  match code, hb with
  | _ + 2, _ => cases place <;> rfl

/-- The mode of a RUN by the last byte. -/
theorem runModeOf_byte (b : Byte) :
    runModeOf b.toNat
      = if b = 0 then some .stop else if b = 1 then some .ignore else if b = 2 then some .repeat
        else if b = 3 then some .sweep else none := by
  by_cases h0 : b = 0
  · subst h0; rfl
  by_cases h1 : b = 1
  · subst h1; rfl
  by_cases h2 : b = 2
  · subst h2; rfl
  by_cases h3 : b = 3
  · subst h3; rfl
  have hb : 4 ≤ b.toNat := by bv_omega
  rw [if_neg h0, if_neg h1, if_neg h2, if_neg h3]
  match b.toNat, hb with
  | _ + 4, _ => rfl

theorem entryOf_run (b1 b2 b3 b4 : Byte) :
    entryOf [1, b1, b2, b3, b4] = (EntryFields.entry (1, b1, b2, b3, b4)).map fun x => (x, b3.toNat == 0) := by
  have hparse : entryOf [1, b1, b2, b3, b4]
      = (runModeOf b4.toNat).bind fun m => (nodeOf b1.toNat (b2.toNat % 32)).map fun n =>
          (.run n (max 1 b3.toNat) m (b2.getLsbD 7), b3.toNat == 0) := by
    unfold entryOf
    dsimp only
    cases nodeOf b1.toNat (b2.toNat % 32) <;> cases runModeOf b4.toNat <;> rfl
  have hone : ¬ (1 : Byte) = 0 := by decide
  rw [hparse, runModeOf_byte]
  unfold EntryFields.entry
  dsimp only
  rw [if_neg hone, if_pos rfl]
  generalize nodeOf b1.toNat (b2.toNat % 32) = place
  by_cases h0 : b4 = 0
  · rw [if_pos h0, if_pos h0]
    cases place <;> rfl
  by_cases h1 : b4 = 1
  · rw [if_neg h0, if_pos h1, if_neg h0, if_pos h1]
    cases place <;> rfl
  by_cases h2 : b4 = 2
  · rw [if_neg h0, if_neg h1, if_pos h2, if_neg h0, if_neg h1, if_pos h2]
    cases place <;> rfl
  by_cases h3 : b4 = 3
  · rw [if_neg h0, if_neg h1, if_neg h2, if_pos h3, if_neg h0, if_neg h1, if_neg h2, if_pos h3]
    cases place <;> rfl
  rw [if_neg h0, if_neg h1, if_neg h2, if_neg h3, if_neg h0, if_neg h1, if_neg h2, if_neg h3]
  rfl

/-- A kind code above HALT names no entry. -/
theorem entryOf_of_ge {k : Byte} (hk : 5 ≤ k.toNat) (b1 b2 b3 b4 : Byte) :
    entryOf [k, b1, b2, b3, b4] = none ∧ EntryFields.entry (k, b1, b2, b3, b4) = none := by
  have h0 : k ≠ 0 := by bv_omega
  have h1 : k ≠ 1 := by bv_omega
  have h2 : k ≠ 2 := by bv_omega
  have h3 : k ≠ 3 := by bv_omega
  have h4 : k ≠ 4 := by bv_omega
  constructor
  · unfold entryOf
    dsimp only
    match k.toNat, hk with
    | _ + 5, _ => rfl
  · unfold EntryFields.entry
    dsimp only
    rw [if_neg h0, if_neg h1, if_neg h2, if_neg h3, if_neg h4]

/-- The model reads an entry by the table of 11.4. -/
theorem entryOf_bytes (e : EntryFields) : entryOf e.bytes = e.entry.map fun x => (x, e.raised) := by
  obtain ⟨k, b1, b2, b3, b4⟩ := e
  have hkind : k = 0 ∨ k = 1 ∨ k = 2 ∨ k = 3 ∨ k = 4 ∨ 5 ≤ k.toNat := by bv_omega
  obtain rfl | rfl | rfl | rfl | rfl | hk := hkind
  · exact entryOf_poll b1 b2 b3 b4
  · have hzero : (b3.toNat == 0) = EntryFields.raised (1, b1, b2, b3, b4) := by
      rw [Bool.eq_iff_iff]
      simp [EntryFields.raised, toNat_eq_zero_iff]
    exact hzero ▸ entryOf_run b1 b2 b3 b4
  · exact congrArg (fun z => some (ListEntry.pause _, z)) (nat16_eq_zero b1 b2)
  · rfl
  · rfl
  · obtain ⟨hparse, hentry⟩ := entryOf_of_ge hk b1 b2 b3 b4
    rw [EntryFields.bytes, hparse, hentry]
    rfl

/-! ### The body of LIST-LOAD (11.2, R157) -/

theorem parseFives_bytes (es : List EntryFields) :
    parseFives es.length (es.flatMap EntryFields.bytes) = some (es.map EntryFields.bytes) := by
  induction es with
  | nil => rfl
  | cons e es ih =>
    show (parseFives es.length (es.flatMap EntryFields.bytes)).map (e.bytes :: ·) = _
    rw [ih]
    rfl

theorem parseListLoad_bytes {es : List EntryFields} (h : es.length < 256) (f : Byte) :
    parseListLoad (f :: BitVec.ofNat 8 es.length :: es.flatMap EntryFields.bytes)
      = some (f.toNat, es.map EntryFields.bytes) := by
  have hcount : (BitVec.ofNat 8 es.length).toNat = es.length := Nat.mod_eq_of_lt h
  rw [parseListLoad, hcount, parseFives_bytes]
  rfl

theorem loadEntries_cons (b : List Byte) (t : List (List Byte)) :
    loadEntries (b :: t)
      = (entryOf b).bind fun x => (loadEntries t).map fun y => (x.1 :: y.1, x.2 || y.2) := by
  rw [loadEntries]
  cases entryOf b <;> cases loadEntries t <;> rfl

/-- One entry out of range refuses the whole request. -/
theorem loadEntries_of_none {es : List EntryFields} (h : ∃ e ∈ es, e.entry = none) :
    loadEntries (es.map EntryFields.bytes) = none := by
  induction es with
  | nil => simp at h
  | cons e es ih =>
    rw [List.map_cons, loadEntries_cons, entryOf_bytes]
    cases he : e.entry with
    | none => rfl
    | some x =>
      have htail : ∃ e ∈ es, e.entry = none := by simpa [he] using h
      rw [ih htail]
      rfl

theorem loadEntries_of_some {es : List EntryFields} {xs : List ListEntry}
    (h : es.map EntryFields.entry = xs.map some) :
    loadEntries (es.map EntryFields.bytes) = some (xs, es.any EntryFields.raised) := by
  induction es generalizing xs with
  | nil => cases xs with
    | nil => rfl
    | cons x xs => cases h
  | cons e es ih => cases xs with
    | nil => cases h
    | cons x xs =>
      obtain ⟨he, hes⟩ := List.cons.inj h
      rw [List.map_cons, loadEntries_cons, entryOf_bytes, he, ih hes]
      rfl

theorem loadEntries_length {bs : List (List Byte)} {xs : List ListEntry} {c : Bool}
    (h : loadEntries bs = some (xs, c)) : xs.length = bs.length := by
  induction bs generalizing xs c with
  | nil => cases h; rfl
  | cons b bs ih =>
    rw [loadEntries_cons] at h
    obtain ⟨x, -, hx⟩ := Option.bind_eq_some_iff.mp h
    obtain ⟨y, hy, hxy⟩ := Option.map_eq_some_iff.mp hx
    cases hxy
    exact congrArg (· + 1) (ih hy)

/-! ### LIST-LOAD (R157) -/

section
variable {s : State} {f : Nat}

/-- LIST-LOAD refuses an empty or too long request, a range beyond entry 255, and an entry out of range. -/
theorem ownListLoad_outOfRange {bs : List (List Byte)}
    (h : loadEntries bs = none ∨ bs.length = 0 ∨ 32 < bs.length ∨ 256 < f + bs.length) :
    ownListLoad (f, bs) s = .error .outOfRange := by
  unfold ownListLoad
  cases hl : loadEntries bs with
  | none => rfl
  | some loaded =>
    obtain ⟨xs, c⟩ := loaded
    have hlength : xs.length = bs.length := loadEntries_length hl
    refine refuseIf_of_true ?_
    simp only [Bool.or_eq_true, decide_eq_true_eq, beq_iff_eq, or_assoc, hlength, Config.listEntries]
    exact h.resolve_left (by simp [hl])

/-- The entry in execution is the cursor's of a RUNNING or PAUSED list. -/
theorem ScanList.inExecution_eq (l : ScanList) :
    l.inExecution = if l.state = .running ∨ l.state = .paused then some l.cursor else none := by
  unfold ScanList.inExecution
  cases l.state <;> rfl

theorem ownListLoad_inRange {bs : List (List Byte)} {xs : List ListEntry} {c : Bool}
    (hl : loadEntries bs = some (xs, c)) (h0 : bs.length ≠ 0) (h32 : bs.length ≤ 32) (h256 : f + bs.length ≤ 256) :
    ownListLoad (f, bs) s
      = refuseIf
          (decide ((s.list.state = .running ∨ s.list.state = .paused) ∧ f ≤ s.list.cursor
            ∧ s.list.cursor < f + bs.length)) .busy
          (accept c (s.withList fun l => { l with memory := writeEntries f xs l.memory })) := by
  have hlength : xs.length = bs.length := loadEntries_length hl
  unfold ownListLoad
  dsimp only
  rw [hl]
  dsimp only
  rw [refuseIf_of_false, ScanList.inExecution_eq, hlength]
  · refine congrArg (refuseIf · _ _) ?_
    by_cases hrun : s.list.state = .running ∨ s.list.state = .paused <;> simp [hrun]
  · simp only [Bool.or_eq_false_iff, beq_eq_false_iff_ne, decide_eq_false_iff_not, hlength, Config.listEntries]
    omega

/-! ### LIST-GO and LIST-HALT (R158, R159) -/

theorem listChangeNoted_running (x : ListState) : listChangeNoted x .running = (x != .running && x != .paused) := by
  cases x <;> rfl

/-- Every one-byte index is of the list: the list restarts there. -/
theorem ownListGo_inRange {i : Nat} (hi : i < 256) :
    ownListGo i s
      = accept false
          (((({ s with
              list :=
                { s.list.stopLimit with
                  state := .running, abandoned := s.list.inFlight.isSome, haltPending := false, stopError := none
                  continued := 0, jumpRun := 0, pauseStart := none } } : State).markWhen
              (s.list.state != .running && s.list.state != .paused) .list).reachAt i).mark .list) := by
  rw [← listChangeNoted_running]
  exact refuseIf_of_false (decide_eq_false (Nat.not_le.mpr hi))

/-- The list IDLE with its timers stopped. -/
theorem State.idleList_eq (h : s.list.state ≠ .idle) :
    s.idleList
      = ({ s with list := { s.list.stopLimit with state := .idle, pauseStart := none } } : State).mark .list :=
  State.setListState_idle (s := s.withList fun l => { l.stopLimit with pauseStart := none }) h

theorem ownListHalt_idle (h : s.list.state = .idle) : ownListHalt () s = accept false s := by
  rw [ownListHalt, h]

/-- A list that waits for its own transaction halts at its outcome, and is told so once. -/
theorem ownListHalt_waiting (h : s.list.state = .running) (hf : s.list.inFlight ≠ none)
    (ha : s.list.abandoned = false) :
    ownListHalt () s
      = if s.list.haltPending then accept false s
        else accept false (({ s with list := { s.list.stopLimit with haltPending := true } } : State).mark .list) := by
  have hown : (s.list.inFlight.isSome && !s.list.abandoned) = true := by
    rw [ha, Option.isSome_iff_ne_none.mpr hf]
    rfl
  rw [ownListHalt, h]
  exact if_pos hown

/-- A RUNNING list that waits for no transaction of its own halts at once. -/
theorem ownListHalt_free (h : s.list.state = .running) (hfree : ¬ (s.list.inFlight ≠ none ∧ s.list.abandoned = false)) :
    ownListHalt () s = accept false s.idleList := by
  have hown : ¬ (s.list.inFlight.isSome && !s.list.abandoned) = true := by
    simpa [Option.isSome_iff_ne_none] using hfree
  rw [ownListHalt, h]
  exact if_neg hown

theorem ownListHalt_stopped (h : s.list.state = .paused ∨ s.list.state = .done ∨ s.list.state = .faulted) :
    ownListHalt () s = accept false s.idleList := by
  rw [ownListHalt]
  obtain h | h | h := h <;> rw [h]

/-! ### LIST-READ, LIST-QUERY and FOUND-READ (R160, R161) -/

theorem ownListRead_outOfRange {m : Nat} (h : m = 0 ∨ 32 < m) : ownListRead (f, m) s = .error .outOfRange := by
  refine refuseIf_of_true ?_
  simp only [Bool.or_eq_true, decide_eq_true_eq, beq_iff_eq, or_assoc]
  exact .inr h

theorem ownListRead_inRange {m : Nat} (hf : f < 256) (hm : 1 ≤ m) (hm' : m ≤ 32) :
    ownListRead (f, m) s
      = .ok (s, .data
          ((List.range (min m (256 - f))).flatMap (fun k => entryBytes (s.list.entry (f + k)))
            ++ idByte s.list.inExecution)) := by
  refine refuseIf_of_false ?_
  simp only [Bool.or_eq_false_iff, decide_eq_false_iff_not, beq_eq_false_iff_ne]
  exact ⟨⟨Nat.not_le.mpr hf, Nat.one_le_iff_ne_zero.mp hm⟩, Nat.not_lt.mpr hm'⟩

theorem ownFoundRead_outOfRange {p : Nat} (h : 124 ≤ p) : ownFoundRead p s = .error .outOfRange :=
  refuseIf_of_true (decide_eq_true h)

theorem ownFoundRead_inRange {p : Nat} (h : p < 124) :
    ownFoundRead p s
      = .ok (s, .data
          (u8 s.loops.found.length
            ++ ((s.loops.found.drop p).take 64).flatMap fun r => placeBytes r.node ++ u8 r.role)) :=
  refuseIf_of_false (decide_eq_false (Nat.not_le.mpr h))

theorem optionals_map {α : Type} (o : Option α) (bytes : α → List Byte) :
    optionals [o.map bytes] = match o with | some x => 1 :: bytes x | none => [0] := by
  rw [optionals_singleton]
  cases o <;> rfl

theorem State.progressFields_eq (s : State) :
    s.progressFields
      = match s.list.entry s.list.cursor with
        | .run _ _ .sweep _ =>
          [(match s.list.progress.nextAddr with | some a => BitVec.ofNat 8 a | none => 0xFF), 0]
        | .run _ _ .repeat _ =>
          0xFF :: (match s.list.progress.itemStart with
            | some t => 1 :: u16 (min 65535 (s.clockMs - t))
            | none => [0])
        | _ => [0xFF, 0] := by
  unfold State.progressFields
  cases s.list.entry s.list.cursor with
  | run n c m d =>
    match m with
    | .sweep => cases s.list.progress.nextAddr <;> rfl
    | .repeat =>
      dsimp only
      rw [optionals_map]
      cases s.list.progress.itemStart <;> rfl
    | .stop | .ignore => rfl
  | poll | pause | jump | halt => rfl

theorem stopErrorBytes_eq (e : StopError) :
    stopErrorBytes e
      = [BitVec.ofNat 8 e.index, BitVec.ofNat 8 (listErrorCode e.kind)]
        ++ (match e.node with
          | some n => [BitVec.ofNat 8 (loopCode n.loop), BitVec.ofNat 8 n.addr]
          | none => [Config.unstatedByte 20, 0xFF])
        ++ u32 e.time := by
  obtain ⟨index, kind, node, time⟩ := e
  cases node <;> rfl

/-- LIST-QUERY field by field (log 12: the loop byte of a JUMP_LOOP is unstated). -/
theorem State.listData_eq (s : State) :
    s.listData
      = [BitVec.ofNat 8 (listStateCode s.list.state), BitVec.ofNat 8 s.list.cursor,
          (match s.list.entry s.list.cursor with
            | .poll .. => 0 | .run .. => 1 | .pause _ => 2 | .jump _ => 3 | .halt => 4),
          BitVec.ofNat 8 s.list.haltPending.toNat]
        ++ (match s.list.remaining with | some n => [1, BitVec.ofNat 8 n] | none => [0])
        ++ s.progressFields
        ++ (match s.list.inFlight with
          | some (n, op) => [BitVec.ofNat 8 (loopCode n.loop), BitVec.ofNat 8 n.addr, BitVec.ofNat 8 (opCode op)]
          | none => [0xFF, 0xFF, 0xFF])
        ++ [BitVec.ofNat 8 s.list.abandoned.toNat]
        ++ (match s.list.stopError with | some e => 1 :: stopErrorBytes e | none => [0])
        ++ u16 s.list.continued ++ u16 s.items.repeatLimit ++ [BitVec.ofNat 8 s.items.autoStart.toNat] := by
  have hcode (e : ListEntry) : u8 (entryCode e)
      = [match e with | .poll .. => 0 | .run .. => 1 | .pause _ => 2 | .jump _ => 3 | .halt => 4] := by
    cases e <;> rfl
  have hremaining : optionals [s.list.remaining.map u8]
      = match s.list.remaining with | some n => [1, BitVec.ofNat 8 n] | none => [0] := by
    rw [optionals_map]
    cases s.list.remaining <;> rfl
  have hflight : orOnes 3 (s.list.inFlight.map fun p => placeBytes p.1 ++ u8 (opCode p.2))
      = match s.list.inFlight with
        | some (n, op) => [BitVec.ofNat 8 (loopCode n.loop), BitVec.ofNat 8 n.addr, BitVec.ofNat 8 (opCode op)]
        | none => [0xFF, 0xFF, 0xFF] := by
    cases s.list.inFlight <;> rfl
  have herror : optionals [s.list.stopError.map stopErrorBytes]
      = match s.list.stopError with | some e => 1 :: stopErrorBytes e | none => [0] := by
    rw [optionals_map]
    cases s.list.stopError <;> rfl
  rw [State.listData, hremaining, hflight, herror, hcode]
  rfl

/-- What LIST-QUERY tells rests on the list, the clock and the items. -/
theorem State.listData_congr {t : State} (hl : t.list = s.list) (hc : t.clockMs = s.clockMs)
    (hi : t.store = s.store) : t.listData = s.listData := by
  unfold State.listData State.progressFields State.items
  rw [hl, hc, hi]

end

/-! ### The statement -/

/-- Settles O48: the three queries from the list and the found records, then each request by its checks. -/
theorem listRequestsFollowTheirRules : Obligations.ListRequestsFollowTheirRules := by
  intro s tag r withList executing byte place entry
  have hlist : r.list = s.list := s.framePassed_list
  refine ⟨fun hs => ⟨fun f m => ?listRead, ?listQuery, fun p => ?foundRead⟩,
    fun hs => ⟨fun f es hes => ?listLoad, fun i => ?listGo, ?listHalt⟩⟩
  case listRead =>
    have hentry (e : ListEntry) : entryBytes e = entry e := by
      cases e with
      | poll n w d => cases d <;> rfl
      | run n c m d => cases d <;> cases m <;> rfl
      | pause ms => rfl
      | jump target => rfl
      | halt => rfl
    have hexec : idByte r.list.inExecution
        = if s.list.state = .running ∨ s.list.state = .paused then [byte s.list.cursor] else [0xFF] := by
      rw [hlist, ScanList.inExecution_eq]
      split <;> rfl
    rw [← toNat_eq_zero_iff]
    refine ⟨fun hbad => ?_, fun hm hm' => ?_⟩
    · exact exec_turnedAway (owner := ownListRead) (x := (f.toNat, m.toNat)) rfl hs rfl rfl (ownListRead_outOfRange hbad)
    · refine exec_told (owner := ownListRead) (x := (f.toNat, m.toNat)) rfl hs rfl rfl
        ((ownListRead_inRange f.isLt hm hm').trans ?_)
      rw [hexec, hlist, funext fun k => hentry (s.list.entry (f.toNat + k))]
      rfl
  case listQuery =>
    intro here
    refine ⟨Config.unstatedByte 20, exec_told (owner := ownListQuery) (x := ()) rfl hs rfl rfl ?_⟩
    rw [ownListQuery, State.listData_congr hlist s.framePassed_clockMs s.framePassed_store, State.listData_eq,
      State.progressFields_eq, funext stopErrorBytes_eq]
    rfl
  case foundRead =>
    refine ⟨fun hp => ?_, fun hp => ?_⟩
    · exact exec_turnedAway (owner := ownFoundRead) (x := p.toNat) rfl hs rfl rfl (ownFoundRead_outOfRange hp)
    · refine exec_told (owner := ownFoundRead) (x := p.toNat) rfl hs rfl rfl ((ownFoundRead_inRange hp).trans ?_)
      rw [s.framePassed_loops]
      rfl
  case listLoad =>
    intro c read raised
    have hparse := parseListLoad_bytes hes f
    have refused {e : RefusalCode} (ho : ownListLoad (f.toNat, es.map EntryFields.bytes) r = .error e) :
        exec c s = .next (r.turnedAway tag e) :=
      exec_turnedAway (owner := ownListLoad) (x := (f.toNat, es.map EntryFields.bytes)) rfl hs rfl hparse ho
    have hlength : (es.map EntryFields.bytes).length = es.length := List.length_map _
    refine ⟨fun hbad => refused (ownListLoad_outOfRange ?_), fun xs h0 h32 h256 hxs => ?_⟩
    · rw [hlength]
      obtain rfl | h | h | h := hbad
      · exact .inr (.inl rfl)
      · exact .inr (.inr (.inl h))
      · exact .inr (.inr (.inr h))
      · exact .inl (loadEntries_of_none h)
    have hload := ownListLoad_inRange (s := r) (f := f.toNat) (loadEntries_of_some hxs)
      (by rw [hlength]; exact fun h => h0 (List.eq_nil_of_length_eq_zero h)) (hlength.symm ▸ h32) (hlength.symm ▸ h256)
    rw [hlength, hlist] at hload
    refine ⟨fun ⟨i, ⟨hrun, hi⟩, hlow, hhigh⟩ => refused (hload.trans (refuseIf_of_true ?_)), fun hfree => ?_⟩
    · subst hi
      exact decide_eq_true ⟨hrun, hlow, hhigh⟩
    · have hidle : ¬ ((s.list.state = .running ∨ s.list.state = .paused) ∧ f.toNat ≤ s.list.cursor
          ∧ s.list.cursor < f.toNat + es.length) := by
        rintro ⟨hrun, hlow, hhigh⟩
        have hapart := hfree s.list.cursor ⟨hrun, rfl⟩
        omega
      rw [refuseIf_of_false (decide_eq_false hidle)] at hload
      refine exec_done (owner := ownListLoad) (x := (f.toNat, es.map EntryFields.bytes)) rfl hs rfl hparse (hload.trans ?_)
      rw [State.withList, hlist]
      rfl
  case listGo =>
    refine exec_done (owner := ownListGo) (x := i.toNat) rfl hs rfl rfl ((ownListGo_inRange i.isLt).trans ?_)
    rw [hlist]
    rfl
  case listHalt =>
    intro c idled own
    have done {t u : State} (ho : ownListHalt () r = accept false t) (ht : t = u) : exec c s = .next (u.done tag false) :=
      ht ▸ exec_done (owner := ownListHalt) (x := ()) rfl hs rfl rfl ho
    have hstate {x : ListState} (h : s.list.state = x) : r.list.state = x := by rw [hlist, h]
    have hidle (h : s.list.state ≠ .idle) : r.idleList = idled := by
      rw [State.idleList_eq (by rwa [hlist]), hlist]
      rfl
    have hwait (h : s.list.state = .running) (ho : own) :
        ownListHalt () r = if s.list.haltPending then accept false r
          else accept false
            (({ r with list := { s.list.stopLimit with haltPending := true } } : State).mark .list) := by
      obtain ⟨hf, ha⟩ := ho
      rw [ownListHalt_waiting (hstate h) (by rwa [hlist]) (by rwa [hlist]), hlist]
    refine ⟨fun h => done (ownListHalt_idle (hstate h)) rfl, fun h ho hp => done ((hwait h ho).trans (if_pos hp)) rfl,
      fun h ho hp => done ((hwait h ho).trans (if_neg (Bool.eq_false_iff.mp hp))) rfl, fun h ho => ?_, fun h => ?_⟩
    · exact done (ownListHalt_free (hstate h) (by rwa [hlist])) (hidle (by simp [h]))
    · exact done (ownListHalt_stopped (by rwa [hlist])) (hidle fun hi => by simp [hi] at h)

end Sys2Proof.Machine
end

