-- ==== Sys2Proof/Proofs/PortRequests.lean ====
section
/-! SUPPORT. IDENT, PING, LOGIN, LOGOUT, GET-ITEM and SET-ITEM (R172, R176, R178, R179). -/

namespace Sys2Proof.Machine

/-- A request whose owner accepts it, whatever its answer. -/
theorem exec_answered {α : Type} {c : Instr} {tag : Byte} {least : State → Access} {o : Option α}
    {owner : α → State → Owned} {s t : State} {a : Access} {x : α} {b : Answer}
    (hc : effect c = State.request tag least o owner) (k : Admits a s) (hl : least s.framePassed = a) (ho : o = some x)
    (h : owner x s.framePassed = .ok (t, b)) : exec c s = .next (settle (t.reply (b.frame tag))) := by
  rw [exec_of_calm k.handed, hc, State.request_admitted k hl ho, h]

/-- A request whose body does not suit its kind, where replies have room. -/
theorem exec_badLength {α : Type} {c : Instr} {tag : Byte} {least : State → Access} {o : Option α}
    {owner : α → State → Owned} {s : State} (hc : effect c = State.request tag least o owner) (hs : s.handed = [])
    (hroom : s.port.replies.length < 4) (ho : o = none) :
    exec c s = .next (s.framePassed.turnedAway tag .badLength) := by
  have hp : ¬ Config.replyCapacity ≤ s.framePassed.port.replies.length := by
    rw [State.framePassed_port_replies]
    exact Nat.not_le.mpr hroom
  rw [exec_of_calm hs, hc, ho]
  exact congrArg (fun t => Host.Outcome.next (settle t)) (if_neg hp)

/-! ### Access levels (R172) -/

theorem State.framePassed_items (s : State) : s.framePassed.items = s.items :=
  congrArg Store.items s.framePassed_store

/-- An operator's code gives OPERATOR, or the base level where that is INSTALLER. -/
theorem Access.max_operator (base : Access) :
    Access.max .operator base = if base = .installer then .installer else .operator := by
  cases base <;> rfl

section
variable {code : Nat} {s : State}

theorem ownLogin_installer (h : code = s.items.installerCode) :
    ownLogin code s = accept false (s.setAccess .installer) := if_pos h

theorem ownLogin_operator (hi : code ≠ s.items.installerCode) (ho : code = s.items.operatorCode) :
    ownLogin code s
      = accept false
          (s.setAccess (if accessBase s.items = .installer then .installer else .operator)) := by
  unfold ownLogin
  rw [if_neg hi, if_pos ho, Access.max_operator]

theorem ownLogin_unknown (hi : code ≠ s.items.installerCode) (ho : code ≠ s.items.operatorCode) :
    ownLogin code s = .error .badCode := by
  unfold ownLogin
  rw [if_neg hi, if_neg ho]

end

/-! ### Identity and echo (R176) -/

/-- A frame that passed leaves the link SUPERVISED, and IDENT tells the other fields as they were. -/
theorem State.identData_framePassed (s : State) :
    s.framePassed.identData
      = ([0x12, 0xD4, 1, 0, 24, 0, 48, 0, 48, 8, 0, 0, 192, 0, 64, 0, 32, 1, 0, 0, 124] : List Byte) ++ u32 s.port.rate
          ++ u8 0 ++ u8 (accessCode s.port.access) ++ u32 s.now ++ u8 (startCauseCode s.port.startCause)
          ++ flagsByte [s.port.storeInvalid] := by
  unfold State.identData
  rw [State.framePassed_port_rate, State.framePassed_port_link, State.framePassed_port_access, State.framePassed_now,
    State.framePassed_port_startCause, State.framePassed_port_storeInvalid]
  rfl

theorem flagsByte_single (b : Bool) : flagsByte [b] = u8 (if b then 1 else 0) := by cases b <;> rfl

theorem parsePing_of_le {body : List Byte} (h : body.length ≤ 240) : parsePing body = some body := if_pos h

theorem parsePing_of_lt {body : List Byte} (h : 240 < body.length) : parsePing body = none := if_neg (Nat.not_le.mpr h)

/-! ### Reading and writing items (R178) -/

/-- The ranges of the items 0 to 17 (R178). -/
def itemBounds : List (Nat × Nat) :=
  [(1, 255), (1, 60), (5, 120), (0, 900), (0, 3600), (0, 50), (0, 240), (30, 600), (0, 100), (0, 100), (0, 100),
    (6, 600), (10, 600), (1, 15), (0, 1000), (0, 1000), (1, 15), (5, 500)]

theorem itemRange_of_lt : ∀ {n : Nat}, n < 18 → itemRange n = some (itemBounds.getD n (0, 0)) := by
  decide

/-- The items above the 18 first have no range, but for the supervision time. -/
theorem itemRange_of_ge {n : Nat} (h : 18 ≤ n) : itemRange n = if n = 19 then some (0, 255) else none := by
  match n, h with
  | 18, _ => rfl
  | 19, _ => rfl
  | n + 20, _ => rfl

theorem itemClamp_eq (n v : Nat) :
    itemClamp n v
      = if n < 18 then
          let held := max (itemBounds.getD n (0, 0)).1 (min (itemBounds.getD n (0, 0)).2 v)
          if n = 11 then held / 6 * 6 else held
        else if n = 19 then min 255 v else v := by
  unfold itemClamp
  by_cases hn : n < 18
  · rw [itemRange_of_lt hn, if_pos hn]
    rfl
  · rw [itemRange_of_ge (Nat.not_lt.mp hn), if_neg hn]
    by_cases h19 : n = 19
    · subst h19
      exact Nat.zero_max _
    · rw [if_neg h19, if_neg h19]

/-- A code, a rate and a flag are taken as given. -/
theorem itemClamp_of_unranged {n : Nat} (v : Nat) (h : 18 ≤ n) (h19 : n ≠ 19) : itemClamp n v = v := by
  rw [itemClamp_eq, if_neg (Nat.not_lt.mpr h), if_neg h19]

theorem itemCodeOk_iff (n v : Nat) :
    itemCodeOk n v = true
      ↔ (n = 18 ∨ n = 23 ∨ n = 24 → v ≤ 1)
        ∧ (n = 20 → v ∈ [9600, 19200, 38400, 57600, 115200, 230400, 460800]) := by
  unfold itemCodeOk
  by_cases hflag : n = 18 ∨ n = 23 ∨ n = 24
  · have h20 : n ≠ 20 := by omega
    simp [hflag, h20]
  · by_cases h20 : n = 20
    · simp [h20, lineRates]
    · simp [hflag, h20]

/-- A flag item is written by its code. -/
theorem toNat_beq_one {v : Nat} (h : v ≤ 1) : (v == 1).toNat = v := by
  match v, h with
  | 0, _ => rfl
  | 1, _ => rfl

theorem Items.value_write_same (it : Items) {n v : Nat} (hn : n < 25) (hv : n = 18 ∨ n = 23 ∨ n = 24 → v ≤ 1) :
    (it.write n v).value n = v := by
  match n, hn, hv with
  | 18, _, hv | 23, _, hv | 24, _, hv => exact toNat_beq_one (hv (by decide))
  | 0, _, _ | 1, _, _ | 2, _, _ | 3, _, _ | 4, _, _ | 5, _, _ | 6, _, _ | 7, _, _ | 8, _, _ | 9, _, _ | 10, _, _
  | 11, _, _ | 12, _, _ | 13, _, _ | 14, _, _ | 15, _, _ | 16, _, _ | 17, _, _ | 19, _, _ | 20, _, _
  | 21, _, _ | 22, _, _ => rfl
  | n + 25, hn, _ => omega

theorem Items.value_write_other (it : Items) {n j : Nat} (v : Nat) (h : j ≠ n) :
    (it.write n v).value j = it.value j := by
  unfold Items.write
  split <;> unfold Items.value <;> split <;> first | rfl | exact absurd rfl h

/-- Only an item that is the line rate brings a new rate (R164). -/
theorem rateChange_write (it : Items) (n v : Nat) :
    rateChange it (it.write n v) = if n = 20 ∧ it.value n ≠ v then some v else none := by
  unfold rateChange
  by_cases h20 : n = 20
  · subst h20
    by_cases hv : it.lineRate = v
    · exact (if_pos hv).trans (if_neg fun h => h.2 hv).symm
    · exact (if_neg hv).trans (if_pos ⟨rfl, hv⟩).symm
  · refine Eq.trans ?_ (if_neg fun h => h20 h.1).symm
    exact if_pos (it.value_write_other v (Ne.symm h20)).symm

/-- The items that no owner's records depend on at once. -/
theorem itemChanged_of_unowned {n : Nat} (old : Items) (s : State) (h : n ∈ [7, 13, 18, 19, 20, 23, 24]) :
    itemChanged n old s = s := by
  simp only [List.mem_cons, List.not_mem_nil, or_false] at h
  rcases h with rfl | rfl | rfl | rfl | rfl | rfl | rfl <;> rfl

/-! ### SET-ITEM and GET-ITEM (R178, R179) -/

section
variable {n v : Nat} {s : State}

theorem State.applyItem_of_same (h : s.items.value n = v) : s.applyItem n v = s := if_pos h

theorem State.applyItem_of_changed (h : s.items.value n ≠ v) :
    s.applyItem n v = itemChanged n s.items { s with store := { s.store with items := s.items.write n v } } := if_neg h

theorem ownSetItem_outOfRange (h : 25 ≤ n ∨ itemCodeOk n v = false) : ownSetItem (n, v) s = .error .outOfRange := by
  unfold ownSetItem
  by_cases hn : 25 ≤ n
  · exact refuseIf_of_true (decide_eq_true hn)
  · rw [refuseIf_of_false (decide_eq_false hn), refuseIf_of_true (by simp [h.resolve_left hn])]

/-- The supply limit is judged on the clamped value (log 38). -/
theorem ownSetItem_limitInUse (h : itemClamp 0 v < s.fans.account) : ownSetItem (0, v) s = .error .limitInUse := by
  have hu : ((0 : Nat) == 0 && decide (itemClamp 0 v < s.fans.account)) = true := decide_eq_true h
  unfold ownSetItem
  dsimp only
  rw [refuseIf_of_false (b := decide (25 ≤ 0)) rfl, refuseIf_of_false (b := !itemCodeOk 0 v) rfl, refuseIf_of_true hu]

theorem ownSetItem_accepted (hn : n < 25) (hc : itemCodeOk n v = true) (hu : n = 0 → s.fans.account ≤ itemClamp n v) :
    ownSetItem (n, v) s
      = .ok (s.applyItem n (itemClamp n v),
          .done (itemClamp n v != v) (rateChange s.items (s.items.write n (itemClamp n v)))) := by
  unfold ownSetItem
  dsimp only
  rw [refuseIf_of_false (decide_eq_false (Nat.not_le.mpr hn)), refuseIf_of_false (by rw [hc]; rfl),
    refuseIf_of_false (by simpa using hu)]

theorem ownGetItem_outOfRange (h : 25 ≤ n) : ownGetItem n s = .error .outOfRange :=
  refuseIf_of_true (decide_eq_true h)

theorem ownGetItem_told (h : n < 25) :
    ownGetItem n s = .ok (s, .data (u8 n ++ u32 (if n = 21 ∨ n = 22 then 0 else s.items.value n))) :=
  refuseIf_of_false (decide_eq_false (Nat.not_le.mpr h))

end

/-- The frame of an accepting DONE: its CLAMPED flag, and the rate that its end brings. -/
theorem Answer.frame_done (tag : Byte) (v given : Nat) (rate : Option Nat) :
    (Answer.done (v != given) rate).frame tag
      = { kind := 0x80, tag := tag, body := [if v = given then 0 else 1], newRate := rate } := by
  unfold Answer.frame
  by_cases h : v = given <;> simp [h, flagsByte_single, u8]

/-- Settles O50: each request through its owner's rule; SET-ITEM by its checks in their order. -/
theorem portRequestsFollowTheirRules : Obligations.PortRequestsFollowTheirRules := by
  intro s tag r it level base
  have hitems : r.items = it := s.framePassed_items
  refine ⟨fun hs => ⟨?ident, fun body => ⟨fun hb => ?echo, fun hb => ?longEcho⟩, fun a b c d => ?login, ?logout,
    fun n => ⟨fun hn => ?getOut, fun hn => ?getItem⟩⟩, fun hs n a b c d => ?setItem⟩
  case ident =>
    refine (exec_told (owner := ownIdent) (x := ()) rfl hs rfl rfl rfl).trans ?_
    rw [State.identData_framePassed, flagsByte_single]
    rfl
  case echo => exact exec_told (owner := ownPing) rfl hs rfl (parsePing_of_le hb) rfl
  case longEcho => exact exec_badLength (owner := ownPing) rfl hs.handed hs.room (parsePing_of_lt hb)
  case login =>
    intro code login
    rw [← hitems]
    refine ⟨fun hi => ?_, fun hi ho => ?_, fun hi ho => ?_⟩
    · exact exec_done (owner := ownLogin) rfl hs rfl rfl (ownLogin_installer hi)
    · refine (exec_done (owner := ownLogin) rfl hs rfl rfl (ownLogin_operator hi ho)).trans ?_
      rw [State.framePassed_items]
      rfl
    · exact exec_turnedAway (owner := ownLogin) rfl hs rfl rfl (ownLogin_unknown hi ho)
  case logout =>
    have hout : ownLogout () r = accept false (level base) :=
      congrArg (fun x => accept false (r.setAccess (accessBase x))) hitems
    exact exec_done (owner := ownLogout) rfl hs rfl rfl hout
  case getOut => exact exec_turnedAway (owner := ownGetItem) rfl hs rfl rfl (ownGetItem_outOfRange hn)
  case getItem =>
    have hbyte : u8 n.toNat = [n] := by simp [u8]
    refine (exec_told (owner := ownGetItem) rfl hs rfl rfl (ownGetItem_told hn)).trans ?_
    rw [hbyte, State.framePassed_items]
    rfl
  case setItem =>
    intro i given bounds v coded set answer written
    have hv : itemClamp i given = v := itemClamp_eq i given
    have hcoded : itemCodeOk i given = true ↔ coded := itemCodeOk_iff i given
    have haccount : r.fans.account = s.fans.account := congrArg FanController.account s.framePassed_fans
    have refused {k : RefusalCode} (ho : ownSetItem (i, given) r = .error k) :
        exec set s = .next (r.turnedAway tag k) :=
      exec_turnedAway (owner := ownSetItem) rfl hs rfl rfl ho
    refine ⟨fun hbad => ?_, fun hi hu => ?_, fun hn hc hu => ?_⟩
    · refine refused (ownSetItem_outOfRange (hbad.imp_right fun h => ?_))
      rwa [← hcoded, Bool.not_eq_true] at h
    · refine refused ?_
      rw [← haccount, ← hv] at hu
      rw [hi] at hu ⊢
      exact ownSetItem_limitInUse hu
    · have accepted : exec set s
          = .next (answer (r.applyItem i v) (if i = 20 ∧ it.value i ≠ v then some v else none)) := by
        refine (exec_answered (owner := ownSetItem) rfl hs rfl rfl
          (ownSetItem_accepted hn (hcoded.mpr hc) fun h => ?_)).trans ?_
        · rw [hv]
          exact Nat.le_trans (Nat.le_of_eq haccount) (hu h)
        · rw [hv, Answer.frame_done, State.framePassed_items, rateChange_write]
      refine ⟨fun hsame => ?_, fun hnew => ⟨?_, ?_, fun j hj => it.value_write_other v hj, fun hi => ?_⟩⟩
      · rw [accepted, State.applyItem_of_same (by rwa [hitems]), if_neg fun h => h.2 hsame]
      · rw [accepted, State.applyItem_of_changed (by rwa [hitems]), hitems, State.framePassed_store]
        refine congrArg (fun rate => Host.Outcome.next (answer (itemChanged i it written) rate)) ?_
        by_cases h20 : i = 20
        · rw [if_pos ⟨h20, hnew⟩, if_pos h20, ← hv, itemClamp_of_unranged given (by omega) (by omega)]
        · rw [if_neg fun h => h20 h.1, if_neg h20]
      · refine it.value_write_same hn fun hflag => ?_
        rw [← hv, itemClamp_of_unranged given (by omega) (by omega)]
        exact hc.1 hflag
      · exact itemChanged_of_unowned it written hi

end Sys2Proof.Machine
end

