-- ==== Sys2Proof/Proofs/EngineAndReceiver.lean ====
section
/-! SUPPORT. The engine and the transmitter read and change nothing of the receiver (R136, R165, R168). -/

namespace Sys2Proof.Machine

/-! ### What the free transmitter takes (R168) -/

section
variable {s : State}

theorem State.transmit_of_busy (h : s.port.sending ≠ none) : s.transmit = s :=
  if_pos (Option.isSome_iff_ne_none.mpr h)

/-- With nothing on the line the transmitter goes by what waits. -/
theorem State.transmit_of_free (h : s.port.sending = none) :
    s.transmit
      = match s.port.replies with
        | f :: rest => s.withPort fun p => { p with sending := some f, replies := rest }
        | [] =>
          if s.port.startNote then s.withPort fun p => { p with sending := some s.startFrame, startNote := false }
          else
            match s.port.notes with
            | x :: rest =>
              if s.handed.isEmpty then s.withPort fun p => { p with sending := some (s.noteFrame x), notes := rest }
              else s
            | [] => s := by
  have hfree : ¬ s.port.sending.isSome := by simp [h]
  exact (if_neg hfree).trans rfl

theorem State.transmit_of_reply {f : Frame} {rest : List Frame} (h : s.port.sending = none)
    (hr : s.port.replies = f :: rest) :
    s.transmit = s.withPort fun p => { p with sending := some f, replies := rest } := by
  rw [State.transmit_of_free h, hr]

theorem State.transmit_of_startNote (h : s.port.sending = none) (hr : s.port.replies = [])
    (hn : s.port.startNote = true) :
    s.transmit = s.withPort fun p => { p with sending := some s.startFrame, startNote := false } := by
  rw [State.transmit_of_free h, hr]
  exact if_pos hn

/-- The head of the note set waits for handed events (log 4). -/
theorem State.transmit_of_note {x : Subject} {rest : List Subject} (h : s.port.sending = none)
    (hr : s.port.replies = []) (hn : s.port.startNote = false) (hx : s.port.notes = x :: rest) :
    s.transmit
      = if s.handed.isEmpty then s.withPort fun p => { p with sending := some (s.noteFrame x), notes := rest }
        else s := by
  have hstart : ¬ s.port.startNote = true := by simp [hn]
  rw [State.transmit_of_free h, hr]
  dsimp only
  rw [if_neg hstart, hx]

theorem State.transmit_of_empty (hr : s.port.replies = []) (hn : s.port.startNote = false) (hx : s.port.notes = []) :
    s.transmit = s := by
  by_cases h : s.port.sending = none
  · have hstart : ¬ s.port.startNote = true := by simp [hn]
    rw [State.transmit_of_free h, hr]
    dsimp only
    rw [if_neg hstart, hx]
  · exact State.transmit_of_busy h

end

/-- The receiver takes a state (R165). -/
def State.setReceiver (r : Receiver) (s : State) : State := s.withPort fun p => { p with receiver := r }

section
variable (r : Receiver) (s : State)

/-! ### What is read of the state beside the receiver -/

@[simp] theorem State.setReceiver_loops : (s.setReceiver r).loops = s.loops := rfl
@[simp] theorem State.setReceiver_list : (s.setReceiver r).list = s.list := rfl
@[simp] theorem State.setReceiver_sending : (s.setReceiver r).port.sending = s.port.sending := rfl
@[simp] theorem State.setReceiver_replies : (s.setReceiver r).port.replies = s.port.replies := rfl
@[simp] theorem State.setReceiver_startNote : (s.setReceiver r).port.startNote = s.port.startNote := rfl
@[simp] theorem State.setReceiver_notes : (s.setReceiver r).port.notes = s.port.notes := rfl
@[simp] theorem State.setReceiver_handed : (s.setReceiver r).handed = s.handed := rfl
@[simp] theorem State.setReceiver_node (n : NodeId) : (s.setReceiver r).node n = s.node n := rfl
@[simp] theorem State.setReceiver_firstOwed : (s.setReceiver r).firstOwed = s.firstOwed := rfl
@[simp] theorem State.setReceiver_nextService : (s.setReceiver r).nextService = s.nextService := rfl
@[simp] theorem State.setReceiver_nextRollcall : (s.setReceiver r).nextRollcall = s.nextRollcall := rfl
@[simp] theorem State.setReceiver_engineWork : (s.setReceiver r).engineWork = s.engineWork := rfl

theorem State.setReceiver_self : s.setReceiver s.port.receiver = s := rfl

theorem State.setReceiver_setReceiver (q : Receiver) : (s.setReceiver q).setReceiver r = s.setReceiver r := rfl

/-! ### Plain updates -/

@[simp] theorem State.withLoops_setReceiver (f : LoopMaster → LoopMaster) :
    (s.setReceiver r).withLoops f = (s.withLoops f).setReceiver r := rfl
@[simp] theorem State.withList_setReceiver (f : ScanList → ScanList) :
    (s.setReceiver r).withList f = (s.withList f).setReceiver r := rfl
@[simp] theorem State.setNode_setReceiver (n : NodeId) (x : Node) :
    (s.setReceiver r).setNode n x = (s.setNode n x).setReceiver r := rfl
@[simp] theorem State.takeInFlight_setReceiver (n : NodeId) :
    (s.setReceiver r).takeInFlight n = (s.takeInFlight n).setReceiver r := rfl
@[simp] theorem State.begin_setReceiver (n : NodeId) (op : LoopOp) (src : TxSource) (role : Option Role)
    (payload : List Byte) (last : Bool) :
    (s.setReceiver r).begin n op src role payload last = (s.begin n op src role payload last).setReceiver r := rfl
@[simp] theorem State.beginList_setReceiver (n : NodeId) (op : LoopOp) :
    (s.setReceiver r).beginList n op = (s.beginList n op).setReceiver r := rfl
@[simp] theorem State.beginService_setReceiver (n : NodeId) :
    (s.setReceiver r).beginService n = (s.beginService n).setReceiver r := rfl
@[simp] theorem State.beginRollcall_setReceiver (l : LoopId) :
    (s.setReceiver r).beginRollcall l = (s.beginRollcall l).setReceiver r := rfl
@[simp] theorem State.continueError_setReceiver :
    (s.setReceiver r).continueError = s.continueError.setReceiver r := rfl

@[simp] theorem State.mark_setReceiver (x : Subject) : (s.setReceiver r).mark x = (s.mark x).setReceiver r := by
  unfold State.mark
  rw [apply_ite (State.setReceiver r)]
  rfl

/-! ### The urgent write queue (R137, R138) -/

@[simp] theorem State.post_setReceiver (n : NodeId) : (s.setReceiver r).post n = (s.post n).setReceiver r := by
  unfold State.post
  rw [apply_ite (State.setReceiver r), apply_ite (State.setReceiver r), State.setReceiver_node]
  cases s.node n <;> rfl

@[simp] theorem State.refill_setReceiver (fuel : Nat) :
    (s.setReceiver r).refill fuel = (s.refill fuel).setReceiver r := by
  induction fuel generalizing s with
  | zero => rfl
  | succ fuel ih =>
    unfold State.refill
    simp only [State.setReceiver_loops, State.setReceiver_firstOwed, State.setReceiver_node, State.setNode_setReceiver,
      State.post_setReceiver, ih]
    repeat' split
    all_goals rfl

@[simp] theorem State.deleteNode_setReceiver (n : NodeId) :
    (s.setReceiver r).deleteNode n = (s.deleteNode n).setReceiver r := by
  unfold State.deleteNode State.removeUrgent
  rw [State.withLoops_setReceiver, State.withLoops_setReceiver, State.refill_setReceiver]

@[simp] theorem State.popUrgent_setReceiver : (s.setReceiver r).popUrgent = s.popUrgent.setReceiver r := by
  unfold State.popUrgent
  rw [State.withLoops_setReceiver, State.refill_setReceiver]

@[simp] theorem State.beginOutput_setReceiver (n : NodeId) (x : Node) (src : TxSource) :
    (s.setReceiver r).beginOutput n x src = (s.beginOutput n x src).setReceiver r := by
  unfold State.beginOutput State.beginWrite
  dsimp only
  repeat' split
  all_goals rfl

@[simp] theorem State.takeUrgent_setReceiver (n : NodeId) :
    (s.setReceiver r).takeUrgent n = (s.takeUrgent n).setReceiver r := by
  unfold State.takeUrgent
  simp only [State.popUrgent_setReceiver, State.setReceiver_node, State.deleteNode_setReceiver,
    State.beginOutput_setReceiver]
  repeat' split
  all_goals rfl

/-! ### The scan list (R147 to R156) -/

@[simp] theorem State.setListState_setReceiver (x : ListState) :
    (s.setReceiver r).setListState x = (s.setListState x).setReceiver r := by
  unfold State.setListState
  simp only [State.withList_setReceiver, State.mark_setReceiver, State.setReceiver_list]
  split <;> rfl

@[simp] theorem State.faultList_setReceiver (k : ListErrorKind) (n : Option NodeId) :
    (s.setReceiver r).faultList k n = (s.faultList k n).setReceiver r :=
  State.setListState_setReceiver r
    (s.withList fun l => { l.stopLimit with stopError := some ⟨l.cursor, k, n, s.now⟩ }) .faulted

@[simp] theorem State.reach_setReceiver (fuel : Nat) : (s.setReceiver r).reach fuel = (s.reach fuel).setReceiver r := by
  induction fuel generalizing s with
  | zero => rfl
  | succ fuel ih =>
    unfold State.reach
    simp only [State.setReceiver_list, State.withList_setReceiver, State.setListState_setReceiver,
      State.faultList_setReceiver, ih]
    repeat' split
    all_goals rfl

@[simp] theorem State.advance_setReceiver : (s.setReceiver r).advance = s.advance.setReceiver r := by
  unfold State.advance State.reachAt
  rw [State.withList_setReceiver, State.reach_setReceiver, State.setReceiver_list]

@[simp] theorem State.endSpent_setReceiver : (s.setReceiver r).endSpent = s.endSpent.setReceiver r := by
  unfold State.endSpent
  simp only [State.setReceiver_list, State.advance_setReceiver]
  split <;> rfl

@[simp] theorem State.nextSwept_setReceiver : (s.setReceiver r).nextSwept = s.nextSwept.setReceiver r := by
  unfold State.nextSwept
  rw [State.withList_setReceiver, State.endSpent_setReceiver]

@[simp] theorem State.listError_setReceiver (k : ListErrorKind) :
    (s.setReceiver r).listError k = (s.listError k).setReceiver r := by
  unfold State.listError
  simp only [State.setReceiver_list, State.continueError_setReceiver, State.withList_setReceiver,
    State.advance_setReceiver, State.endSpent_setReceiver, State.nextSwept_setReceiver, State.faultList_setReceiver]
  repeat' split
  all_goals rfl

@[simp] theorem State.beginListOutput_setReceiver (n : NodeId) (x : Node) :
    (s.setReceiver r).beginListOutput n x = (s.beginListOutput n x).setReceiver r := by
  unfold State.beginListOutput
  rw [State.beginOutput_setReceiver, State.withList_setReceiver]

@[simp] theorem State.beginSweep_setReceiver (l : LoopId) :
    (s.setReceiver r).beginSweep l = (s.beginSweep l).setReceiver r := by
  unfold State.beginSweep
  rw [apply_ite (State.setReceiver r)]
  rfl

@[simp] theorem State.stampItem_setReceiver : (s.setReceiver r).stampItem = s.stampItem.setReceiver r := by
  unfold State.stampItem
  simp only [State.setReceiver_list]
  split <;> rfl

@[simp] theorem State.takeList_setReceiver : (s.setReceiver r).takeList = s.takeList.setReceiver r := by
  unfold State.takeList
  simp only [State.setReceiver_list, State.setReceiver_node, State.beginList_setReceiver, State.listError_setReceiver,
    State.beginListOutput_setReceiver, State.beginSweep_setReceiver, State.stampItem_setReceiver]
  repeat' split
  all_goals rfl

/-! ### The engine and the transmitter (R136, R168) -/

@[simp] theorem State.chooseOnce_setReceiver : (s.setReceiver r).chooseOnce = s.chooseOnce.setReceiver r := by
  unfold State.chooseOnce
  simp only [State.setReceiver_loops, State.setReceiver_list, State.setReceiver_nextService,
    State.setReceiver_nextRollcall, State.takeList_setReceiver, State.beginService_setReceiver,
    State.beginRollcall_setReceiver, State.takeUrgent_setReceiver]
  repeat' split
  all_goals rfl

@[simp] theorem State.choose_setReceiver (fuel : Nat) :
    (s.setReceiver r).choose fuel = (s.choose fuel).setReceiver r := by
  induction fuel generalizing s with
  | zero => rfl
  | succ fuel ih =>
    unfold State.choose
    simp only [State.setReceiver_loops, State.setReceiver_engineWork, State.chooseOnce_setReceiver, ih]
    split <;> rfl

@[simp] theorem State.transmit_setReceiver : (s.setReceiver r).transmit = s.transmit.setReceiver r := by
  cases hs : s.port.sending with
  | some f =>
    have hbusy : s.port.sending ≠ none := by simp [hs]
    rw [State.transmit_of_busy hbusy, State.transmit_of_busy (s := s.setReceiver r) hbusy]
  | none =>
    cases hr : s.port.replies with
    | cons f rest =>
      rw [State.transmit_of_reply hs hr, State.transmit_of_reply (s := s.setReceiver r) hs hr]
      rfl
    | nil =>
      cases hn : s.port.startNote with
      | true =>
        rw [State.transmit_of_startNote hs hr hn, State.transmit_of_startNote (s := s.setReceiver r) hs hr hn]
        rfl
      | false =>
        cases hx : s.port.notes with
        | cons x rest =>
          rw [State.transmit_of_note hs hr hn hx, State.transmit_of_note (s := s.setReceiver r) hs hr hn hx,
            apply_ite (State.setReceiver r)]
          rfl
        | nil => rw [State.transmit_of_empty hr hn hx, State.transmit_of_empty (s := s.setReceiver r) hr hn hx]

theorem settle_setReceiver : settle (s.setReceiver r) = (settle s).setReceiver r := by
  unfold settle
  simp only [State.setReceiver_handed, State.choose_setReceiver]
  split <;> exact State.transmit_setReceiver r _

end

end Sys2Proof.Machine
end

