-- ==== Sys2Proof/Proofs/FrameReception.lean ====
section
/-! SUPPORT. The receiver takes a frame byte by byte and hands its dispatch (R164, R165, R166). -/

namespace Sys2Proof.Machine

/-! ### One byte (R165) -/

/-- The first byte after the marker is the length, or no frame begins. -/
theorem Receiver.take_length (len : Byte) :
    (Receiver.inFrame []).take len = (if 240 < len.toNat then .hunting else .inFrame [len], none) := by
  by_cases h : 240 < len.toNat
  · exact (if_pos h).trans (by rw [if_pos h])
  · refine (if_neg h).trans ((if_pos ?_).trans (by rw [if_neg h]; rfl))
    exact Nat.lt_add_left _ (by decide : 1 < 5)

section
variable {len b : Byte} {rest : List Byte}

/-- A byte before the frame's last is collected. -/
theorem Receiver.take_more (hlen : len.toNat ≤ 240) (h : rest.length + 2 < len.toNat + 5) :
    (Receiver.inFrame (len :: rest)).take b = (.inFrame (len :: rest ++ [b]), none) := by
  have hmore : (len :: rest ++ [b]).length < len.toNat + 5 := by simpa using h
  exact (if_neg (Nat.not_lt.mpr hlen)).trans (if_pos hmore)

/-- The frame's last byte completes it. -/
theorem Receiver.take_last (hlen : len.toNat ≤ 240) (h : rest.length + 2 = len.toNat + 5) :
    (Receiver.inFrame (len :: rest)).take b = (.hunting, some (len :: rest ++ [b])) := by
  have hlast : ¬ (len :: rest ++ [b]).length < len.toNat + 5 := by simp [h]
  exact (if_neg (Nat.not_lt.mpr hlen)).trans (if_neg hlast)

end

section
variable {s : State} {b : Byte} {gap : Bool} {q r : Receiver}

/-- A byte that completes no frame touches the receiver alone. -/
theorem effReceiveByte_incomplete (h : (if gap then Receiver.hunting else s.port.receiver).take b = (r, none)) :
    effReceiveByte b true gap s = s.setReceiver r := by
  unfold effReceiveByte
  dsimp only
  rw [if_pos rfl, h]
  rfl

/-- A byte that completes a frame with another check touches the receiver alone. -/
theorem effReceiveByte_badCheck {all : List Byte} (h : s.port.receiver.take b = (r, some all))
    (hread : readFrame all = none) : effReceiveByte b true false s = s.setReceiver r := by
  unfold effReceiveByte
  dsimp only
  rw [if_pos rfl, if_neg (by decide), h]
  dsimp only [Option.bind_some]
  rw [hread]
  rfl

/-- A byte that completes a frame hands its dispatch after restarting supervision. -/
theorem effReceiveByte_complete {all body : List Byte} {kind tag : Byte} (h : s.port.receiver.take b = (r, some all))
    (hread : readFrame all = some (kind, tag, body)) :
    effReceiveByte b true false s
      = (s.setReceiver r).framePassed.hand ((s.setReceiver r).dispatch kind tag body) := by
  unfold effReceiveByte
  dsimp only
  rw [if_pos rfl, if_neg (by decide), h]
  dsimp only [Option.bind_some]
  rw [hread]
  rfl

/-! ### The bytes of a frame -/

/-- A state in which the part rests: nothing handed waits, and neither the engine nor the transmitter has work. -/
structure Resting (s : State) : Prop where
  handed : s.handed = []
  settled : settle s = s

/-- A resting part rests whatever its receiver holds. -/
theorem Resting.setReceiver (h : Resting s) (r : Receiver) : Resting (s.setReceiver r) :=
  ⟨h.handed, by rw [settle_setReceiver, h.settled]⟩

/-- The bytes that follow one another on the line, each with its stop bit and without a gap. -/
def receiveNext (o : Result) (b : Byte) : Result :=
  match o with
  | .next t => exec (.receiveByte b true false) t
  | .fault f => .fault f
  | .refused f => .refused f

theorem receiveNext_next (t : State) (b : Byte) : receiveNext (.next t) b = exec (.receiveByte b true false) t := rfl

/-- While the part rests, a byte that completes no frame changes the receiver alone. -/
theorem receiveNext_incomplete (h : Resting s) (hq : q.take b = (r, none)) :
    receiveNext (.next (s.setReceiver q)) b = .next (s.setReceiver r) := by
  have heff : effect (.receiveByte b true false) (s.setReceiver q) = s.setReceiver r :=
    effReceiveByte_incomplete (gap := false) (s := s.setReceiver q) hq
  rw [receiveNext_next, exec_of_calm (h.setReceiver q).handed, heff, (h.setReceiver r).settled]

/-- The bytes before the last of a frame are collected one by one. -/
theorem foldl_receiveNext_collect (h : Resting s) {len : Byte} (hlen : len.toNat ≤ 240) (bytes got : List Byte)
    (hlast : got.length + bytes.length + 1 < len.toNat + 5) :
    bytes.foldl receiveNext (.next (s.setReceiver (.inFrame (len :: got))))
      = .next (s.setReceiver (.inFrame (len :: (got ++ bytes)))) := by
  induction bytes generalizing got with
  | nil => rw [List.append_nil]; rfl
  | cons b bytes ih =>
    rw [List.length_cons] at hlast
    rw [List.foldl_cons, receiveNext_incomplete h (Receiver.take_more hlen (by omega)), List.cons_append,
      ih (got ++ [b]) (by simp; omega), List.append_assoc]
    rfl

/-- A hunting receiver that has taken the marker and all bytes of a frame but its last. -/
theorem foldl_receiveNext_frame (h : Resting s) (hhunting : s.port.receiver = .hunting) {len : Byte}
    (hlen : len.toNat ≤ 240) {bytes : List Byte} (hbytes : bytes.length + 1 < len.toNat + 5) :
    (0xC3 :: len :: bytes).foldl receiveNext (.next s) = .next (s.setReceiver (.inFrame (len :: bytes))) := by
  have hmarker : receiveNext (.next s) 0xC3 = .next (s.setReceiver (.inFrame [])) := by
    have hs : s.setReceiver .hunting = s := hhunting ▸ s.setReceiver_self
    exact hs ▸ receiveNext_incomplete h rfl
  have hfirst : (Receiver.inFrame []).take len = (.inFrame [len], none) := by
    rw [Receiver.take_length, if_neg (Nat.not_lt.mpr hlen)]
  rw [List.foldl_cons, hmarker, List.foldl_cons, receiveNext_incomplete h hfirst,
    foldl_receiveNext_collect h hlen bytes [] (by simpa using hbytes), List.nil_append]

end

/-! ### The check (R164) -/

/-- A completed frame is read when its last two bytes are its check, and is dropped otherwise. -/
theorem readFrame_of_length {len kind tag a b : Byte} {body : List Byte} (hlen : body.length = len.toNat) :
    readFrame (len :: kind :: tag :: body ++ [a] ++ [b])
      = if [a, b] = u16 (crc16 (len :: kind :: tag :: body)).toNat then some (kind, tag, body) else none := by
  have hsplit : len :: kind :: tag :: body ++ [a] ++ [b] = len :: kind :: tag :: (body ++ [a, b]) := by simp
  rw [hsplit, readFrame, ← hlen, List.take_left, List.drop_left]

/-- Settles O57: the bytes before the last are collected, and the last completes the frame, whose check decides. -/
theorem receivedFrameIsDispatched : Obligations.ReceivedFrameIsDispatched := by
  intro s kind tag body hcalm hsettled hhunting hbody level levels covered received check
  have hs : Resting s := ⟨hcalm, hsettled⟩
  let len : Byte := BitVec.ofNat 8 body.length
  have hlen : body.length = len.toNat := (Nat.mod_eq_of_lt (by omega : body.length < 2 ^ 8)).symm
  have hfits : len.toNat ≤ 240 := hlen ▸ hbody
  have hself : s.setReceiver .hunting = s := hhunting ▸ s.setReceiver_self
  have hreceived (a b : Byte) :
      received [a, b]
        = exec (.receiveByte b true false) (s.setReceiver (.inFrame (len :: kind :: tag :: body ++ [a]))) := by
    have hsplit : 0xC3 :: covered ++ [a, b] = 0xC3 :: len :: (kind :: tag :: body ++ [a]) ++ [b] := by
      simp [covered, len]
    have hfold : received [a, b] = (0xC3 :: covered ++ [a, b]).foldl receiveNext (.next s) := rfl
    rw [hfold, hsplit, List.foldl_append, foldl_receiveNext_frame hs hhunting hfits (by simp; omega)]
    rfl
  have htake (a b : Byte) :
      (Receiver.inFrame (len :: kind :: tag :: body ++ [a])).take b
        = (.hunting, some (len :: kind :: tag :: body ++ [a] ++ [b])) :=
    Receiver.take_last hfits (by simp; omega)
  refine ⟨?good, fun a b hbad => ?bad⟩
  case bad =>
    have hread : readFrame (len :: kind :: tag :: body ++ [a] ++ [b]) = none :=
      (readFrame_of_length hlen).trans (if_neg hbad)
    rw [hreceived, exec_of_calm (hs.setReceiver _).handed]
    refine congrArg Host.Outcome.next ((congrArg settle ?_).trans hsettled)
    exact (effReceiveByte_badCheck (htake a b) hread).trans hself
  case good =>
    have hread := (readFrame_of_length (kind := kind) (tag := tag) hlen).trans (if_pos rfl)
    refine (hreceived _ _).trans ?_
    rw [exec_of_calm (hs.setReceiver _).handed]
    refine congrArg (fun t => Host.Outcome.next (settle t)) ?_
    refine (effReceiveByte_complete (htake _ _) hread).trans ?_
    rw [State.setReceiver_setReceiver, hself, State.hand, State.framePassed_handed, hcalm]
    rfl

end Sys2Proof.Machine
end

