-- ==== Sys2Proof/Proofs/RequestBodies.lean ====
section
/-! SUPPORT. The forms of the request bodies: the lengths that each kind's reading takes (11.2). -/

namespace Sys2Proof.Machine

section
variable {body : List Byte}

/-! ### Bodies of one length -/

/-- A reading of one length takes any bytes of it, and nothing else. -/
theorem isSome_iff_length {α : Type} {read : List Byte → Option α} {n : Nat}
    (takes : ∀ byte : Fin n → Byte, (read (List.ofFn byte)).isSome)
    (only : ∀ l, (read l).isSome → l.length = n) : (read body).isSome ↔ body.length = n := by
  refine ⟨only body, ?_⟩
  rintro rfl
  have hbody : List.ofFn (fun i : Fin body.length => body[i.val]) = body :=
    List.ext_getElem List.length_ofFn fun i _ _ => List.getElem_ofFn ..
  exact hbody ▸ takes fun i => body[i.val]

theorem parseEmpty_isSome : (parseEmpty body).isSome ↔ body.length = 0 :=
  isSome_iff_length (fun _ => rfl) fun l h => by
    unfold parseEmpty at h
    split at h
    · rfl
    · cases h

theorem parseByte_isSome : (parseByte body).isSome ↔ body.length = 1 :=
  isSome_iff_length (fun _ => rfl) fun l h => by
    unfold parseByte at h
    split at h
    · rfl
    · cases h

theorem parseByte2_isSome : (parseByte2 body).isSome ↔ body.length = 2 :=
  isSome_iff_length (fun _ => rfl) fun l h => by
    unfold parseByte2 at h
    split at h
    · rfl
    · cases h

theorem parseCode_isSome : (parseCode body).isSome ↔ body.length = 4 :=
  isSome_iff_length (fun _ => rfl) fun l h => by
    unfold parseCode at h
    split at h
    · rfl
    · cases h

theorem parseSetItem_isSome : (parseSetItem body).isSome ↔ body.length = 5 :=
  isSome_iff_length (fun _ => rfl) fun l h => by
    unfold parseSetItem at h
    split at h
    · rfl
    · cases h

theorem parseHeadDef_isSome : (parseHeadDef body).isSome ↔ body.length = 6 :=
  isSome_iff_length (fun _ => rfl) fun l h => by
    unfold parseHeadDef at h
    split at h
    · rfl
    · cases h

theorem parseHeadCal_isSome : (parseHeadCal body).isSome ↔ body.length = 15 :=
  isSome_iff_length (fun _ => rfl) fun l h => by
    unfold parseHeadCal at h
    split at h
    · rfl
    · cases h

theorem parseZoneDef_isSome : (parseZoneDef body).isSome ↔ body.length = 7 :=
  isSome_iff_length (fun _ => rfl) fun l h => by
    unfold parseZoneDef at h
    split at h
    · rfl
    · cases h

theorem parseZoneLimits_isSome : (parseZoneLimits body).isSome ↔ body.length = 10 :=
  isSome_iff_length (fun _ => rfl) fun l h => by
    unfold parseZoneLimits at h
    split at h
    · rfl
    · cases h

theorem parseFanDef_isSome : (parseFanDef body).isSome ↔ body.length = 12 :=
  isSome_iff_length (fun _ => rfl) fun l h => by
    unfold parseFanDef at h
    split at h
    · rfl
    · cases h

theorem parseBayDef_isSome : (parseBayDef body).isSome ↔ body.length = 8 :=
  isSome_iff_length (fun _ => rfl) fun l h => by
    unfold parseBayDef at h
    split at h
    · rfl
    · cases h

theorem parseBayService_isSome : (parseBayService body).isSome ↔ body.length = 5 :=
  isSome_iff_length (fun _ => rfl) fun l h => by
    unfold parseBayService at h
    split at h
    · rfl
    · cases h

theorem parseBayQuery_isSome : (parseBayQuery body).isSome ↔ body.length = 3 :=
  isSome_iff_length (fun _ => rfl) fun l h => by
    unfold parseBayQuery at h
    split at h
    · rfl
    · cases h

theorem parseRampDef_isSome : (parseRampDef body).isSome ↔ body.length = 9 :=
  isSome_iff_length (fun _ => rfl) fun l h => by
    unfold parseRampDef at h
    split at h
    · rfl
    · cases h

theorem parseGroupOverride_isSome : (parseGroupOverride body).isSome ↔ body.length = 4 :=
  isSome_iff_length (fun _ => rfl) fun l h => by
    unfold parseGroupOverride at h
    split at h
    · rfl
    · cases h

theorem parseNodeQuery_isSome : (parseNodeQuery body).isSome ↔ body.length = 3 :=
  isSome_iff_length (fun _ => rfl) fun l h => by
    unfold parseNodeQuery at h
    split at h
    · rfl
    · cases h

theorem parsePlanDef_isSome : (parsePlanDef body).isSome ↔ body.length = 13 := by
  cases body with
  | nil => simp [parsePlanDef]
  | cons p t =>
    unfold parsePlanDef
    by_cases h : t.length = 12 <;> simp [h]

/-! ### Bodies whose length they tell -/

theorem parsePing_isSome : (parsePing body).isSome ↔ body.length ≤ 240 := by
  unfold parsePing
  by_cases h : body.length ≤ 240 <;> simp [h]

theorem parseNodeDef_isSome : (parseNodeDef body).isSome ↔ body.length = 5 + (body.getD 4 0).toNat := by
  match body with
  | [] | [_] | [_, _] | [_, _, _] | [_, _, _, _] => simp [parseNodeDef]
  | l :: a :: f :: r :: n :: t =>
    unfold parseNodeDef
    by_cases h : t.length = n.toNat <;> simp [h] <;> omega

theorem parseFives_isSome : ∀ (n : Nat) (l : List Byte), (parseFives n l).isSome ↔ l.length = 5 * n
  | 0, [] => by simp [parseFives]
  | 0, _ :: _ => by simp [parseFives]
  | n + 1, a :: b :: c :: d :: e :: t => by
    rw [parseFives, Option.isSome_map, parseFives_isSome n t]
    simp only [List.length_cons]
    omega
  | n + 1, [] | n + 1, [_] | n + 1, [_, _] | n + 1, [_, _, _] | n + 1, [_, _, _, _] => by
    simp [parseFives] <;> omega

theorem parseListLoad_isSome : (parseListLoad body).isSome ↔ body.length = 2 + 5 * (body.getD 1 0).toNat := by
  match body with
  | [] | [_] => simp [parseListLoad]
  | f :: n :: t =>
    unfold parseListLoad
    rw [Option.isSome_map, parseFives_isSome]
    simp
    omega

/-! ### Counted lists -/

theorem takeNats_of_le {n : Nat} {l : List Byte} (h : n ≤ l.length) :
    takeNats n l = some ((l.take n).map (·.toNat), l.drop n) := if_neg (Nat.not_lt.mpr h)

theorem takeNats_of_lt {n : Nat} {l : List Byte} (h : l.length < n) : takeNats n l = none := if_pos h

/-- What a counted list is read from. -/
theorem takeCounted_eq_some {l rest : List Byte} {ns : List Nat} (h : takeCounted l = some (ns, rest)) :
    ∃ bytes : List Byte, bytes.length < 256 ∧ l = (BitVec.ofNat 8 bytes.length :: bytes) ++ rest := by
  cases l with
  | nil => cases h
  | cons n t =>
    rw [takeCounted] at h
    by_cases hn : n.toNat ≤ t.length
    · rw [takeNats_of_le hn] at h
      cases h
      have hlen : (t.take n.toNat).length = n.toNat := List.length_take_of_le hn
      refine ⟨t.take n.toNat, by rw [hlen]; exact n.isLt, ?_⟩
      rw [hlen, BitVec.ofNat_toNat, BitVec.setWidth_eq, List.cons_append, List.take_append_drop]
    · rw [takeNats_of_lt (Nat.not_le.mp hn)] at h
      cases h

/-- The count byte of a counted list tells its length. -/
theorem toNat_count {l : List Byte} (h : l.length < 256) : (BitVec.ofNat 8 l.length).toNat = l.length :=
  Nat.mod_eq_of_lt h

theorem parseGroupDef_isSome : (parseGroupDef body).isSome ↔ body.length = 17 + (body.getD 5 0).toNat := by
  constructor
  · unfold parseGroupDef
    split
    · split
      · rename_i hcounted
        obtain ⟨bytes, hbytes, rfl⟩ := takeCounted_eq_some hcounted
        intro _
        have hcount := toNat_count hbytes
        simp at hcount ⊢
        omega
      · exact fun h => nomatch h
    · exact fun h => nomatch h
  · intro h
    match body, h with
    | i :: f :: z :: l :: a :: n :: t, h =>
      have ht : n.toNat + 11 = t.length := by simp at h; omega
      have hn : n.toNat ≤ t.length := by omega
      have hrest : (t.drop n.toNat).length = 11 := by rw [List.length_drop]; omega
      rw [parseGroupDef, takeCounted, takeNats_of_le hn]
      match t.drop n.toNat, hrest with
      | [_, _, _, _, _, _, _, _, _, _, _], _ => rfl
    | [], h | [_], h | [_, _], h | [_, _, _], h | [_, _, _, _], h | [_, _, _, _, _], h => simp at h

theorem parseDirections_isSome {n : Nat} {l : List Byte} (h : (parseDirections n l).isSome) :
    ∃ ds : List (Byte × List Byte × List Byte), ds.length = n
      ∧ (∀ d ∈ ds, d.2.1.length < 256 ∧ d.2.2.length < 256) ∧ l = ds.flatMap directionBytes := by
  induction n generalizing l with
  | zero =>
    cases l with
    | nil => exact ⟨[], rfl, by simp, rfl⟩
    | cons a t => cases h
  | succ n ih =>
    cases l with
    | nil => cases h
    | cons a t =>
      unfold parseDirections at h
      split at h
      · cases h
      · rename_i hzones
        split at h
        · cases h
        · rename_i hlanes
          obtain ⟨zs, hzs, rfl⟩ := takeCounted_eq_some hzones
          obtain ⟨gs, hgs, rfl⟩ := takeCounted_eq_some hlanes
          rw [Option.isSome_map] at h
          obtain ⟨ds, rfl, hds, rfl⟩ := ih h
          refine ⟨(a, zs, gs) :: ds, rfl, List.forall_mem_cons.mpr ⟨⟨hzs, hgs⟩, hds⟩, ?_⟩
          simp [directionBytes]

/-- The body of SIGN-DEF: its head, the source zones, filter and threshold, and its directions (11.2). -/
def SignDefBody (body : List Byte) : Prop :=
  ∃ (head zones : List Byte) (filter threshold : Byte) (ways : List (Byte × List Byte × List Byte)),
    head.length = 5 ∧ zones.length < 256 ∧ ways.length < 256
      ∧ (∀ w ∈ ways, w.2.1.length < 256 ∧ w.2.2.length < 256)
      ∧ body
        = head ++ (BitVec.ofNat 8 zones.length :: zones) ++ [filter, threshold, BitVec.ofNat 8 ways.length]
          ++ ways.flatMap directionBytes

theorem parseSignDef_isSome : (parseSignDef body).isSome ↔ SignDefBody body := by
  constructor
  · unfold parseSignDef
    split
    · rename_i i f l a k t
      split
      · rename_i zs fi th d rest hzones
        intro h
        rw [Option.isSome_map] at h
        obtain ⟨zones, hlen, rfl⟩ := takeCounted_eq_some hzones
        obtain ⟨ways, hways, hlists, rfl⟩ := parseDirections_isSome h
        have hd : BitVec.ofNat 8 ways.length = d := by rw [hways, BitVec.ofNat_toNat, BitVec.setWidth_eq]
        exact ⟨[i, f, l, a, k], zones, fi, th, ways, rfl, hlen, hways ▸ d.isLt, hlists, by rw [hd]; simp⟩
      · exact fun h => nomatch h
    · exact fun h => nomatch h
  · rintro ⟨head, zones, fi, th, ways, hhead, hzones, hways, hlists, rfl⟩
    match head, hhead with
    | [i, f, l, a, k], _ => rw [parseSignDef_bytes hzones hways hlists]; rfl

end

end Sys2Proof.Machine
end

