-- ==== Sys2Proof/Proofs/FrameChecks.lean ====
section
/-! SUPPORT. The checks of length and level, unknown kinds, the end of a frame and supervision (R166 to R168, R173 to
R175). -/

namespace Sys2Proof.Machine

/-! ### Kinds, their lengths and their levels (R173, 11.2) -/

/-- The kinds whose body has one length, with it (11.2). -/
def fixedLengths : List (Nat × Nat) :=
  [(0x01, 0), (0x03, 4), (0x04, 0), (0x05, 5), (0x06, 1), (0x07, 0), (0x08, 0), (0x10, 6), (0x11, 15),
    (0x12, 1), (0x18, 7), (0x19, 10), (0x1A, 1), (0x1B, 1), (0x1C, 1), (0x20, 12), (0x21, 13), (0x22, 1),
    (0x23, 1), (0x24, 0), (0x25, 1), (0x26, 1), (0x27, 1), (0x28, 1), (0x30, 8), (0x31, 5), (0x32, 3),
    (0x33, 2), (0x34, 9), (0x39, 1), (0x41, 4), (0x42, 2), (0x43, 1), (0x44, 1), (0x49, 3), (0x4A, 1),
    (0x51, 1), (0x52, 0), (0x53, 2), (0x54, 0), (0x55, 1)]

/-- The body of a request suits its kind (11.2). -/
def BodySuits (k : Nat) (body : List Byte) : Prop :=
  (k, body.length) ∈ fixedLengths
    ∨ (k = 0x02 ∧ body.length ≤ 240)
    ∨ (k = 0x38 ∧ SignDefBody body)
    ∨ (k = 0x40 ∧ body.length = 17 + (body.getD 5 0).toNat)
    ∨ (k = 0x48 ∧ body.length = 5 + (body.getD 4 0).toNat)
    ∨ (k = 0x50 ∧ body.length = 2 + 5 * (body.getD 1 0).toNat)

/-- The kinds of least level VIEW (R173). -/
def viewKinds : List Nat :=
  [0x01, 0x02, 0x03, 0x04, 0x06, 0x12, 0x1C, 0x28, 0x32, 0x33, 0x39, 0x43, 0x49, 0x53, 0x54, 0x55]

/-- The kinds of least level OPERATOR (R173). -/
def operatorKinds : List Nat := [0x27, 0x41, 0x42, 0x44]

/-- The kinds that "operator edits plans" opens to OPERATOR (R173). -/
def planKinds : List Nat := [0x21, 0x22]

/-- The kinds that "operator edits service" opens to OPERATOR (R173). -/
def serviceKinds : List Nat := [0x31, 0x1A, 0x1B, 0x25, 0x26]

/-- The least level of a kind under the items (R173). -/
def leastLevel (k : Nat) (it : Items) : Access :=
  if k ∈ viewKinds then .view
  else if k ∈ operatorKinds then .operator
  else if k ∈ planKinds ∧ it.editPlans = true then .operator
  else if k ∈ serviceKinds ∧ it.editService = true then .operator
  else .installer

section
variable {k n : Nat} {body : List Byte}

/-- A kind has one length at most, and none of those whose body tells its own. -/
theorem fixedLengths_unique :
    ∀ e ∈ fixedLengths, e.1 ∉ [0x02, 0x38, 0x40, 0x48, 0x50] ∧ ∀ f ∈ fixedLengths, f.1 = e.1 → f.2 = e.2 := by
  decide +kernel

theorem bodySuits_of_fixed (hk : (k, n) ∈ fixedLengths) : BodySuits k body ↔ body.length = n := by
  obtain ⟨hown, honce⟩ := fixedLengths_unique _ hk
  constructor
  · rintro (h | ⟨rfl, _⟩ | ⟨rfl, _⟩ | ⟨rfl, _⟩ | ⟨rfl, _⟩ | ⟨rfl, _⟩)
    · exact honce _ h rfl
    all_goals exact absurd (by simp) hown
  · rintro rfl
    exact .inl hk

/-! A kind whose body tells its own length has no other. -/

theorem bodySuits_ping : BodySuits 0x02 body ↔ body.length ≤ 240 := by simp [BodySuits, fixedLengths]

theorem bodySuits_signDef : BodySuits 0x38 body ↔ SignDefBody body := by simp [BodySuits, fixedLengths]

theorem bodySuits_groupDef : BodySuits 0x40 body ↔ body.length = 17 + (body.getD 5 0).toNat := by
  simp [BodySuits, fixedLengths]

theorem bodySuits_nodeDef : BodySuits 0x48 body ↔ body.length = 5 + (body.getD 4 0).toNat := by
  simp [BodySuits, fixedLengths]

theorem bodySuits_listLoad : BodySuits 0x50 body ↔ body.length = 2 + 5 * (body.getD 1 0).toNat := by
  simp [BodySuits, fixedLengths]

end

/-! ### A request and its checks (R166, R173) -/

section
variable {α : Type} {c : Instr} {tag : Byte} {level : State → Access} {o : Option α} {owner : α → State → Owned}
  {s : State}

/-- With 4 replies waiting a request does nothing after supervision has restarted. -/
theorem exec_noRoom (hc : effect c = State.request tag level o owner) (hs : s.handed = [])
    (hfull : 4 ≤ s.port.replies.length) : exec c s = .next (settle s.framePassed) := by
  have hp : Config.replyCapacity ≤ s.framePassed.port.replies.length := by rwa [State.framePassed_port_replies]
  rw [exec_of_calm hs, hc]
  exact congrArg (fun t => Host.Outcome.next (settle t)) (if_pos hp)

/-- A request whose length suits its kind, below its level. -/
theorem exec_notPermitted {x : α} (hc : effect c = State.request tag level o owner) (hs : s.handed = [])
    (hroom : s.port.replies.length < 4) (ho : o = some x)
    (hlevel : accessCode s.port.access < accessCode (level s.framePassed)) :
    exec c s = .next (s.framePassed.turnedAway tag .notPermitted) := by
  have hp : ¬ Config.replyCapacity ≤ s.framePassed.port.replies.length := by
    rw [State.framePassed_port_replies]
    exact Nat.not_le.mpr hroom
  have hbelow : ¬ s.framePassed.port.access.reaches (level s.framePassed) = true := by
    rw [State.framePassed_port_access]
    simpa [Access.reaches] using hlevel
  subst ho
  rw [exec_of_calm hs, hc]
  exact congrArg (fun t => Host.Outcome.next (settle t)) ((if_neg hp).trans (if_neg hbelow))

end

/-- A command that is taken as a request: its level is `least` under the items, and its body is read when it `suits`. -/
def TakenAsRequest (c : Instr) (tag : Byte) (least : Items → Access) (suits : Prop) : Prop :=
  ∃ (α : Type) (level : State → Access) (o : Option α) (owner : α → State → Owned),
    effect c = State.request tag level o owner ∧ (∀ s, level s = least s.items) ∧ (o.isSome ↔ suits)

section
variable {c : Instr} {tag : Byte} {s : State} {least : Items → Access} {suits : Prop}

theorem TakenAsRequest.noRoom (h : TakenAsRequest c tag least suits) (hs : s.handed = [])
    (hfull : 4 ≤ s.port.replies.length) : exec c s = .next (settle s.framePassed) := by
  obtain ⟨_, _, _, _, hc, _, _⟩ := h
  exact exec_noRoom hc hs hfull

theorem TakenAsRequest.badLength (h : TakenAsRequest c tag least suits) (hs : s.handed = [])
    (hroom : s.port.replies.length < 4) (hbad : ¬ suits) :
    exec c s = .next (s.framePassed.turnedAway tag .badLength) := by
  obtain ⟨_, _, o, _, hc, _, ho⟩ := h
  exact exec_badLength hc hs hroom (Option.not_isSome_iff_eq_none.mp fun h => hbad (ho.mp h))

theorem TakenAsRequest.notPermitted (h : TakenAsRequest c tag least suits) (hs : s.handed = [])
    (hroom : s.port.replies.length < 4) (hgood : suits)
    (hlevel : accessCode s.port.access < accessCode (least s.items)) :
    exec c s = .next (s.framePassed.turnedAway tag .notPermitted) := by
  obtain ⟨_, _, o, _, hc, hleast, ho⟩ := h
  obtain ⟨x, hx⟩ := Option.isSome_iff_exists.mp (ho.mpr hgood)
  exact exec_notPermitted hc hs hroom hx (by rwa [hleast, State.framePassed_items])

end

section
variable {α : Type} {c : Instr} {tag : Byte} {k n : Nat} {body : List Byte} {level : State → Access}
  {read : List Byte → Option α} (owner : α → State → Owned)

/-- The request of a kind whose body tells its own length. -/
theorem TakenAsRequest.ownLength {p : Prop} (hc : effect c = State.request tag level (read body) owner)
    (hlevel : ∀ s, level s = leastLevel k s.items) (hread : (read body).isSome ↔ p) (hsuits : BodySuits k body ↔ p) :
    TakenAsRequest c tag (leastLevel k) (BodySuits k body) :=
  ⟨α, level, _, owner, hc, hlevel, hread.trans hsuits.symm⟩

/-- The request of a kind whose body has one length. -/
theorem TakenAsRequest.fixed (hc : effect c = State.request tag level (read body) owner)
    (hlevel : ∀ s, level s = leastLevel k s.items) (hread : (read body).isSome ↔ body.length = n)
    (hk : (k, n) ∈ fixedLengths) : TakenAsRequest c tag (leastLevel k) (BodySuits k body) :=
  .ownLength owner hc hlevel hread (bodySuits_of_fixed hk)

end

section
variable {k : Nat} (s : State)

theorem levelView_eq (hk : k ∈ viewKinds) : levelView s = leastLevel k s.items := (if_pos hk).symm

theorem levelOperator_eq (hk : k ∉ viewKinds ∧ k ∈ operatorKinds) : levelOperator s = leastLevel k s.items := by
  simp [levelOperator, leastLevel, hk]

theorem levelPlans_eq (hk : k ∉ viewKinds ++ operatorKinds ++ serviceKinds ∧ k ∈ planKinds) :
    levelPlans s = leastLevel k s.items := by
  simp_all [levelPlans, leastLevel]

theorem levelService_eq (hk : k ∉ viewKinds ++ operatorKinds ++ planKinds ∧ k ∈ serviceKinds) :
    levelService s = leastLevel k s.items := by
  simp_all [levelService, leastLevel]

theorem levelInstaller_eq (hk : k ∉ viewKinds ++ operatorKinds ++ planKinds ++ serviceKinds) :
    levelInstaller s = leastLevel k s.items := by
  simp_all [levelInstaller, leastLevel]

end

/-- Each kind's command is taken as a request of its level and its length. -/
theorem takenAsRequest_of_requestOf {k : Nat} {tag : Byte} {body : List Byte} {lines : PerLoop Bool} {c : Instr}
    (h : requestOf k tag body lines = some c) : TakenAsRequest c tag (leastLevel k) (BodySuits k body) := by
  unfold requestOf at h
  split at h <;> cases h
  · exact .fixed ownIdent rfl (levelView_eq · (by decide)) parseEmpty_isSome (by decide)
  · exact .ownLength ownPing rfl (levelView_eq · (by decide)) parsePing_isSome bodySuits_ping
  · exact .fixed ownLogin rfl (levelView_eq · (by decide)) parseCode_isSome (by decide)
  · exact .fixed ownLogout rfl (levelView_eq · (by decide)) parseEmpty_isSome (by decide)
  · exact .fixed ownSetItem rfl (levelInstaller_eq · (by decide)) parseSetItem_isSome (by decide)
  · exact .fixed ownGetItem rfl (levelView_eq · (by decide)) parseByte_isSome (by decide)
  · exact .fixed ownSave rfl (levelInstaller_eq · (by decide)) parseEmpty_isSome (by decide)
  · exact .fixed ownDefaults rfl (levelInstaller_eq · (by decide)) parseEmpty_isSome (by decide)
  · exact .fixed ownHeadDef rfl (levelInstaller_eq · (by decide)) parseHeadDef_isSome (by decide)
  · exact .fixed ownHeadCal rfl (levelInstaller_eq · (by decide)) parseHeadCal_isSome (by decide)
  · exact .fixed ownGasQuery rfl (levelView_eq · (by decide)) parseByte_isSome (by decide)
  · exact .fixed ownZoneDef rfl (levelInstaller_eq · (by decide)) parseZoneDef_isSome (by decide)
  · exact .fixed ownZoneLimits rfl (levelInstaller_eq · (by decide)) parseZoneLimits_isSome (by decide)
  · exact .fixed (ownZoneClosure true) rfl (levelService_eq · (by decide)) parseByte_isSome (by decide)
  · exact .fixed (ownZoneClosure false) rfl (levelService_eq · (by decide)) parseByte_isSome (by decide)
  · exact .fixed ownZoneQuery rfl (levelView_eq · (by decide)) parseByte_isSome (by decide)
  · exact .fixed ownFanDef rfl (levelInstaller_eq · (by decide)) parseFanDef_isSome (by decide)
  · exact .fixed ownPlanDef rfl (levelPlans_eq · (by decide)) parsePlanDef_isSome (by decide)
  · exact .fixed ownPlanBase rfl (levelPlans_eq · (by decide)) parseByte_isSome (by decide)
  · exact .fixed ownPlanForce rfl (levelInstaller_eq · (by decide)) parseByte_isSome (by decide)
  · exact .fixed ownPlanUnforce rfl (levelInstaller_eq · (by decide)) parseEmpty_isSome (by decide)
  · exact .fixed ownFanHold rfl (levelService_eq · (by decide)) parseByte_isSome (by decide)
  · exact .fixed ownFanFree rfl (levelService_eq · (by decide)) parseByte_isSome (by decide)
  · exact .fixed ownFanClear rfl (levelOperator_eq · (by decide)) parseByte_isSome (by decide)
  · exact .fixed ownFanQuery rfl (levelView_eq · (by decide)) parseByte_isSome (by decide)
  · exact .fixed ownBayDef rfl (levelInstaller_eq · (by decide)) parseBayDef_isSome (by decide)
  · exact .fixed ownBayService rfl (levelService_eq · (by decide)) parseBayService_isSome (by decide)
  · exact .fixed ownBayQuery rfl (levelView_eq · (by decide)) parseBayQuery_isSome (by decide)
  · exact .fixed ownCountQuery rfl (levelView_eq · (by decide)) parseByte2_isSome (by decide)
  · exact .fixed ownRampDef rfl (levelInstaller_eq · (by decide)) parseRampDef_isSome (by decide)
  · exact .ownLength ownSignDef rfl (levelInstaller_eq · (by decide)) parseSignDef_isSome bodySuits_signDef
  · exact .fixed ownSignQuery rfl (levelView_eq · (by decide)) parseByte_isSome (by decide)
  · exact .ownLength ownGroupDef rfl (levelInstaller_eq · (by decide)) parseGroupDef_isSome bodySuits_groupDef
  · exact .fixed ownGroupOverride rfl (levelOperator_eq · (by decide)) parseGroupOverride_isSome (by decide)
  · exact .fixed ownGroupRelease rfl (levelOperator_eq · (by decide)) parseByte2_isSome (by decide)
  · exact .fixed ownGroupQuery rfl (levelView_eq · (by decide)) parseByte_isSome (by decide)
  · exact .fixed ownSiteMode rfl (levelOperator_eq · (by decide)) parseByte_isSome (by decide)
  · exact .ownLength ownNodeDef rfl (levelInstaller_eq · (by decide)) parseNodeDef_isSome bodySuits_nodeDef
  · exact .fixed ownNodeQuery rfl (levelView_eq · (by decide)) parseNodeQuery_isSome (by decide)
  · exact .fixed (ownLoopReset lines) rfl (levelInstaller_eq · (by decide)) parseByte_isSome (by decide)
  · exact .ownLength ownListLoad rfl (levelInstaller_eq · (by decide)) parseListLoad_isSome bodySuits_listLoad
  · exact .fixed ownListGo rfl (levelInstaller_eq · (by decide)) parseByte_isSome (by decide)
  · exact .fixed ownListHalt rfl (levelInstaller_eq · (by decide)) parseEmpty_isSome (by decide)
  · exact .fixed ownListRead rfl (levelView_eq · (by decide)) parseByte2_isSome (by decide)
  · exact .fixed ownListQuery rfl (levelView_eq · (by decide)) parseEmpty_isSome (by decide)
  · exact .fixed ownFoundRead rfl (levelView_eq · (by decide)) parseByte_isSome (by decide)

/-! ### Events of the line (R164, R168, R174) -/

section
variable {s : State}

theorem State.framePassed_eq_markWhen (s : State) :
    s.framePassed
      = ({ s with port := { s.port with link := .supervised, supervisedAt := s.now } } : State).markWhen
          (s.port.link == .autonomous) .site := by
  unfold State.framePassed
  cases s.port.link <;> rfl

theorem effUnknownKind_room (tag : Byte) (h : s.port.replies.length < 4) :
    effUnknownKind tag s = s.framePassed.reply (refusedFrame tag .unknownKind) :=
  if_neg (by rw [State.framePassed_port_replies]; exact Nat.not_le.mpr h)

theorem effUnknownKind_noRoom (tag : Byte) (h : 4 ≤ s.port.replies.length) : effUnknownKind tag s = s.framePassed :=
  if_pos (by rwa [State.framePassed_port_replies])

theorem effFrameSent_of_none (h : s.port.sending = none) : effFrameSent s = s := by
  unfold effFrameSent
  rw [h]

theorem effFrameSent_of_some {f : Frame} (h : s.port.sending = some f) :
    effFrameSent s
      = s.withPort fun p =>
          { p with
            sending := none
            rate := (match f.newRate with | none => p.rate | some n => n)
            receiver := (match f.newRate with | none => p.receiver | some _ => .hunting) } := by
  unfold effFrameSent
  rw [h]
  dsimp only
  cases f.newRate <;> rfl

theorem State.supervisionDue_iff :
    s.supervisionDue = true
      ↔ s.port.link = .supervised ∧ 0 < s.items.supervisionTime
          ∧ s.port.supervisedAt + s.items.supervisionTime ≤ s.now := by
  simp [State.supervisionDue, and_assoc]

end

/-- Settles O55: bytes by the receiver's cases, requests by their checks, and the line's events one by one. -/
theorem framesAndSupervisionFollowTheRules : Obligations.FramesAndSupervisionFollowTheRules := by
  intro s lines hs receiver line due autonomous r
  have taken {c : Instr} {t : State} (h : effect c s = t) : exec c s = .next (settle t) := by rw [exec_of_calm hs, h]
  have hdue : s.supervisionDue = true ↔ due := State.supervisionDue_iff
  refine ⟨fun b gap => taken rfl, fun b gap h => taken (effReceiveByte_incomplete ?hunting),
    fun b h => taken (effReceiveByte_incomplete (gap := false) ?length),
    fun b len rest h hlen hmore => taken (effReceiveByte_incomplete (gap := false) ?more),
    s.framePassed_eq_markWhen, fun kind tag body => ?requests, fun h => taken (effFrameSent_of_none h),
    fun f h => taken (effFrameSent_of_some h), fun h => taken (if_neg (mt hdue.mp h)),
    fun h => taken ((if_pos (hdue.mpr h)).trans ?expiry), State.transmit_of_busy,
    fun f rest h hr => State.transmit_of_reply h hr, fun h hr hn => State.transmit_of_startNote h hr hn,
    fun x rest h hr hn hx => ?note, State.transmit_of_empty⟩
  case hunting =>
    have hstart : (if gap = true then Receiver.hunting else s.port.receiver) = .hunting := by
      rcases h with h | h <;> simp [h]
    rw [hstart]
    rfl
  case length => exact h ▸ Receiver.take_length b
  case more => exact h ▸ Receiver.take_more hlen hmore
  case expiry =>
    have hautonomous : autonomous.handed = [] := (State.mark_handed _ _).trans hs
    change autonomous.handAll _ = _
    rw [State.handAll, hautonomous, List.nil_append]
  case note => exact (State.transmit_of_note h hr hn hx).trans (if_pos (List.isEmpty_iff.mpr hs))
  case requests =>
    refine ⟨fun hroom => taken (effUnknownKind_room tag hroom), fun hfull => taken (effUnknownKind_noRoom tag hfull),
      taken rfl, fun c hc => ?_⟩
    have request := takenAsRequest_of_requestOf hc
    exact ⟨request.noRoom hs, fun hroom => ⟨request.badLength hs hroom, request.notPermitted hs hroom⟩⟩

end Sys2Proof.Machine
end

