-- ==== Sys2Proof/Proofs/EngineKeeps.lean ====
section
/-! SUPPORT. What the engine leaves of the records it works on: the definitions of the nodes and the groups, the list
memory, and the port but for new notes (R136 to R138, R148, R169). -/

namespace Sys2Proof.Machine

variable {s t : State}

/-! ### What the engine keeps -/

/-- The node table has its form, and none of its entries is retiring (R145). -/
structure NoneRetiring (m : LoopMaster) : Prop where
  table : Table.wf m.nodes = true
  active : ∀ i x, m.nodes.get i = some x → x.retiring = false

/-- The definitions, the list memory and the port stand, but for notes that joined the note set. -/
structure Steady (s t : State) : Prop where
  port : ∃ added, t.port = { s.port with notes := s.port.notes ++ added }
  memory : t.list.memory = s.list.memory
  groups : (t.light.groups.map fun _ g => g.defn) = s.light.groups.map fun _ g => g.defn
  nodes : NoneRetiring s.loops →
    NoneRetiring t.loops ∧ (t.loops.nodes.map fun _ x => x.defn) = s.loops.nodes.map fun _ x => x.defn

theorem Steady.refl (s : State) : Steady s s := ⟨⟨[], by rw [List.append_nil]⟩, rfl, rfl, fun k => ⟨k, rfl⟩⟩

theorem Steady.withLoops {f : LoopMaster → LoopMaster} (h : Steady s t)
    (hf : (f t.loops).nodes = t.loops.nodes := by rfl) : Steady s (t.withLoops f) where
  port := h.port
  memory := h.memory
  groups := h.groups
  nodes k := by
    obtain ⟨⟨w, active⟩, hdefns⟩ := h.nodes k
    have same : (t.withLoops f).loops.nodes = t.loops.nodes := hf
    exact ⟨⟨same ▸ w, same ▸ active⟩, same ▸ hdefns⟩

theorem Steady.withList {f : ScanList → ScanList} (h : Steady s t)
    (hf : (f t.list).memory = t.list.memory := by rfl) : Steady s (t.withList f) :=
  ⟨h.port, hf.trans h.memory, h.groups, h.nodes⟩

theorem Steady.setLine {l : LoopId} {x : LoopState} (h : Steady s t) : Steady s (t.setLine l x) := h.withLoops

theorem Steady.begin {n : NodeId} {op : LoopOp} {src : TxSource} {role : Option Role} {p : List Byte} {last : Bool}
    (h : Steady s t) : Steady s (t.begin n op src role p last) := h.withLoops

theorem Steady.mark {x : Subject} (h : Steady s t) : Steady s (t.mark x) := by
  unfold State.mark
  split
  · exact h
  · obtain ⟨added, hport⟩ := h.port
    exact ⟨⟨added ++ [x], by rw [hport, List.append_assoc]⟩, h.memory, h.groups, h.nodes⟩

/-- The in-flight levels are no part of a group's definition. -/
theorem Steady.takeInFlight {n : NodeId} (h : Steady s t) : Steady s (t.takeInFlight n) where
  port := h.port
  memory := h.memory
  groups := by
    have htaken : (t.takeInFlight n).light.groups
        = t.light.groups.map fun _ g => if g.defn.node = n then { g with inFlight := some g.target } else g := rfl
    rw [htaken, Table.map_map, ← h.groups]
    refine Table.map_congr fun e _ => ?_
    split <;> rfl
  nodes := h.nodes

/-- An entry is written with its own definition, retiring as before. -/
theorem Steady.setNode {n : NodeId} {x y : Node} (h : Steady s t) (hx : t.node n = some x) (hdefn : y.defn = x.defn)
    (hretiring : y.retiring = x.retiring) : Steady s (t.setNode n y) where
  port := h.port
  memory := h.memory
  groups := h.groups
  nodes k := by
    obtain ⟨⟨w, active⟩, hdefns⟩ := h.nodes k
    obtain ⟨hok, hget⟩ := State.node_eq_some_iff.mp hx
    have hput : (t.setNode n y).loops.nodes = t.loops.nodes.put (nodeIndex n) y := by
      rw [State.setNode_loops, if_pos hok]
    rw [← hdefns]
    refine ⟨⟨hput ▸ Table.wf_put w _ _, fun i z hz => ?active⟩, ?defns⟩
    case active =>
      rw [hput, Table.get_put] at hz
      split at hz
      · cases hz
        exact hretiring.trans (active _ _ hget)
      · exact active i z hz
    case defns =>
      rw [hput, Table.put_eq_map w hget, Table.map_map]
      refine Table.map_congr fun e he => ?_
      split
      · rename_i hi
        have hsame : e.2 = x := Option.some.inj ((Table.get_of_mem w he).symm.trans (hi ▸ hget))
        rw [hdefn, hsame]
      · rfl

/-! ### The engine's operations -/

theorem Steady.post {n : NodeId} (h : Steady s t) : Steady s (t.post n) := by
  unfold State.post
  split
  · exact h
  · split
    · exact h.withLoops (f := fun m => { m with urgent := m.urgent ++ [n] })
    · split
      · rename_i x hx
        exact h.setNode hx rfl rfl
      · exact h

theorem Steady.refill {fuel : Nat} (h : Steady s t) : Steady s (t.refill fuel) := by
  induction fuel generalizing t with
  | zero => exact h
  | succ fuel ih =>
    unfold State.refill
    split
    · split
      · exact h
      · split
        · exact h
        · rename_i x hx
          exact ih (h.setNode (y := { x with refreshOwed := false }) hx rfl rfl).post
    · exact h

theorem Steady.popUrgent (h : Steady s t) : Steady s t.popUrgent := Steady.refill h.withLoops

/-- Where an entry is deleted, an entry was retiring. -/
theorem Steady.deleteNode {n : NodeId} {x : Node} (h : Steady s t) (hx : t.node n = some x) (hr : x.retiring = true) :
    Steady s (t.deleteNode n) := by
  refine Steady.refill (Steady.withLoops (t := t.withLoops _) ⟨h.port, h.memory, h.groups, fun k => ?_⟩)
  have hactive := (h.nodes k).1.active _ _ (State.node_eq_some_iff.mp hx).2
  exact Bool.noConfusion (hr.symm.trans hactive)

theorem Steady.beginOutput {n : NodeId} {x : Node} {src : TxSource} (h : Steady s t) :
    Steady s (t.beginOutput n x src) := by
  unfold State.beginOutput State.beginWrite
  dsimp only
  split
  · exact h.begin
  · split
    · exact Steady.takeInFlight h.begin
    · exact h.begin

theorem Steady.takeUrgent {n : NodeId} (h : Steady s t) : Steady s (t.takeUrgent n) := by
  have k : Steady s t.popUrgent := h.popUrgent
  unfold State.takeUrgent
  dsimp only
  split
  · exact k
  · split
    · split
      · exact k.deleteNode ‹_› ‹_›
      · exact k
    · exact k.beginOutput

theorem Steady.setListState {x : ListState} (h : Steady s t) : Steady s (t.setListState x) := by
  unfold State.setListState
  dsimp only
  split
  · exact Steady.mark h.withList
  · exact h.withList

theorem Steady.faultList {k : ListErrorKind} {n : Option NodeId} (h : Steady s t) : Steady s (t.faultList k n) :=
  Steady.setListState h.withList

theorem Steady.reach {fuel : Nat} (h : Steady s t) : Steady s (t.reach fuel) := by
  induction fuel generalizing t with
  | zero => exact h
  | succ fuel ih =>
    unfold State.reach
    split
    · exact h.withList
    · exact h.withList
    · exact Steady.setListState h.withList
    · dsimp only
      split
      · exact Steady.faultList h.withList
      · exact ih (Steady.withList h.withList)
    · exact Steady.setListState h.withList

theorem Steady.advance (h : Steady s t) : Steady s t.advance := Steady.reach h.withList

theorem Steady.endSpent (h : Steady s t) : Steady s t.endSpent := by
  unfold State.endSpent
  split
  · exact h.advance
  · exact h

theorem Steady.nextSwept (h : Steady s t) : Steady s t.nextSwept := Steady.endSpent h.withList

theorem Steady.listError {k : ListErrorKind} (h : Steady s t) : Steady s (t.listError k) := by
  have continued : Steady s t.continueError := h.withList
  unfold State.listError
  split
  · split
    · exact continued.advance
    · exact h.faultList
  · split
    · split
      · exact Steady.advance continued.withList
      · exact Steady.advance continued.withList
      · exact continued.endSpent
      · exact continued.nextSwept
    · exact h.faultList
  all_goals exact h

theorem Steady.beginList {n : NodeId} {op : LoopOp} (h : Steady s t) : Steady s (t.beginList n op) :=
  Steady.withList h.begin

theorem Steady.beginSweep {l : LoopId} (h : Steady s t) : Steady s (t.beginSweep l) := by
  unfold State.beginSweep
  split
  · exact h
  · exact Steady.withList h.withLoops

theorem Steady.stampItem (h : Steady s t) : Steady s t.stampItem := by
  unfold State.stampItem
  split
  · exact h
  · exact h.withList

theorem Steady.takeList (h : Steady s t) : Steady s t.takeList := by
  unfold State.takeList
  split
  · exact h.beginList
  · split
    · exact h.listError
    · split
      · exact Steady.withList h.beginOutput
      · exact h.listError
  · exact h.beginSweep.beginList
  · exact h.stampItem.beginList
  · exact h.beginList
  · exact h.beginList
  all_goals exact h

theorem Steady.beginService {n : NodeId} (h : Steady s t) : Steady s (t.beginService n) := by
  unfold State.beginService State.noteEmptied
  exact Steady.withLoops (Steady.begin h.setLine)

theorem Steady.chooseOnce (h : Steady s t) : Steady s t.chooseOnce := by
  unfold State.chooseOnce
  split
  · exact h.takeList
  · split
    · exact h.beginService
    · split
      · exact Steady.begin (Steady.withLoops h.setLine)
      · split
        · exact h.takeUrgent
        · split
          · exact h.takeList
          · exact h

theorem Steady.choose {fuel : Nat} (h : Steady s t) : Steady s (t.choose fuel) := by
  induction fuel generalizing t with
  | zero => exact h
  | succ fuel ih =>
    unfold State.choose
    split
    · exact ih h.chooseOnce
    · exact h

end Sys2Proof.Machine
end

