-- ==== Sys2Proof/Proofs/StartState.lean ====
section
/-! SUPPORT. The run state in which a start leaves each record, and what it sends (R20, R40, R75, R94, R108, R126, R170,
R172, R184). -/

namespace Sys2Proof.Machine

/-! ### The duty order of a start (R51) -/

section
variable (minutes : Nat → Nat)

/-- One fan is ranked before another: fewer run minutes, or as many and a lower number (R51). -/
def rankedBefore (a b : Nat) : Prop := minutes a < minutes b ∨ (minutes a = minutes b ∧ a < b)

theorem rankInsert_perm (i : Nat) (l : List Nat) : (rankInsert minutes i l).Perm (i :: l) := by
  induction l with
  | nil => exact .refl _
  | cons x l ih =>
    unfold rankInsert
    split
    · exact .refl _
    · exact (ih.cons x).trans (.swap i x l)

theorem rankFans_perm (l : List Nat) : (rankFans minutes l).Perm l := by
  induction l with
  | nil => exact .refl _
  | cons i l ih => exact (rankInsert_perm minutes i _).trans (ih.cons i)

variable {minutes}

/-- A new fan joins a ranking at its place. -/
theorem rankInsert_pairwise {i : Nat} {l : List Nat} (h : l.Pairwise (rankedBefore minutes)) (hi : i ∉ l) :
    (rankInsert minutes i l).Pairwise (rankedBefore minutes) := by
  induction l with
  | nil => exact List.pairwise_singleton _ _
  | cons x l ih =>
    obtain ⟨hx, hl⟩ := List.pairwise_cons.mp h
    obtain ⟨hne, hnot⟩ := not_or.mp (mt List.mem_cons.mpr hi)
    unfold rankInsert
    split
    · rename_i hfirst
      refine List.pairwise_cons.mpr ⟨fun y hy => ?_, h⟩
      rcases List.mem_cons.mp hy with rfl | hy
      · exact hfirst
      · have := hx y hy
        unfold rankedBefore at this ⊢
        omega
    · rename_i hlater
      refine List.pairwise_cons.mpr ⟨fun y hy => ?_, ih hl hnot⟩
      rcases List.mem_cons.mp ((rankInsert_perm minutes i l).mem_iff.mp hy) with rfl | hy
      · unfold rankedBefore
        omega
      · exact hx y hy

theorem rankFans_pairwise {l : List Nat} (h : l.Nodup) : (rankFans minutes l).Pairwise (rankedBefore minutes) := by
  induction l with
  | nil => exact List.Pairwise.nil
  | cons i l ih =>
    obtain ⟨hi, hl⟩ := List.nodup_cons.mp h
    exact rankInsert_pairwise (ih hl) fun hmem => hi ((rankFans_perm minutes l).mem_iff.mp hmem)

end

theorem Table.exists_of_get_map {α β : Type} {t : Table α} {f : Nat → α → β} {i : Nat} {y : β}
    (h : (t.map f).get i = some y) : ∃ x, t.get i = some x ∧ f i x = y := by
  rwa [Table.get_map, Option.map_eq_some_iff] at h

theorem startFans_wf {fans : Table SavedFan} (w : Table.wf fans = true) : Table.wf (startFans fans) = true :=
  Table.wf_map w _

section
variable {fans : Table Fan} (plans : List (List PlanEntry)) (base zone : Nat)

/-- At a start the fans of a zone stand in its duty order (R51). -/
theorem mem_startZoneFans_duty (w : Table.wf fans = true) {j : Nat} :
    j ∈ (startZoneFans fans plans base zone).duty ↔ ∃ f, fans.get j = some f ∧ f.defn.zone = zone := by
  unfold startZoneFans
  dsimp only
  rw [(rankFans_perm _ _).mem_iff, List.mem_map]
  constructor
  · rintro ⟨⟨k, f⟩, he, rfl⟩
    obtain ⟨hmem, hzone⟩ := List.mem_filter.mp he
    exact ⟨f, Table.get_of_mem w hmem, of_decide_eq_true hzone⟩
  · rintro ⟨f, hget, hzone⟩
    exact ⟨(j, f), List.mem_filter.mpr ⟨Table.mem_of_get hget, decide_eq_true hzone⟩, rfl⟩

/-- At a start the duty order is by run minutes, ties by fan number (R51). -/
theorem startZoneFans_duty_pairwise (w : Table.wf fans = true) :
    (startZoneFans fans plans base zone).duty.Pairwise fun a b =>
      ∃ f g, fans.get a = some f ∧ fans.get b = some g
        ∧ (f.runMinutes < g.runMinutes ∨ (f.runMinutes = g.runMinutes ∧ a < b)) := by
  obtain ⟨minutes, hminutes, ranked⟩ : ∃ minutes, (∀ i f, fans.get i = some f → minutes i = f.runMinutes)
      ∧ (startZoneFans fans plans base zone).duty.Pairwise (rankedBefore minutes) :=
    ⟨_, fun i f hf => by dsimp only; rw [hf], rankFans_pairwise (Table.keys_nodup (Table.wf_filter w _))⟩
  refine ranked.imp_of_mem fun {a b} ha hb hab => ?_
  obtain ⟨f, hf, -⟩ := (mem_startZoneFans_duty plans base zone w).mp ha
  obtain ⟨g, hg, -⟩ := (mem_startZoneFans_duty plans base zone w).mp hb
  unfold rankedBefore at hab
  rw [hminutes a f hf, hminutes b g hg] at hab
  exact ⟨f, g, hf, hg, hab⟩

end

/-- At a start a zone's available fans are those the base plan does not make IDLE (R49). -/
theorem startZoneFans_available (fans : Table SavedFan) (plans : List (List PlanEntry)) (base zone : Nat) :
    (startZoneFans (startFans fans) plans base zone).available
      = (fans.filter fun e => e.2.defn.zone = zone ∧ (plans.getD base []).getD e.1 .forward ≠ .idle).length := by
  unfold startZoneFans startFans Table.map planEntry
  dsimp only
  rw [List.filter_map, List.filter_map, List.length_map, List.filter_filter]
  congr 1
  refine List.filter_congr fun e _ => Bool.eq_iff_iff.mpr ?_
  simp only [Function.comp_apply, Fan.new, Bool.and_eq_true, bne_iff_ne, decide_eq_true_eq]
  exact and_comm

/-! ### The records of a start -/

section
variable {i : Nat}

theorem startGas_head {heads : Table HeadDefn} {h : Head} (hget : (startGas heads).heads.get i = some h) :
    h.lastStatus = none ∧ h.co = .fresh false ∧ h.no2 = .fresh false := by
  dsimp only [startGas] at hget
  obtain ⟨d, -, rfl⟩ := Table.exists_of_get_map hget
  exact ⟨rfl, rfl, rfl⟩

theorem startFans_fan {fans : Table SavedFan} {f : Fan} (hget : (startFans fans).get i = some f) :
    ∃ x : SavedFan, f = Fan.new 0 x.defn x.runMinutes := by
  obtain ⟨x, -, rfl⟩ := Table.exists_of_get_map hget
  exact ⟨x, rfl⟩

theorem startBays_bay {bays : Table BayDefn} {b : Bay} (hget : (startBays bays).get i = some b) :
    b.state = .unknown ∧ b.candidate = none ∧ b.counter = 0 ∧ b.lastChange = 0 := by
  obtain ⟨d, -, rfl⟩ := Table.exists_of_get_map hget
  exact ⟨rfl, rfl, rfl, rfl⟩

theorem startRamps_ramp {ramps : Table RampDefn} {p : Ramp} (hget : (startRamps ramps).get i = some p) :
    p.standing = false ∧ p.upTally = 0 ∧ p.downTally = 0 ∧ p.last = none := by
  obtain ⟨d, -, rfl⟩ := Table.exists_of_get_map hget
  exact ⟨rfl, rfl, rfl, rfl⟩

theorem startGroups_group {groups : Table GroupDefn} {it : Items} {g : Group}
    (hget : (startGroups groups it).get i = some g) :
    g.override = none ∧ g.presence = none ∧ g.target = it.openBase ∧ g.cause = .base ∧ g.inFlight = none
      ∧ g.applied = none ∧ g.conditions = g.defn.outputs.map fun _ => .unknown := by
  obtain ⟨d, -, rfl⟩ := Table.exists_of_get_map hget
  exact ⟨rfl, rfl, rfl, rfl, rfl, rfl, rfl⟩

/-- No zone offers a bay in the guidance view of a start (R97). -/
theorem startView_getD (z : Nat) : startView.getD z .initial = .initial := by
  unfold startView
  rw [List.getD_eq_getElem?_getD, List.getElem?_replicate]
  split <;> rfl

theorem sum_map_of_zero {α : Type} {f : α → Nat} (h : ∀ x, f x = 0) (l : List α) : (l.map f).sum = 0 := by
  induction l with
  | nil => rfl
  | cons x l ih => rw [List.map_cons, List.sum_cons, h, ih]

theorem startView_offeredSum (filter : PerClass Bool) (zones : List Nat) : offeredSum startView filter zones = 0 := by
  refine sum_map_of_zero (fun z => ?_) zones
  unfold openFree
  rw [startView_getD]
  exact sum_map_of_zero (fun c => by cases c <;> rfl) _

/-- A sign with a source shows FULL and no direction at a start (R98, R99, R108). -/
theorem displayOf_startView {d : SignDefn} (h : d.sources ≠ []) :
    displayOf startView d 0 = ⟨0, .full, none, .none, 0⟩ := by
  have hoffered : offeredFigure startView d = 0 := by
    unfold offeredFigure
    rw [startView_offeredSum]
    rfl
  have hopen : allClosed startView d = false := by
    obtain ⟨z, zones, hz⟩ := List.exists_cons_of_ne_nil h
    unfold allClosed
    rw [hz, List.all_cons, startView_getD]
    rfl
  have hchosen : chosenDirection startView d = none := by
    unfold chosenDirection
    simp [startView_offeredSum]
  unfold displayOf signText
  rw [hoffered, hopen, hchosen]
  simp [chosenArrow]

theorem startSigns_sign {signs : Table SignDefn} {g : Sign} (hget : (startSigns signs).get i = some g) :
    g.condition = .unknown ∧ g.echo = none ∧ (g.defn.sources ≠ [] → g.display = ⟨0, .full, none, .none, 0⟩) := by
  obtain ⟨d, -, rfl⟩ := Table.exists_of_get_map hget
  exact ⟨rfl, rfl, displayOf_startView⟩

theorem Counts.eq_of_get {a b : Counts} (h : ∀ st, a.get st = b.get st) : a = b := by
  obtain ⟨free, occupied, unknown, outOfService⟩ := a
  obtain rfl : free = b.free := h .free
  obtain rfl : occupied = b.occupied := h .occupied
  obtain rfl : unknown = b.unknown := h .unknown
  obtain rfl : outOfService = b.outOfService := h .outOfService
  rfl

/-- Every bay of a start is UNKNOWN (R94). -/
theorem startCounts_eq (bays : Table BayDefn) (z : Nat) (cls : BayClass) :
    (((startCounts (startBays bays)).get z).getD noCounts).get cls
      = ⟨0, 0, (bays.filter fun e => e.2.zone = z ∧ e.2.cls = cls).length, 0⟩ := by
  have tally (st : BayState) : bayTally (startBays bays) z cls st
      = if st = .unknown then (bays.filter fun e => e.2.zone = z ∧ e.2.cls = cls).length else 0 := by
    unfold bayTally startBays Table.map
    rw [List.filter_map, List.length_map]
    split
    · rename_i hst
      congr 1
      refine List.filter_congr fun e _ => ?_
      simp [hst]
    · rename_i hst
      rw [List.length_eq_zero_iff, List.filter_eq_nil_iff]
      intro e _
      simp [Ne.symm hst]
  refine Counts.eq_of_get fun st => ((startCounts_exact bays z cls st).trans (tally st)).trans ?_
  cases st <;> rfl

/-- With no figure and no traffic the demand of a zone is the greater of the fallback and the floor (R40). -/
theorem Zone.new_recompute_demand (d : ZoneDefn) (floor fallback : Nat) (unventilated : Bool) :
    ((Zone.new d floor unventilated).recompute fallback).demand = max fallback floor := by
  have htraffic : trafficTermOf 0 d.weight = 0 := by
    unfold trafficTermOf
    omega
  show max fallback (max fallback (max (trafficTermOf 0 d.weight) (max 0 floor))) = max fallback floor
  rw [htraffic]
  omega

end

end Sys2Proof.Machine
end

