-- ==== Sys2Proof/Proofs/SaveAndStart.lean ====
section
/-! SUPPORT. SAVE, its completion, and the settings, the port and the run state that a start leaves (R177, R180, R181,
R183, R184). -/

namespace Sys2Proof.Machine

/-! ### What the engine and the transmitter make of the port (R168) -/

theorem State.choose_of_noWork {s : State} (h : s.engineWork = false) (fuel : Nat) : s.choose fuel = s := by
  cases fuel with
  | zero => rfl
  | succ fuel => exact if_neg (by simp [h])

/-- After an event the transmitter acts on a state that differs in what the engine changes alone. -/
theorem settle_eq_transmit (s : State) : ∃ t, settle s = t.transmit ∧ Calm s t ∧ Steady s t := by
  unfold settle
  split
  · exact ⟨_, rfl, (Calm.refl s).choose, (Steady.refl s).choose⟩
  · exact ⟨_, rfl, .refl s, .refl s⟩

theorem settle_store (s : State) : (settle s).store = s.store := by
  obtain ⟨t, ht, calm, -⟩ := settle_eq_transmit s
  obtain ⟨p, hp⟩ := t.transmit_port
  rw [ht, hp]
  exact calm.store

theorem settle_handed (s : State) : (settle s).handed = s.handed := by
  obtain ⟨t, ht, calm, -⟩ := settle_eq_transmit s
  obtain ⟨p, hp⟩ := t.transmit_port
  rw [ht, hp]
  exact calm.handed

theorem settle_clockMs (s : State) : (settle s).clockMs = s.clockMs := by
  obtain ⟨t, ht, calm, -⟩ := settle_eq_transmit s
  obtain ⟨p, hp⟩ := t.transmit_port
  rw [ht, hp]
  exact calm.clockMs

/-- Where no entry is retiring, the engine leaves the settings. -/
theorem settings_of_calm {s t : State} (calm : Calm s t) (steady : Steady s t) (k : NoneRetiring s.loops) :
    t.settings = s.settings := by
  unfold State.settings
  rw [calm.gas, calm.air, calm.fans, calm.occ, calm.guide, calm.store, steady.memory, steady.groups, (steady.nodes k).2]

theorem State.handAll_settings (s : State) (es : List Instr) : (s.handAll es).settings = s.settings := rfl

theorem State.withPort_settings (s : State) (f : Port → Port) : (s.withPort f).settings = s.settings := rfl

theorem State.transmit_settings (s : State) : s.transmit.settings = s.settings := by
  obtain ⟨p, hp⟩ := s.transmit_port
  rw [hp]
  rfl

theorem settle_settings {s : State} (k : NoneRetiring s.loops) : (settle s).settings = s.settings := by
  obtain ⟨t, ht, calm, steady⟩ := settle_eq_transmit s
  rw [ht, State.transmit_settings, settings_of_calm calm steady k]

/-- After a reply the line is busy. -/
theorem settle_reply_sending (s : State) (f : Frame) : (settle (s.reply f)).port.sending ≠ none := by
  obtain ⟨t, ht, -, steady⟩ := settle_eq_transmit (s.reply f)
  obtain ⟨added, hport⟩ := steady.port
  rw [ht]
  by_cases hfree : t.port.sending = none
  · cases hreplies : t.port.replies with
    | nil => simp [hport] at hreplies
    | cons g rest => simp [State.transmit_of_reply hfree hreplies]
  · rwa [State.transmit_of_busy hfree]

/-- While the line is busy a mark stays in the note set. -/
theorem mem_notes_settle {s : State} {x : Subject} (hbusy : s.port.sending ≠ none) (hx : x ∈ s.port.notes) :
    x ∈ (settle s).port.notes := by
  obtain ⟨t, ht, -, steady⟩ := settle_eq_transmit s
  obtain ⟨added, hport⟩ := steady.port
  rw [ht, State.transmit_of_busy (by rwa [hport]), hport]
  exact List.mem_append_left _ hx

/-- NOTE-START at site clock 0 (R170). -/
theorem State.startFrame_of_start {s : State} (hc : s.clockMs = 0) (hl : s.port.link = .supervised) :
    s.startFrame
      = { kind := 0x90, tag := 0, newRate := none
          body :=
            startNoteBody (startCauseCode s.port.startCause) s.port.storeInvalid (accessCode s.port.access) } := by
  unfold State.startFrame State.now
  rw [hc, hl]
  cases s.port.storeInvalid <;> rfl

/-! ### The course of a start (R183, R184) -/

theorem State.setListState_light (s : State) (x : ListState) : (s.setListState x).light = s.light := by
  unfold State.setListState
  dsimp only
  split
  · rw [State.mark_light, State.withList_light]
  · rw [State.withList_light]

/-- The list reaches an entry without touching a group. -/
theorem State.reach_light (fuel : Nat) (s : State) : (s.reach fuel).light = s.light := by
  induction fuel generalizing s with
  | zero => rfl
  | succ fuel ih =>
    unfold State.reach
    split
    · rfl
    · rfl
    · rw [State.setListState_light, State.withList_light]
    · dsimp only
      split
      · unfold State.faultList
        rw [State.setListState_light, State.withList_light, State.withList_light]
      · rw [ih, State.withList_light, State.withList_light]
    · rw [State.setListState_light, State.withList_light]

theorem State.autoStart_light (s : State) : s.autoStart.light = s.light := by
  unfold State.autoStart State.reachAt
  split
  · rw [State.reach_light, State.withList_light, State.setListState_light]
  · rfl

theorem State.sample_light (s : State) (l : LoopId) : (s.sample l).light = s.light := by
  unfold State.sample
  dsimp only
  split <;> rfl

theorem State.sampleAll_light (s : State) : s.sampleAll.light = s.light :=
  foldl_field State.light _ State.sample_light _ _

theorem Steady.sample {s t : State} {l : LoopId} (h : Steady s t) : Steady s (t.sample l) := by
  unfold State.sample
  dsimp only
  split
  · exact h.setLine
  · exact h

theorem Steady.foldl {α : Type} {s t : State} {f : State → α → State} (hf : ∀ t a, Steady s t → Steady s (f t a))
    (h : Steady s t) (l : List α) : Steady s (l.foldl f t) := by
  induction l generalizing t with
  | nil => exact h
  | cons a l ih => exact ih (hf t a h)

theorem Steady.autoStart {s t : State} (h : Steady s t) : Steady s t.autoStart := by
  unfold State.autoStart
  split
  · exact Steady.reach (Steady.withList h.setListState)
  · exact h

section
variable (s : State) (cause : StartCause) (lines : PerLoop Bool)

theorem State.begun_calm : Calm (s.blocks cause lines) (s.sampled cause lines).autoStart :=
  (s.sampled_calm cause lines).autoStart

theorem State.begun_steady : Steady (s.blocks cause lines) (s.sampled cause lines).autoStart :=
  (Steady.foldl (fun _ _ h => h.sample) (Steady.foldl (fun _ _ h => h.post) (.refl _) _) _).autoStart

theorem State.start_clockMs : (s.start cause lines).clockMs = 0 := by
  rw [State.start_eq, State.handAll_clockMs, State.withPort_clockMs, (s.begun_calm cause lines).clockMs]
  rfl

theorem State.start_store :
    (s.start cause lines).store
      = { items := s.loaded.1.items, image := s.store.image, snapshot := none, saveState := .none
          saveStamp := 0 } := by
  rw [State.start_eq, State.handAll_store, State.withPort_store, (s.begun_calm cause lines).store]
  rfl

theorem State.start_loops : (s.start cause lines).loops = (s.sampled cause lines).autoStart.loops := by
  rw [State.start_eq, State.handAll_loops, State.withPort_loops]

theorem State.start_settings : (s.start cause lines).settings = (s.sampled cause lines).autoStart.settings := by
  rw [State.start_eq, State.handAll_settings, State.withPort_settings]

theorem State.start_light : (s.start cause lines).light = (s.blocks cause lines).light := by
  rw [State.start_eq, State.handAll_light, State.withPort_light, State.autoStart_light, State.sampled,
    State.sampleAll_light, State.postAll_light]

/-- A start notes nothing (R184). -/
theorem State.start_port : (s.start cause lines).port = (s.blocks cause lines).port := by
  obtain ⟨added, hport⟩ := (s.begun_steady cause lines).port
  rw [State.start_eq, State.handAll_port, State.withPort_port, hport]
  rfl

/-- The port after a start: NOTE-START is on the line (R170, log 9). -/
theorem settle_start_port :
    ∃ notes, (settle (s.start cause lines)).port
      = { (s.blocks cause lines).port with
          startNote := false, notes := notes
          sending := some
            { kind := 0x90, tag := 0, newRate := none
              body :=
                startNoteBody (startCauseCode cause) s.loaded.2 (accessCode (accessBase s.loaded.1.items)) } } := by
  obtain ⟨t, ht, calm, steady⟩ := settle_eq_transmit (s.start cause lines)
  obtain ⟨added, hport⟩ := steady.port
  have hclock : t.clockMs = 0 := calm.clockMs.trans (s.start_clockMs cause lines)
  rw [State.start_port] at hport
  have hlink : t.port.link = .supervised := by rw [hport]; rfl
  rw [ht, State.transmit_of_startNote (by rw [hport]; rfl) (by rw [hport]; rfl) (by rw [hport]; rfl),
    State.withPort_port, State.startFrame_of_start hclock hlink, hport]
  exact ⟨_, rfl⟩

/-- NOTE-START's body tells the cause, whether the store was invalid, and the level (R170). -/
theorem startNote_frame (cause : StartCause) (invalid : Bool) (access : Access) :
    ({ kind := 0x90, tag := 0, newRate := none
       body := startNoteBody (startCauseCode cause) invalid (accessCode access) } : Frame)
      = { kind := 0x90, tag := 0, newRate := none
          body :=
            [0, 0, 0, 0, (match cause with | .powerOn => 0 | .restart => 1), (if invalid then 1 else 0), 0,
              (match access with | .view => 0 | .operator => 1 | .installer => 2)] } := by
  cases cause <;> cases access <;> rfl

theorem Table.map_id {α : Type} {t : Table α} {f : Nat → α → α} (h : ∀ i x, f i x = x) : t.map f = t :=
  (List.map_congr_left fun e _ => congrArg (e.1, ·) (h e.1 e.2)).trans (List.map_id t)

/-- A start takes up the settings it loads. -/
theorem State.blocks_settings : (s.blocks cause lines).settings = s.startSettings cause := by
  have hdefn {α β : Type} {t : Table α} {f : Nat → α → β} {g : Nat → β → α} (h : ∀ i x, g i (f i x) = x) :
      (t.map f).map g = t := (Table.map_map f g).trans (Table.map_id h)
  unfold State.blocks
  generalize s.startSettings cause = c
  obtain ⟨zones, hzones⟩ := startBlocks_zones c cause s.loaded.2 lines s.store.image s.pending
  unfold State.settings
  rw [hzones]
  unfold startBlocks startGas startZones startFans startBays startRamps startSigns startGroups startLoops startNodes
  dsimp only
  rw [hdefn fun _ _ => rfl, hdefn fun _ _ => rfl, hdefn fun _ _ => rfl, hdefn fun _ _ => rfl, hdefn fun _ _ => rfl,
    hdefn fun _ _ => rfl, hdefn fun _ _ => rfl, hdefn fun _ _ => rfl]
  rfl

theorem State.blocks_noneRetiring (w : Table.wf s.loaded.1.nodes = true) :
    NoneRetiring (s.blocks cause lines).loops := by
  refine ⟨startNodes_wf w, fun i x hget => ?_⟩
  change (startNodes s.loaded.1.nodes).get i = some x at hget
  obtain ⟨d, -, rfl⟩ := Table.exists_of_get_map hget
  rfl

/-- The settings stand through the posts of a start and the engine's first choices. -/
theorem settle_start_settings (w : Table.wf s.loaded.1.nodes = true) :
    (settle (s.start cause lines)).settings = s.startSettings cause := by
  have k := s.blocks_noneRetiring cause lines w
  have hbegun : NoneRetiring (s.start cause lines).loops := by
    rw [State.start_loops]
    exact ((s.begun_steady cause lines).nodes k).1
  rw [settle_settings hbegun, State.start_settings,
    settings_of_calm (s.begun_calm cause lines) (s.begun_steady cause lines) k, State.blocks_settings]

end

/-! ### The blocks of a start -/

/-- The six blocks of records are those of another state. -/
structure SameBlocks (s t : State) : Prop where
  gas : t.gas = s.gas
  air : t.air = s.air
  fans : t.fans = s.fans
  occ : t.occ = s.occ
  guide : t.guide = s.guide
  light : t.light = s.light

theorem State.start_sameBlocks (s : State) (cause : StartCause) (lines : PerLoop Bool) :
    SameBlocks (s.blocks cause lines) (s.start cause lines) := by
  obtain ⟨-, -, -, hgas, hair, hfans, hocc, hguide, -⟩ := s.begun_calm cause lines
  refine ⟨?_, ?_, ?_, ?_, ?_, s.start_light cause lines⟩
  · rw [State.start_eq, State.handAll_gas, State.withPort_gas, hgas]
  · rw [State.start_eq, State.handAll_air, State.withPort_air, hair]
  · rw [State.start_eq, State.handAll_fans, State.withPort_fans, hfans]
  · rw [State.start_eq, State.handAll_occ, State.withPort_occ, hocc]
  · rw [State.start_eq, State.handAll_guide, State.withPort_guide, hguide]

section
variable {c : Settings} {cause : StartCause} {invalid : Bool} {lines : PerLoop Bool} {image : StoredImage}
  {pending : List Instr} {t : State} (h : SameBlocks (startBlocks c cause invalid lines image pending) t) {i : Nat}
include h

theorem SameBlocks.start_fan : t.fan i = (startFans c.fans).get i := by
  unfold State.fan
  rw [h.fans]
  rfl

theorem SameBlocks.start_zoneFans :
    t.zoneFans i = (c.zones.get i).map fun _ => startZoneFans (startFans c.fans) c.plans c.basePlan i := by
  have hzones : (startBlocks c cause invalid lines image pending).fans.zones
      = c.zones.map fun z _ => startZoneFans (startFans c.fans) c.plans c.basePlan z := rfl
  unfold State.zoneFans
  rw [h.fans, hzones, Table.get_map]

/-- A zone of a start is a new zone at the OPEN floor, with its fans' finding (R40, log 28). -/
theorem SameBlocks.start_zone {z : Zone} (hz : t.zone i = some z) :
    ∃ d x, t.zoneFans i = some x ∧ x = startZoneFans (startFans c.fans) c.plans c.basePlan i
      ∧ z = (Zone.new d c.items.openFloor x.unventilated).recompute c.items.fallback := by
  obtain ⟨found, hzones, hfound⟩ : ∃ found : Nat → Bool,
      (startBlocks c cause invalid lines image pending).air.zones = startZones c.zones c.items found
        ∧ ∀ x, t.zoneFans i = some x → found i = x.unventilated := by
    unfold State.zoneFans
    rw [h.fans]
    unfold startBlocks
    dsimp only
    exact ⟨_, rfl, fun x hx => by rw [hx]⟩
  unfold State.zone at hz
  rw [h.air, hzones] at hz
  unfold startZones at hz
  obtain ⟨d, hd, rfl⟩ := Table.exists_of_get_map hz
  have hx := h.start_zoneFans (i := i)
  rw [hd] at hx
  exact ⟨d, _, hx, rfl, by rw [hfound _ hx]; rfl⟩

/-- A zone begins without view, figure, alarm, traffic or closure, and its fans are ranked and counted (R40, R49,
R51). -/
theorem SameBlocks.start_zone_begins (w : Table.wf c.fans = true) {z : Zone} (hz : t.zone i = some z) :
    z.view = [] ∧ z.coFigure = none ∧ z.no2Figure = none ∧ z.coAlarm = false ∧ z.no2Alarm = false
      ∧ z.ring = [0, 0, 0, 0, 0, 0] ∧ z.standing = [] ∧ z.hostClosed = false
      ∧ z.demand = max c.items.fallback c.items.openFloor
      ∧ ∃ x, t.zoneFans i = some x ∧ x.steps = 0 ∧ z.unventilated = x.unventilated
        ∧ x.available
          = (c.fans.filter fun e =>
              e.2.defn.zone = i ∧ (c.plans.getD c.basePlan []).getD e.1 .forward ≠ .idle).length
        ∧ x.unventilated = (x.available == 0)
        ∧ x.duty.Pairwise (fun a b => ∃ f g, t.fan a = some f ∧ t.fan b = some g
            ∧ (f.runMinutes < g.runMinutes ∨ (f.runMinutes = g.runMinutes ∧ a < b)))
        ∧ ∀ j, j ∈ x.duty ↔ ∃ f, t.fan j = some f ∧ f.defn.zone = i := by
  obtain ⟨d, x, hx, rfl, rfl⟩ := h.start_zone hz
  have hfan : t.fan = (startFans c.fans).get := funext fun _ => h.start_fan
  rw [hfan]
  exact ⟨rfl, rfl, rfl, rfl, rfl, rfl, rfl, rfl, Zone.new_recompute_demand _ _ _ _, _, hx, rfl, rfl,
    startZoneFans_available _ _ _ _, rfl, startZoneFans_duty_pairwise _ _ _ (startFans_wf w),
    fun _ => mem_startZoneFans_duty _ _ _ (startFans_wf w)⟩

end

/-! ### SAVE and its completion (R177, R180) -/

theorem StoredImage.contents_imageOf (c : Settings) : (imageOf c).contents = some c := if_pos rfl

theorem ownSave_of_busy {s : State} (h : s.store.saveState = .inProgress) : ownSave () s = .error .busy :=
  refuseIf_of_true (by rw [h]; rfl)

theorem ownSave_of_free {s : State} (h : s.store.saveState ≠ .inProgress) :
    ownSave () s
      = accept false
          { s with
            store :=
              { s.store with
                image := .spoiled, snapshot := some s.settings, saveState := .inProgress, saveStamp := s.now } } :=
  refuseIf_of_false (beq_eq_false_iff_ne.mpr h)

theorem effSaveCompletion_of_snapshot {s : State} {c : Settings} (h : s.store.saveState = .inProgress)
    (hc : s.store.snapshot = some c) (readBack : Bool) :
    effSaveCompletion readBack s
      = ({ s with
          store :=
            { s.store with
              image := if readBack then imageOf c else .spoiled
              snapshot := none, saveState := if readBack then .complete else .failed
              saveStamp := s.now } } : State).mark .site := by
  unfold effSaveCompletion
  rw [h, hc]

theorem effSaveCompletion_of_none {s : State} (h : s.store.saveState ≠ .inProgress) (readBack : Bool) :
    effSaveCompletion readBack s = s := by
  unfold effSaveCompletion
  split
  · contradiction
  · rfl

theorem exec_saveCompletion {s t : State} {readBack : Bool} (hcalm : s.handed = [])
    (h : effSaveCompletion readBack s = t) : exec (.saveCompletion readBack) s = .next (settle t) :=
  (exec_of_calm hcalm).trans (congrArg (fun u => Host.Outcome.next (settle u)) h)

theorem State.framePassed_settings (s : State) : s.framePassed.settings = s.settings := by
  unfold State.settings
  simp

theorem State.startSettings_powerOn (s : State) : s.startSettings .powerOn = s.loaded.1 := by
  have hfans : (s.loaded.1.fans.map fun i x => s.startMinutes .powerOn i x) = s.loaded.1.fans :=
    Table.map_id fun _ _ => rfl
  unfold State.startSettings
  rw [hfans]

theorem State.loaded_of_contents {s : State} {c : Settings} (h : s.store.image.contents = some c) :
    s.loaded = (c, false) := by
  unfold State.loaded
  rw [h]

theorem State.loaded_of_spoiled {s : State} (h : s.store.image.contents = none) :
    s.loaded = (Settings.factory, true) := by
  unfold State.loaded
  rw [h]

/-- The completion of a SAVE whose image read back, while the line is busy, and a POWER-ON bring the snapshot back. -/
theorem snapshot_comes_back {s : State} {c : Settings} (hcalm : s.handed = []) (hbusy : s.port.sending ≠ none)
    (hsave : s.store.saveState = .inProgress) (hc : s.store.snapshot = some c) (k : SettingsSound c)
    (lines : PerLoop Bool) :
    ∃ t u, exec (.saveCompletion true) s = .next t ∧ t.store.saveState = .complete ∧ Subject.site ∈ t.port.notes
      ∧ exec (.powerOn lines) t = .next u ∧ u.settings = c ∧ u.port.storeInvalid = false := by
  have heff := effSaveCompletion_of_snapshot hsave hc true
  have hstore : (settle (effSaveCompletion true s)).store
      = { s.store with image := imageOf c, snapshot := none, saveState := .complete, saveStamp := s.now } := by
    rw [settle_store, heff, State.mark_store]
    rfl
  have hloaded : (settle (effSaveCompletion true s)).loaded = (c, false) :=
    State.loaded_of_contents (by rw [hstore]; exact StoredImage.contents_imageOf c)
  obtain ⟨notes, hport⟩ := settle_start_port (settle (effSaveCompletion true s)) .powerOn lines
  refine ⟨settle (effSaveCompletion true s), settle (State.start .powerOn lines (settle (effSaveCompletion true s))),
    exec_of_calm hcalm, by rw [hstore], mem_notes_settle ?busy ?marked, exec_of_start rfl _, ?settings, ?valid⟩
  case busy =>
    rw [heff, State.mark_port_sending]
    exact hbusy
  case marked =>
    rw [heff]
    exact State.mem_notes_mark _ _
  case settings =>
    refine (settle_start_settings _ _ _ (by rw [hloaded]; exact k.nodes)).trans ?_
    rw [State.startSettings_powerOn, hloaded]
  case valid =>
    refine (congrArg Port.storeInvalid hport).trans ?_
    show (settle (effSaveCompletion true s)).loaded.2 = false
    rw [hloaded]

/-- Settles O52: SAVE and its completion case by case, and for each start what it loads, sends and begins with. -/
theorem savedSettingsComeBack : Obligations.SavedSettingsComeBack := by
  refine fun s => ⟨fun tag hadm => ?save, fun hcalm readBack => ⟨fun c hsave hc => ?completes, fun hsave => ?nothing⟩,
    fun hsaved lines => ?start⟩
  case save =>
    refine ⟨fun hsave => exec_turnedAway rfl hadm rfl rfl (ownSave_of_busy (by rwa [State.framePassed_store])),
      fun hsave => ?_⟩
    intro saved
    have hexec : exec (.save tag []) s = .next saved := by
      refine (exec_done rfl hadm rfl rfl (ownSave_of_free (by rwa [State.framePassed_store]))).trans ?_
      rw [State.framePassed_store, State.framePassed_settings, State.framePassed_now]
    refine ⟨hexec, fun hsound lines => ?_⟩
    have hstore : saved.store
        = { s.store with
            image := .spoiled, snapshot := some s.settings, saveState := .inProgress, saveStamp := s.now } :=
      settle_store _
    refine snapshot_comes_back ?_ (settle_reply_sending _ _) (congrArg Store.saveState hstore)
      (congrArg Store.snapshot hstore) hsound.settings lines
    exact (settle_handed _).trans ((State.framePassed_handed s).trans hadm.handed)
  case completes => exact exec_saveCompletion hcalm (effSaveCompletion_of_snapshot hsave hc readBack)
  case nothing => exact exec_saveCompletion hcalm (effSaveCompletion_of_none hsave readBack)
  case start =>
    intro loaded channel portStarts blocksStart started
    have hloaded : loaded = s.store.image.contents := by
      unfold StoredImage.contents
      cases h : s.store.image with
      | spoiled => simp [loaded, h]
      | written d crc => simp [loaded, h]
    have begins {start : Instr} {cause : StartCause} {c d : Settings} {invalid : Bool}
        (heff : effect start s = s.start cause lines) (hstart : isStart start = true) (hd : s.loaded = (d, invalid))
        (hc : s.startSettings cause = c) : started start cause c invalid := by
      have k : SettingsSound s.loaded.1 := State.loaded_sound hsaved
      have kc : SettingsSound c := hc ▸ k.minutes _ fun i x => State.startMinutes_defn cause i x
      have hitems : c.items = d.items := by rw [← hc, State.startSettings, hd]
      have hblocks := s.start_sameBlocks cause lines
      rw [State.blocks, hc] at hblocks
      refine ⟨s.start cause lines, (exec_of_start hstart s).trans (by rw [heff]),
        (settle_start_settings s cause lines k.nodes).trans hc, (settle_clockMs _).trans (s.start_clockMs cause lines),
        (settle_pending _).trans (State.start_pending cause lines), ?image, ?saveState, ?port, ?blocks⟩
      case image | saveState => rw [settle_store, State.start_store]
      case port =>
        obtain ⟨notes, hport⟩ := settle_start_port s cause lines
        unfold portStarts
        rw [hport, State.blocks, hc, hd]
        refine ⟨rfl, rfl, rfl, rfl, rfl, rfl, rfl, rfl, rfl, ?_⟩
        rw [← hitems]
        exact congrArg some (startNote_frame cause invalid (accessBase c.items))
      case blocks =>
        refine ⟨fun i h hget => ?heads, ?order, ?window, fun i z hz => ?zone, ?queue, ?account, ?grant, ?forced,
          ?active, ?source, fun i f hget => ?fan, fun i b hget => ?bay, fun z cls => ?counts, fun i p hget => ?ramp, ?view,
          fun i g hget => ?sign, ?mode, ?alarms, fun i g hget => ?group⟩
        case heads =>
          rw [hblocks.gas] at hget
          exact startGas_head hget
        case zone => exact hblocks.start_zone_begins kc.fans hz
        case fan =>
          rw [hblocks.start_fan] at hget
          obtain ⟨x, rfl⟩ := startFans_fan hget
          exact ⟨rfl, rfl, rfl, rfl, rfl, rfl, rfl, rfl, rfl, rfl, rfl, rfl, rfl⟩
        case bay =>
          rw [hblocks.occ] at hget
          exact startBays_bay hget
        case ramp =>
          rw [hblocks.occ] at hget
          exact startRamps_ramp hget
        case sign =>
          rw [hblocks.guide] at hget
          exact startSigns_sign hget
        case group =>
          rw [hblocks.light] at hget
          exact startGroups_group hget
        case counts =>
          unfold State.counts
          rw [hblocks.occ]
          exact startCounts_eq c.bays z cls
        case order | window => rw [hblocks.air]; rfl
        case queue | account | grant | forced | active | source => rw [hblocks.fans]; rfl
        case view => rw [hblocks.guide]; rfl
        case mode | alarms => rw [hblocks.light]; rfl
    refine ⟨fun c hc => ?loads, fun hnone => ?factory⟩
    case loads =>
      have hd : s.loaded = (c, false) := State.loaded_of_contents (hloaded ▸ hc)
      refine ⟨begins rfl rfl hd ?_, begins rfl rfl hd ?_⟩
      · rw [State.startSettings_powerOn, hd]
      · rw [State.startSettings, hd]
        rfl
    case factory =>
      have hd : s.loaded = (Settings.factory, true) := State.loaded_of_spoiled (hloaded ▸ hnone)
      refine ⟨begins rfl rfl hd ?_, begins rfl rfl hd ?_⟩
      · rw [State.startSettings_powerOn, hd]
      · rw [State.startSettings, hd]
        rfl

/-! ### Reset (R183, R184) -/

/-- What a start makes of the part when there is no stored image and no line is asserted. -/
theorem State.start_of_spoiled {s : State} (h : s.store.image = .spoiled) :
    s.start .powerOn ⟨false, false, false, false⟩
      = { State.reset with
          pending := s.pending
          port := { State.reset.port with sending := none, startNote := true } } := by
  have hloaded : s.loaded = (Settings.factory, true) := State.loaded_of_spoiled (by rw [h]; rfl)
  unfold State.start
  rw [hloaded, h]
  rfl

/-- The engine finds nothing to do after such a start, and NOTE-START goes out (log 9). -/
theorem settle_start_of_spoiled {s : State} (h : s.store.image = .spoiled) :
    settle (s.start .powerOn ⟨false, false, false, false⟩) = { State.reset with pending := s.pending } := by
  rw [State.start_of_spoiled h]
  unfold settle
  rw [State.choose_of_noWork rfl, ite_self, State.transmit_of_startNote rfl rfl rfl, State.startFrame_of_start rfl rfl]
  rfl

/-- Settles O59: reset is a POWER-ON over a store never written, and a start from such a store is sound. -/
theorem resetIsTheFactoryPowerOn : Obligations.ResetIsTheFactoryPowerOn := by
  refine ⟨?sound, fun s h => (exec_of_start rfl s).trans (congrArg _ (settle_start_of_spoiled h))⟩
  case sound =>
    have hsaved : SavedSound State.reset.store := ⟨fun _ h => (nomatch h), fun _ h => (nomatch h)⟩
    have hreset : settle (State.reset.start .powerOn ⟨false, false, false, false⟩) = State.reset :=
      settle_start_of_spoiled rfl
    exact hreset ▸ settle_sound (State.start_sound hsaved _ _)

end Sys2Proof.Machine
end

