-- ==== Sys2Proof/Proofs/Defaults.lean ====
section
/-! SUPPORT. DEFAULTS over a fan table that holds a number twice (R75, R145, R182). Such a state is not sound, as the fan
table is out of its canonical form (SupplySound.table); O54 asks the form of the node table alone. -/

namespace Sys2Proof.Machine

/-- While handed events wait, neither the engine nor the transmitter touches the Loop Master (R136, R168). -/
theorem settle_loops_of_handed {s : State} (h : s.handed ≠ []) : (settle s).loops = s.loops := by
  have hwaits : ¬ s.handed.isEmpty = true := mt List.isEmpty_iff.mp h
  obtain ⟨p, hp⟩ := s.transmit_port
  unfold settle
  rw [if_neg hwaits, hp]

/-- A fan of zone 0 on a node of loop A. -/
def fanOnLoopA (addr : Nat) : SavedFan :=
  ⟨{ zone := 0, node := ⟨.a, addr⟩, home := .forward, startLoad := 1, lowLoad := 1, highLoad := 1, rundown := 0
     policy := .hold }, 0⟩

/-- Two records of fan 0, both in RUNDOWN, on nodes A1 and A2; A2 has an entry, and a gas head of zone 0 is defined. -/
def fanTwice : State :=
  { State.reset with
    gas := startGas [(0, { zone := 0, node := ⟨.a, 3⟩, exponent := 0, co := .neutral, no2 := .neutral })]
    fans := { State.reset.fans with fans := startFans [(0, fanOnLoopA 1), (0, fanOnLoopA 2)] }
    loops := { State.reset.loops with nodes := startNodes [(1, ⟨.fan, []⟩)] } }

theorem fanTwice_nodesSound : NodesSound fanTwice.loops := by
  refine ⟨rfl, fun i x hget => ?_⟩
  have hi : i = 1 := congrArg Prod.fst (List.mem_singleton.mp (Table.mem_of_get hget))
  rw [hi]
  decide

/-- The second record of fan 0 is never reached, so its node is not posted and its entry goes. -/
theorem defaults_fanTwice :
    (effect (.defaults 0 []) fanTwice).loops.nodes = []
      ∧ (effect (.defaults 0 []) fanTwice).handed = [.gasUpdate 0 ⟨0, none⟩ []] := by
  decide +kernel

/-- Where a state that DEFAULTS could leave answers as the one it leaves, it holds no entry either: the gas update still
waits, so the engine has not chosen. -/
theorem nodes_of_settle_eq {u : State} {f : Frame}
    (h : settle (effect (.defaults 0 []) fanTwice) = settle (u.reply f)) : u.loops.nodes = [] := by
  obtain ⟨hgone, hupdate⟩ := defaults_fanTwice
  have hwaits : (effect (.defaults 0 []) fanTwice).handed ≠ [] := by rw [hupdate]; decide
  have hhanded : (u.reply f).handed ≠ [] := by
    rwa [← settle_handed (u.reply f), ← h, settle_handed]
  have hloops : (u.reply f).loops = (effect (.defaults 0 []) fanTwice).loops := by
    rw [← settle_loops_of_handed hhanded, ← h, settle_loops_of_handed hwaits]
  exact (congrArg LoopMaster.nodes hloops).trans hgone

/-- Refutes O54: of two records of one fan number, both in RUNDOWN, DEFAULTS stops and posts the first alone, so the
entry of the second one's node is deleted and does not stay as a retiring one. -/
theorem not_defaultsGivesTheFactorySettings : ¬ Obligations.DefaultsGivesTheFactorySettings := by
  intro h
  obtain ⟨u, hexec, -, -, -, -, -, -, -, -, -, -, -, -, -, -, -, -, -, -, -, -, -, -, hnodes, -, -⟩ :=
    h fanTwice 0 ⟨rfl, by decide, by decide⟩
  rw [exec_of_calm rfl, Host.Outcome.next.injEq] at hexec
  obtain ⟨-, hentry⟩ := hnodes fanTwice_nodesSound 1
  obtain ⟨-, hstays⟩ := hentry (Node.new ⟨.fan, []⟩) rfl
  have hposted : nodeAt 1 ∈ List.map (fun e : Nat × Fan => e.2.defn.node)
      (fanTwice.fans.fans.filter fun e => e.2.state ≠ .off) := by decide
  obtain ⟨y, hy, -⟩ := hstays (.inr (.inr (List.mem_append_left _ (List.mem_append_left _ hposted))))
    fun hlost => Bool.noConfusion hlost.2
  rw [nodes_of_settle_eq hexec] at hy
  cases hy

end Sys2Proof.Machine
end
